-- ==== Sys2Proof/Word.lean ====
section
/-! DEFINITION. The word types of the model (R2, R43). -/

namespace Sys2Proof

/-- A byte of memory. -/
abbrev Byte := BitVec 8
/-- A 32-bit register value. -/
abbrev W32 := BitVec 32
/-- A 64-bit register value or address. -/
abbrev W64 := BitVec 64
/-- An instruction word or a tile header. -/
abbrev W128 := BitVec 128
/-- A set of lanes: bit L stands for lane L (R322). -/
abbrev Mask := BitVec 32

end Sys2Proof
end

