-- ==== Sys2Proof/Config.lean ====
section
/-! DEFINITION. What one device or one module fixes and the spec leaves open: constants with no body, so that a claim
holds whatever they are. Each is named in the assumption log. -/

namespace Sys2Proof.Config

/-- The physical core that a die's binding table gives core k of the die, from the fuses (R13). -/
opaque boundCore : Nat → Nat → Nat
/-- The Ethernet MAC address of a port, from the fuses (R377). -/
opaque mac : Nat → BitVec 48
/-- The offset of the next capability in the function's configuration space (R464). -/
opaque nextCapability : BitVec 12
/-- Whether a full-mode special function (OP index, TYPE, source bits) gives the upper of its two neighbours (R130). -/
opaque faithfulUp : Nat → Nat → BitVec 32 → Bool
/-- The value an `lp` special function (OP index, TYPE, source bits A and B) offers, before the bound of R132. -/
opaque lpValue : Nat → Nat → BitVec 32 → BitVec 32 → BitVec 32
/-- The hash that spreads lines over the L2 slices, and over the memory channels, of their home die (R211). -/
opaque homeSlice : Nat → Nat
opaque homeChannel : Nat → Nat
/-- The T (0), U (1) or V (2) that the traversal unit offers for a ray and a triangle, before the bound of R432. -/
opaque traceValue : Nat → Nat → BitVec 32
/-- Whether a triangle whose edge functions are positive is a back face of the traversal unit (R432). -/
opaque backFacePositive : Bool
/-- Whether this module is the near side of a split graph, and whether an edge's bit is set in the cut that the graph is
loaded with (R386, R387). -/
opaque nearSide : Nat → Bool
opaque firstCut : Nat → Nat → Bool
/-- Whether a die's memory channels train, and whether the firmware image passes its check, when the outside says nothing
else at start-up (R465). -/
opaque channelsTrain : Nat → Bool
opaque firmwareGood : Bool
/-- Free values that may differ from one use to the next, by the State's counter: a number to be reduced to the range
the spec leaves. -/
opaque free : Nat → Nat

end Sys2Proof.Config
end

