-- ==== Sys2Proof/Syntax.lean ====
section
/-! DEFINITION. The instructions: every row of the opcode table a constructor (R61, and the device's events).
A full-form word carries the fields that R40 and R41 name; what each field means is fixed by the instruction's
entry. An event carries what its unit, the host, the network or the environment brings to it; no word decodes to
an event. -/

namespace Sys2Proof

/-- The fields of a full-form word (R40, R41). In the register form IMM32 is 0; in the immediate form OFF25, REUSE
and STALL are 0. SRCSEL is cut into its three pairs. -/
structure Fields where
  /-- KIND = 0b10 -/
  immForm : Bool
  imm32 : BitVec 32
  off25 : BitVec 25
  reuse : BitVec 4
  stall : BitVec 3
  yield : BitVec 1
  hint : BitVec 4
  gcomb : BitVec 1
  g2 : BitVec 5
  g1 : BitVec 5
  selC : BitVec 2
  selB : BitVec 2
  selA : BitVec 2
  e : BitVec 10
  c : BitVec 10
  b : BitVec 10
  a : BitVec 10
  d : BitVec 10
  mod : BitVec 12
  deriving DecidableEq, Repr

/-- One half of a pair-form word (R57). -/
structure Half where
  imm24 : BitVec 24
  g : BitVec 5
  asel : BitVec 2
  a : BitVec 10
  d : BitVec 10
  hmod : BitVec 5
  hop : BitVec 7
  deriving DecidableEq, Repr

/-- The kind of access a translation serves (R367's ACC, R370). -/
structure PageAcc where
  read : Bool
  write : Bool
  exec : Bool
  /-- a tile reader or writer (R361's UT) -/
  tile : Bool
  deriving DecidableEq, Repr

/-- A Brass packet on a port: the sender's IPv6 address, the MAC address of its frame, whether the outer headers meet R376
(no extension header, good checksum, port 0x5AB0), the fields of its edge header, whose 32 bytes `headerBytes` lays out
(R378), and the packet's body. `spare` holds the header bytes that R378 does not list. -/
structure EdgePacket where
  src : W128
  dst : BitVec 48
  plain : Bool
  ver : Nat
  spare : Nat
  graph : Nat
  edge : Nat
  frame : Nat
  group : Nat
  idx : Nat
  k : Nat
  nrec : Nat
  seq0 : Nat
  fl : BitVec 8
  cseq : Nat
  body : List Byte
  deriving DecidableEq, Repr

/-- An IPv6 Neighbor Discovery message (R377). -/
inductive NdMessage where
  /-- a solicitation for the address -/
  | solicit (target : W128)
  /-- an advertisement that binds an address to a MAC address -/
  | advertise (target : W128) (mac : BitVec 48)
  deriving DecidableEq, Repr

/-- An ND message in its Ethernet frame: the frame's destination and source MAC addresses (R377). -/
structure NdFrame where
  dst : BitVec 48
  src : BitVec 48
  msg : NdMessage
  deriving DecidableEq, Repr

/-- The power measured over one period, in watts: each die, the SRAM layers, the module memory, the X-die and the
module total (R20, R467). -/
structure PowerReading where
  dies : List Nat
  sram : Nat
  memory : Nat
  xdie : Nat
  total : Nat
  deriving DecidableEq, Repr

/-- Where an uncorrectable soft error lies (R469). -/
inductive ErrorSite where
  /-- a line of module memory, or of the caches that hold it -/
  | line (line : Nat)
  /-- a register file or accumulator tile of the team -/
  | team (team : Nat)
  deriving DecidableEq, Repr

/-- The instructions and events of the opcode table; the events that only the outside raises stand last. -/
inductive Instr where
  /-- NOP (R103) -/
  | nop (f : Fields)
  /-- BRA (R104) -/
  | bra (f : Fields)
  /-- BRX (R105) -/
  | brx (f : Fields)
  /-- CALL (R106) -/
  | call (f : Fields)
  /-- CALLX (R106) -/
  | callx (f : Fields)
  /-- RET (R105) -/
  | ret (f : Fields)
  /-- EXIT (R107) -/
  | exit_ (f : Fields)
  /-- YIELD (R108) -/
  | yield (f : Fields)
  /-- BRK (R109) -/
  | brk (f : Fields)
  /-- LOOP (R110) -/
  | loop (f : Fields)
  /-- IADD (R113) -/
  | iadd (f : Fields)
  /-- ISUB (R113) -/
  | isub (f : Fields)
  /-- IMUL (R113) -/
  | imul (f : Fields)
  /-- IMULH (R113) -/
  | imulh (f : Fields)
  /-- IMAD (R113) -/
  | imad (f : Fields)
  /-- IMIN (R113) -/
  | imin (f : Fields)
  /-- IMAX (R113) -/
  | imax (f : Fields)
  /-- IABS (R113) -/
  | iabs (f : Fields)
  /-- INEG (R113) -/
  | ineg (f : Fields)
  /-- AND (R114) -/
  | and_ (f : Fields)
  /-- OR (R114) -/
  | or_ (f : Fields)
  /-- XOR (R114) -/
  | xor_ (f : Fields)
  /-- NOT (R114) -/
  | not_ (f : Fields)
  /-- SHL (R114) -/
  | shl (f : Fields)
  /-- SHR (R114) -/
  | shr (f : Fields)
  /-- SHRA (R114) -/
  | shra (f : Fields)
  /-- ROTL (R114) -/
  | rotl (f : Fields)
  /-- BFX (R115) -/
  | bfx (f : Fields)
  /-- BFI (R115) -/
  | bfi (f : Fields)
  /-- POPC (R114) -/
  | popc (f : Fields)
  /-- CLZ (R114) -/
  | clz (f : Fields)
  /-- BREV (R114) -/
  | brev (f : Fields)
  /-- ICMP (R116) -/
  | icmp (f : Fields)
  /-- SEL (R117) -/
  | sel (f : Fields)
  /-- MOV (R117) -/
  | mov (f : Fields)
  /-- LEA (R117) -/
  | lea (f : Fields)
  /-- IADDC (R118) -/
  | iaddc (f : Fields)
  /-- PLOP (R119) -/
  | plop (f : Fields)
  /-- MOVP_GET (R120) -/
  | movpGet (f : Fields)
  /-- MOVP_SET (R120) -/
  | movpSet (f : Fields)
  /-- HASH (R121) -/
  | hash (f : Fields)
  /-- FADD (R124) -/
  | fadd (f : Fields)
  /-- FSUB (R124) -/
  | fsub (f : Fields)
  /-- FMUL (R124) -/
  | fmul (f : Fields)
  /-- FFMA (R124) -/
  | ffma (f : Fields)
  /-- FMIN (R125) -/
  | fmin (f : Fields)
  /-- FMAX (R125) -/
  | fmax (f : Fields)
  /-- FCMP (R126) -/
  | fcmp (f : Fields)
  /-- FCLASS (R127) -/
  | fclass (f : Fields)
  /-- FRND (R124) -/
  | frnd (f : Fields)
  /-- FSCALE (R124) -/
  | fscale (f : Fields)
  /-- FDOT2 (R124) -/
  | fdot2 (f : Fields)
  /-- FMED3 (R125) -/
  | fmed3 (f : Fields)
  /-- CVT (R89) -/
  | cvt (f : Fields)
  /-- CVTN (R91) -/
  | cvtn (f : Fields)
  /-- CVTW (R93) -/
  | cvtw (f : Fields)
  /-- PACK (R95) -/
  | pack (f : Fields)
  /-- UNPACK (R96) -/
  | unpack (f : Fields)
  /-- SHFL (R139) -/
  | shfl (f : Fields)
  /-- BCAST (R140) -/
  | bcast (f : Fields)
  /-- VOTE (R141) -/
  | vote (f : Fields)
  /-- REDUCE (R142) -/
  | reduce (f : Fields)
  /-- SCAN (R143) -/
  | scan (f : Fields)
  /-- MATCH (R144) -/
  | match_ (f : Fields)
  /-- COMPACT (R145) -/
  | compact (f : Fields)
  /-- RCP (R130) -/
  | rcp (f : Fields)
  /-- RSQ (R130) -/
  | rsq (f : Fields)
  /-- SQRT (R130) -/
  | sqrt (f : Fields)
  /-- EXP2 (R130) -/
  | exp2 (f : Fields)
  /-- LOG2 (R130) -/
  | log2 (f : Fields)
  /-- SIN (R130) -/
  | sin (f : Fields)
  /-- COS (R130) -/
  | cos (f : Fields)
  /-- TANH (R130) -/
  | tanh (f : Fields)
  /-- SIGM (R130) -/
  | sigm (f : Fields)
  /-- FDIV (R130) -/
  | fdiv (f : Fields)
  /-- FUSED_SOFTMAX (R134, R135): the four words W1 to W4 executed as one -/
  | fusedSoftmax (w1 w2 w3 w4 : Fields)
  /-- PAIR_WORD (R60) -/
  | pairWord (x y : Half)
  /-- LD (R154) -/
  | ld (f : Fields)
  /-- ST (R154) -/
  | st (f : Fields)
  /-- LDS (R155) -/
  | lds (f : Fields)
  /-- STS (R155) -/
  | sts (f : Fields)
  /-- LDP (R155) -/
  | ldp (f : Fields)
  /-- STP (R155) -/
  | stp (f : Fields)
  /-- LDC (R156) -/
  | ldc (f : Fields)
  /-- LDG (R157) -/
  | ldg (f : Fields)
  /-- PREF (R158) -/
  | pref (f : Fields)
  /-- FENCE (R159) -/
  | fence (f : Fields)
  /-- CCTL (R160) -/
  | cctl (f : Fields)
  /-- ATOM (R162) -/
  | atom (f : Fields)
  /-- ACAS (R163) -/
  | acas (f : Fields)
  /-- ATOMS (R162) -/
  | atoms (f : Fields)
  /-- LDF (R165) -/
  | ldf (f : Fields)
  /-- STF (R166) -/
  | stf (f : Fields)
  /-- FRESET (R166) -/
  | freset (f : Fields)
  /-- WAITA (R168) -/
  | waita (f : Fields)
  /-- WAITS (R170) -/
  | waits (f : Fields)
  /-- HSET (R198) -/
  | hset (f : Fields)
  /-- HLD (R199) -/
  | hld (f : Fields)
  /-- HST (R199) -/
  | hst (f : Fields)
  /-- HGET (R200) -/
  | hget (f : Fields)
  /-- MMA (R201) -/
  | mma (f : Fields)
  /-- ZLD (R202) -/
  | zld (f : Fields)
  /-- ZST (R203) -/
  | zst (f : Fields)
  /-- ZZERO (R206) -/
  | zzero (f : Fields)
  /-- ZMOV (R206) -/
  | zmov (f : Fields)
  /-- ZRED (R206) -/
  | zred (f : Fields)
  /-- ZSCALE (R206) -/
  | zscale (f : Fields)
  /-- QSCALE (R204) -/
  | qscale (f : Fields)
  /-- CPY (R398) -/
  | cpy (f : Fields)
  /-- CPYT (R402) -/
  | cpyt (f : Fields)
  /-- GTHR (R400) -/
  | gthr (f : Fields)
  /-- SCTR (R400) -/
  | sctr (f : Fields)
  /-- RCON (R417) -/
  | rcon (f : Fields)
  /-- TRACE (R435) -/
  | trace (f : Fields)
  /-- ADRAIN (R403) -/
  | adrain (f : Fields)
  /-- AQRY (R404) -/
  | aqry (f : Fields)
  /-- LAUNCH (R302) -/
  | launch (f : Fields)
  /-- RGET (R307) -/
  | rget (f : Fields)
  /-- REMIT (R307) -/
  | remit (f : Fields)
  /-- RDONE (R307) -/
  | rdone (f : Fields)
  /-- GSIG (R308) -/
  | gsig (f : Fields)
  /-- COVQ_ME (R420) -/
  | covqMe (f : Fields)
  /-- COVQ_PT (R420) -/
  | covqPt (f : Fields)
  /-- TEX1 (R441) -/
  | tex1 (f : Fields)
  /-- TEXF (R442) -/
  | texf (f : Fields)
  /-- TEXQ (R442) -/
  | texq (f : Fields)
  /-- DISCARD (R443) -/
  | discard (f : Fields)
  /-- DEPTHW (R443) -/
  | depthw (f : Fields)
  /-- ATTR (R443) -/
  | attr (f : Fields)
  /-- BAR (R355) -/
  | bar (f : Fields)
  /-- BINIT (R356) -/
  | binit (f : Fields)
  /-- BEXP (R356) -/
  | bexp (f : Fields)
  /-- BARV (R355) -/
  | barv (f : Fields)
  /-- BWAIT (R355) -/
  | bwait (f : Fields)
  /-- JARM (R357) -/
  | jarm (f : Fields)
  /-- JOIN (R357) -/
  | join (f : Fields)
  /-- JDROP (R357) -/
  | jdrop (f : Fields)
  /-- REFORM (R339) -/
  | reform (f : Fields)
  /-- BQRY (R358) -/
  | bqry (f : Fields)
  /-- TRAP (R331) -/
  | trap (f : Fields)
  /-- TRET (R332) -/
  | tret (f : Fields)
  /-- REGION (R327) -/
  | region (f : Fields)
  /-- PYIELD (R334) -/
  | pyield (f : Fields)
  /-- TIMER (R333) -/
  | timer (f : Fields)
  /-- SRD (R324) -/
  | srd (f : Fields)
  /-- SWR (R324) -/
  | swr (f : Fields)
  /-- CSAVE (R270) -/
  | csave (f : Fields)
  /-- CREST_CHK (R270) -/
  | crestChk (f : Fields)
  /-- CREST_GO (R270) -/
  | crestGo (f : Fields)
  /-- HALT (R335) -/
  | halt (f : Fields)
  /-- DEPENDENCE_RESOLVED (R314) -/
  | dependenceResolved (gid : Nat)
  /-- GROUP_PROMOTE (R317) -/
  | groupPromote (gid : Nat)
  /-- TIMER_FIRE (R333) -/
  | timerFire (gid : Nat)
  /-- WAITA_WAKE (R169) -/
  | waitaWake (host : Bool) (line : Nat)
  /-- WAITA_POLL (R169) -/
  | waitaPoll (gid : Nat)
  /-- LOAD_DATA_RETURN (R221) -/
  | loadDataReturn (load : Nat)
  /-- CLOCK_ADVANCE (R213) -/
  | clockAdvance (core : Nat)
  /-- CLOCK_REBASE (R216) -/
  | clockRebase (part : Nat) (base : Nat)
  /-- PORT_PERIOD_BOUNDARY (R220) -/
  | portPeriodBoundary (part : Nat)
  /-- ASYNC_OP_COMPLETE (R392) -/
  | asyncOpComplete (op : Nat)
  /-- GSIG_WRITE (R308) -/
  | gsigWrite (gsig : Nat)
  /-- TILE_FETCH_FAULT (R197) -/
  | tileFetchFault (mma : Nat) (cause : BitVec 8) (va : W64)
  /-- RELAUNCH_WALK (R471) -/
  | relaunchWalk (team : Nat)
  /-- TEAM_TERMINATE (R336) -/
  | teamTerminate (team : Nat) (cause : BitVec 8)
  /-- REFORM_DRAW (R338) -/
  | reformDraw (core bin : Nat)
  /-- PAGE_WALK (R368) -/
  | pageWalk (ctx die : Nat) (va : W64) (acc : PageAcc)
  /-- TR_PRQ_WRITE (R366) -/
  | trPrqWrite (part : Nat) (value : W64)
  /-- TR_INV_GO (R369) -/
  | trInvGo (part : Nat) (value : W64)
  /-- INVALIDATION_COMPLETE (R369) -/
  | invalidationComplete (part : Nat)
  /-- VCP_NOTIFY (R273) -/
  | vcpNotify (page : Nat) (value : W64)
  /-- VCP_ERR_CLEAR (R275) -/
  | vcpErrClear (page : Nat) (value : W64)
  /-- QUEUE_SWAP (R278) -/
  | queueSwap (page q : Nat)
  /-- QUEUE_WAIT_TIMEOUT (R277) -/
  | queueWaitTimeout (page q : Nat)
  /-- QUEUE_WATCHDOG (R279) -/
  | queueWatchdog (page q : Nat)
  /-- WAIT_SIGNAL_WAKE (R279) -/
  | waitSignalWake (page q : Nat)
  /-- LOAD_GRAPH (R282) -/
  | loadGraph (page q : Nat)
  /-- TRIGGER (R282) -/
  | trigger (page q : Nat)
  /-- SIGNAL (R282) -/
  | signal (page q : Nat)
  /-- WAIT_SIGNAL (R282) -/
  | waitSignal (page q : Nat)
  /-- COPY (R282) -/
  | copy (page q : Nat)
  /-- COPY_PACKET_COMPLETE (R282) -/
  | copyPacketComplete (copy : Nat)
  /-- SET_CUT (R282) -/
  | setCut (page q : Nat)
  /-- QUERY (R282) -/
  | query (page q : Nat)
  /-- FENCE_PACKET (R282) -/
  | fencePacket (page q : Nat)
  /-- PART_CREATE (R284) -/
  | partCreate (page q : Nat)
  /-- PART_DESTROY (R284) -/
  | partDestroy (page q : Nat)
  /-- VCP_ASSIGN (R284) -/
  | vcpAssign (page q : Nat)
  /-- CTX_CREATE (R284) -/
  | ctxCreate (page q : Nat)
  /-- CTX_BIND (R257) -/
  | ctxBind (page q : Nat)
  /-- CTX_DESTROY (R257) -/
  | ctxDestroy (page q : Nat)
  /-- CTX_PREEMPT (R260) -/
  | ctxPreempt (page q : Nat)
  /-- CTX_RESTORE (R257) -/
  | ctxRestore (page q : Nat)
  /-- CTX_RESET (R257) -/
  | ctxReset (page q : Nat)
  /-- SET_PORT_SHARE (R219) -/
  | setPortShare (page q : Nat)
  /-- SET_PLACER (R309) -/
  | setPlacer (page q : Nat)
  /-- SET_GROUP_SCHEDULER (R338) -/
  | setGroupScheduler (page q : Nat)
  /-- SET_TENANT_QUANTUM (R285) -/
  | setTenantQuantum (page q : Nat)
  /-- SET_HOMING_ENTRY (R472) -/
  | setHomingEntry (page q : Nat)
  /-- PREEMPT_DEADLINE_EXPIRY (R260) -/
  | preemptDeadlineExpiry (team : Nat)
  /-- SAVE_OVERRUN (R260) -/
  | saveOverrun (team : Nat)
  /-- CONTEXT_SAVED (R267) -/
  | contextSaved (ctx : Nat)
  /-- RESTORE_ADMIT (R268) -/
  | restoreAdmit (ctx : Nat)
  /-- CONTEXT_SCRUB_DONE (R257) -/
  | contextScrubDone (ctx : Nat)
  /-- TENANT_ROUND (R285) -/
  | tenantRound (part : Nat)
  /-- TASK_COMPLETE (R285) -/
  | taskComplete (task : Nat) (cost : Nat)
  /-- TRIGGER_RUN_REQUEST (R301) -/
  | triggerRunRequest (graph : Nat) (value : W64)
  /-- TRIGGER_CLEAR_OVR (R301) -/
  | triggerClearOvr (graph : Nat)
  /-- LAUNCH_ARGS_FETCH (R294) -/
  | launchArgsFetch (launch : Nat)
  /-- TEAM_PLACE (R310) -/
  | teamPlace (part : Nat)
  /-- CORE_START (R311) -/
  | coreStart (team : Nat)
  /-- RECORD_TEAM_ADMIT (R305) -/
  | recordTeamAdmit (launch : Nat)
  /-- NODE_DONE (R299) -/
  | nodeDone (graph node : Nat)
  /-- RUN_END (R301) -/
  | runEnd (graph : Nat)
  /-- COVERAGE_UPDATE (R415) -/
  | coverageUpdate (launch : Nat)
  /-- RASTERISE_TRIANGLE (R425) -/
  | rasteriseTriangle (graph node : Nat)
  /-- BLEND_RECORD (R429) -/
  | blendRecord (graph node : Nat)
  /-- TRAVERSE_RAY (R433) -/
  | traverseRay (graph node : Nat)
  /-- SOLDER_RECORD (R419) -/
  | solderRecord (graph node : Nat)
  /-- LINK_ENABLE (R375) -/
  | linkEnable (port : Nat) (value : W64)
  /-- LINK_DISABLE (R375) -/
  | linkDisable (port : Nat) (value : W64)
  /-- TRAINING_TIMEOUT (R375) -/
  | trainingTimeout (port : Nat)
  /-- CONTROL_RESEND (R385) -/
  | controlResend (port : Nat)
  /-- FRAME_CLOSE (R383) -/
  | frameClose (graph edge frame : Nat)
  /-- LATE_RECORD (R384) -/
  | lateRecord (graph edge : Nat) (slot : List Byte)
  /-- BRASS_ENCODE (R380) -/
  | brassEncode (graph edge frame : Nat)
  /-- CUT_MOVE_END (R389) -/
  | cutMoveEnd (part : Nat)
  /-- THERMAL_TRIP (R468) -/
  | thermalTrip (core : Nat)
  /-- SUPPLY_FAULT (R466) -/
  | supplyFault
  /-- MODULE_RESET (R465) -/
  | moduleReset
  /-- FUSE_LOAD (R13) -/
  | fuseLoad
  /-- CHANNEL_TRAINING (R465) -/
  | channelTraining (die : Nat) (ok : Bool)
  /-- MEMORY_ZERO (R465) -/
  | memoryZero
  /-- FIRMWARE_LOAD (R476) -/
  | firmwareLoad (ok : Bool)
  /-- MAC_ENABLE (R465) -/
  | macEnable
  /-- PATROL_SCRUB (R469) -/
  | patrolScrub (line : Nat) (error : Bool)
  /-- ILLEGAL_INSTRUCTION (R62) -/
  | illegalInstruction (word : W128)
  /-- INSTRUCTION_FETCH_FAULT (R370) -/
  | instructionFetchFault (cause : BitVec 8)
  /-- WAITS_LIMIT_EXPIRY (R170) -/
  | waitsLimitExpiry (gid : Nat)
  /-- MMA_COMPLETE (R201) -/
  | mmaComplete (mma : Nat)
  /-- CORRECTED_SOFT_ERROR (R469) -/
  | correctedSoftError
  /-- PARTITION_SCRUB_DONE (R284) -/
  | partitionScrubDone (part : Nat)
  /-- NEIGHBOR_CACHE_EXPIRY (R377) -/
  | neighborCacheExpiry (port : Nat) (ip : W128)
  /-- NEIGHBOR_RESOLUTION_TIMEOUT (R377) -/
  | neighborResolutionTimeout (port : Nat) (ip : W128)
  /-- REGISTER_WRITE (R5) -/
  | registerWrite (offset : Nat) (value : W64)
  /-- HOST_CXL_MEM_READ (R374) -/
  | hostCxlMemRead (pa len : Nat)
  /-- HOST_CXL_MEM_WRITE (R374) -/
  | hostCxlMemWrite (pa : Nat) (data : List Byte)
  /-- HOST_SNOOP (R373) -/
  | hostSnoop (pa : Nat) (data : List Byte)
  /-- PCS_LINK_UP (R375) -/
  | pcsLinkUp (port : Nat)
  /-- PCS_LINK_LOSS (R375) -/
  | pcsLinkLoss (port : Nat)
  /-- NEIGHBOR_SOLICITATION (R377) -/
  | neighborSolicitation (port : Nat) (nd : NdFrame)
  /-- DATA (R380) -/
  | data (port : Nat) (pkt : EdgePacket)
  /-- PARITY (R381) -/
  | parity (port : Nat) (pkt : EdgePacket)
  /-- FRAME (R386) -/
  | frame (port : Nat) (pkt : EdgePacket)
  /-- CUT_PROPOSE (R389) -/
  | cutPropose (port : Nat) (pkt : EdgePacket)
  /-- CUT_ACCEPT (R389) -/
  | cutAccept (port : Nat) (pkt : EdgePacket)
  /-- CUT_REJECT (R389) -/
  | cutReject (port : Nat) (pkt : EdgePacket)
  /-- STATE_XFER (R389) -/
  | stateXfer (port : Nat) (pkt : EdgePacket)
  /-- STATE_ACK (R389) -/
  | stateAck (port : Nat) (pkt : EdgePacket)
  /-- REF_MISS (R381) -/
  | refMiss (port : Nat) (pkt : EdgePacket)
  /-- CACK (R385) -/
  | cack (port : Nat) (pkt : EdgePacket)
  /-- LDATA (R385) -/
  | ldata (port : Nat) (pkt : EdgePacket)
  /-- LACK (R399) -/
  | lack (port : Nat) (pkt : EdgePacket)
  /-- SENSOR_RESAMPLE (R309) -/
  | sensorResample (readings : List (Nat × BitVec 8 × BitVec 8))
  /-- POWER_PERIOD (R467) -/
  | powerPeriod (power : PowerReading)
  /-- UNCORRECTABLE_ERROR (R469) -/
  | uncorrectableError (site : ErrorSite)
  deriving DecidableEq, Repr

end Sys2Proof
end

