-- ==== Sys2Proof/Machine/Legality.lean ====
section
/-! DEFINITION. Which words are instructions: for each form, the operand files, the word forms and the MOD values
its entry gives (R62, and the "illegal when" rules R97, R111, R122, R128, R133, R146, R161, R171, R207, R271, R306 to
R308, R325, R340, R359, R406, R418, R420, R444), as ONE table that the legality check and the register-budget check
(R47) both read. -/

namespace Sys2Proof

/-- What an operand field names (R43, R44). The count is the number of consecutive 32-bit registers: 1, an even pair
or an aligned quadruple. -/
inductive Use where
  /-- not used: the field and its SRCSEL pair are 0 -/
  | none
  /-- vector registers -/
  | vec (n : Nat)
  /-- one scalar register -/
  | sca
  /-- the `n` scalar registers that the word reads from a base that is a multiple of 4 (R391: a command register that the
  instruction does not use is not read) -/
  | scaBase (n : Nat)
  /-- a vector, scalar or constant register, by SRCSEL -/
  | src (n : Nat)
  /-- a scalar or constant register, by SRCSEL -/
  | uni (n : Nat)
  /-- a vector pair or a scalar, by SRCSEL (an address) -/
  | addr
  /-- a predicate -/
  | pred
  /-- a rejoin barrier, a tile handle, an accumulator tile, a team barrier -/
  | rej | handle | acc | bar
  /-- a code of the instruction's own, with SRCSEL 00; its values are checked in `extra` -/
  | code
  deriving DecidableEq, Repr

/-- What IMM32 is in the immediate form (R41): no such form, the offset, a register operand, or a code. -/
inductive ImmRule where
  | noImm | offset | forA | forB | forC | code
  deriving DecidableEq, Repr

/-- The shape of a form: its operands, its word forms, whether OFF25 is an offset, and the rest of its conditions. -/
structure Shape where
  d : Use := .none
  a : Use := .none
  b : Use := .none
  c : Use := .none
  e : Use := .none
  imm : ImmRule := .noImm
  off : Bool := false
  extra : Bool := true
  deriving DecidableEq, Repr

namespace Fields

/-- The MOD sub-fields of the arithmetic layout (R51). -/
def ds (f : Fields) : Bool := f.mod.getLsbD 11
def ops (f : Fields) : Nat := (f.mod.extractLsb' 9 2).toNat
def ovf (f : Fields) : Nat := (f.mod.extractLsb' 7 2).toNat
def rnd (f : Fields) : Nat := (f.mod.extractLsb' 4 3).toNat
def ty (f : Fields) : Nat := (f.mod.extractLsb' 0 4).toNat
/-- The MOD sub-fields of the memory layout (R52), OPM cut into AM and its two low bits (R147). -/
def am (f : Fields) : Nat := (f.mod.extractLsb' 10 2).toNat
def opm9 (f : Fields) : Bool := f.mod.getLsbD 9
def opm8 (f : Fields) : Bool := f.mod.getLsbD 8
def ord (f : Fields) : Nat := (f.mod.extractLsb' 6 2).toNat
def scope (f : Fields) : Nat := (f.mod.extractLsb' 3 3).toNat
def size (f : Fields) : Nat := (f.mod.extractLsb' 0 3).toNat

end Fields

/-- Bits [hi:lo] of an operand field are 0. -/
def highZero (x : BitVec 10) (lo : Nat) : Bool := x.toNat < 2 ^ lo

/-- The registers a 64-bit TYPE needs (R44). -/
def tyRegs (ty : Nat) : Nat := if ty = 3 ∨ ty = 4 then 2 else 1

/-- The registers a memory SIZE needs (R44). -/
def sizeRegs (size : Nat) : Nat := if size = 3 then 2 else if size = 4 then 4 else 1

/-- One operand A, B or C against its use, its SRCSEL pair given. -/
def Use.okSel (u : Use) (sel : BitVec 2) (x : BitVec 10) : Bool :=
  match u with
  | .none => x = 0 && sel = 0
  | .vec n => sel = 0 && x.toNat % n = 0
  | .sca => sel = 1 && highZero x 8
  | .scaBase _ => sel = 1 && highZero x 8 && x.toNat % 4 = 0
  | .src n => (sel = 0 && x.toNat % n = 0) || (sel = 1 && highZero x 8 && n ≤ 2) || (sel = 2 && x.toNat % n = 0 && n ≤ 2)
  | .uni n => (sel = 1 && highZero x 8) || (sel = 2 && x.toNat % n = 0)
  | .addr => (sel = 0 && x.toNat % 2 = 0) || (sel = 1 && highZero x 8)
  | .pred => sel = 0 && highZero x 4
  | .rej => sel = 0 && highZero x 3
  | .handle => sel = 0 && highZero x 5
  | .acc => sel = 0 && highZero x 7
  | .bar => sel = 0 && highZero x 4
  | .code => sel = 0

/-- D or E, which have no SRCSEL pair. -/
def Use.okPlain (u : Use) (x : BitVec 10) : Bool :=
  match u with
  | .sca => highZero x 8
  | .scaBase _ => highZero x 8 && x.toNat % 4 = 0
  | .src n | .vec n => x.toNat % n = 0
  | _ => u.okSel 0 x

/-- The word reads this operand as a vector register (R55's condition on REUSE). -/
def Use.isVec (u : Use) (sel : BitVec 2) : Bool :=
  match u with
  | .vec _ => true
  | .src _ | .addr => sel = 0
  | _ => false

/-- R62 over the whole full-form word. -/
def Shape.legal (s : Shape) (f : Fields) : Bool :=
  let aUse := if f.immForm && s.imm = .forA then Use.none else s.a
  let bUse := if f.immForm && s.imm = .forB then Use.none else s.b
  let cUse := if f.immForm && s.imm = .forC then Use.none else s.c
  let reuseOk (bit : Nat) (v : Bool) := !(f.reuse.getLsbD bit) || v
  f.hint.toNat < 4
    && s.d.okPlain f.d && s.e.okPlain f.e
    && aUse.okSel f.selA f.a && bUse.okSel f.selB f.b && cUse.okSel f.selC f.c
    && (!f.immForm || s.imm != .noImm)
    && (!f.immForm || (f.off25 = 0 && f.reuse = 0 && f.stall = 0))
    && (f.immForm || f.imm32 = 0)
    && (s.off || f.off25 = 0)
    && reuseOk 3 (aUse.isVec f.selA) && reuseOk 2 (bUse.isVec f.selB) && reuseOk 1 (cUse.isVec f.selC)
    && reuseOk 0 (match s.e with | .vec _ => true | _ => false)
    && s.extra

/-! ## Shapes shared by the classes -/

/-- A destination by DS (R49). -/
def dstUse (ds : Bool) (n : Nat) : Use := if ds then .sca else .vec n
/-- A source by DS (R49): with DS = 1, no vector source. -/
def srcUse (ds : Bool) (n : Nat) : Use := if ds then .uni n else .src n

/-- Integer forms of two sources (R113, R114, R122); `sat` says whether OPS[9] is a flag. -/
def intBin (f : Fields) (tys : List Nat) (sat : Bool) : Shape :=
  { d := dstUse f.ds (tyRegs f.ty), a := srcUse f.ds (tyRegs f.ty), b := srcUse f.ds (tyRegs f.ty), imm := .forB,
    extra := tys.contains f.ty && f.rnd = 0 && f.ovf = 0 && (f.ops = 0 || (sat && f.ops = 1)) }
def intUn (f : Fields) (tys : List Nat) (sat : Bool) : Shape := { intBin f tys sat with b := .none, imm := .forA }
def intTri (f : Fields) (tys : List Nat) : Shape := { intBin f tys false with c := srcUse f.ds (tyRegs f.ty) }
/-- Shifts: B is one 32-bit operand (R114). -/
def intShift (f : Fields) : Shape := { intBin f [0, 3, 4] false with b := srcUse f.ds 1 }
/-- POPC and CLZ: D is one 32-bit register (R114). -/
def intCount (f : Fields) : Shape := { intUn f [0, 3, 4] false with d := dstUse f.ds 1 }

/-- Floating-point forms (R124 to R128); `round` says whether RND is used. -/
def fpExtra (f : Fields) (tys : List Nat) (round : Bool) : Bool :=
  tys.contains f.ty && f.ovf = 0 && f.ops = 0 && (if round then f.rnd < 5 else f.rnd = 0)
def fpBin (f : Fields) (tys : List Nat) (round : Bool) : Shape :=
  { d := dstUse f.ds 1, a := srcUse f.ds 1, b := srcUse f.ds 1, imm := .forB, extra := fpExtra f tys round }
def fpUn (f : Fields) (tys : List Nat) (round : Bool) : Shape := { fpBin f tys round with b := .none, imm := .forA }
def fpTri (f : Fields) (tys : List Nat) (round : Bool) : Shape := { fpBin f tys round with c := srcUse f.ds 1 }

/-- Special-function forms (R129, R133); `lp` is OPS[9]. -/
def sfuExtra (f : Fields) (rounds : Bool) : Bool :=
  (f.ty = 5 || f.ty = 6) && f.ovf = 0 && f.ops < 2 && (f.rnd = 0 || (rounds && f.ops = 0 && f.rnd < 5))
def sfuUn (f : Fields) (rounds : Bool) : Shape := { fpUn f [5, 6] false with extra := sfuExtra f rounds }

/-- The memory operand of R147 under address mode `am`: its A and B. -/
def memA (am : Nat) : Use := if am = 0 then .addr else if am = 1 then .sca else .none
def memB (am : Nat) : Use := if am = 0 ∨ am = 2 then .vec 1 else .none

def mem (f : Fields) (orders : List Nat) (ok : Bool) : Shape :=
  { a := memA f.am, b := memB f.am, imm := .offset, off := true, extra := f.scope < 5 && orders.contains f.ord && ok }

def sxOk (f : Fields) : Bool := !f.opm8 || f.size < 2

def loadV (f : Fields) (orders : List Nat) (e : Use) : Shape :=
  { mem f orders (f.size < 5 && !f.opm9 && sxOk f) with d := .vec (sizeRegs f.size), e := e }
def storeV (f : Fields) (e : Use) : Shape :=
  { mem f [0, 2, 3] (f.size < 5 && !f.opm9 && !f.opm8) with c := .src (sizeRegs f.size), e := e }

/-- TYPE held in E[7:4] and the SIZE that goes with it (R162). -/
def eTy (f : Fields) : Nat := (f.e.extractLsb' 4 4).toNat
def eLow4 (f : Fields) : Nat := (f.e.extractLsb' 0 4).toNat
def sizeMatchesTy (f : Fields) : Bool := f.size = (if eTy f = 3 ∨ eTy f = 4 then 3 else 2)

/-- The TYPEs an atomic operation accepts (R162). -/
def atomTys : Nat → List Nat
  | 0 | 1 | 2 => [1, 2, 3, 4, 5]
  | 3 | 4 | 5 => [0, 3, 4]
  | 6 => [0, 1, 2, 3, 4, 5]
  | 7 | 8 => [2, 4]
  | _ => []

def atomic (f : Fields) : Shape :=
  { mem f [0, 1, 2, 3] (highZero f.e 8 && (atomTys (eLow4 f)).contains (eTy f) && sizeMatchesTy f && !f.opm9 && !f.opm8)
    with d := .vec (sizeRegs f.size), c := .src (sizeRegs f.size), e := .code }

def waiting (f : Fields) : Bool :=
  f.ord = 0 && !f.opm9 && !f.opm8 && highZero f.e 8 && eLow4 f < 6 && eTy f ≥ 1 && eTy f ≤ 4 && sizeMatchesTy f

/-- An integer tile kind (R174), for the policies R79 forbids. -/
def intKind (k : Nat) : Bool := k = 7 || k = 8 || k = 9 || k = 0xA || k = 0xB

/-- Class 9's MOD layout (R396): bits that must be 0 given as a list. -/
def engineMod (f : Fields) (zero : List Nat) : Bool :=
  (f.mod.extractLsb' 10 2).toNat < 2 && f.scope < 5 && !f.mod.getLsbD 0 && zero.all (fun i => !f.mod.getLsbD i)

/-- Class 12's MOD layout (R352). -/
def barM (f : Fields) : Bool := f.opm8
def barVar (f : Fields) : Nat := (f.mod.extractLsb' 0 2).toNat
def barTeam (f : Fields) (var : Nat) : Bool := f.mod.toNat = var
def barMem (f : Fields) : Bool :=
  !f.mod.getLsbD 2 && barVar f = 0 && f.ord = 0 && (if f.opm9 then highZero f.e 2 else f.e = 0)

/-- The CVT pairs that are down-conversions (R88), by TYPE code. -/
def isFloatTy (t : Nat) : Bool := t = 5 || t = 6 || t = 7
def isIntTy (t : Nat) : Bool := (t ≥ 1 && t ≤ 4) || (t ≥ 12 && t ≤ 15)
/-- The destination range contains the source range (R88's list). -/
def widens (s t : Nat) : Bool :=
  let chainI := [12, 14, 1, 3]   -- i8, i16, i32, i64
  let chainW := [13, 15, 2, 4]   -- w8, w16, w32, w64
  let inChain (c : List Nat) := match c.idxOf? s, c.idxOf? t with | some i, some j => i ≤ j | _, _ => false
  let across := match chainW.idxOf? s, chainI.idxOf? t with | some i, some j => i < j | _, _ => false
  inChain chainI || inChain chainW || across
def downConverts (s t : Nat) : Bool :=
  (isFloatTy s && isIntTy t) || (isIntTy s && isIntTy t && !widens s t)
    || (s = 5 && (t = 6 || t = 7)) || (s = 7 && t = 6)
    || (t = 6 && (s = 1 || s = 2 || s = 3 || s = 4 || s = 15))

def cvtTys : List Nat := [1, 2, 3, 4, 5, 6, 7, 12, 13, 14, 15]

/-- CVT's RND and OVF, for the full form and the pair half (R88, R97). -/
def cvtModOk (s t rnd ovf : Nat) : Bool :=
  rnd < 5 && (ovf = 0 || downConverts s t) && !((ovf = 1 || ovf = 2) && isIntTy t)

/-! ## The table -/

/-- IMM32 stands for a B that the form does not use, and is 0 as such an operand is (R62). DEDUCED, log entry 66. -/
def immUnused (f : Fields) : Bool := f.imm32 = 0

/-- The shape of every full-form instruction; events and the pair form have none. DEDUCED, log entry 66: `movp.get`,
`bcast.first`, `zmov.zz`, `attr.z` and `binit.all` have the immediate form of their instruction, with IMM32 = 0. -/
def Instr.shape : Instr → Option (Fields × Shape)
  | .nop f => some (f, { extra := f.mod = 0 })
  | .bra f => some (f, { imm := .offset, off := true, extra := f.mod = 0 })
  | .brx f => some (f, { a := .addr, extra := f.mod = 0 })
  | .call f => some (f, { d := dstUse (f.mod.getLsbD 0) 2, imm := .offset, off := true, extra := f.mod.toNat < 2 })
  | .callx f => some (f, { d := dstUse (f.mod.getLsbD 0) 2, a := .addr, extra := f.mod.toNat < 2 })
  | .ret f => some (f, { a := .addr, extra := f.mod = 0 })
  | .exit_ f => some (f, { extra := f.mod = 0 })
  | .yield f => some (f, { extra := f.mod = 0 })
  | .brk f => some (f, { imm := .code, extra := f.mod = 0 && f.imm32.toNat < 65536 })
  | .loop f => some (f, { d := .sca, imm := .offset, off := true, extra := f.mod = 0 })
  | .iadd f => some (f, intBin f [1, 2, 3, 4, 10, 11] true)
  | .isub f => some (f, intBin f [1, 2, 3, 4, 10, 11] true)
  | .imul f => some (f, intBin f [1, 2, 3, 4, 10] false)
  | .imulh f => some (f, intBin f [1, 2, 3, 4] false)
  | .imad f => some (f, intTri f [1, 2, 3, 4])
  | .imin f => some (f, intBin f [1, 2, 3, 4, 10, 11] false)
  | .imax f => some (f, intBin f [1, 2, 3, 4, 10, 11] false)
  | .iabs f => some (f, intUn f [1, 3, 10] true)
  | .ineg f => some (f, intUn f [1, 3, 10] true)
  | .and_ f => some (f, intBin f [0, 3, 4] false)
  | .or_ f => some (f, intBin f [0, 3, 4] false)
  | .xor_ f => some (f, intBin f [0, 3, 4] false)
  | .not_ f => some (f, intUn f [0, 3, 4] false)
  | .shl f => some (f, intShift f)
  | .shr f => some (f, intShift f)
  | .shra f => some (f, intShift f)
  | .rotl f => some (f, intShift f)
  | .bfx f => some (f, intBin f [1, 2] false)
  | .bfi f => some (f, intTri f [0])
  | .popc f => some (f, intCount f)
  | .clz f => some (f, intCount f)
  | .brev f => some (f, intUn f [0, 3, 4] false)
  | .icmp f => some (f,
    { d := .pred, a := .src (tyRegs f.ty), b := .src (tyRegs f.ty), e := .code, imm := .forB,
      extra := [1, 2, 3, 4].contains f.ty && f.rnd = 0 && f.ovf = 0 && f.ops < 3 && !f.ds && f.e.toNat < 6 })
  | .sel f => some (f, { intBin f [0, 3, 4] false with c := .pred, extra := (intBin f [0, 3, 4] false).extra && !f.ds })
  | .mov f => some (f, intUn f [0, 3, 4] false)
  | .lea f => some (f,
    { intBin f [1, 2] false with
      d := dstUse f.ds 2, a := srcUse f.ds 2, e := .code,
      extra := (intBin f [1, 2] false).extra && highZero f.e 4 })
  | .iaddc f => some (f, { intBin f [2, 4] false with c := .pred, e := .pred, extra := (intBin f [2, 4] false).extra && !f.ds })
  | .plop f => some (f, { d := .pred, a := .pred, b := .pred, c := .pred, e := .code, extra := f.mod = 0 && highZero f.e 8 })
  | .movpGet f => some (f, { d := .vec 1, imm := .forB, extra := f.mod = 0 && immUnused f })
  | .movpSet f => some (f, { a := .vec 1, b := .src 1, imm := .forB, extra := f.mod = 0x200 })
  | .hash f => some (f, intBin f [0] false)
  | .fadd f => some (f, fpBin f [5, 6, 7, 8, 9] true)
  | .fsub f => some (f, fpBin f [5, 6, 7, 8, 9] true)
  | .fmul f => some (f, fpBin f [5, 6, 7, 8, 9] true)
  | .ffma f => some (f, fpTri f [5, 6, 7, 8, 9] true)
  | .fmin f => some (f, fpBin f [5, 6, 7, 8, 9] false)
  | .fmax f => some (f, fpBin f [5, 6, 7, 8, 9] false)
  | .fcmp f => some (f,
    { d := .pred, a := .src 1, b := .src 1, e := .code, imm := .forB,
      extra := [5, 6, 7].contains f.ty && f.rnd = 0 && f.ovf = 0 && f.ops < 3 && !f.ds && f.e.toNat < 8 })
  | .fclass f => some (f, fpUn f [5, 6, 7] false)
  | .frnd f => some (f, fpUn f [5, 6, 7, 8, 9] true)
  | .fscale f => some (f, fpBin f [5, 6, 7] true)
  | .fdot2 f => some (f, fpTri f [8, 9] true)
  | .fmed3 f => some (f, fpTri f [5, 6, 7] false)
  | .cvt f => some (f,
    { d := dstUse f.ds (tyRegs f.ty), a := srcUse f.ds (tyRegs (eLow4 f)), e := .code,
      extra := cvtTys.contains f.ty && highZero f.e 4 && cvtTys.contains (eLow4 f) && eLow4 f != f.ty && f.ops = 0
        && cvtModOk (eLow4 f) f.ty f.rnd f.ovf })
  | .cvtn f => some (f,
    { d := dstUse f.ds 1, a := srcUse f.ds 1, b := srcUse f.ds 1, imm := .forB,
      extra := [5, 6, 7].contains f.ty && f.rnd < 5 && !(f.ops = 3 && (f.ovf = 1 || f.ovf = 2)) })
  | .cvtw f => some (f,
    { d := dstUse f.ds 1, a := srcUse f.ds 1, b := srcUse f.ds 1, imm := .forB,
      extra := [5, 6, 7].contains f.ty && f.rnd = 0 && f.ovf = 0 })
  | .pack f => some (f,
    { d := dstUse f.ds 1, a := srcUse f.ds 1, b := srcUse f.ds 1,
      c := if f.ty = 11 then .src 1 else .none, e := if f.ty = 11 then .vec 1 else .none, imm := .forB,
      extra := [8, 9, 10, 11].contains f.ty && f.rnd < 5 && f.ops = 0
        && !((f.ty = 10 || f.ty = 11) && (f.ovf = 1 || f.ovf = 2)) && !(f.ds && f.ty = 11) })
  | .unpack f => some (f,
    { d := dstUse f.ds 1, a := srcUse f.ds 1, b := srcUse f.ds 1, imm := .forB,
      extra := [8, 9, 10, 11].contains f.ty && f.rnd = 0 && f.ovf = 0 && f.ops = 0 })
  | .shfl f => some (f,
    { d := .vec (tyRegs f.ty), a := .src (tyRegs f.ty), b := .src 1,
      c := if f.ds then .src (tyRegs f.ty) else .none, e := .pred, imm := .forB,
      extra := (f.ty = 0 || f.ty = 4) && f.rnd = 0 && f.ovf = 0 })
  | .bcast f => some (f,
    { d := dstUse (f.ops % 2 = 1) (tyRegs f.ty), a := .src (tyRegs f.ty),
      b := if f.ops ≥ 2 then .none else .uni 1,
      c := if f.ds then srcUse (f.ops % 2 = 1) (tyRegs f.ty) else .none,
      e := if f.ops ≥ 2 then .none else .pred, imm := .forB,
      extra := (f.ty = 0 || f.ty = 4) && f.rnd = 0 && f.ovf = 0 && !(f.ops ≥ 2 && (f.ds || !immUnused f)) })
  | .vote f => some (f,
    { d := if f.ops = 3 then dstUse f.ds 1 else .pred, a := .pred,
      extra := f.ty = 0 && f.rnd = 0 && f.ovf = 0 && (f.ops = 3 || !f.ds) })
  | .reduce f => some (f, { d := dstUse f.ds (tyRegs f.ty), a := .src (tyRegs f.ty), e := .code, extra := reduceOk f && f.ops = 0 })
  | .scan f => some (f,
    { d := .vec (tyRegs f.ty), a := .src (tyRegs f.ty), c := if f.ops ≥ 2 then .pred else .none, e := .code,
      extra := reduceOk f && !f.ds })
  | .match_ f => some (f, { d := .vec 1, a := .src (tyRegs f.ty), extra := laneMoveOk f })
  | .compact f => some (f, { d := .vec (tyRegs f.ty), a := .src (tyRegs f.ty), c := .pred, e := .pred, extra := laneMoveOk f })
  | .rcp f => some (f, sfuUn f false)
  | .rsq f => some (f, sfuUn f false)
  | .sqrt f => some (f, sfuUn f true)
  | .exp2 f => some (f, sfuUn f false)
  | .log2 f => some (f, sfuUn f false)
  | .sin f => some (f, sfuUn f false)
  | .cos f => some (f, sfuUn f false)
  | .tanh f => some (f, sfuUn f false)
  | .sigm f => some (f, sfuUn f false)
  | .fdiv f => some (f, { fpBin f [5, 6] false with extra := sfuExtra f true })
  | .pairWord _ _ => none
  | .ld f => some (f,
    { mem f [0, 1, 3] (f.size < 5 && sxOk f && !(f.opm9 && (f.am = 0 || f.am = 2 || f.size = 4)))
      with d := dstUse f.opm9 (sizeRegs f.size) })
  | .st f => some (f, storeV f .none)
  | .lds f => some (f, loadV f [0, 1, 3] .none)
  | .sts f => some (f, storeV f .none)
  | .ldp f => some (f, loadV f [0, 1, 3] (.vec 1))
  | .stp f => some (f, storeV f (.vec 1))
  | .ldc f => some (f,
    { d := dstUse f.opm9 (sizeRegs f.size), b := srcUse f.opm9 1, imm := .forB,
      extra := f.size < 5 && f.am = 0 && f.ord = 0 && f.scope = 0 && sxOk f && !(f.opm9 && f.size = 4) })
  | .ldg f => some (f, { loadV f [0, 1] .none with c := .pred })
  | .pref f => some (f, mem f [0] (f.size = 0 && f.scope = 0 && !f.opm9))
  | .fence f => some (f, { extra := f.am = 0 && !f.opm9 && !f.opm8 && f.size = 0 && f.scope < 5 && f.ord != 0 })
  | .cctl f => some (f, mem f [0] (f.size = 0 && f.scope = 0 && !f.opm9))
  | .atom f => some (f, atomic f)
  | .acas f => some (f,
    { mem f [0, 1, 2, 3] ((f.size = 2 || f.size = 3) && !f.opm9 && !f.opm8)
      with d := .vec (sizeRegs f.size), c := .src (sizeRegs f.size), e := .vec (sizeRegs f.size) })
  | .atoms f => some (f, atomic f)
  | .ldf f => some (f, { mem f [0] ((f.size = 2 || f.size = 3) && !f.opm8) with d := .vec (sizeRegs f.size), c := .pred })
  | .stf f => some (f, { mem f [0] ((f.size = 2 || f.size = 3) && !f.opm9 && !f.opm8) with c := .src (sizeRegs f.size) })
  | .freset f => some (f, mem f [0, 2] (f.size = 0 && !f.opm9 && !f.opm8))
  | .waita f => some (f, { mem f [0] (waiting f) with d := .vec (sizeRegs f.size), c := .src (sizeRegs f.size), e := .code })
  | .waits f => some (f, { mem f [0] (waiting f && (f.am = 1 || f.am = 3)) with d := .sca, c := .uni (sizeRegs f.size), e := .code })
  | .hset f => some (f,
    { d := .handle, a := .uni 2, b := .uni 2, c := .uni 2,
      extra := f.mod.toNat < 8 && (f.mod.getLsbD 0 || f.mod = 0) })
  | .hld f => some (f, { mem f [0, 1, 3] (handleMem f) with d := .handle, e := .code })
  | .hst f => some (f, { mem f [0, 2, 3] (handleMem f) with c := .handle, e := .code })
  | .hget f => some (f,
    { d := .sca, a := if f.mod.getLsbD 0 then .acc else .handle, e := .code,
      extra := f.mod.toNat < 2 && f.e.toNat < 7 })
  | .mma f => some (f, { d := .acc, a := .handle, b := .handle, extra := f.mod.toNat < 2 })
  | .zld f => some (f,
    { d := .acc, a := .handle,
      extra := f.size = 0 && f.am = 0 && !f.opm9 && !f.opm8 && f.scope < 5 && [0, 1, 3].contains f.ord })
  | .zst f => some (f,
    { d := .handle, a := .acc, e := .code,
      extra := f.size = 0 && f.am = 0 && !f.opm8 && f.scope < 5 && [0, 2, 3].contains f.ord
        && (f.e.extractLsb' 0 5).toNat ≤ 0xB && (f.e.extractLsb' 5 3).toNat < 5
        && !(intKind (f.e.extractLsb' 0 5).toNat && ((f.e.extractLsb' 8 2).toNat = 1 || (f.e.extractLsb' 8 2).toNat = 2)) })
  | .zzero f => some (f, { d := .acc, extra := !f.mod.getLsbD 11 })
  | .zmov f => some (f, match f.mod.toNat with
      | 0 => { d := .acc, a := .acc, imm := .forB, extra := immUnused f }
      | 1 => { d := .vec 1, a := .acc, b := .uni 1, imm := .forB }
      | 2 => { d := .acc, a := .vec 1, b := .uni 1, imm := .forB }
      | _ => { extra := false })
  | .zred f => some (f, { d := .acc, a := .acc, extra := f.mod.toNat < 3 })
  | .zscale f => some (f, match f.mod.toNat with
      | 0 => { d := .acc, b := .uni 1, imm := .forB }
      | 1 | 2 => { d := .acc, b := .vec 1 }
      | _ => { extra := false })
  | .qscale f => some (f, { d := .vec 1, a := .src 1, extra := f.mod.toNat ≥ 1 && f.mod.toNat ≤ 6 })
  | .cpy f => some (f,
    { a := .addr, b := .addr, e := .scaBase 3,
      extra := engineMod f [9, 1] && !(f.opm8 && (!f.mod.getLsbD 10 || f.mod.getLsbD 7 || f.mod.getLsbD 2)) })
  | .cpyt f => some (f,
    { a := .handle, b := .handle, c := .code, e := .scaBase (if f.am = 1 then 2 else 1),
      extra := engineMod f [9, 8, 7, 6] && cpytC f.c })
  | .gthr f => some (f, { a := .sca, b := .sca, c := .vec 1, e := .scaBase 4, extra := engineMod f [8, 1] })
  | .sctr f => some (f, { a := .sca, b := .sca, c := .vec 1, e := .scaBase 3, extra := engineMod f [9, 8, 1] })
  | .rcon f => some (f,
    { a := .handle, b := if f.opm9 then .handle else .none, e := .scaBase 2,
      extra := engineMod f [8, 7, 6, 1] })
  | .trace f => some (f, { a := .addr, b := .sca, e := .scaBase 1, extra := engineMod f [11, 10, 9, 8, 7, 6, 1] })
  | .adrain f => some (f, { extra := f.mod.toNat < 2 })
  | .aqry f => some (f, { d := .sca, extra := f.mod.toNat < 2 })
  | .launch f => some (f,
    { d := .vec 1, a := .addr, b := .addr, c := if f.mod.getLsbD 1 then .addr else .none,
      extra := f.mod.toNat < 4 })
  | .rget f => some (f,
    { d := .vec 2, b := .uni 1, c := .pred, imm := .forB,
      extra := f.mod = 0 && f.imm32.toNat < 8 })
  | .remit f => some (f, { a := .addr, b := .uni 1, imm := .forB, extra := f.mod = 0 && f.imm32.toNat < 8 })
  | .rdone f => some (f, { a := .addr, extra := f.mod = 0 })
  | .gsig f => some (f,
    { a := .addr, c := .src 2, imm := .forC,
      extra := f.mod.toNat < 16 && ((f.mod.extractLsb' 1 3).toNat = 3 || (f.mod.extractLsb' 1 3).toNat = 4) })
  | .covqMe f => some (f, { d := .vec 2, extra := f.mod = 0 })
  | .covqPt f => some (f, { d := .vec 1, a := .src 1, b := .src 1, imm := .forB, extra := f.mod = 1 })
  | .tex1 f => some (f,
    { d := .vec 4, a := .sca, b := .src 1, c := .src 1, e := .vec 1,
      extra := (f.mod.extractLsb' 0 2).toNat != 3 && !f.mod.getLsbD 3 && f.mod.toNat < 256 })
  | .texf f => some (f, { d := .vec 4, a := .sca, b := .src 1, c := .src 1, e := .vec 1, extra := f.mod = 0 || f.mod = 4 })
  | .texq f => some (f, { d := .vec 4, a := .sca, b := .src 1, imm := .forB, extra := f.mod = 0 })
  | .discard f => some (f, { a := .addr, extra := f.mod = 0 })
  | .depthw f => some (f, { a := .addr, b := .src 1, imm := .forB, extra := f.mod = 0 })
  | .attr f => some (f,
    { d := .vec 1, a := .addr, b := if f.mod.getLsbD 0 then .none else .uni 1, c := .src 1,
      imm := .forB, extra := f.mod.toNat < 2 && (!f.mod.getLsbD 0 || immUnused f) })
  | .bar f => some (f, if barM f then { mem f [0] (barMem f) with e := .code } else { e := .bar, extra := barTeam f 0 })
  | .binit f => some (f, if barM f then
        { a := memA f.am, b := memB f.am, c := .src 1, e := .code, imm := .forC, off := true, extra := f.scope < 5 && barMem f }
      else if barVar f = 1 then { e := .bar, imm := .forB, extra := barTeam f 1 && immUnused f }
      else { b := .uni 1, e := .bar, imm := .forB, extra := barTeam f 0 })
  | .bexp f => some (f,
    { a := memA f.am, b := memB f.am, c := .src 1, e := .code, imm := .forC, off := true,
      extra := barM f && f.scope < 5 && barMem f })
  | .barv f => some (f, if barM f then { mem f [0] (barMem f) with d := .pred, e := .code }
      else { d := .pred, e := .bar, extra := barTeam f 0 })
  | .bwait f => some (f, if barM f then { mem f [0] (barMem f) with c := .pred, e := .code }
      else { c := .pred, e := .bar, extra := barTeam f 0 })
  | .jarm f => some (f, if barVar f = 1 then { d := .rej, b := .uni 1, imm := .forB, extra := barTeam f 1 }
      else { d := .rej, extra := barTeam f 0 })
  | .join f => some (f, { d := .rej, extra := barTeam f 0 })
  | .jdrop f => some (f, { d := .rej, extra := barTeam f 0 || barTeam f 1 })
  | .reform f => some (f, { imm := .offset, off := true, extra := f.mod.toNat ≤ 64 })
  | .bqry f => some (f, { d := .sca, e := if barVar f = 0 then .bar else .rej, extra := f.mod.toNat < 3 })
  | .trap f => some (f, { imm := .code, extra := f.mod = 0 && f.imm32.toNat < 65536 })
  | .tret f => some (f, { extra := f.mod.toNat < 3 })
  | .region f => some (f, { extra := f.mod = 0 })
  | .pyield f => some (f, { extra := f.mod = 0 })
  | .timer f => some (f, { b := .uni 2, imm := .forB, extra := f.mod.toNat < 2 })
  | .srd f => some (f,
    { d := dstUse f.ds (if f.mod.getLsbD 0 then 2 else 1), a := .code,
      extra := f.a.toNat < 32 && (f.mod = 0 || f.mod = 1 || f.mod = 0x800) })
  | .swr f => some (f,
    { d := .code, b := .uni 2, imm := .forB,
      extra := f.mod = 0 && (f.d = 16 || f.d = 25 || f.d = 26) })
  | .csave f => some (f, { a := .sca, b := .sca, extra := f.mod = 0 })
  | .crestChk f => some (f, { a := .sca, extra := f.mod = 0 })
  | .crestGo f => some (f, { a := .sca, extra := f.mod = 1 })
  | .halt f => some (f, { extra := f.mod = 0 })
  | _ => none
where
  /-- REDUCE's and SCAN's operation, TYPE and RND (R142, R146). -/
  reduceOk (f : Fields) : Bool :=
    f.ovf = 0 && f.e.toNat < 6
      && (if f.e.toNat < 3 then [1, 2, 3, 4, 5, 6, 7].contains f.ty else (f.ty = 0 || f.ty = 4))
      && (if f.e.toNat = 0 && (f.ty = 5 || f.ty = 6 || f.ty = 7) then f.rnd < 5 else f.rnd = 0)
  laneMoveOk (f : Fields) : Bool := (f.ty = 0 || f.ty = 4) && f.rnd = 0 && f.ovf = 0 && f.ops = 0 && !f.ds
  /-- HLD's and HST's fields (R199). -/
  handleMem (f : Fields) : Bool :=
    (f.am = 1 || f.am = 3) && f.size = 0 && !f.opm8 && (if f.opm9 then highZero f.e 2 else f.e = 0)
  /-- CPYT's C field (R397, R406). -/
  cpytC (c : BitVec 10) : Bool :=
    let k := (c.extractLsb' 0 5).toNat
    let ovf := (c.extractLsb' 8 2).toNat
    (k ≤ 0xB || k = 0x10 || k = 0x11) && (c.extractLsb' 5 3).toNat < 5
      && (k != 0 || c = 0) && !(intKind k && (ovf = 1 || ovf = 2))

/-! ## The pair form (R57 to R60) -/

/-- HOP of a binary half, whose D is also a source (R58). -/
def Half.binary (h : Half) : Bool := h.hop.toNat ≤ 9 || (h.hop.toNat ≥ 13 && h.hop.toNat ≤ 16) || h.hop.toNat = 39

/-- The source and destination TYPE codes of a CVT half (R58's second table). -/
def cvtHop : Nat → Nat × Nat
  | 17 => (6, 5) | 18 => (7, 5) | 19 => (5, 6) | 20 => (5, 7) | 21 => (1, 5) | 22 => (2, 5) | 23 => (5, 1) | 24 => (5, 2)
  | 25 => (14, 5) | 26 => (15, 5) | 27 => (12, 5) | 28 => (13, 5) | 29 => (5, 14) | 30 => (5, 15) | 31 => (5, 12)
  | 32 => (5, 13) | 33 => (14, 1) | 34 => (12, 1) | 35 => (15, 2) | 36 => (13, 2) | 37 => (1, 14) | 38 => (1, 12)
  | _ => (0, 0)

/-- The HMOD values a HOP accepts (R58). -/
def Half.hmodOk (h : Half) : Bool :=
  let m := h.hmod.toNat
  let hop := h.hop.toNat
  if hop ≤ 3 then [1, 2, 10, 11].contains m
  else if hop ≤ 11 || hop = 39 then m = 0
  else if hop = 12 then m = 1 || m = 10
  else if hop ≤ 16 then [5, 6, 7, 8, 9].contains m
  else cvtModOk (cvtHop hop).1 (cvtHop hop).2 (m % 8) (m / 8)

def Half.ok (h : Half) : Bool :=
  h.hop.toNat < 40 && h.hmodOk
    && (match h.asel.toNat with
        | 0 => h.imm24 = 0
        | 1 => h.imm24 = 0 && highZero h.a 8
        | 2 => h.a = 0
        | _ => false)

/-- The vector registers a half reads: its A, and D of a binary half. -/
def Half.reads (h : Half) : List Nat :=
  (if h.asel = 0 then [h.a.toNat] else []) ++ (if h.binary then [h.d.toNat] else [])

/-- The pairing rules (R59). -/
def pairOk (x y : Half) : Bool :=
  x.ok && y.ok
    && x.d.toNat % 4 != y.d.toNat % 4
    && !(x.asel = 0 && y.asel = 0 && x.a.toNat % 4 = y.a.toNat % 4)
    && !(y.reads.contains x.d.toNat) && !(x.reads.contains y.d.toNat)

/-- Full-form words W1 to W4 that the decoder fuses, by the conditions R134 states of the words themselves (1 to 6; the
legality of 9 is in `Instr.legal`). Condition 7 and consecutiveness are the fetch's. -/
def fusable (w1 w2 w3 w4 : Fields) : Bool :=
  let sameGuards (p q : Fields) := p.g1 = q.g1 && p.g2 = q.g2 && p.gcomb = q.gcomb
  !w1.immForm && !w2.immForm && !w3.immForm && !w4.immForm
    && w1.ty = 5 && w2.ty = 5 && w3.ty = 5 && w4.ty = 5
    && w1.e = 2 && !w1.ds && w4.e = 0 && !w4.ds && !w2.ds && !w3.ds
    && w2.selA = w1.selA && w2.a = w1.a && w2.selB = 0 && w2.b = w1.d
    && w3.selA = 0 && w3.a = w2.d && w4.selA = 0 && w4.a = w3.d
    && sameGuards w1 w2 && sameGuards w1 w3 && sameGuards w1 w4

/-- A full-form word obeys its form's shape. -/
def Instr.shapeOk (i : Instr) : Bool :=
  match i.shape with
  | some (f, s) => s.legal f
  | none => false

/-- A word of the opcode map is an instruction (R62); four words fuse (R134). An event is no word. -/
def Instr.legal (i : Instr) : Bool :=
  match i with
  | .pairWord x y => pairOk x y
  | .fusedSoftmax w1 w2 w3 w4 => fusable w1 w2 w3 w4
      && (Instr.reduce w1).shapeOk && (Instr.fsub w2).shapeOk && (Instr.exp2 w3).shapeOk && (Instr.reduce w4).shapeOk
  | i => i.shapeOk

/-! ## Register budgets (R47) -/

/-- The most vector registers, scalar registers and accumulator tiles that an operand reaches. -/
def Use.reach (u : Use) (sel : BitVec 2) (x : BitVec 10) : Nat × Nat × Nat :=
  match u with
  | .vec n => (x.toNat + n, 0, 0)
  | .sca => (0, x.toNat + 1, 0)
  | .scaBase n => (0, x.toNat + n, 0)
  | .src n => if sel = 0 then (x.toNat + n, 0, 0) else if sel = 1 then (0, x.toNat + 1, 0) else (0, 0, 0)
  | .uni _ => if sel = 1 then (0, x.toNat + 1, 0) else (0, 0, 0)
  | .addr => if sel = 0 then (x.toNat + 2, 0, 0) else (0, x.toNat + 1, 0)
  | .acc => (0, 0, x.toNat + 1)
  | _ => (0, 0, 0)

def maxReach (p q : Nat × Nat × Nat) : Nat × Nat × Nat := (max p.1 q.1, max p.2.1 q.2.1, max p.2.2 q.2.2)

def Half.reach (h : Half) : Nat × Nat × Nat :=
  maxReach (h.d.toNat + 1, 0, 0)
    (if h.asel = 0 then (h.a.toNat + 1, 0, 0) else if h.asel = 1 then (0, h.a.toNat + 1, 0) else (0, 0, 0))

/-- What a full-form word names in each file. -/
def Instr.shapeReach (i : Instr) : Nat × Nat × Nat :=
  match i.shape with
  | some (f, s) =>
    let a := if f.immForm && s.imm = .forA then (0, 0, 0) else s.a.reach f.selA f.a
    let b := if f.immForm && s.imm = .forB then (0, 0, 0) else s.b.reach f.selB f.b
    let c := if f.immForm && s.imm = .forC then (0, 0, 0) else s.c.reach f.selC f.c
    let carried := match i with | .reform f => (f.mod.toNat, 0, 0) | _ => (0, 0, 0)
    maxReach carried (maxReach (s.d.reach 0 f.d) (maxReach (s.e.reach 0 f.e) (maxReach a (maxReach b c))))
  | none => (0, 0, 0)

/-- What an instruction names in each file: it is within the role's budget when each count is at most the role's
(R47). -/
def Instr.reach (i : Instr) : Nat × Nat × Nat :=
  match i with
  | .pairWord x y => maxReach x.reach y.reach
  | .fusedSoftmax w1 w2 w3 w4 => maxReach (Instr.reduce w1).shapeReach
      (maxReach (Instr.fsub w2).shapeReach (maxReach (Instr.exp2 w3).shapeReach (Instr.reduce w4).shapeReach))
  | i => i.shapeReach

/-! ## Registers a word names (R55, R188) -/

def from_ (r n : Nat) : List Nat := (List.range n).map fun i => r + i

/-- The vector registers, scalar registers and accumulator tiles an operand names. -/
def Use.names (u : Use) (sel : BitVec 2) (x : BitVec 10) : List Nat × List Nat × List Nat :=
  match u with
  | .vec n => (from_ x.toNat n, [], [])
  | .sca => ([], [x.toNat], [])
  | .scaBase n => ([], from_ x.toNat n, [])
  | .src n => if sel = 0 then (from_ x.toNat n, [], []) else if sel = 1 then ([], [x.toNat], []) else ([], [], [])
  | .uni _ => if sel = 1 then ([], [x.toNat], []) else ([], [], [])
  | .addr => if sel = 0 then (from_ x.toNat 2, [], []) else ([], [x.toNat], [])
  | .acc => ([], [], [x.toNat])
  | _ => ([], [], [])

def joinNames (p q : List Nat × List Nat × List Nat) : List Nat × List Nat × List Nat :=
  (p.1 ++ q.1, p.2.1 ++ q.2.1, p.2.2 ++ q.2.2)

def Half.names (h : Half) : List Nat × List Nat × List Nat :=
  (h.d.toNat :: (if h.asel = 0 then [h.a.toNat] else []), if h.asel = 1 then [h.a.toNat] else [], [])

def Instr.shapeNames (i : Instr) : List Nat × List Nat × List Nat :=
  match i.shape with
  | some (f, s) =>
    let a := if f.immForm && s.imm = .forA then ([], [], []) else s.a.names f.selA f.a
    let b := if f.immForm && s.imm = .forB then ([], [], []) else s.b.names f.selB f.b
    let c := if f.immForm && s.imm = .forC then ([], [], []) else s.c.names f.selC f.c
    let carried := match i with | .reform f => (from_ 0 f.mod.toNat, [], []) | _ => ([], [], [])
    joinNames carried (joinNames (s.d.names 0 f.d) (joinNames (s.e.names 0 f.e) (joinNames a (joinNames b c))))
  | none => ([], [], [])

/-- The registers and tiles of a word, as its operands name them. -/
def Instr.names (i : Instr) : List Nat × List Nat × List Nat :=
  match i with
  | .pairWord x y => joinNames x.names y.names
  | .fusedSoftmax w1 w2 w3 w4 => joinNames (Instr.reduce w1).shapeNames
      (joinNames (Instr.fsub w2).shapeNames (joinNames (Instr.exp2 w3).shapeNames (Instr.reduce w4).shapeNames))
  | i => i.shapeNames

end Sys2Proof
end

