-- ==== Sys2Proof/Machine/Numbers.lean ====
section
/-! DEFINITION. Numbers: exact values, decoding, rounding, overflow and conversion (R64 to R84), as functions on bits. -/

namespace Sys2Proof.Machine

/-! ## Exact values -/

/-- An exact rational n / d, d > 0 (R34: pseudocode values are exact). -/
structure Q where
  n : Int
  d : Nat
  deriving DecidableEq, Repr

def Q.ofInt (n : Int) : Q := ⟨n, 1⟩
/-- n × 2^e. -/
def Q.dyadic (n : Int) (e : Int) : Q := if 0 ≤ e then ⟨n * 2 ^ e.toNat, 1⟩ else ⟨n, 2 ^ (-e).toNat⟩
def Q.neg (a : Q) : Q := ⟨-a.n, a.d⟩
def Q.abs (a : Q) : Q := ⟨a.n.natAbs, a.d⟩
def Q.add (a b : Q) : Q :=
  if b.d % a.d = 0 then ⟨a.n * (b.d / a.d : Nat) + b.n, b.d⟩
  else if a.d % b.d = 0 then ⟨a.n + b.n * (a.d / b.d : Nat), a.d⟩
  else ⟨a.n * b.d + b.n * a.d, a.d * b.d⟩
def Q.sub (a b : Q) : Q := a.add b.neg
/-- The product, its common factor 2^k taken out so that denominators stay small. -/
def Q.mul (a b : Q) : Q :=
  let g := Nat.gcd (a.n * b.n).natAbs (a.d * b.d)
  ⟨(a.n * b.n) / (g : Int), a.d * b.d / g⟩
/-- a / b for b ≠ 0. -/
def Q.div (a b : Q) : Q := if b.n < 0 then ⟨-(a.n * b.d), a.d * b.n.natAbs⟩ else ⟨a.n * b.d, a.d * b.n.natAbs⟩
def Q.lt (a b : Q) : Bool := a.n * b.d < b.n * a.d
def Q.le (a b : Q) : Bool := a.n * b.d ≤ b.n * a.d
def Q.eq (a b : Q) : Bool := a.n * b.d = b.n * a.d
def Q.isZero (a : Q) : Bool := a.n = 0
def Q.isNeg (a : Q) : Bool := a.n < 0
/-- The greatest integer at or below a. -/
def Q.floor (a : Q) : Int := a.n / (a.d : Int)
/-- a / 2^e. -/
def Q.shift (a : Q) (e : Int) : Q := if 0 ≤ e then ⟨a.n, a.d * 2 ^ e.toNat⟩ else ⟨a.n * 2 ^ (-e).toNat, a.d⟩
/-- ⌊log2 a⌋ for a > 0. -/
def Q.log2 (a : Q) : Int :=
  let e : Int := (Nat.log2 a.n.natAbs : Int) - (Nat.log2 a.d : Int)
  if (Q.dyadic 1 e).le a then e else e - 1

/-- A decoded value (R82). A finite value that is not zero is `fin`; `nan` keeps its sign and its fraction, left-aligned
to binary32's 23 bits (R67); `nar` is the tapered NaR. -/
inductive Num where
  | fin (q : Q)
  | zero (neg : Bool)
  | inf (neg : Bool)
  | nan (neg : Bool) (frac : BitVec 23)
  | nar
  deriving DecidableEq, Repr

/-- An exact value as a number, a zero being positive. -/
def Num.ofQ (q : Q) : Num := if q.n = 0 then .zero false else .fin q
def Num.ofInt (n : Int) : Num := Num.ofQ (Q.ofInt n)
/-- The exact value; 0 where there is none. -/
def Num.toQ : Num → Q
  | .fin q => q
  | _ => ⟨0, 1⟩
def Num.isNaN : Num → Bool
  | .nan _ _ => true
  | .nar => true
  | _ => false
def Num.isInf : Num → Bool
  | .inf _ => true
  | _ => false
def Num.isZero : Num → Bool
  | .zero _ => true
  | _ => false
def Num.sign : Num → Bool
  | .fin q => q.isNeg
  | .zero s | .inf s | .nan s _ => s
  | .nar => false
def Num.negate : Num → Num
  | .fin q => .fin q.neg
  | .zero s => .zero !s
  | .inf s => .inf !s
  | x => x

/-! ## Kinds -/

/-- An element kind: IEEE (exponent bits, fraction bits), integer (signed, width) or tapered (width, exponent bits). -/
inductive Kind where
  | ieee (eb fb : Nat)
  | int (signed : Bool) (w : Nat)
  | tapered (n es : Nat)
  deriving DecidableEq, Repr

def kF32 : Kind := .ieee 8 23
def kF16 : Kind := .ieee 5 10
def kBf16 : Kind := .ieee 8 7
def kT8 : Kind := .tapered 8 1
def kT6 : Kind := .tapered 6 1
def kT4 : Kind := .tapered 4 0
def kI32 : Kind := .int true 32
def kW32 : Kind := .int false 32
def kI64 : Kind := .int true 64
def kW64 : Kind := .int false 64

/-- The kind of one element of a TYPE code (R51, R64); b32 is read as w32. -/
def tyKind : Nat → Kind
  | 1 => kI32
  | 3 => kI64
  | 4 => kW64
  | 5 => kF32
  | 6 | 8 => kF16
  | 7 | 9 => kBf16
  | 10 | 14 => .int true 16
  | 11 | 13 => .int false 8
  | 12 => .int true 8
  | 15 => .int false 16
  | _ => kW32

def Kind.width : Kind → Nat
  | .ieee eb fb => 1 + eb + fb
  | .int _ w => w
  | .tapered n _ => n

def Kind.isIeee : Kind → Bool
  | .ieee _ _ => true
  | _ => false

/-! ## Decode (R65, R69, R70) -/

/-- Fraction bits between a kind's `fb` and binary32's 23, left-aligned. -/
def fracToPayload (fb f : Nat) : BitVec 23 := BitVec.ofNat 23 (f * 2 ^ (23 - fb))

def decodeIeee (eb fb bits : Nat) : Num :=
  let s := bits / 2 ^ (eb + fb) % 2 = 1
  let e := bits / 2 ^ fb % 2 ^ eb
  let f := bits % 2 ^ fb
  let bias : Int := 2 ^ (eb - 1) - 1
  let sgn (m : Nat) : Int := if s then -(m : Int) else m
  if e = 2 ^ eb - 1 then (if f = 0 then .inf s else .nan s (fracToPayload fb f))
  else if e = 0 then (if f = 0 then .zero s else .fin (Q.dyadic (sgn f) (1 - bias - fb)))
  else .fin (Q.dyadic (sgn (2 ^ fb + f)) (e - bias - fb))

/-- The length of the run of bits equal to `r` from bit `k - 1` of c downwards (R70). -/
def taperedRun (c : Nat) (r : Bool) : Nat → Nat
  | 0 => 0
  | k + 1 => if c.testBit k = r then 1 + taperedRun c r k else 0

/-- The value of a positive finite tapered code (R70). -/
def taperedMag (n es c : Nat) : Q :=
  let r := c.testBit (n - 2)
  let m := taperedRun c r (n - 1)
  let k : Int := if r then m - 1 else -m
  let rest := n - 1 - m - 1                       -- bits after the terminating bit
  let tail := c % 2 ^ rest
  let e := if rest ≥ es then tail / 2 ^ (rest - es) else tail * 2 ^ (es - rest)
  let fbits := rest - es
  let f := tail % 2 ^ fbits
  Q.dyadic (2 ^ fbits + f) (k * 2 ^ es + e - fbits)

/-- T8 and T6 have infinity codes; T4 has none (R71). -/
def taperedInf (es : Nat) : Bool := es = 1
/-- The code of the largest finite value (R71). -/
def taperedMax (n es : Nat) : Nat := if taperedInf es then 2 ^ (n - 1) - 2 else 2 ^ (n - 1) - 1

def decodeTapered (n es bits : Nat) : Num :=
  let c := bits % 2 ^ n
  if c = 0 then .zero false
  else if c = 2 ^ (n - 1) then .nar
  else if taperedInf es && c = 2 ^ (n - 1) - 1 then .inf false
  else if taperedInf es && c = 2 ^ (n - 1) + 1 then .inf true
  else if c.testBit (n - 1) then .fin (taperedMag n es (2 ^ n - c)).neg
  else .fin (taperedMag n es c)

/-- Decode(kind, bits) (R82). Bits above the kind's width are ignored (R64). -/
def decodeNum (k : Kind) (bits : Nat) : Num :=
  match k with
  | .ieee eb fb => decodeIeee eb fb (bits % 2 ^ (1 + eb + fb))
  | .int signed w =>
    let b := bits % 2 ^ w
    Num.ofInt (if signed && b ≥ 2 ^ (w - 1) then (b : Int) - 2 ^ w else b)
  | .tapered n es => decodeTapered n es bits

/-- An integer kind's value. -/
def decodeInt (k : Kind) (bits : Nat) : Int := (decodeNum k bits).toQ.n

/-! ## Rounding (R76, R77) -/

/-- Whether the magnitude t + rem goes up to t + 1: `half` compares rem with a half (lt, eq, gt), and t's last bit is
the encoding's. -/
def roundUp (rnd : Nat) (neg : Bool) (odd : Bool) (half : Ordering) : Bool :=
  match rnd with
  | 0 => half = .gt || (half = .eq && odd)
  | 1 => false
  | 2 => !neg
  | 3 => neg
  | _ => !odd

/-- ⌊m⌋ and the comparison of its remainder with a half; none when m is an integer. -/
def floorHalf (m : Q) : Nat × Option Ordering :=
  let t := (m.n / (m.d : Int)).toNat
  let r := (m.n % (m.d : Int)).toNat
  (t, if r = 0 then none else some (compare (2 * r) m.d))

/-- The integer chosen from m ≥ 0, whose sign is `neg`. -/
def roundMag (rnd : Nat) (neg : Bool) (m : Q) : Nat :=
  match floorHalf m with
  | (t, none) => t
  | (t, some h) => if roundUp rnd neg (t % 2 = 1) h then t + 1 else t

/-- The exponent of the spacing of an IEEE kind at magnitude m > 0. -/
def ieeeUnit (eb fb : Nat) (m : Q) : Int :=
  let emin : Int := 2 - 2 ^ (eb - 1)
  max (m.log2 - fb) (emin - fb)

/-- Largest finite as t and the unit's exponent: 2^(fb+1) - 1 units of 2^(emax - fb). -/
def ieeeOverflows (eb fb t : Nat) (u : Int) : Bool :=
  let emax : Int := 2 ^ (eb - 1) - 1
  (Q.dyadic (2 ^ (fb + 1) - 1) (emax - fb)).lt (Q.dyadic t u)

/-- The encoding of t units of 2^u, in magnitude. -/
def ieeeMagBits (eb fb t : Nat) (u : Int) : Nat :=
  let emin : Int := 2 - 2 ^ (eb - 1)
  (u - (emin - fb)).toNat * 2 ^ fb + t

def ieeeSign (eb fb : Nat) (neg : Bool) : Nat := if neg then 2 ^ (eb + fb) else 0
def ieeeInf (eb fb : Nat) (neg : Bool) : Nat := ieeeSign eb fb neg + (2 ^ eb - 1) * 2 ^ fb
def ieeeMax (eb fb : Nat) (neg : Bool) : Nat := ieeeInf eb fb neg - 1
def ieeeZero (eb fb : Nat) (neg : Bool) : Nat := ieeeSign eb fb neg
/-- The default NaN (R65). -/
def ieeeNaN (eb fb : Nat) : Nat := (2 ^ eb - 1) * 2 ^ fb + 2 ^ (fb - 1)
/-- A NaN with its sign and payload kept and its quiet bit set (R67). -/
def ieeeQuiet (eb fb : Nat) (neg : Bool) (frac : BitVec 23) : Nat :=
  let f := frac.toNat / 2 ^ (23 - fb)
  ieeeSign eb fb neg + (2 ^ eb - 1) * 2 ^ fb + (if f ≥ 2 ^ (fb - 1) then f else f + 2 ^ (fb - 1))

/-- What R79 and R80 do with an overflow. -/
inductive Policy where
  /-- no down-conversion: R80 -/
  | ieee754
  | sat | infinity | nan | trap
  deriving DecidableEq, Repr

/-- OVF of a down-conversion (R51). -/
def ovfPolicy : Nat → Policy
  | 0 => .sat
  | 1 => .infinity
  | 2 => .nan
  | _ => .trap

/-- Overflow to an IEEE kind (R79, R80); none is the overflow fault. -/
def ieeeOverflow (eb fb rnd : Nat) (p : Policy) (neg : Bool) : Option Nat :=
  match p with
  | .ieee754 =>
    some (match rnd, neg with
      | 0, s => ieeeInf eb fb s
      | 2, false => ieeeInf eb fb false
      | 3, true => ieeeInf eb fb true
      | _, s => ieeeMax eb fb s)
  | .sat => some (ieeeMax eb fb neg)
  | .infinity => some (ieeeInf eb fb neg)
  | .nan => some (ieeeNaN eb fb)
  | .trap => none

/-- The largest code c ≤ maxpos with value at most m, found bit by bit on the code line (R71). -/
def taperedFloor (n es : Nat) (m : Q) : Nat → Nat → Nat
  | 0, c => c
  | k + 1, c =>
    let c' := c + 2 ^ k
    taperedFloor n es m k (if c' ≤ taperedMax n es && (taperedMag n es c').le m then c' else c)

/-- A magnitude code with its sign (R70). -/
def taperedSign (n : Nat) (neg : Bool) (c : Nat) : Nat := if neg then (2 ^ n - c) % 2 ^ n else c

/-- Overflow to a tapered kind (R79). -/
def taperedOverflow (n es : Nat) (p : Policy) (neg : Bool) : Option Nat :=
  match p with
  | .ieee754 | .sat => some (taperedSign n neg (taperedMax n es))
  | .infinity => some (if taperedInf es then taperedSign n neg (2 ^ (n - 1) - 1) else 2 ^ (n - 1))
  | .nan => some (2 ^ (n - 1))
  | .trap => none

def intMin (signed : Bool) (w : Nat) : Int := if signed then -2 ^ (w - 1) else 0
def intMax (signed : Bool) (w : Nat) : Int := if signed then 2 ^ (w - 1) - 1 else 2 ^ w - 1
/-- The encoding of an integer in w bits (R69). -/
def intBits (w : Nat) (x : Int) : Nat := (x % 2 ^ w).toNat

/-- Overflow to an integer kind (R79); policies 01 and 10 are no instruction there. -/
def intOverflow (signed : Bool) (w : Nat) (p : Policy) (neg : Bool) : Option Nat :=
  match p with
  | .trap => none
  | _ => some (intBits w (if neg then intMin signed w else intMax signed w))

/-- A finite nonzero value rounded into a kind (R76 to R80). -/
def roundFin (k : Kind) (q : Q) (rnd : Nat) (p : Policy) : Option Nat :=
  let neg := q.isNeg
  let m := q.abs
  match k with
  | .ieee eb fb =>
    let u := ieeeUnit eb fb m
    let t := roundMag rnd neg (m.shift u)
    if ieeeOverflows eb fb t u then ieeeOverflow eb fb rnd p neg
    else some (ieeeSign eb fb neg + ieeeMagBits eb fb t u)
  | .int signed w =>
    let t := roundMag rnd neg m
    let x : Int := if neg then -(t : Int) else t
    if x < intMin signed w ∨ intMax signed w < x then intOverflow signed w p neg else some (intBits w x)
  | .tapered n es =>
    if (taperedMag n es (taperedMax n es)).lt m then taperedOverflow n es p neg
    else
      let c := taperedFloor n es m (n - 1) 0
      if c = 0 then some (taperedSign n neg 1)
      else
        let lo := taperedMag n es c
        if lo.eq m then some (taperedSign n neg c)
        else
          let hi := taperedMag n es (c + 1)
          let half := if ((m.sub lo).lt (hi.sub m)) then Ordering.lt else if (m.sub lo).eq (hi.sub m) then .eq else .gt
          some (taperedSign n neg (if roundUp rnd neg (c % 2 = 1) half then c + 1 else c))

/-- RoundTo(kind, x, rnd, ovf) (R82): special values by R67 and R81; none is the overflow fault (R79). -/
def roundTo? (k : Kind) (x : Num) (rnd : Nat) (p : Policy) : Option Nat :=
  match k, x with
  | k, .fin q => roundFin k q rnd p
  | .ieee eb fb, .zero s => some (ieeeZero eb fb s)
  | .ieee eb fb, .inf s => some (ieeeInf eb fb s)
  | .ieee eb fb, .nan s f => some (ieeeQuiet eb fb s f)
  | .ieee eb fb, .nar => some (ieeeNaN eb fb)
  | .int _ _, .zero _ => some 0
  | .int signed w, .inf s => intOverflow signed w p s
  | .int _ _, _ => if p = .trap then none else some 0
  | .tapered _ _, .zero _ => some 0
  | .tapered n es, .inf s => if taperedInf es then some (taperedSign n s (2 ^ (n - 1) - 1)) else taperedOverflow n es p s
  | .tapered n _, _ => some (2 ^ (n - 1))

/-- RoundTo where no down-conversion takes place: overflow by R80, and never a fault. -/
def roundTo (k : Kind) (x : Num) (rnd : Nat) : Nat := (roundTo? k x rnd .ieee754).getD 0

/-- The destination write of R64: a narrow integer is extended to 32 bits by its sign or by zero. -/
def destBits (k : Kind) (bits : Nat) : Nat :=
  match k with
  | .int true w => if w < 32 && bits ≥ 2 ^ (w - 1) then bits + 2 ^ 32 - 2 ^ w else bits
  | _ => bits

/-! ## Flush (R66) -/

/-- The bits hold a subnormal of the kind. -/
def isSubnormal (k : Kind) (bits : Nat) : Bool :=
  match k with
  | .ieee eb fb => bits / 2 ^ fb % 2 ^ eb = 0 && bits % 2 ^ fb != 0
  | _ => false

/-- A subnormal becomes a zero of its sign when flush = 1. -/
def flushBits (flush : Bool) (k : Kind) (bits : Nat) : Nat :=
  match k with
  | .ieee eb fb => if flush && isSubnormal k bits then ieeeZero eb fb (bits / 2 ^ (eb + fb) % 2 = 1) else bits
  | _ => bits

/-! ## Arithmetic on values -/

/-- The default NaN as a value. -/
def defaultNaN : Num := .nan false 0x400000

/-- The first NaN among the sources, quieted on encoding (R67). -/
def firstNaN : List Num → Option Num
  | [] => none
  | x :: xs => if x.isNaN then some x else firstNaN xs

/-- A product of two values that are not NaN; ∞ × 0 is invalid (R124). -/
def mulNum (a b : Num) : Num :=
  match a, b with
  | .fin p, .fin q => .fin (p.mul q)
  | .inf _, .zero _ | .zero _, .inf _ => defaultNaN
  | .inf s, y => .inf (s != y.sign)
  | x, .inf s => .inf (x.sign != s)
  | x, y => .zero (x.sign != y.sign)

/-- The exact sum of terms that are not NaN. Infinities of both signs are invalid; an exact zero is -0 when every term
is -0 or the mode is rm with some term, else +0 (R123, R142). -/
def sumNum (rnd : Nat) (xs : List Num) : Num :=
  if xs.any (fun x => x = .inf false) && xs.any (fun x => x = .inf true) then defaultNaN
  else if xs.any (fun x => x = .inf false) then .inf false
  else if xs.any (fun x => x = .inf true) then .inf true
  else
    let q := (xs.map Num.toQ).foldl Q.add ⟨0, 1⟩
    if q.n = 0 then
      .zero (if xs.all (fun x => x = .zero true) && !xs.isEmpty then true
        else if xs.all (fun x => x = .zero false) && !xs.isEmpty then false else rnd = 3)
    else .fin q

/-- The sum of REDUCE and SCAN (R142): as `sumNum`, but an exact zero is -0 under rm whatever its terms are. -/
def reduceSum (rnd : Nat) (xs : List Num) : Num :=
  match sumNum rnd xs with
  | .zero s => .zero (s || rnd = 3)
  | x => x

/-- Numeric order of two values that are not NaN; both zeros are equal. -/
def numLt (a b : Num) : Bool :=
  match a, b with
  | .inf s, .inf t => s && !t
  | .inf s, _ => s
  | _, .inf s => !s
  | x, y => x.toQ.lt y.toQ
def numEq (a b : Num) : Bool := !numLt a b && !numLt b a

end Sys2Proof.Machine
end

