-- ==== Sys2Proof/WellFormed.lean ====
section
/-! DEFINITION. Well-formed instructions: a word that R62 does not call illegal, or an event whose unit exists on the
device (8 partitions R12, 4 dies and 2048 cores R11 and R16, 64 VCP pages R272 of 60 queues R276, 4 links R375, 1 MiB of
BAR0 R372). -/

namespace Sys2Proof

/-- The queue events and the packets: page v and queue q exist (R272, R276). -/
def queueExists (page q : Nat) : Bool := page < 64 && q < 60
/-- A link's port (R375). -/
def portExists (port : Nat) : Bool := port < 4
/-- A partition (R12). -/
def partExists (part : Nat) : Bool := part < 8
/-- A core (R16). -/
def coreExists (core : Nat) : Bool := core < 2048

/-- The fields of an edge header fit their places (R378). -/
def EdgePacket.fits (p : EdgePacket) : Bool :=
  p.ver < 2 ^ 8 && p.spare < 2 ^ 40 && p.graph < 2 ^ 16 && p.edge < 2 ^ 16 && p.frame < 2 ^ 32 && p.group < 2 ^ 16 && p.idx < 2 ^ 8 && p.k < 2 ^ 8
    && p.nrec < 2 ^ 16 && p.seq0 < 2 ^ 16 && p.cseq < 2 ^ 32 && p.body.length < 2 ^ 32

/-- A host access stays within module memory, the trigger registers or host memory (R374). -/
def hostRange (pa len : Nat) : Bool := 0 < len && pa + len ≤ 2 ^ 64

def Instr.wf (i : Instr) : Bool :=
  match i with
  | .queueSwap page q | .queueWaitTimeout page q | .queueWatchdog page q | .waitSignalWake page q | .loadGraph page q
  | .trigger page q | .signal page q | .waitSignal page q | .copy page q | .setCut page q | .query page q
  | .fencePacket page q | .partCreate page q | .partDestroy page q | .vcpAssign page q | .ctxCreate page q
  | .ctxBind page q | .ctxDestroy page q | .ctxPreempt page q | .ctxRestore page q | .ctxReset page q
  | .setPortShare page q | .setPlacer page q | .setGroupScheduler page q | .setTenantQuantum page q
  | .setHomingEntry page q => queueExists page q
  | .vcpNotify page _ | .vcpErrClear page _ => page < 64
  | .clockRebase part _ | .portPeriodBoundary part | .trPrqWrite part _ | .trInvGo part _ | .invalidationComplete part
  | .tenantRound part | .teamPlace part | .cutMoveEnd part | .partitionScrubDone part => partExists part
  | .clockAdvance core | .thermalTrip core => coreExists core
  | .reformDraw core bin => coreExists core && bin < 16
  | .pageWalk ctx die _ _ => ctx < 4096 && die < 4
  | .registerWrite offset _ => offset < 2 ^ 20 && offset % 8 = 0
  | .contextSaved ctx | .restoreAdmit ctx | .contextScrubDone ctx => ctx < 4096
  | .hostCxlMemRead pa len => hostRange pa len
  | .hostCxlMemWrite pa bytes | .hostSnoop pa bytes => hostRange pa bytes.length
  | .linkEnable port _ | .linkDisable port _ | .pcsLinkUp port | .pcsLinkLoss port | .trainingTimeout port
  | .controlResend port | .neighborSolicitation port _ | .neighborCacheExpiry port _
  | .neighborResolutionTimeout port _ => portExists port
  | .data port p | .parity port p | .frame port p | .cutPropose port p | .cutAccept port p | .cutReject port p
  | .stateXfer port p | .stateAck port p | .refMiss port p | .cack port p | .ldata port p | .lack port p =>
    portExists port && p.fits
  | .channelTraining die _ => die < 4
  | .dependenceResolved _ | .groupPromote _ | .timerFire _ | .waitaWake _ _ | .waitaPoll _ | .loadDataReturn _
  | .asyncOpComplete _ | .gsigWrite _ | .tileFetchFault _ _ _ | .relaunchWalk _ | .teamTerminate _ _
  | .copyPacketComplete _ | .preemptDeadlineExpiry _ | .saveOverrun _ | .taskComplete _ _ | .triggerRunRequest _ _
  | .triggerClearOvr _ | .launchArgsFetch _ | .coreStart _ | .recordTeamAdmit _ | .nodeDone _ _ | .runEnd _
  | .coverageUpdate _ | .rasteriseTriangle _ _ | .blendRecord _ _ | .traverseRay _ _ | .solderRecord _ _
  | .frameClose _ _ _ | .lateRecord _ _ _ | .brassEncode _ _ _ | .waitsLimitExpiry _ | .mmaComplete _
  | .sensorResample _ | .powerPeriod _ | .supplyFault | .moduleReset | .fuseLoad | .memoryZero | .firmwareLoad _
  | .macEnable | .patrolScrub _ _ | .uncorrectableError _ | .correctedSoftError | .illegalInstruction _
  | .instructionFetchFault _ => true
  | i => i.legal

end Sys2Proof
end

