-- ==== Sys2Proof/Decode.lean ====
section
/-! DEFINITION. The decoder, total on any bytes and rejecting by name, and the encoder (R38 to R42, R57, R61, R62). -/

namespace Sys2Proof

/-- Why bytes are no instruction (R62). -/
inductive Reject where
  /-- fewer than 16 bytes: no whole word (R63) -/
  | short
  /-- KIND = 0b11 (R39) -/
  | noForm
  /-- an OP the map does not assign (R61) -/
  | unassigned (op : Nat)
  /-- a field the instruction's entry does not allow (R62) -/
  | field (op : Nat)
  /-- a half or a pairing R57 to R59 do not allow -/
  | pair
  deriving DecidableEq, Repr

/-- What the decoder answers. -/
inductive Decoded where
  | ok (i : Instr)
  | reject (why : Reject)
  deriving DecidableEq, Repr

/-- The bytes of a number, lowest address first (R3). -/
def leBytes : Nat → Nat → List Byte
  | 0, _ => []
  | n + 1, x => BitVec.ofNat 8 x :: leBytes n (x / 256)

/-- The number that bytes hold, lowest address first (R3). -/
def leNat : List Byte → Nat
  | [] => 0
  | b :: bs => b.toNat + 256 * leNat bs

/-- The fields of a full-form word (R40, R41). In the immediate form bits [127:96] are IMM32, and in the register form
they are OFF25, REUSE and STALL. -/
def fieldsOf (w : W128) : Fields :=
  let imm := w.getLsbD 1
  { immForm := imm
    imm32 := if imm then w.extractLsb' 96 32 else 0
    off25 := if imm then 0 else w.extractLsb' 103 25
    reuse := if imm then 0 else w.extractLsb' 99 4
    stall := if imm then 0 else w.extractLsb' 96 3
    yield := w.extractLsb' 95 1
    hint := w.extractLsb' 91 4
    gcomb := w.extractLsb' 90 1
    g2 := w.extractLsb' 85 5
    g1 := w.extractLsb' 80 5
    selC := w.extractLsb' 78 2
    selB := w.extractLsb' 76 2
    selA := w.extractLsb' 74 2
    e := w.extractLsb' 64 10
    c := w.extractLsb' 54 10
    b := w.extractLsb' 44 10
    a := w.extractLsb' 34 10
    d := w.extractLsb' 24 10
    mod := w.extractLsb' 12 12 }

/-- OP, bits [11:2] (R40). -/
def opField (w : W128) : Nat := (w.extractLsb' 2 10).toNat

/-- A half of a pair-form word (R57), its bits numbered from 0. -/
def halfOf (w : BitVec 63) : Half :=
  { imm24 := w.extractLsb' 39 24
    g := w.extractLsb' 34 5
    asel := w.extractLsb' 32 2
    a := w.extractLsb' 22 10
    d := w.extractLsb' 12 10
    hmod := w.extractLsb' 7 5
    hop := w.extractLsb' 0 7 }

/-- The opcode map (R61). MOVP, COVQ and CREST are two instructions each, told apart by MOD (R120, R420, R271). -/
def opMap (op : Nat) (f : Fields) : Option Instr :=
  match op with
  | 0x000 => some (.nop f)
  | 0x001 => some (.bra f)
  | 0x002 => some (.brx f)
  | 0x003 => some (.call f)
  | 0x004 => some (.callx f)
  | 0x005 => some (.ret f)
  | 0x006 => some (.exit_ f)
  | 0x007 => some (.yield f)
  | 0x008 => some (.brk f)
  | 0x009 => some (.loop f)
  | 0x040 => some (.iadd f)
  | 0x041 => some (.isub f)
  | 0x042 => some (.imul f)
  | 0x043 => some (.imulh f)
  | 0x044 => some (.imad f)
  | 0x045 => some (.imin f)
  | 0x046 => some (.imax f)
  | 0x047 => some (.iabs f)
  | 0x048 => some (.ineg f)
  | 0x049 => some (.and_ f)
  | 0x04A => some (.or_ f)
  | 0x04B => some (.xor_ f)
  | 0x04C => some (.not_ f)
  | 0x04D => some (.shl f)
  | 0x04E => some (.shr f)
  | 0x04F => some (.shra f)
  | 0x050 => some (.rotl f)
  | 0x051 => some (.bfx f)
  | 0x052 => some (.bfi f)
  | 0x053 => some (.popc f)
  | 0x054 => some (.clz f)
  | 0x055 => some (.brev f)
  | 0x056 => some (.icmp f)
  | 0x057 => some (.sel f)
  | 0x058 => some (.mov f)
  | 0x059 => some (.lea f)
  | 0x05A => some (.iaddc f)
  | 0x05B => some (.plop f)
  | 0x05C => some (if f.mod.getLsbD 9 then .movpSet f else .movpGet f)
  | 0x05D => some (.hash f)
  | 0x080 => some (.fadd f)
  | 0x081 => some (.fsub f)
  | 0x082 => some (.fmul f)
  | 0x083 => some (.ffma f)
  | 0x084 => some (.fmin f)
  | 0x085 => some (.fmax f)
  | 0x086 => some (.fcmp f)
  | 0x087 => some (.fclass f)
  | 0x088 => some (.frnd f)
  | 0x089 => some (.fscale f)
  | 0x08A => some (.fdot2 f)
  | 0x08B => some (.fmed3 f)
  | 0x0C0 => some (.cvt f)
  | 0x0C1 => some (.cvtn f)
  | 0x0C2 => some (.cvtw f)
  | 0x0C3 => some (.pack f)
  | 0x0C4 => some (.unpack f)
  | 0x100 => some (.shfl f)
  | 0x101 => some (.bcast f)
  | 0x102 => some (.vote f)
  | 0x103 => some (.reduce f)
  | 0x104 => some (.scan f)
  | 0x105 => some (.match_ f)
  | 0x106 => some (.compact f)
  | 0x140 => some (.rcp f)
  | 0x141 => some (.rsq f)
  | 0x142 => some (.sqrt f)
  | 0x143 => some (.exp2 f)
  | 0x144 => some (.log2 f)
  | 0x145 => some (.sin f)
  | 0x146 => some (.cos f)
  | 0x147 => some (.tanh f)
  | 0x148 => some (.sigm f)
  | 0x149 => some (.fdiv f)
  | 0x180 => some (.ld f)
  | 0x181 => some (.st f)
  | 0x182 => some (.lds f)
  | 0x183 => some (.sts f)
  | 0x184 => some (.ldp f)
  | 0x185 => some (.stp f)
  | 0x186 => some (.ldc f)
  | 0x187 => some (.ldg f)
  | 0x188 => some (.pref f)
  | 0x189 => some (.fence f)
  | 0x18A => some (.cctl f)
  | 0x1C0 => some (.atom f)
  | 0x1C1 => some (.acas f)
  | 0x1C2 => some (.atoms f)
  | 0x1C3 => some (.ldf f)
  | 0x1C4 => some (.stf f)
  | 0x1C5 => some (.freset f)
  | 0x1C6 => some (.waita f)
  | 0x1C7 => some (.waits f)
  | 0x200 => some (.hset f)
  | 0x201 => some (.hld f)
  | 0x202 => some (.hst f)
  | 0x203 => some (.hget f)
  | 0x204 => some (.mma f)
  | 0x205 => some (.zld f)
  | 0x206 => some (.zst f)
  | 0x207 => some (.zzero f)
  | 0x208 => some (.zmov f)
  | 0x209 => some (.zred f)
  | 0x20A => some (.zscale f)
  | 0x20B => some (.qscale f)
  | 0x240 => some (.cpy f)
  | 0x241 => some (.cpyt f)
  | 0x242 => some (.gthr f)
  | 0x243 => some (.sctr f)
  | 0x244 => some (.rcon f)
  | 0x245 => some (.trace f)
  | 0x246 => some (.adrain f)
  | 0x247 => some (.aqry f)
  | 0x280 => some (.launch f)
  | 0x281 => some (.rget f)
  | 0x282 => some (.remit f)
  | 0x283 => some (.rdone f)
  | 0x284 => some (.gsig f)
  | 0x285 => some (if f.mod.getLsbD 0 then .covqPt f else .covqMe f)
  | 0x2C0 => some (.tex1 f)
  | 0x2C1 => some (.texf f)
  | 0x2C2 => some (.texq f)
  | 0x2C3 => some (.discard f)
  | 0x2C4 => some (.depthw f)
  | 0x2C5 => some (.attr f)
  | 0x300 => some (.bar f)
  | 0x301 => some (.binit f)
  | 0x302 => some (.bexp f)
  | 0x303 => some (.barv f)
  | 0x304 => some (.bwait f)
  | 0x305 => some (.jarm f)
  | 0x306 => some (.join f)
  | 0x307 => some (.jdrop f)
  | 0x308 => some (.reform f)
  | 0x309 => some (.bqry f)
  | 0x340 => some (.trap f)
  | 0x341 => some (.tret f)
  | 0x342 => some (.region f)
  | 0x343 => some (.pyield f)
  | 0x344 => some (.timer f)
  | 0x345 => some (.srd f)
  | 0x346 => some (.swr f)
  | 0x347 => some (.csave f)
  | 0x348 => some (if f.mod.getLsbD 0 then .crestGo f else .crestChk f)
  | 0x349 => some (.halt f)
  | _ => none

/-- The decoder of one word (R39, R62). -/
def decode (w : W128) : Decoded :=
  match (w.extractLsb' 0 2).toNat with
  | 3 => .reject .noForm
  | 1 =>
    let i := Instr.pairWord (halfOf (w.extractLsb' 2 63)) (halfOf (w.extractLsb' 65 63))
    if i.legal then .ok i else .reject .pair
  | _ =>
    match opMap (opField w) (fieldsOf w) with
    | none => .reject (.unassigned (opField w))
    | some i => if i.legal then .ok i else .reject (.field (opField w))

/-- The word held by 16 bytes, little-endian (R3, R38). -/
def wordOfBytes (bs : List Byte) : W128 := BitVec.ofNat 128 (leNat bs)
/-- The 16 bytes of a word (R3, R38). -/
def bytesOfWord (w : W128) : List Byte := leBytes 16 w.toNat

/-- The decoder of bytes: the first 16 are the word, the rest is left. -/
def decodeBytes (bs : List Byte) : Decoded :=
  if bs.length < 16 then .reject .short else decode (wordOfBytes (bs.take 16))

/-- Four consecutive words that the decoder fuses (R134, conditions 1 to 6 and 9). -/
def fuse (a b c d : Decoded) : Option Instr :=
  match a, b, c, d with
  | .ok (.reduce w1), .ok (.fsub w2), .ok (.exp2 w3), .ok (.reduce w4) =>
    if (Instr.fusedSoftmax w1 w2 w3 w4).legal then some (.fusedSoftmax w1 w2 w3 w4) else none
  | _, _, _, _ => none

/-- The decoder of four words, of which none after the first is a branch target (R134). -/
def decodeFour (bs : List Byte) : Decoded :=
  let at_ (k : Nat) : Decoded := decodeBytes (bs.drop (16 * k))
  match fuse (at_ 0) (at_ 1) (at_ 2) (at_ 3) with
  | some i => .ok i
  | none => at_ 0

/-! ## The encoder -/

/-- A full-form word's bits from its fields and OP (R40, R41). -/
def Fields.word (f : Fields) (op : BitVec 10) : W128 :=
  let low : BitVec 96 := f.yield ++ f.hint ++ f.gcomb ++ f.g2 ++ f.g1 ++ f.selC ++ f.selB ++ f.selA
    ++ f.e ++ f.c ++ f.b ++ f.a ++ f.d ++ f.mod ++ op ++ (if f.immForm then 2#2 else 0#2)
  let high : BitVec 32 := if f.immForm then f.imm32 else f.off25 ++ f.reuse ++ f.stall
  high ++ low

/-- A half's bits (R57). -/
def Half.bits (h : Half) : BitVec 63 := h.imm24 ++ h.g ++ h.asel ++ h.a ++ h.d ++ h.hmod ++ h.hop

/-- OP and the fields of a full-form instruction (R61). -/
def Instr.opFields : Instr → Option (BitVec 10 × Fields)
  | .nop f => some (0x000, f)
  | .bra f => some (0x001, f)
  | .brx f => some (0x002, f)
  | .call f => some (0x003, f)
  | .callx f => some (0x004, f)
  | .ret f => some (0x005, f)
  | .exit_ f => some (0x006, f)
  | .yield f => some (0x007, f)
  | .brk f => some (0x008, f)
  | .loop f => some (0x009, f)
  | .iadd f => some (0x040, f)
  | .isub f => some (0x041, f)
  | .imul f => some (0x042, f)
  | .imulh f => some (0x043, f)
  | .imad f => some (0x044, f)
  | .imin f => some (0x045, f)
  | .imax f => some (0x046, f)
  | .iabs f => some (0x047, f)
  | .ineg f => some (0x048, f)
  | .and_ f => some (0x049, f)
  | .or_ f => some (0x04A, f)
  | .xor_ f => some (0x04B, f)
  | .not_ f => some (0x04C, f)
  | .shl f => some (0x04D, f)
  | .shr f => some (0x04E, f)
  | .shra f => some (0x04F, f)
  | .rotl f => some (0x050, f)
  | .bfx f => some (0x051, f)
  | .bfi f => some (0x052, f)
  | .popc f => some (0x053, f)
  | .clz f => some (0x054, f)
  | .brev f => some (0x055, f)
  | .icmp f => some (0x056, f)
  | .sel f => some (0x057, f)
  | .mov f => some (0x058, f)
  | .lea f => some (0x059, f)
  | .iaddc f => some (0x05A, f)
  | .plop f => some (0x05B, f)
  | .movpGet f => some (0x05C, f)
  | .movpSet f => some (0x05C, f)
  | .hash f => some (0x05D, f)
  | .fadd f => some (0x080, f)
  | .fsub f => some (0x081, f)
  | .fmul f => some (0x082, f)
  | .ffma f => some (0x083, f)
  | .fmin f => some (0x084, f)
  | .fmax f => some (0x085, f)
  | .fcmp f => some (0x086, f)
  | .fclass f => some (0x087, f)
  | .frnd f => some (0x088, f)
  | .fscale f => some (0x089, f)
  | .fdot2 f => some (0x08A, f)
  | .fmed3 f => some (0x08B, f)
  | .cvt f => some (0x0C0, f)
  | .cvtn f => some (0x0C1, f)
  | .cvtw f => some (0x0C2, f)
  | .pack f => some (0x0C3, f)
  | .unpack f => some (0x0C4, f)
  | .shfl f => some (0x100, f)
  | .bcast f => some (0x101, f)
  | .vote f => some (0x102, f)
  | .reduce f => some (0x103, f)
  | .scan f => some (0x104, f)
  | .match_ f => some (0x105, f)
  | .compact f => some (0x106, f)
  | .rcp f => some (0x140, f)
  | .rsq f => some (0x141, f)
  | .sqrt f => some (0x142, f)
  | .exp2 f => some (0x143, f)
  | .log2 f => some (0x144, f)
  | .sin f => some (0x145, f)
  | .cos f => some (0x146, f)
  | .tanh f => some (0x147, f)
  | .sigm f => some (0x148, f)
  | .fdiv f => some (0x149, f)
  | .ld f => some (0x180, f)
  | .st f => some (0x181, f)
  | .lds f => some (0x182, f)
  | .sts f => some (0x183, f)
  | .ldp f => some (0x184, f)
  | .stp f => some (0x185, f)
  | .ldc f => some (0x186, f)
  | .ldg f => some (0x187, f)
  | .pref f => some (0x188, f)
  | .fence f => some (0x189, f)
  | .cctl f => some (0x18A, f)
  | .atom f => some (0x1C0, f)
  | .acas f => some (0x1C1, f)
  | .atoms f => some (0x1C2, f)
  | .ldf f => some (0x1C3, f)
  | .stf f => some (0x1C4, f)
  | .freset f => some (0x1C5, f)
  | .waita f => some (0x1C6, f)
  | .waits f => some (0x1C7, f)
  | .hset f => some (0x200, f)
  | .hld f => some (0x201, f)
  | .hst f => some (0x202, f)
  | .hget f => some (0x203, f)
  | .mma f => some (0x204, f)
  | .zld f => some (0x205, f)
  | .zst f => some (0x206, f)
  | .zzero f => some (0x207, f)
  | .zmov f => some (0x208, f)
  | .zred f => some (0x209, f)
  | .zscale f => some (0x20A, f)
  | .qscale f => some (0x20B, f)
  | .cpy f => some (0x240, f)
  | .cpyt f => some (0x241, f)
  | .gthr f => some (0x242, f)
  | .sctr f => some (0x243, f)
  | .rcon f => some (0x244, f)
  | .trace f => some (0x245, f)
  | .adrain f => some (0x246, f)
  | .aqry f => some (0x247, f)
  | .launch f => some (0x280, f)
  | .rget f => some (0x281, f)
  | .remit f => some (0x282, f)
  | .rdone f => some (0x283, f)
  | .gsig f => some (0x284, f)
  | .covqMe f => some (0x285, f)
  | .covqPt f => some (0x285, f)
  | .tex1 f => some (0x2C0, f)
  | .texf f => some (0x2C1, f)
  | .texq f => some (0x2C2, f)
  | .discard f => some (0x2C3, f)
  | .depthw f => some (0x2C4, f)
  | .attr f => some (0x2C5, f)
  | .bar f => some (0x300, f)
  | .binit f => some (0x301, f)
  | .bexp f => some (0x302, f)
  | .barv f => some (0x303, f)
  | .bwait f => some (0x304, f)
  | .jarm f => some (0x305, f)
  | .join f => some (0x306, f)
  | .jdrop f => some (0x307, f)
  | .reform f => some (0x308, f)
  | .bqry f => some (0x309, f)
  | .trap f => some (0x340, f)
  | .tret f => some (0x341, f)
  | .region f => some (0x342, f)
  | .pyield f => some (0x343, f)
  | .timer f => some (0x344, f)
  | .srd f => some (0x345, f)
  | .swr f => some (0x346, f)
  | .csave f => some (0x347, f)
  | .crestChk f => some (0x348, f)
  | .crestGo f => some (0x348, f)
  | .halt f => some (0x349, f)
  | _ => none

/-- The word of an instruction; an event and a fused sequence have none of their own. -/
def encode (i : Instr) : Option W128 :=
  match i with
  | .pairWord x y => some (y.bits ++ x.bits ++ 1#2)
  | i => i.opFields.map fun p => p.2.word p.1

/-- The host's question: the instruction of a word whose bits the opcode table numbers from the least significant bit
of the first byte, the bits above `nbits` being 0. -/
def decodeTableWord (nbits w : Nat) : Option Instr :=
  match decodeFour (leBytes 64 (w % 2 ^ nbits)) with
  | .ok i => some i
  | .reject _ => none

end Sys2Proof
end

