-- ==== Sys2Proof/Machine/State.lean ====
section
/-! DEFINITION. The state of the module: plain data, every piece of state the spec names, and the state after reset.
Large arrays of one width are sparse: `SMap w` lists (key, value) pairs, keys rising, no value 0, and an unlisted key
reads 0. A register whose reset value the spec does not give is 0 (log entry 5). -/

namespace Sys2Proof.Machine

/-- A sparse array of `w`-bit values in one canonical form; an unlisted key reads 0. -/
abbrev SMap (w : Nat) := List (Nat × BitVec w)

/-- Memory: one byte for each address (Host.Cell). -/
abbrev Memory := SMap 8

/-! ## Stops -/

/-- Why a step stops with a fault. -/
inductive Fault where
  /-- Raised by the meaning of an ISA word when no fragment is issuing (`cur` is none): a word has an effect only on the
  fragment that issues it. The step never calls one so. Safe: no claim about a step rests on it. -/
  | noIssuer
  /-- Raised by the meaning of an event whose object does not exist (no such group, queue, port, node, operation …) or
  is not in the state the event needs: no unit of the device raises the event then. Safe: the step stops where the
  device has nothing to do. -/
  | noSuchObject (what : String)
  /-- Raised by a host access to a physical address that the spec gives no memory and no register (R374). Safe. -/
  | noSuchAddress (pa : Nat)
  deriving DecidableEq, Repr

/-- Why the model gives no meaning. -/
inductive Refusal where
  /-- Raised by the dispatcher for an instruction not modelled. Safe. -/
  | notModelled (mnemonic : String)
  deriving DecidableEq, Repr

/-! ## Groups and fragments (chapter 13, 14) -/

/-- A fault that a word raises when its other lanes are done (R150): cause, sr.eaddr and sr.replay. -/
structure HeldFault where
  cause : BitVec 8
  eaddr : W64
  replay : Mask
  deriving DecidableEq, Repr

/-- The wait a parked side is in (R315): what its dependence is. `woken` says that it has resolved. -/
inductive Park where
  /-- a load that missed L1 and L2 (R315), by its number: resolved when it is in flight no more -/
  | load (id : Nat)
  /-- an MMA in progress that the word's z tile waits for (R188), by its number -/
  | mma (id : Nat)
  /-- WAITA (R168) -/
  | waita (woken : Bool)
  /-- WAITS (R170), whose limit is in `Side.limit` -/
  | waits (woken : Bool)
  /-- a blocking LDF (R165), and the fault of lanes that do not wait -/
  | ldf (woken : Bool) (fault : Option HeldFault)
  /-- a full range-lock table (R217) -/
  | rangeLock
  /-- BAR, or BARV in mode 0, on team barrier b: the lanes that wait with phase 0 and with phase 1 (R355); resolved
  when none is left -/
  | bar (b : Nat) (ph0 ph1 : Mask)
  /-- BWAIT on team barrier b (R355) -/
  | bwait (b : Nat) (woken : Bool)
  /-- BAR.m, whose arrivals are in `Side.ph`, and BWAIT.m (R347, R355) -/
  | barObj (woken : Bool)
  /-- ADRAIN (R403): resolved when the operations it waits for are done -/
  | drain (all : Bool)
  /-- RGET or REMIT (R304 to R306) -/
  | record (woken : Bool)
  deriving DecidableEq, Repr

/-- What one side of a slice does (R319). -/
inductive SideSt where
  /-- issues with its fragment -/
  | running
  /-- a pending side of its slice -/
  | pending
  /-- waits at a JOIN on jn; `trap` for the trap bank's j7 (R330, R348) -/
  | join (j : Nat) (trap : Bool)
  /-- waits at the gather of TRET (R332); the variant -/
  | gateTret (variant : Nat)
  /-- waits at the save gate (R334) -/
  | gateSave
  /-- waits at a HALT of a save routine (R335) -/
  | gateHalt
  /-- a long-latency wait (R315) -/
  | park (p : Park)
  /-- a trap held until TRET completes (R328) -/
  | trapHeld (cause : BitVec 8) (eaddr : W64) (replay : Mask)
  deriving DecidableEq, Repr

/-- One side of a slice (R318, R319). `only` restricts the next word to the lanes still owed it (R150, R168, R266,
R332), and `noGuard` makes them act without their guard, in the middle of a word (R266); all ones and false otherwise. `ph` holds the phases a BAR.m recorded, for the lanes that have arrived, and `limit` the time at which a
WAITS in progress gives up, `noLimit` where it never does, and 0 where none is in progress (R170). `held` is the fault of
lanes of a REMIT or LDF that other lanes are issued again for, raised when these are done (R150, R307, R369). -/
structure Side where
  slice : Nat
  lanes : Mask
  pc : W64
  ctr : W32
  handler : Bool
  only : Mask
  noGuard : Bool
  ph : Option (Mask × Mask)
  limit : Nat
  held : Option HeldFault
  st : SideSt
  deriving DecidableEq, Repr

/-- Group states (R314). -/
inductive GroupSt where
  | active | pending | blocked | trapped | exited | saved
  deriving DecidableEq, Repr

/-- A tile handle, 196 bits (R187). -/
structure Handle where
  peer : BitVec 2
  sp : Bool
  v : Bool
  addr : W64
  hdr : W128
  deriving DecidableEq, Repr

/-- A rejoin record (R265): state 0 CLEAR, 1 ARMED, 2 COMPLETE. -/
structure Rejoin where
  state : Nat
  named : Mask
  arrived : Mask
  deriving DecidableEq, Repr

/-- What trap entry keeps of one slice for TRET (R328), or PYIELD of one side for CSAVE (R334); of a BAR.m that traps, the
phases of the lanes that have arrived (R355). -/
structure KeptSide where
  slice : Nat
  lanes : Mask
  pc : W64
  ctr : W32
  region : W64
  ph : Option (Mask × Mask)
  deriving DecidableEq, Repr

/-- A group: its registers, its slices and its special registers (R43, R187, R188, R313 to R322). -/
structure Group where
  id : Nat
  team : Nat
  /-- sr.group, sr.role, sr.peer -/
  index : Nat
  role : Nat
  peer : Nat
  core : Nat
  slot : Nat
  st : GroupSt
  /-- it holds a place of its scheduler's active set; the times it entered its state and that set (R313, R317) -/
  placed : Bool
  since : W64
  activeSince : W64
  launched : Mask
  sides : List Side
  /-- TM, the lanes T of the handler and what TRET gives back (R328, R332) -/
  tm : Bool
  trapLanes : Mask
  kept : List KeptSide
  /-- region PC of each slice (R327) -/
  regions : List W64
  /-- v registers by 32 × register + lane; s registers; predicates as lane masks -/
  vregs : SMap 32
  sregs : SMap 64
  preds : SMap 32
  handles : List (Nat × Handle)
  /-- z elements by 1024 × tile + 32 × i + n; headers by tile, 0 for the header of admission (R188) -/
  ztiles : SMap 32
  zheaders : SMap 128
  rejoin : List (Nat × Rejoin)
  rejoinTrap : Rejoin
  cmp : W64
  timerDue : Bool
  rcount : W64
  cause : BitVec 8
  epc : W64
  eaddr : W64
  replay : Mask
  trapbase : W64
  savearea : W64
  seed : W64
  preq : Bool
  deadline : W64
  /-- the sides kept since PYIELD, a save routine running, a restore routine running (R334, R268) -/
  gateKept : List KeptSide
  saving : Bool
  restoring : Bool
  /-- the time by which the save routine must have halted (R260); 0 none -/
  saveDue : W64
  /-- YIELD: the group waits for another of its scheduler to issue (R108); a forced save has stopped it (R261) -/
  yielded : Bool
  stopping : Bool
  /-- when it was admitted to its core, and its index in a save (R262) -/
  admitted : W64
  recordIndex : Nat
  /-- drawn from a REFORM bin, and what its lanes issued before: lane and operation (R338) -/
  drawn : Bool
  priorOps : List (Nat × Nat)
  deriving DecidableEq, Repr

/-- A load in flight that missed L1 and L2: the group and the vector and scalar registers it fills (R315, R221). -/
structure InFlight where
  id : Nat
  gid : Nat
  vdest : List Nat
  sdest : List Nat
  deriving DecidableEq, Repr

/-- A lane's WAITA, WAITS or BWAIT.m registration at a line's home (R169, R355). -/
structure WaitReg where
  host : Bool
  line : Nat
  gid : Nat
  lane : Nat
  deriving DecidableEq, Repr

/-- A deferred LDF request (R165): cell address, the lane, its destination, size and ready predicate, and the virtual address
that led to the cell (R369). -/
structure DeferredLdf where
  host : Bool
  pa : Nat
  gid : Nat
  lane : Nat
  d : Nat
  b64 : Bool
  pred : Nat
  va : W64
  deriving DecidableEq, Repr

/-- A team barrier (R342), and the groups drawn in its phase in progress: their lanes that it does not count in the phase,
and those of them that have departed in it (R343, R356). -/
structure TeamBarrier where
  expect : Nat
  arrived : Nat
  need : Nat
  state : Nat
  mode : Bool
  phase : Bool
  apart : List (Nat × Mask × Mask)
  deriving DecidableEq, Repr

/-- A team resident on its cores (R12, R293, chapter 12). -/
structure Team where
  id : Nat
  ctx : Nat
  launch : Nat
  /-- coordinates, and the cores of the span, peer 0 first -/
  x : Nat
  y : Nat
  z : Nat
  cores : List Nat
  barriers : List (Nat × TeamBarrier)
  /-- scratchpad shares: byte o of peer p at key p × 2^32 + o (R155) -/
  scratch : Memory
  /-- times relaunched, and the address whose page a relaunch waits for (R197, R471) -/
  relaunches : Nat
  waiting : Option W64
  /-- when that address was last walked (R471) -/
  walkedAt : Option W64
  /-- when the countdown of a pre-empt request began (R260) -/
  preqAt : Option W64
  /-- the cores that are still to start, each with its time; at its start a core drops its code copies (R63, R311) -/
  unstarted : List (Nat × W64)
  /-- a lane of it has taken a record (R305) -/
  took : Bool
  /-- the code and ψ of the team's block (R413) -/
  cov : BitVec 8
  deriving DecidableEq, Repr

/-! ## Launches and graphs (chapter 12, 18, 19) -/

/-- A role's budgets and entry (R289). -/
structure Role where
  entry : W64
  vregs : Nat
  sregs : Nat
  ztiles : Nat
  groups : Nat
  last : Nat
  deriving DecidableEq, Repr

/-- A launch block, read whole (R287, R290). -/
structure LaunchBlock where
  va : W64
  code : W64
  codelen : Nat
  btmap : W64
  const : W64
  args : W64
  arglen : Nat
  span : Nat
  roles : List Role
  gx : Nat
  gy : Nat
  gz : Nat
  scratch : Nat
  recsz : Nat
  v0scale : Nat
  seed : W64
  savepc : W64
  trapbase : W64
  deadline : Nat
  relaunch : Bool
  depthf : Bool
  flush : Bool
  coven : Bool
  /-- the coverage block, 64 bytes as a number (R290) -/
  cov : Nat
  deriving DecidableEq, Repr

/-- A block's record in a coverage launch (R413): its team index, code, ψ, the forced bit, whether its first RCON of the run
has been issued, and whether it has been counted (R415, R417). -/
structure BlockRecord where
  block : Nat
  code : Nat
  psi : Nat
  forced : Bool
  claimed : Bool
  audited : Bool
  deriving DecidableEq, Repr

/-- A sum of audited differences (R415, R417): a fraction, what it has met (0 finite, 1 +∞, 2 NaN), and the count. -/
structure AuditSum where
  num : Nat
  den : Nat
  kind : Nat
  count : Nat
  deriving DecidableEq, Repr

/-- The coverage state of a launch (R410 to R415): the code in force, and when an update changed it last, with the code before
that cycle; the audits and the blocks added since the last update; the
blocks' records; the guide's header as it was checked, and whether the predictor is off. -/
structure Coverage where
  code : Nat
  changed : Option (W64 × Nat)
  audits : AuditSum
  added : Nat
  blocks : List BlockRecord
  guide : BitVec 128
  predictorOff : Bool
  deriving DecidableEq, Repr

/-- A launch: its block, its own copies of the constant bank and the argument block (R294), the teams still to place and
those not yet ended, and what it costs (R285). -/
structure Launch where
  id : Nat
  ctx : Nat
  /-- the graph and node it runs for, or none of a LAUNCH child -/
  graph : Option (Nat × Nat)
  /-- a child's parent (graph, node), number and completion word (R302, R303); `argVa` is 0 where the block's ARGS stands -/
  parent : Option (Nat × Nat)
  childNo : Nat
  completion : Option W64
  tenant : Nat
  frame : Nat
  blk : LaunchBlock
  argVa : W64
  /-- the queue whose TRIGGER asked for the run, as its key plus 1, or 0 (R285) -/
  owner : Nat
  /-- given to the placer; its measured cost has been settled (R285) -/
  dispatched : Bool
  settled : Bool
  fetched : Bool
  constBank : Memory
  argBlock : Memory
  /-- the cores that its teams have been given, in placement order, and the time of the first (R311) -/
  starts : List Nat
  startBase : W64
  /-- next team index to place, and the count of teams resident and ended -/
  next : Nat
  resident : Nat
  finished : Nat
  cov : Coverage
  /-- cores that its groups are on, since when; cycles measured, and the provisional cost charged (R285) -/
  busy : List (Nat × W64)
  cost : Nat
  charged : Nat
  /-- a page that the front end waits for (R294, R411) -/
  waiting : Option W64
  deriving DecidableEq, Repr

/-- Node states (R298). -/
inductive NodeSt where
  | idle | pending | ready | launched | running | draining | done | aborted
  deriving DecidableEq, Repr

/-- A node of a resident graph (R296, R298). -/
structure Node where
  kind : Nat
  unit : Nat
  pred : Nat
  succ0 : Nat
  nsucc : Nat
  lboff : Nat
  word : W64
  count : W64
  bodyF : Nat
  bodyL : Nat
  ntrue : Nat
  st : NodeSt
  counter : Nat
  taken : Bool
  skip : Bool
  iterations : W64
  /-- the coverage code that its last run ended with (R415), and the measured cost of its last launch (R285) -/
  covCode : Option Nat
  lastCost : Option Nat
  /-- a page that the node's word, block or unit waits for (R294, R422) -/
  waiting : Option W64
  /-- a unit's configuration block once read in the run, with the headers it names above it, `some none` where reading it
  failed; and the records it still has to write, each the header of its cause and its payload (R422) -/
  config : Option (Option Nat)
  outbox : List (Nat × List Byte)
  /-- this module runs the node in the run (R451), in stale-state mode (R389) -/
  owned : Bool
  stale : Bool
  deriving DecidableEq, Repr

/-- A record edge's ring in memory: what is emitted, taken and released, and what is closed (R304 to R306). A dependency
edge uses only its ends. -/
structure Edge where
  src : Nat
  dst : Nat
  isRec : Bool
  remote : Bool
  /-- remote in the run in progress (R378, R451) -/
  away : Bool
  oport : Nat
  iport : Nat
  edgeId : Nat
  buf : W64
  log2cap : Nat
  rparam : W64
  /-- records emitted, taken, freed in order; slots taken and released out of order -/
  head : Nat
  tail : Nat
  taken : Nat
  freed : List Nat
  closed : Bool
  deriving DecidableEq, Repr

/-- A resident graph and its trigger register (R295, R301). -/
structure Graph where
  num : Nat
  ctx : Nat
  part : Nat
  tenant : Nat
  /-- the queue whose TRIGGER asked for the run in progress and for the held one, as its key plus 1, or 0 (R285) -/
  owner : Nat
  pendOwner : Nat
  image : W64
  trigva : W64
  args : W64
  nodes : List Node
  edges : List Edge
  run : Bool
  frame : Nat
  donec : W32
  pend : Option W64
  ovr : Bool
  /-- the argument block of the run in progress; 0 leaves each block's own -/
  runArgs : W64
  deriving DecidableEq, Repr

/-- A record slot that a lane has taken (R307). -/
structure RecordRef where
  graph : Nat
  edge : Nat
  seq : Nat
  gid : Nat
  lane : Nat
  deriving DecidableEq, Repr

/-- A GSIG write owed (R308): where, what, the operations that it waits for, and the page (log entry 71). -/
structure OwedGsig where
  id : Nat
  team : Nat
  gid : Nat
  lane : Nat
  core : Nat
  va : W64
  add : Bool
  value : W64
  ops : List Nat
  waiting : Option W64
  deriving DecidableEq, Repr

/-! ## Asynchronous operations (chapter 17) -/

/-- A half-open range of a range-lock entry: a virtual range of the context, or offsets of a peer's share (R217). -/
structure LockRange where
  /-- none: virtual; some p: scratchpad share of peer p -/
  share : Option Nat
  lo : Nat
  len : Nat
  deriving DecidableEq, Repr

/-- The asynchronous operations and the matrix unit's own (R390, R193). -/
inductive OpKind where
  | cpy | cpyt | gthr | sctr | rcon | trace
  deriving DecidableEq, Repr

/-- An operation in flight (R390 to R395), one lane's part of its instruction's batch: what it reads and writes is fixed
at issue by its registers. -/
structure AsyncOp where
  id : Nat
  /-- number of the instruction's batch, which shares one completion action -/
  batch : Nat
  kind : OpKind
  gid : Nat
  team : Nat
  core : Nat
  ctx : Nat
  lane : Nat
  scope : Nat
  /-- the bytes of CPY, GTHR and SCTR, a share's reference by the flags; TRACE's slot and ray -/
  dst : W64
  src : W64
  dstShare : Bool
  srcShare : Bool
  len : Nat
  /-- bytes already moved -/
  pos : Nat
  /-- the remote window of a CPY (R399) -/
  window : Option Nat
  /-- CPYT's handles; RCON's image and guide -/
  dstH : Handle
  srcH : Handle
  /-- CPYT's C field; CPYT's KB, RCON's GD -/
  conv : BitVec 10
  kb : Bool
  cw : Bool
  tsp : Bool
  tol : Bool
  target : W64
  value : W64
  drec : W64
  /-- lanes requested and bytes requested by the instruction -/
  req : Mask
  bytes : Nat
  srcRanges : List LockRange
  dstRanges : List LockRange
  /-- PC of the word (R436) -/
  pc : W64
  /-- all moved; the row copied whole; a remote refusal (R399) -/
  moved : Bool
  whole : Bool
  failed : Bool
  /-- the page that it waits for (R394); RCON's audits, until its completion action (R415) -/
  waiting : Option W64
  audits : Option AuditSum
  deriving DecidableEq, Repr

/-- What kept the tile fetch unit from an operand (R197): the cause, the lowest faulting byte's address, the physical address
where one applies, and whether the cause is a page not present. -/
structure TileFault where
  cause : BitVec 8
  va : W64
  pa : Nat
  absent : Bool
  deriving DecidableEq, Repr

/-- An MMA in progress (R193, R201): its operands, and the bytes fetched for them or what kept the fetch from them. -/
structure MmaOp where
  id : Nat
  gid : Nat
  z : Nat
  accumulate : Bool
  a : Handle
  b : Handle
  rows : Mask
  aBytes : SMap 8
  bBytes : SMap 8
  fault : Option TileFault
  deriving DecidableEq, Repr

/-! ## Memory system (chapter 8, 15) -/

/-- A leased copy of a line in an L1 or an RDC, with the write stamp and the lease end it was filled with (R212), and the
HINT of the word that brought it (R30, R56). -/
structure Copy where
  line : Nat
  ws : BitVec 48
  le : BitVec 48
  hint : Nat
  bytes : List Byte
  deriving DecidableEq, Repr

/-- A store of scope grp of Mode S still in its core's L1 (R214), with the context whose tokens it takes (R220). -/
structure GrpStore where
  gid : Nat
  ctx : Nat
  pa : Nat
  bytes : List Byte
  hint : Nat
  deriving DecidableEq, Repr

/-- The mutable parts of one core that hold something (R208, R212, R213, R338). -/
structure Core where
  id : Nat
  clk : BitVec 48
  l1 : List Copy
  icache : List (Nat × W128)
  grpStores : List GrpStore
  /-- sensor readings (R309) -/
  temp : BitVec 8
  droop : BitVec 8
  deriving DecidableEq, Repr

/-- A lane held in a REFORM bin with what it carries (R338, R339), the team barriers from whose phase in progress it has
departed (R343), and the operations in flight that it has issued. -/
structure BinLane where
  carried : List W32
  preds : Nat
  arrived : W64
  held : List RecordRef
  departed : List Nat
  ops : List Nat
  deriving DecidableEq, Repr

/-- A REFORM bin, one of a core's 16 (R338). -/
structure Bin where
  core : Nat
  num : Nat
  team : Nat
  role : Nat
  peer : Nat
  target : W64
  lanes : List BinLane
  deriving DecidableEq, Repr

/-- A TLB: a core's L0 or L1, or a die's (R368). -/
inductive TlbPlace where
  | l0 (core : Nat)
  | l1 (core : Nat)
  | die (die : Nat)
  deriving DecidableEq, Repr

/-- A TLB entry (R368): its TLB, the partition, the tag (ASID, or global), the page's first virtual address and log2 of its
size (16 for a CONTIG group, R363), the leaf it holds, and whether lookups pass it by and walk afresh (R365). -/
structure TlbEntry where
  place : TlbPlace
  part : Nat
  asid : BitVec 16
  global : Bool
  page : W64
  log2 : Nat
  leaf : W64
  passed : Bool
  deriving DecidableEq, Repr

/-- A non-leaf entry in a walker's cache (R368): the die and its walker, the tag, the level of its table, the address bits
that led to it, and the entry. -/
structure WalkCopy where
  die : Nat
  walker : Nat
  part : Nat
  asid : BitVec 16
  level : Nat
  index : Nat
  entry : W64
  deriving DecidableEq, Repr

/-- A walk outstanding in a die's miss table (R368): the page, and the leaf that the walk has read, with its level and
address. -/
structure Miss where
  die : Nat
  part : Nat
  asid : BitVec 16
  page : Nat
  level : Nat
  pa : Nat
  leaf : W64
  deriving DecidableEq, Repr

/-- A context's bucket (R220): its tokens and allotment, tokens taken in the period, whether it reached 0 in it, and tokens
of transfers that wait for the next boundary. -/
structure Bucket where
  tokens : Nat
  allot : Nat
  taken : Nat
  emptied : Bool
  owed : Nat
  deriving DecidableEq, Repr

/-- The bucket of a context at one L2 slice port (R219, R220). -/
structure PortBucket where
  die : Nat
  slice : Nat
  ctx : Nat
  bucket : Bucket
  deriving DecidableEq, Repr

/-- A range invalidation accepted and not complete (R369). -/
structure Invalidation where
  asid : BitVec 16
  glob : Bool
  allas : Bool
  va : W64
  npages : Nat
  deriving DecidableEq, Repr

/-! ## Partitions and contexts (chapter 10, 11) -/

/-- A partition (R253, R211, R309, R338, R366, R388). -/
structure Partition where
  pid : Nat
  v : Bool
  orderMode : Bool
  qdies : BitVec 16
  elanes : BitVec 8
  fesched : BitVec 8
  homing : W64
  elog : W64
  /-- the homing table in force (R472), the log's SEQ (R259) -/
  homes : SMap 64
  logSeq : Nat
  /-- placer word, the pointer, and how often each quad has been passed over (R309, R310); AGE (R338) -/
  placer : W64
  placerPtr : Nat
  passes : List (Nat × Nat)
  age : BitVec 16
  /-- tenants' quanta, their deficits, and the owner each tenant's round robin served last (R285) -/
  quantum : SMap 64
  deficit : List (Nat × Int)
  turn : List (Nat × Nat)
  /-- when the front end made its last round -/
  roundAt : W64
  nextChild : Nat
  /-- translation page (R366) -/
  prqBase : W64
  prqLog2n : Nat
  prqEn : Bool
  prqHead : W32
  prqTail : W32
  invAddr : W64
  invCtl : W64
  invSeq : W32
  invDone : W32
  invovf : Bool
  prqovf : Bool
  pendingInv : List Invalidation
  /-- cut page (R388) and the cut move in progress (R389) -/
  cutEframe : W32
  cutGraph : BitVec 16
  cutResult : Nat
  cutBusy : Bool
  /-- a rebase has been made at this clock (R216); being scrubbed (R254) -/
  scrubbing : Bool
  deriving DecidableEq, Repr

/-- Context states (R255). -/
inductive CtxSt where
  | free | created | bound | running | preempting | saved | restoring | faulted | destroyed
  deriving DecidableEq, Repr

/-- A context (R255, R257, R259, R219). -/
structure Context where
  num : Nat
  st : CtxSt
  part : Nat
  asid : BitVec 16
  ptroot : W64
  lease : Nat
  save : W64
  elog : W64
  /-- the walkers' root for the ASID (R257) -/
  root : W64
  logSeq : Nat
  portShare : W64
  /-- its bucket at every port where it has made no transfer (R220) -/
  idle : Bucket
  /-- requests held (R257, R258) -/
  heldRestore : Bool
  heldPreempt : Bool
  /-- the teams with save records, their groups and the record slots that they hold as the save left them (R257), and the index of
  the next record (R262) -/
  savedTeams : List Nat
  savedGroups : List Group
  savedHeld : List (Nat × RecordRef)
  nextRecord : Nat
  deriving DecidableEq, Repr

/-- Queue states (R277). -/
inductive QueueSt where
  | unmapped | mapped | active | waiting | swapped | error | drained
  deriving DecidableEq, Repr

/-- A packet started and not yet complete (R280, R282, R284). -/
inductive Started where
  /-- TRIGGER: its graph, and the ends of runs still to come -/
  | trigger (graph left : Nat)
  /-- COPY, by its number -/
  | copy (id : Nat)
  /-- CTX_OP on a context: OP and the RESULT address -/
  | ctxOp (ctx op : Nat) (result : W64)
  /-- PART_DESTROY, until the scrub ends -/
  | scrub (part : Nat)
  deriving DecidableEq, Repr

/-- The WAIT_SIGNAL that a queue waits on (R279): its ring index, address, comparison, value and scope. -/
structure Await where
  idx : W32
  addr : W64
  cc : Nat
  value : W64
  scope : Nat
  deriving DecidableEq, Repr

/-- A queue of a VCP page (R276 to R280): its 64-byte descriptor in the page, and the copy Bronze acts by. -/
structure Queue where
  page : Nat
  q : Nat
  desc : BitVec 512
  copy : BitVec 512
  st : QueueSt
  head : W32
  shadow : W32
  started : List Started
  /-- SWAPPED and ready for a slot, and since when (R278) -/
  ready : Bool
  readySince : W64
  /-- the wait, when it began and when the queue last parked; the watchdog has fired for it (R279) -/
  await : Option Await
  awaitSince : W64
  parkedSince : W64
  wdogFired : Bool
  /-- a drain in progress; it is followed by UNMAPPED (R277) -/
  draining : Bool
  unmapping : Bool
  /-- in ERROR after a packet fault: the ring index of the packet (R277) -/
  faultAt : Option W32
  deriving DecidableEq, Repr

/-- A VCP page (R272 to R275); partition 8 stands for none (R284). -/
structure VcpPage where
  num : Nat
  en : Bool
  qsel : Nat
  priv : Nat
  part : Nat
  tenant : Nat
  err : W64
  deriving DecidableEq, Repr

/-- A COPY packet in progress (R282). -/
structure CopyJob where
  id : Nat
  page : Nat
  q : Nat
  idx : W32
  ctx : Nat
  src : W64
  dst : W64
  len : Nat
  deriving DecidableEq, Repr

/-! ## Links (chapter 16) -/

/-- Link states (R375, R376). -/
inductive LinkSt where
  | down | training | upLossless | upLossy | cutMoving | degraded | error
  deriving DecidableEq, Repr

/-- A control or lossless message sent and not yet acknowledged (R385): its sends, the time of the last, whether a CACK
has covered a STATE-XFER that still waits for its STATE-ACK, and the operation of an LDATA packet. -/
structure Unacked where
  ptype : Nat
  pkt : EdgePacket
  sends : Nat
  sentAt : W64
  covered : Bool
  op : Nat
  deriving DecidableEq, Repr

/-- A port pair (R385): the peer; the next control and lossless sequence numbers to send and to act on; messages received
ahead of their turn; messages not acknowledged; REF-MISS messages that wait for the next CACK (R381). -/
structure Pair where
  peer : W128
  ctlNext : W32
  ctlSeen : W32
  early : List (Nat × EdgePacket)
  dataNext : W32
  dataSeen : W32
  earlyData : List EdgePacket
  unacked : List Unacked
  misses : List EdgePacket
  deriving DecidableEq, Repr

/-- A neighbour-cache entry (R377). -/
structure Neighbor where
  ip : W128
  mac : BitVec 48
  confirmed : W64
  deriving DecidableEq, Repr

/-- A packet whose peer has no MAC address yet, and since when it waits (R377). -/
structure Unresolved where
  peer : W128
  ptype : Nat
  pkt : EdgePacket
  since : W64
  deriving DecidableEq, Repr

/-- What a port has put onto its wire, in order (R377): a Brass packet, with the MAC addresses of its frame, the fields of its
outer headers and its UDP payload, or an ND message. -/
inductive Sent where
  | packet (dst src : BitVec 48) (sender peer : W128) (hops tclass flow sport : Nat) (payload : List Byte)
  | nd (m : NdFrame)
  deriving DecidableEq, Repr

/-- A link port (R375 to R378, R385). -/
structure Link where
  port : Nat
  st : LinkSt
  lossmax : BitVec 16
  retry : BitVec 8
  rto : BitVec 24
  mtu : BitVec 14
  mode : Bool
  en : Bool
  /-- MODE as read when EN rose, and when training began (R375, R376) -/
  modeUp : Bool
  since : W64
  ip6 : W128
  lostpk : W32
  fixed : BitVec 16
  nhV : Bool
  nhMac : BitVec 48
  neighbors : List Neighbor
  pairs : List Pair
  unresolved : List Unresolved
  wire : List Sent
  /-- data packets and lost ones of each of the last 256 closed frames, and frames since the last resend (R375, R378) -/
  losses : List (Nat × Nat)
  cleanFrames : Nat
  deriving DecidableEq, Repr

/-- A remote window entry (R399). -/
structure Window where
  idx : Nat
  base : W64
  peer : W128
  npages : Nat
  ctx : Nat
  dir : Nat
  v : Bool
  deriving DecidableEq, Repr

/-- A frame of a remote edge at its receiver: the time of its run's start, whether it is closed, and its DATA and PARITY
packets (R381, R383). -/
structure RxFrame where
  frame : Nat
  start : Option W64
  closed : Bool
  data : List EdgePacket
  parity : List EdgePacket
  /-- DATA packets received or recovered at or after the close (R381, R384) -/
  late : List EdgePacket
  deriving DecidableEq, Repr

/-- A REMOTE edge (R379 to R384): its parameter block; records taken for the frame in progress; the frame last sent and
its payloads by key; keys named by REF-MISS; frames being received; a closed frame with the records it has still to
deliver; the keys and SEQs last delivered, of which frame; and keys with the frames in which they were received or
recovered. -/
structure RemoteEdge where
  graph : Nat
  edge : Nat
  param : Nat
  taken : List (List Byte)
  sentFrame : Nat
  sent : List (Nat × List Byte)
  miss : List Nat
  frames : List RxFrame
  delivering : Option (Nat × List (List Byte))
  prevFrame : Nat
  prev : List (Nat × Nat)
  rcvd : List (Nat × Nat)
  deriving DecidableEq, Repr

/-- An entry of the state table (R387): node, NT, SRULE and TLIST. -/
structure StateEntry where
  node : Nat
  nt : Nat
  srule : Nat
  tlist : W64
  deriving DecidableEq, Repr

/-- The state of a moved node that its new owner receives (R389): whether it has been READY in run E, the STATE-XFER held, and
whether it has been written. -/
structure Incoming where
  node : Nat
  decided : Bool
  held : Option EdgePacket
  written : Bool
  deriving DecidableEq, Repr

/-- A cut move (R389): E, the new cut, its state table, whether it is accepted; nodes whose STATE-XFER is still to be
acknowledged and those of them that have been sent; what is to be received, and STATE-XFERs that came before the answer;
whether this side's run E has ended. -/
structure Move where
  eframe : Nat
  edges : List Nat
  table : List StateEntry
  accepted : Bool
  owed : List Nat
  sent : List Nat
  incoming : List Incoming
  early : List EdgePacket
  ended : Bool
  deriving DecidableEq, Repr

/-- A graph split by a cut (R386 to R389): which side this module is; the cuts in force, each with its first frame, newest
first, as the edges whose bit is set; the move that is in progress; and moves that have ended with state still to write. -/
structure Cut where
  graph : Nat
  near : Bool
  cuts : List (Nat × List Nat)
  move : Option Move
  late : List Move
  busy : Bool
  deriving DecidableEq, Repr

/-! ## The module -/

/-- Who takes the next step (log entry 1). -/
inductive Who where
  /-- a runnable fragment: group and slice -/
  | fragment (gid slice : Nat)
  /-- the k-th item of work -/
  | work (k : Nat)
  /-- the next input from outside -/
  | input
  /-- a copy of a line leaves a core's L1, a die's RDC or a TLB, or a grp-scope store goes home -/
  | evictL1 (core line : Nat)
  | evictRdc (die line : Nat)
  | evictTlb (k : Nat)
  | evictWalk (k : Nat)
  /-- a word leaves a core's instruction cache (R63) -/
  | evictCode (core key : Nat)
  /-- a core's TLBs take a copy of an entry of its die's or its own; lookups begin or cease to pass an entry by (R365, R368) -/
  | fillTlb (core k : Nat)
  | passTlb (k : Nat)
  | drainStore (core : Nat)
  /-- a core's logical clock gains a tick before it must (R213) -/
  | clock (core : Nat)
  /-- a walker begins to serve a miss (R368) -/
  | walk (ctx die : Nat) (va : W64) (acc : PageAcc)
  /-- time passes only -/
  | idle
  deriving DecidableEq, Repr

/-- One turn: how far the time base moves and who acts. -/
structure Turn where
  dt : Nat
  who : Who
  deriving DecidableEq, Repr

/-- A compute die's clock in units of 100 MHz, and the periods since it last fell (R467). -/
structure DieState where
  clock : Nat
  steady : Nat
  /-- what the die's clock is behind the time base, in 21sts of a count (R20, R323) -/
  lag : Nat
  deriving DecidableEq, Repr

/-- The module. -/
structure State where
  /-- capability registers (R464) -/
  stage : BitVec 4
  err : BitVec 8
  errdie : BitVec 2
  cecnt : BitVec 16
  tempmax : BitVec 8
  dies : List DieState
  /-- consecutive periods over budget at the lowest clock: of dies c0 to c3, the SRAM layers, the memory, the X-die and the
  module total (R467) -/
  overRuns : List Nat
  /-- channels trained, of the four dies (R465) -/
  trained : List Nat
  /-- sr.clock's time base (R323) -/
  now : W64
  /-- binding tables (R13): die × 512 + k -/
  binding : SMap 16
  mem : Memory
  hostMem : Memory
  poison : List Nat
  hostPoison : List Nat
  /-- ws and le of each line at its home, by line number; those of host lines as each partition's clocks have them, by
  partition × 2^57 + line (R212, R216) -/
  ws : SMap 48
  le : SMap 48
  hostWs : SMap 48
  hostLe : SMap 48
  /-- by partition, the clock of the agents that have no core: the host, Bronze, the front end, Brass (log entry 7) -/
  devClk : SMap 48
  /-- host lines held by the X-die's agent, at most 4096 (R373) -/
  hostLines : List Nat
  rdc : List (Nat × Copy)
  cores : List Core
  /-- the TLBs, the walkers' caches and the miss tables (R368); buckets of the slice ports (R220) -/
  tlb : List TlbEntry
  walkCache : List WalkCopy
  misses : List Miss
  ports : List PortBucket
  parts : List Partition
  ctxs : List Context
  teams : List Team
  groups : List Group
  bins : List Bin
  launches : List Launch
  graphs : List Graph
  held : List (Nat × RecordRef)
  gsigs : List OwedGsig
  ops : List AsyncOp
  mmas : List MmaOp
  loads : List InFlight
  waits : List WaitReg
  deferred : List DeferredLdf
  pages : List VcpPage
  queues : List Queue
  copies : List CopyJob
  links : List Link
  windows : List Window
  remotes : List RemoteEdge
  cuts : List Cut
  /-- number for the next object -/
  nextId : Nat
  /-- the model's own: the counter of free values (log entry 2), what the outside does next, work owed, the
  interleaving, the parity of the default turn, and the issuing fragment (log entry 1) -/
  free : Nat
  inputs : List Instr
  work : List Instr
  turns : List Turn
  tick : Nat
  cur : Option (Nat × Nat)
  deriving DecidableEq, Repr

/-- A partition's words at reset (R253, R309, R338, R366). -/
def Partition.reset (pid : Nat) : Partition :=
  { pid, v := false, orderMode := false, qdies := 0, elanes := 0, fesched := 0, homing := 0, elog := 0, homes := [],
    logSeq := 0, placer := 0x04001015, placerPtr := 0, passes := [], age := 0x0800, quantum := [], deficit := [], turn := [], roundAt := 0,
    nextChild := 0,
    prqBase := 0, prqLog2n := 0, prqEn := false, prqHead := 0, prqTail := 0, invAddr := 0, invCtl := 0, invSeq := 0,
    invDone := 0, invovf := false, prqovf := false, pendingInv := [], cutEframe := 0, cutGraph := 0, cutResult := 0,
    cutBusy := false, scrubbing := false }

/-- A VCP page at reset (R273): partition 0, tenant v mod 16, page 63 with PRIV 2. -/
def VcpPage.reset (num : Nat) : VcpPage :=
  { num, en := false, qsel := 0, priv := if num = 63 then 2 else 0, part := 0, tenant := num % 16, err := 0 }

/-- A link page at reset (R376, R377). -/
def Link.reset (port : Nat) : Link :=
  { port, st := .down, lossmax := 0x0148, retry := 0x08, rto := 0xC350, mtu := 0x05DC, mode := true, en := false,
    modeUp := false, since := 0, ip6 := 0, lostpk := 0, fixed := 0, nhV := false, nhMac := 0, neighbors := [], pairs := [],
    unresolved := [], wire := [], losses := [], cleanFrames := 0 }

/-- The module right after reset (R464, R465): nothing loaded, nothing resident, memory not yet listed. -/
def State.reset : State :=
  { stage := 0, err := 0, errdie := 0, cecnt := 0, tempmax := 0,
    dies := [⟨21, 4, 0⟩, ⟨21, 4, 0⟩, ⟨21, 4, 0⟩, ⟨21, 4, 0⟩], overRuns := [0, 0, 0, 0, 0, 0, 0, 0], trained := [], now := 0, binding := [], mem := [],
    hostMem := [], poison := [], hostPoison := [], ws := [], le := [], hostWs := [], hostLe := [], devClk := [], hostLines := [],
    rdc := [], cores := [], tlb := [], walkCache := [], misses := [], ports := [],
    parts := (List.range 8).map Partition.reset, ctxs := [], teams := [], groups := [], bins := [], launches := [],
    graphs := [], held := [], gsigs := [], ops := [], mmas := [], loads := [], waits := [], deferred := [],
    pages := (List.range 64).map VcpPage.reset, queues := [], copies := [],
    links := (List.range 4).map Link.reset, windows := [], remotes := [], cuts := [], nextId := 1,
    free := 0, inputs := [], work := [], turns := [], tick := 0, cur := none }

end Sys2Proof.Machine
end

