-- ==== Sys2Proof/Machine/Sparse.lean ====
section
/-! DEFINITION. Sparse arrays, memory bytes, and tables of objects by number: the plainest operations on the state's
data. -/

namespace Sys2Proof.Machine

/-- The value at a key; an unlisted key reads 0. -/
def sget {w : Nat} : SMap w → Nat → BitVec w
  | [], _ => 0
  | (j, v) :: r, k => if j = k then v else sget r k

/-- Write a value other than 0, keeping the keys rising. -/
def sput {w : Nat} : SMap w → Nat → BitVec w → SMap w
  | [], k, v => [(k, v)]
  | (j, x) :: r, k, v =>
    if k < j then (k, v) :: (j, x) :: r else if k = j then (k, v) :: r else (j, x) :: sput r k v

/-- Write a value, keeping the keys rising and listing no 0. -/
def sset {w : Nat} (m : SMap w) (k : Nat) (v : BitVec w) : SMap w :=
  if v = 0 then m.filter fun p => p.1 != k else sput m k v

/-- Every key is above `lo`, the keys rise, and no value is 0. -/
def swfFrom {w : Nat} : Nat → SMap w → Bool
  | _, [] => true
  | lo, (j, x) :: r => lo ≤ j && x != 0 && swfFrom (j + 1) r

/-- The canonical form of a sparse array. -/
def swf {w : Nat} (m : SMap w) : Bool := swfFrom 0 m

/-- The canonical form of memory. -/
abbrev Memory.wf (m : Memory) : Bool := swf m

/-- n bytes from an address. -/
def readBytes (m : Memory) (a : Nat) : Nat → List Byte
  | 0 => []
  | n + 1 => sget m a :: readBytes m (a + 1) n

/-- Write bytes from an address. -/
def writeBytes (m : Memory) (a : Nat) : List Byte → Memory
  | [] => m
  | b :: bs => writeBytes (sset m a b) (a + 1) bs

/-- n bytes as a number, little-endian (R3). -/
def readNat (m : Memory) (a n : Nat) : Nat := leNat (readBytes m a n)
def writeNat (m : Memory) (a n x : Nat) : Memory := writeBytes m a (leBytes n x)

/-- The bytes `base` from address `a`, with those of `bs` at address `b` laid over them. -/
def overlay (a : Nat) (base : List Byte) (b : Nat) (bs : List Byte) : List Byte :=
  base.zipIdx.map fun (x, i) => if b ≤ a + i ∧ a + i < b + bs.length then bs.getD (a + i - b) 0 else x

/-- The object numbered k. -/
def findBy {α : Type} (key : α → Nat) (k : Nat) : List α → Option α
  | [] => none
  | x :: r => if key x = k then some x else findBy key k r

/-- Put an object in the place of the one with its number, or in order of numbers. -/
def putBy {α : Type} (key : α → Nat) (x : α) : List α → List α
  | [] => [x]
  | y :: r => if key x < key y then x :: y :: r else if key x = key y then x :: r else y :: putBy key x r

/-- Remove the object numbered k. -/
def dropBy {α : Type} (key : α → Nat) (k : Nat) (l : List α) : List α := l.filter fun x => key x != k

end Sys2Proof.Machine
end

