-- ==== Sys2Proof/Machine/Access.lean ====
section
/-! DEFINITION. The memory system: homing and lease clocks (R208 to R216), page walks and their faults (R360 to R371),
error logs (R259), the range-lock check (R218), and reads and writes by lanes and by the device. -/

namespace Sys2Proof.Machine

/-! ## Objects of the state -/

def getCore (s : State) (c : Nat) : Core :=
  (findBy Core.id c s.cores).getD { id := c, clk := 0, l1 := [], icache := [], grpStores := [], temp := 0, droop := 0 }
def setCore (s : State) (c : Core) : State := { s with cores := putBy Core.id c s.cores }
def getPart (s : State) (p : Nat) : Partition := (findBy Partition.pid p s.parts).getD (Partition.reset p)
def setPart (s : State) (p : Partition) : State := { s with parts := putBy Partition.pid p s.parts }
/-- A context's descriptor: one never written is as cleared (R255). -/
def Context.blank (num : Nat) : Context :=
  { num, st := .free, part := 0, asid := 0, ptroot := 0, lease := 0x40, save := 0, elog := 0, root := 0, logSeq := 0,
    portShare := 0, idle := ⟨0, 0, 0, false, 0⟩, heldRestore := false, heldPreempt := false,
    savedTeams := [], savedGroups := [], savedHeld := [], nextRecord := 0 }
def getCtx (s : State) (c : Nat) : Context := (findBy Context.num c s.ctxs).getD (Context.blank c)
def setCtx (s : State) (c : Context) : State := { s with ctxs := putBy Context.num c s.ctxs }
def getGroup (s : State) (g : Nat) : Option Group := findBy Group.id g s.groups
def setGroup (s : State) (g : Group) : State := { s with groups := putBy Group.id g s.groups }
def getTeam (s : State) (t : Nat) : Option Team := findBy Team.id t s.teams
def setTeam (s : State) (t : Team) : State := { s with teams := putBy Team.id t s.teams }
def getLaunch (s : State) (l : Nat) : Option Launch := findBy Launch.id l s.launches
def setLaunch (s : State) (l : Launch) : State := { s with launches := putBy Launch.id l s.launches }
def getGraph (s : State) (g : Nat) : Option Graph := findBy Graph.num g s.graphs
def setGraph (s : State) (g : Graph) : State := { s with graphs := putBy Graph.num g s.graphs }

/-- Owe a piece of internal work; the same piece is owed once. -/
def owe (s : State) (i : Instr) : State := if s.work.contains i then s else { s with work := s.work ++ [i] }

/-- A free value, and the state that will give another next time (log entry 2). -/
def freeNat (s : State) : Nat × State := (Config.free s.free, { s with free := s.free + 1 })

/-- The die of a logical core (R15, R16). -/
def dieOf (core : Nat) : Nat := core / 512 % 4
/-- The cycles that a core has counted: the time base, less what its die's lowered clock has lost (R20, R323). -/
def coreNow (s : State) (core : Nat) : W64 := s.now - BitVec.ofNat 64 (((s.dies.getD (dieOf core) ⟨21, 0, 0⟩).lag + 20) / 21)
/-- The quarter-die of a logical core, as a bit of QDIES (R15, R253). -/
def quarterOf (core : Nat) : Nat := 4 * dieOf core + core % 512 / 128
/-- A core of a partition. -/
def coreIn (p : Partition) (core : Nat) : Bool := core < 2048 && p.qdies.getLsbD (quarterOf core)
/-- The partition of a core; 8 stands for none. -/
def partOf (s : State) (core : Nat) : Nat := ((s.parts.find? fun p => p.v && coreIn p core).map Partition.pid).getD 8

/-! ## Where physical addresses lie (R11, R211, R374) -/

/-- Module memory is 768 GiB. -/
def moduleSize : Nat := 0xC000000000
/-- The trigger registers: graph g at 0xFF_0000_0000 + 8 g (R374). -/
def triggerBase : Nat := 0xFF00000000
def lineOf (pa : Nat) : Nat := pa / 128

/-- The dies of a partition, ascending (R15). -/
def partDies (p : Partition) : List Nat := (List.range 4).filter fun d => p.qdies.extractLsb' (4 * d) 4 != 0

/-- The home die of a module address, none where its region is not the partition's (R211). -/
def homeDie (p : Partition) (pa : Nat) : Option Nat :=
  let e := sget p.homes (pa / 2 ^ 30 % 1024)
  if !e.getLsbD 7 then none
  else if e.getLsbD 6 then
    let ds := partDies p
    if ds = [] then none else some (ds.getD (pa / 2 ^ 12 % 2 ^ 18 % ds.length) 0)
  else some (e.extractLsb' 4 2).toNat

/-- One of a list by a number that may be any. -/
def pick (l : List Nat) (n : Nat) : Nat := l.getD (n % l.length) 0
/-- Of `per` units on each quarter-die, those of a partition's quarter-dies on a die (R15). -/
def unitsOf (p : Partition) (die per : Nat) : List Nat :=
  ((List.range 4).filter fun k => p.qdies.getLsbD (4 * die + k)).flatMap fun k => (List.range per).map fun i => per * k + i
/-- The home slice of a line and its memory channel: on its home die, one of the partition's 64 slices and 6 channels of each
quarter-die, by a fixed hash (R15, R211). -/
def sliceOf (p : Partition) (pa : Nat) : Option (Nat × Nat) :=
  (homeDie p pa).map fun die => (die, pick (unitsOf p die 64) (Config.homeSlice (lineOf pa)))
def channelOf (p : Partition) (pa : Nat) : Option (Nat × Nat) :=
  (homeDie p pa).map fun die => (die, pick (unitsOf p die 6) (Config.homeChannel (lineOf pa)))

/-- The partition that a module address belongs to; 8 stands for none. -/
def ownerOf (s : State) (pa : Nat) : Nat := ((s.parts.find? fun p => p.v && (homeDie p pa).isSome).map Partition.pid).getD 8
/-- The partitions there are. -/
def livePids (s : State) : List Nat := (s.parts.filter Partition.v).map Partition.pid

/-! ## Buckets of the slice ports (R219, R220) -/

/-- RATE of a bucketed context; EN with RATE 0 acts as 1. -/
def portRate (c : Context) : Nat := max 1 (c.portShare.extractLsb' 16 16).toNat
def portCap (c : Context) : Nat := (c.portShare.extractLsb' 32 16).toNat
def bucketed (part : Nat) (c : Context) : Bool := c.part = part && c.portShare.getLsbD 0

/-- n tokens taken, from the tokens and then from the allotment; those of transfers that find neither are taken after the
next boundary. -/
def Bucket.take (b : Bucket) (n : Nat) : Bucket :=
  let t := min n b.tokens
  let a := min (n - t) b.allot
  { tokens := b.tokens - t, allot := b.allot - a, taken := b.taken + t + a, emptied := b.emptied || (0 < t && t = b.tokens),
    owed := b.owed + (n - t - a) }

/-- A context's bucket at a port. -/
def portBucket (s : State) (c : Context) (die slice : Nat) : Bucket :=
  ((s.ports.find? fun p => p.die = die && p.slice = slice && p.ctx = c.num).map PortBucket.bucket).getD c.idle
def setPortBucket (s : State) (ctx die slice : Nat) (b : Bucket) : State :=
  { s with ports := s.ports.filter (fun p => !(p.die = die && p.slice = slice && p.ctx = ctx)) ++ [⟨die, slice, ctx, b⟩] }

/-- A transfer of n bytes by a context between a core and a line's home slice: one token moves 64 bytes. -/
def portTransfer (s : State) (ctx : Nat) (pa n : Nat) : State :=
  let c := getCtx s ctx
  if c.portShare.getLsbD 0 then
    match sliceOf (getPart s c.part) pa with
    | some (die, slice) => setPortBucket s ctx die slice ((portBucket s c die slice).take ((n + 63) / 64))
    | none => s
  else s

/-! ## Lease clocks (R212) -/

def maxStamp (a b : BitVec 48) : BitVec 48 := if a.toNat < b.toNat then b else a

/-- The key of a line among host stamps: each partition's clocks have their own stamps of it (R216). -/
def hostKey (part line : Nat) : Nat := part * 2 ^ 57 + line
/-- The write stamp and the lease end of a line at its home, as a partition's clocks have them. -/
def lineWs (s : State) (host : Bool) (part line : Nat) : BitVec 48 :=
  if host then sget s.hostWs (hostKey part line) else sget s.ws line
def lineLe (s : State) (host : Bool) (part line : Nat) : BitVec 48 :=
  if host then sget s.hostLe (hostKey part line) else sget s.le line
def setLineWs (s : State) (host : Bool) (part line : Nat) (v : BitVec 48) : State :=
  if host then { s with hostWs := sset s.hostWs (hostKey part line) v } else { s with ws := sset s.ws line v }
def setLineLe (s : State) (host : Bool) (part line : Nat) (v : BitVec 48) : State :=
  if host then { s with hostLe := sset s.hostLe (hostKey part line) v } else { s with le := sset s.le line v }

/-- The agent holds a host line once the device has touched it: at most 4096, the oldest given up (R373). -/
def holdHostLine (s : State) (host : Bool) (line : Nat) : State :=
  if host && !s.hostLines.contains line then
    let l := s.hostLines ++ [line]
    { s with hostLines := l.drop (l.length - 4096) }
  else s

/-- R212's load at the home slice, by a reader with clock `clk` and lease length L: the reader's new clock and le. -/
def leaseLoad (s : State) (host : Bool) (part line lease : Nat) (clk : BitVec 48) : State × BitVec 48 × BitVec 48 :=
  let clk' := maxStamp clk (lineWs s host part line)
  let le' := maxStamp (lineLe s host part line) (clk' + BitVec.ofNat 48 lease)
  (setLineLe (holdHostLine s host line) host part line le', clk', le')

/-- R212's store at the home slice: the writer's new clock, which is the line's ws. It is later than the ws of the store before it
too, as R213's one order and R232 to R234 ask (DEDUCED, log entry 112). -/
def leaseStore (s : State) (host : Bool) (part line : Nat) (clk : BitVec 48) : State × BitVec 48 :=
  let ws' := maxStamp (maxStamp clk (lineLe s host part line)) (lineWs s host part line) + 1
  (setLineWs (holdHostLine s host line) host part line ws', ws')

def bytesAt (s : State) (host : Bool) (pa n : Nat) : List Byte := readBytes (if host then s.hostMem else s.mem) pa n

/-- A line whose every byte one access writes loses its poison (R365, R470; log entry 96). -/
def unpoison (s : State) (host : Bool) (pa n : Nat) : State :=
  let whole (l : Nat) := pa ≤ 128 * l && 128 * l + 128 ≤ pa + n
  if host then { s with hostPoison := s.hostPoison.filter fun l => !whole l }
  else { s with poison := s.poison.filter fun l => !whole l }

/-- The bytes of a write performed at its home, and the wake of every wait registered on its lines (R169). -/
def putBytes (s : State) (host : Bool) (pa : Nat) (bs : List Byte) : State :=
  let s := if host then { s with hostMem := writeBytes s.hostMem pa bs } else { s with mem := writeBytes s.mem pa bs }
  let hit (l : Nat) := s.waits.any fun w => w.host = host && w.line = l
  (List.range ((pa + bs.length + 127) / 128 - pa / 128)).foldl
    (fun s i => if hit (pa / 128 + i) then owe s (.waitaWake host (pa / 128 + i)) else s)
    (unpoison s host pa bs.length)

/-- The largest clock of a partition: what orders an agent with no core after everything before it (log entry 7). -/
def topClk (s : State) (part : Nat) : BitVec 48 :=
  (s.cores.filter fun k => coreIn (getPart s part) k.id).foldl (fun m k => maxStamp m k.clk) (sget s.devClk part)
/-- The clock of a core, or of an agent that has no core, in a partition. -/
def clkOf (s : State) (core : Option Nat) (part : Nat) : BitVec 48 :=
  match core with
  | some c => (getCore s c).clk
  | none => topClk s part
def setClk (s : State) (core : Option Nat) (part : Nat) (clk : BitVec 48) : State :=
  match core with
  | some c => setCore s { getCore s c with clk := clk }
  | none => { s with devClk := sset s.devClk part clk }
/-- A core that meets others at a barrier, in a scratchpad or at a start goes on from the largest clock (log entry 7). -/
def syncClk (s : State) (core : Nat) : State := setClk s (some core) 0 (topClk s (partOf s core))

/-- The partitions whose clocks an access moves: the core's own; of an agent with no core, the line's, or all where it is a
host line. -/
def movesClk (s : State) (core : Option Nat) (host : Bool) (pa : Nat) : List Nat :=
  match core with
  | some c => [partOf s c]
  | none => if host then livePids s else [ownerOf s pa]

/-- A read performed at the home (R212), of bytes within one line. -/
def homeRead (s : State) (core : Option Nat) (lease : Nat) (host : Bool) (pa n : Nat) : State × List Byte :=
  let one (s : State) (p : Nat) : State :=
    let (s', clk, _) := leaseLoad s host p (lineOf pa) lease (clkOf s core p)
    setClk s' core p clk
  ((movesClk s core host pa).foldl one s, bytesAt s host pa n)

/-- The stamps of a line that is written (R212). A host line that a core writes carries for every other partition a stamp as
late as that partition's largest clock, so that no order between partitions is lost by a rebase of one (R216). -/
def stampLine (s : State) (core : Option Nat) (host : Bool) (line : Nat) : State :=
  let mine := movesClk s core host (128 * line)
  let one (s : State) (p : Nat) : State :=
    let (s', clk) := leaseStore s host p line (clkOf s core p)
    setClk s' core p clk
  let s := mine.foldl one s
  if host then
    ((livePids s).filter fun p => !mine.contains p).foldl (fun s p => (leaseStore s true p line (topClk s p)).1) s
  else s

/-- The stamps of every line a write touches, in ascending order (R212). -/
def stampLines (s : State) (core : Option Nat) (host : Bool) (line : Nat) : Nat → State
  | 0 => s
  | n + 1 => stampLines (stampLine s core host line) core host (line + 1) n

/-- A write performed at the home (R212), and the issuing core's L1 copy written too where one is present (R209). -/
def homeWrite (s : State) (core : Option Nat) (host : Bool) (pa : Nat) (bs : List Byte) : State :=
  let n := (pa + bs.length + 127) / 128 - pa / 128
  let s := stampLines (putBytes s host pa bs) core host (lineOf pa) n
  match core with
  | some c =>
    if host then s
    else
      let k := getCore s c
      if k.l1.any (fun x => lineOf pa ≤ x.line && x.line < lineOf pa + n) then
        let put (x : Copy) : Copy :=
          if lineOf pa ≤ x.line ∧ x.line < lineOf pa + n then { x with bytes := overlay (128 * x.line) x.bytes pa bs } else x
        setCore s { k with l1 := k.l1.map put }
      else s
  | none => s

/-- Writes by Bronze, the front end, the walkers, Brass and the host. -/
def devWrite (s : State) (host : Bool) (pa : Nat) (bs : List Byte) : State := homeWrite s none host pa bs

/-! ## Stores that wait in L1 (R214) -/

def GrpStore.overlaps (g : GrpStore) (pa n : Nat) : Bool := g.pa < pa + n && pa < g.pa + g.bytes.length
/-- A store to one of the lines that n bytes lie in: what overlaps goes home together, in its order (R225). -/
def GrpStore.onLines (g : GrpStore) (pa n : Nat) : Bool := lineOf pa ≤ lineOf g.pa && lineOf g.pa ≤ lineOf (pa + (n - 1))

/-- Perform every grp-scope store of a core that `p` picks, in order. -/
def drainWhere (s : State) (core : Nat) (p : GrpStore → Bool) : State :=
  let k := getCore s core
  (k.grpStores.filter p).foldl (fun s g => homeWrite (portTransfer s g.ctx g.pa g.bytes.length) (some core) false g.pa g.bytes)
    (setCore s { k with grpStores := k.grpStores.filter fun g => !p g })

/-- Perform one grp-scope store that stayed in L1. -/
def drainOne (s : State) (core : Nat) : State :=
  let k := getCore s core
  match k.grpStores with
  | [] => s
  | g :: r =>
    homeWrite (portTransfer (setCore s { k with grpStores := r }) g.ctx g.pa g.bytes.length) (some core) false g.pa g.bytes

/-- Every grp-scope store of a group goes home. -/
def drainGid (s : State) (core gid : Nat) : State := drainWhere s core fun g => g.gid = gid

/-- A line leaves a core's L1: its waiting stores go home first. -/
def evictLine (s : State) (core line : Nat) : State :=
  let s := drainWhere s core fun g => lineOf g.pa = line
  let k := getCore s core
  setCore s { k with l1 := k.l1.filter fun x => x.line != line }

/-- The lines that a core's L1 holds: copies, and lines with waiting stores. -/
def Core.l1Lines (k : Core) : List Nat := (k.l1.map Copy.line ++ k.grpStores.map fun g => lineOf g.pa).eraseDups
/-- One copy of those that may go: `hint=stream` first and `hint=keep` last, the oldest of equals (R30). DESIGN CHOICE, log
entry 105. -/
def giveUp {α : Type} (hint : α → Nat) (may : α → Bool) (l : List α) : List α :=
  let first (h : Nat) (x : α) : Bool := may x && hint x = h
  if l.any (first 1) then l.eraseP (first 1) else if l.any (first 0) then l.eraseP (first 0) else l.eraseP may
/-- The HINT that a line in a core's L1 goes by: its copy's, or that of its last waiting store. -/
def Core.lineHint (k : Core) (line : Nat) : Nat :=
  match k.l1.find? fun x => x.line = line with
  | some x => x.hint
  | none => (((k.grpStores.filter fun g => lineOf g.pa = line).getLast?).map GrpStore.hint).getD 0
/-- L1 holds 128 KiB, 1024 lines: of more, those go that R30 names first, with their waiting stores, once the word that brought
them is over (R16, R208, R214). -/
def boundL1 (core : Nat) : Nat → State → State
  | 0, s => s
  | fuel + 1, s =>
    let k := getCore s core
    let l := k.l1Lines
    if l.length ≤ 1024 then s
    else match l.find? fun x => !(giveUp k.lineHint (fun _ => true) l).contains x with
      | some x => boundL1 core fuel (evictLine s core x)
      | none => s
/-- Every core's L1 within its size. -/
def boundCaches (s : State) : State :=
  (s.cores.filter fun k => 1024 < k.l1Lines.length).foldl (fun s k => boundL1 k.id k.l1Lines.length s) s
/-- A store with `hint=stream` or `hint=keep` marks the copy that its core has of a line (R30, R56). -/
def markCopies (s : State) (core pa n hint : Nat) : State :=
  if hint = 1 || hint = 2 then
    let k := getCore s core
    let on (x : Copy) : Bool := lineOf pa ≤ x.line && x.line ≤ lineOf (pa + (n - 1))
    setCore s { k with l1 := k.l1.map fun x => if on x then { x with hint } else x }
  else s
/-- A die's RDC holds 64 MiB, 524,288 lines (R11, R208): for one more, a copy of another line goes. -/
def boundRdc (die line : Nat) (l : List (Nat × Copy)) : List (Nat × Copy) :=
  if 524288 < (l.filter fun p => p.1 = die).length then
    giveUp (fun p => p.2.hint) (fun p => p.1 = die && p.2.line != line) l
  else l

/-- A grp-scope store of Mode S stays in its core's L1. -/
def holdStore (s : State) (core : Nat) (g : GrpStore) : State :=
  let k := getCore s core
  setCore s { k with grpStores := k.grpStores ++ [g] }

/-- A group's lanes are to read n bytes: what it has waiting of them is known where the last store of them covers them all;
else it goes home first, so that the load reads all its bytes of one moment (R214, R222). -/
def ownStores (s : State) (core gid pa n : Nat) : State × Option (List Byte) :=
  match ((getCore s core).grpStores.filter fun g => g.gid = gid && g.overlaps pa n).getLast? with
  | none => (s, none)
  | some g =>
    if g.pa ≤ pa && pa + n ≤ g.pa + g.bytes.length then (s, some ((g.bytes.drop (pa - g.pa)).take n))
    else (drainWhere s core fun g => g.gid = gid && g.onLines pa n, none)

/-! ## Reads through the caches -/

/-- A copy is usable while the reader's clock, raised to the copy's ws, has not passed its lease end (R212). -/
def Copy.usable (x : Copy) (clk : BitVec 48) : Bool := (maxStamp clk x.ws).toNat ≤ x.le.toNat

/-- Whether a load missed L1. -/
structure LoadResult where
  state : State
  bytes : List Byte
  missed : Bool

/-- A copy that a core has taken into its L1: the reader's clock is at least its ws (R212). -/
def keepCopy (s : State) (core : Nat) (x : Copy) : State :=
  let k := getCore s core
  setCore s { k with clk := maxStamp k.clk x.ws, l1 := k.l1.filter (fun y => y.line != x.line) ++ [x] }

/-- The copy of a line that a core's read past its L1 takes: one that its die's RDC holds of a line homed on another die, or one
from the home, which the RDC then holds (R208, R212). -/
def takeLine (s : State) (core ctx lease : Nat) (part : Partition) (hint pa : Nat) : State × Copy :=
  let line := lineOf pa
  let k := getCore s core
  let die := dieOf core
  let rdc := (s.rdc.find? fun p => p.1 = die && p.2.line = line && p.2.usable k.clk).map Prod.snd
  match (if homeDie part pa = some die then none else rdc) with
  | some x => (s, { x with hint })
  | none =>
    let (s', _, le) := leaseLoad (portTransfer s ctx pa 128) false part.pid line lease k.clk
    let x : Copy := ⟨line, sget s.ws line, le, hint, bytesAt s false (128 * line) 128⟩
    (if homeDie part pa = some die then s'
      else { s' with rdc := boundRdc die line (s'.rdc.filter (fun p => !(p.1 = die && p.2.line = line)) ++ [(die, x)]) }, x)

/-- A load by a lane of a core, through L1 and RDC copies (R208, R209, R212), with the word's HINT; `direct` goes to the home
each time (MTYPE 1), as do `hint=nol1`, 3, and host memory. The copy keeps R212's le, which another core's lease may have raised above clk + L: log entry
67. -/
def cachedRead (s : State) (core ctx lease : Nat) (part : Partition) (host direct : Bool) (hint pa n : Nat) : LoadResult :=
  let line := lineOf pa
  let k := getCore s core
  let cut (x : Copy) := (x.bytes.drop (pa % 128)).take n
  let l1 := k.l1.find? fun x => x.line = line && x.usable k.clk
  if host || direct || hint = 3 then
    let (s', bs) := homeRead (if host then s else portTransfer s ctx pa n) (some core) lease host pa n
    ⟨s', bs, host⟩
  else match l1 with
    | some x => ⟨s, cut x, false⟩
    | none =>
      let (s', x) := takeLine s core ctx lease part hint pa
      ⟨keepCopy s' core x, cut x, true⟩

/-- A read by a tile instruction or the tile fetch unit, which L1 does not serve (R190, R195, R208): of a line homed on another die
through the RDC, of another at its home. DEDUCED, log entry 113. -/
def tileLoad (s : State) (core ctx lease : Nat) (part : Partition) (direct : Bool) (hint pa n : Nat) : LoadResult :=
  if direct || hint = 3 || homeDie part pa = some (dieOf core) then
    let (s', bs) := homeRead (portTransfer s ctx pa n) (some core) lease false pa n
    ⟨s', bs, false⟩
  else
    let (s', x) := takeLine s core ctx lease part hint pa
    let k := getCore s' core
    ⟨setCore s' { k with clk := maxStamp k.clk x.ws }, (x.bytes.drop (pa % 128)).take n, false⟩

/-! ## Page walks (R360 to R364) -/

/-- Bits of a page-table entry (R361). -/
def pteBit (e : W64) (i : Nat) : Bool := e.getLsbD i
def pteNps (e : W64) : Nat := (e.extractLsb' 1 2).toNat
def pteFrame (e : W64) : Nat := (e.extractLsb' 12 40).toNat * 4096
def pteMtype (e : W64) : Nat := (e.extractLsb' 59 4).toNat

/-- log2 of what a leaf of a level maps (R360). -/
def levelLog2 : Nat → Nat
  | 0 => 12
  | 1 => 21
  | _ => 30

/-- A malformed entry at a level (R363). -/
def pteMalformed (level : Nat) (e : W64) : Bool :=
  if !pteBit e 0 then pteNps e = 3
  else
    pteNps e != 0
      || (if pteBit e 3 then
            level ≥ 3 || e.extractLsb' 52 7 != 0
              || (level > 0 && pteFrame e % 2 ^ levelLog2 level != 0)
              || pteMtype e ≥ 4
              || (pteMtype e = 3 && (level != 0 || !(triggerBase ≤ pteFrame e && pteFrame e < triggerBase + 0x2000)))
          else level = 0 || e &&& 0xFFF0000000000FFE != 0)

/-- What a walk finds. -/
inductive Walk where
  /-- a leaf: its level, its entry's address and value -/
  | leaf (level pa : Nat) (e : W64)
  /-- the first entry not present: its address and value (R365) -/
  | absent (pa : Nat) (e : W64)
  /-- a fault of the walk itself, and the address of the entry where it is a violation or a poison -/
  | fault (cause : BitVec 8) (pa : Nat)
  deriving DecidableEq, Repr

/-- A canonical address (R360). -/
def canonical (va : W64) : Bool := (va.extractLsb' 56 8 = 0) || (va.extractLsb' 56 8 = 0xFF)

/-- The walk from a table at `base` at `level`, `fuel` levels left (R360, R363, R370), with the non-leaf entries it has
followed, each with its level and the address bits that led to it. `held` gives the entries of the walker's cache. -/
def walkFrom (s : State) (part : Partition) (held : Nat → Nat → Option W64) (va : W64) : Nat → Nat → Walk × List (Nat × Nat × W64)
  | 0, _ => (.fault 0x04 0, [])
  | level + 1, base =>
    let index := va.toNat / 2 ^ (12 + 9 * level) % 2 ^ 45
    let pa := base + 8 * (index % 512)
    let on (e : W64) : Walk × List (Nat × Nat × W64) :=
      let (w, l) := walkFrom s part held va level (pteFrame e)
      (w, (level, index, e) :: l)
    match held level index with
    | some e => on e
    | none =>
      if moduleSize ≤ pa then (.fault 0x04 0, [])
      else if homeDie part pa = none then (.fault 0x15 pa, [])
      else if s.poison.contains (lineOf pa) then (.fault 0x14 pa, [])
      else
        let e := BitVec.ofNat 64 (readNat s.mem pa 8)
        if pteMalformed level e then (.fault 0x04 0, [])
        else if !pteBit e 0 then (.absent pa e, [])
        else if pteBit e 3 then (.leaf level pa e, [])
        else on e

/-- A walk that reads every entry afresh. -/
def walk (s : State) (part : Partition) (root va : W64) : Walk :=
  if !canonical va then .fault 0x04 0 else (walkFrom s part (fun _ _ => none) va 5 root.toNat).1

/-- The entries a walker's cache holds for an ASID of a partition (R368). -/
def walkHeld (s : State) (die walker part : Nat) (asid : BitVec 16) (level index : Nat) : Option W64 :=
  (s.walkCache.find? fun c => c.die = die && c.walker = walker && c.part = part && c.asid = asid && c.level = level
    && c.index = index).map WalkCopy.entry

/-- A non-leaf entry is kept, at most 64 by a walker. -/
def keepWalk (l : List WalkCopy) (c : WalkCopy) : List WalkCopy :=
  let mine (x : WalkCopy) : Bool := x.die = c.die && x.walker = c.walker
  if l.contains c then l
  else
    let l := l ++ [c]
    if 64 < (l.filter mine).length then l.eraseP mine else l

/-- A walk by one of a die's 64 walkers, which one being free (R368). -/
def walkerWalk (s : State) (die : Nat) (part : Partition) (asid : BitVec 16) (root va : W64) : State × Walk :=
  if !canonical va then (s, .fault 0x04 0)
  else
    let (n, s) := freeNat s
    let (w, l) := walkFrom s part (walkHeld s die (n % 64) part.pid asid) va 5 root.toNat
    let copy (x : Nat × Nat × W64) : WalkCopy := ⟨die, n % 64, part.pid, asid, x.1, x.2.1, x.2.2⟩
    ({ s with walkCache := (l.map copy).foldl keepWalk s.walkCache }, w)

/-! ## Page requests (R365, R367) -/

/-- Partition logical time (R473): the core's clock, or the largest of the partition's cores. DESIGN CHOICE, log entry 68:
Bronze has sampled the cores' clocks at the moment of the write. -/
def partTime (s : State) (part : Nat) (core : Option Nat) : W64 :=
  match core with
  | some c => ((getCore s c).clk).setWidth 64
  | none => ((s.cores.filter fun k => coreIn (getPart s part) k.id).foldl (fun m k => maxStamp m k.clk) 0).setWidth 64

/-- Post a request for an INVALID page and mark it FAULT-PENDING; a full ring sets PRQOVF and writes nothing. -/
def postRequest (s : State) (core : Option Nat) (ctx : Context) (va : W64) (acc : PageAcc) (pa : Nat) (e : W64) : State :=
  let p := getPart s ctx.part
  let size := 2 ^ (p.prqLog2n + 8)
  if !p.prqEn then s
  else if (p.prqTail - p.prqHead).toNat = size then setPart s { p with prqovf := true }
  else
    let accBits := (if acc.read then 1 else 0) + (if acc.write then 2 else 0) + (if acc.exec then 4 else 0)
      + (if acc.tile then 8 else 0)
    let low := p.prqTail.toNat + accBits * 2 ^ 32 + ctx.asid.toNat * 2 ^ 36 + ctx.num * 2 ^ 52
    let entry := leBytes 8 low ++ leBytes 8 (va.toNat / 4096 * 4096) ++ leBytes 8 0 ++ leBytes 8 (partTime s ctx.part core).toNat
    let s := devWrite s false pa (leBytes 8 ((e.toNat / 8 * 8) + e.toNat % 2 + 4))
    let s := devWrite s true (p.prqBase.toNat + 32 * (p.prqTail.toNat % size)) entry
    setPart s { getPart s ctx.part with prqTail := p.prqTail + 1 }

/-! ## Translation (R149, R368, R370, R371) -/

/-- What a translation answers. -/
inductive Xlat where
  /-- memory type and physical address -/
  | ok (mtype pa : Nat)
  /-- not present, in a way tolerant readers tolerate (R371) -/
  | absent
  /-- a fault, and the physical address where one applies (R259's PADDR) -/
  | fault (cause : BitVec 8) (pa : Nat)
  deriving DecidableEq, Repr

/-- The permission check of a leaf (R370). -/
def permitted (e : W64) (acc : PageAcc) : Bool :=
  (!acc.read || pteBit e 4) && (!acc.write || pteBit e 5) && (!acc.exec || pteBit e 6) && (!pteBit e 7 || acc.tile)

/-- The answer of a leaf that maps 2^lg bytes: permission, partition violation, poison of the page. `devOk` says whether
the access may use a device location (R362, R370). -/
def leafAnswer (part : Partition) (e : W64) (lg : Nat) (va : W64) (acc : PageAcc) (devOk : Nat → Bool) : Xlat :=
  let pa := pteFrame e / 2 ^ lg * 2 ^ lg + va.toNat % 2 ^ lg
  if !permitted e acc || (pteMtype e = 3 && !devOk pa) then .fault 0x05 0
  else if pteMtype e ≤ 1 && (moduleSize ≤ pa || homeDie part pa = none) then .fault 0x15 pa
  else if pteBit e 63 then .fault 0x14 pa
  else .ok (pteMtype e) pa

/-- A TLB entry serves an address (R368): same TLB and partition, the page, and the ASID unless global. -/
def TlbEntry.hits (t : TlbEntry) (place : TlbPlace) (part : Nat) (asid : BitVec 16) (va : W64) : Bool :=
  t.place = place && t.part = part && (t.global || t.asid = asid) && va.toNat / 2 ^ t.log2 = t.page.toNat / 2 ^ t.log2

/-- The TLBs that a lookup searches, in order: an agent with no core has its die's alone. -/
def tlbPath (core : Option Nat) (die : Nat) : List TlbPlace :=
  (match core with
   | some c => [.l0 c, .l1 c]
   | none => []) ++ [.die die]

/-- The entries a TLB holds (R368). -/
def TlbPlace.size : TlbPlace → Nat
  | .l0 _ => 64
  | .l1 _ => 1024
  | .die _ => 131072

/-- A pending range invalidation covers a lookup, which then waits for it and walks afresh (R369). -/
def Invalidation.covers (i : Invalidation) (asid : BitVec 16) (global : Bool) (va : W64) : Bool :=
  (i.allas || i.asid = asid || (global && i.glob))
    && (i.npages = 0 || (i.va.toNat / 4096 ≤ va.toNat / 4096 && va.toNat / 4096 < i.va.toNat / 4096 + i.npages))

/-- The entry that a lookup finds; a write needs one with D = 1 (R364). -/
def tlbFind (s : State) (core : Option Nat) (die : Nat) (part : Partition) (asid : BitVec 16) (va : W64) (acc : PageAcc) :
    Option TlbEntry :=
  if !canonical va then none
  else (tlbPath core die).findSome? fun p => s.tlb.find? fun t => t.hits p part.pid asid va && !t.passed
    && (!acc.write || pteBit t.leaf 9) && !part.pendingInv.any fun i => i.covers asid t.global va

/-- An entry put into its TLB, in place of those of its page; a full TLB gives up its oldest. -/
def putTlb (asid : BitVec 16) (va : W64) (l : List TlbEntry) (t : TlbEntry) : List TlbEntry :=
  let l := l.filter (fun u => !u.hits t.place t.part asid va) ++ [t]
  if t.place.size < (l.filter fun u => u.place = t.place).length then l.eraseP fun u => u.place = t.place else l

/-! ## Range invalidation (R369) -/

/-- An invalidation's range meets 2^lg bytes from a page. -/
def Invalidation.meets (i : Invalidation) (va : W64) (lg : Nat) : Bool :=
  let lo := i.va.toNat / 4096
  let page := va.toNat / 4096
  i.npages = 0 || (page < lo + i.npages && lo < page + 2 ^ (lg - 12))
/-- A TLB entry, a walker's copy and an outstanding walk that an invalidation removes. -/
def Invalidation.removes (i : Invalidation) (part : Nat) (t : TlbEntry) : Bool :=
  t.part = part && (i.allas || i.asid = t.asid || (t.global && i.glob)) && i.meets t.page t.log2
def Invalidation.removesWalk (i : Invalidation) (part : Nat) (c : WalkCopy) : Bool :=
  let lg := 12 + 9 * c.level
  let va := ((BitVec.ofNat 57 (c.index * 2 ^ lg)).signExtend 64)
  c.part = part && (i.allas || i.asid = c.asid) && i.meets va lg
def Invalidation.removesMiss (i : Invalidation) (part : Nat) (m : Miss) : Bool :=
  m.part = part && (i.allas || i.asid = m.asid || (pteBit m.leaf 10 && i.glob)) && i.meets (BitVec.ofNat 64 (4096 * m.page)) 12

/-- A deferred LDF that an invalidation's range covers, whatever its page's G says. -/
def Invalidation.coversLdf (s : State) (part : Nat) (i : Invalidation) (d : DeferredLdf) : Bool :=
  match (getGroup s d.gid).bind fun g => getTeam s g.team with
  | some t => (getCtx s t.ctx).part = part && i.covers (getCtx s t.ctx).asid true d.va
  | none => false

/-- Deferred LDFs that were translated through a removed entry leave their cells: the LDFs of their groups are issued again for the
lanes not answered, and walk afresh (R369). DESIGN CHOICE, log entry 108. -/
def withdrawLdfs (s : State) (part : Nat) (i : Invalidation) : State :=
  let gids := ((s.deferred.filter (i.coversLdf s part)).map DeferredLdf.gid).eraseDups
  let again (x : Side) : Side := match x.st with
    | .park (.ldf _ fault) => { x with st := .park (.ldf true fault) }
    | _ => x
  gids.foldl (fun s gid =>
    match getGroup s gid with
    | some g => owe (setGroup s { g with sides := g.sides.map again }) (.dependenceResolved gid)
    | none => s) { s with deferred := s.deferred.filter fun d => !gids.contains d.gid }

/-- Completion of the oldest pending invalidation: the stores that its partition's cores still hold go home, its entries go,
and DONE counts it. -/
def completeInvalidation (s : State) (part : Nat) : State :=
  match (getPart s part).pendingInv with
  | [] => s
  | i :: r =>
    let s := (s.cores.filter fun k => coreIn (getPart s part) k.id).foldl (fun s k => drainWhere s k.id fun _ => true) s
    let s := withdrawLdfs s part i
    let p := getPart s part
    let s := setPart s { p with pendingInv := r, invDone := p.invDone + 1 }
    { s with
      tlb := s.tlb.filter fun t => !i.removes part t, walkCache := s.walkCache.filter fun c => !i.removesWalk part c
      misses := s.misses.filter fun m => !i.removesMiss part m }

/-- A lookup that pending invalidations cover waits for them: they complete, in their order, before it goes on. -/
def awaitInvalidations (s : State) (core : Option Nat) (die part : Nat) (asid : BitVec 16) (va : W64) : State :=
  let path := tlbPath core die
  let known (t : TlbEntry) : Bool := t.global && path.any fun p => t.hits p part asid va
  let waits (s : State) : Bool := (getPart s part).pendingInv.any fun i => i.covers asid (s.tlb.any known) va
  (getPart s part).pendingInv.foldl (fun s _ => if waits s then completeInvalidation s part else s) s

/-! ## Lookups -/

/-- The leaf that a walk of a page finds: one read by a walk outstanding in the die's miss table, which this access shares,
or by a walk of its own. A, and D where `dirty` says so, are set by an ACAS that finds the entry as the walk has read it
(R364). -/
def findLeaf (s : State) (die : Nat) (part : Partition) (asid : BitVec 16) (root va : W64) (bits : Nat → W64 → W64) : State × Walk :=
  let same (m : Miss) : Bool := m.die = die && m.part = part.pid && m.asid = asid && m.page = va.toNat / 4096
  match s.misses.find? same with
  | some m =>
    let s := { s with misses := s.misses.filter fun m => !same m }
    if m.leaf ||| bits m.level m.leaf = m.leaf || BitVec.ofNat 64 (readNat s.mem m.pa 8) = m.leaf then (s, .leaf m.level m.pa m.leaf)
    else walkerWalk s die part asid root va
  | none => walkerWalk s die part asid root va

/-- The leaf whose fields a CONTIG group's entry has (R363): the group's own leaves agree but for A, D and PFN[15:12]; where
they do not, those of any one of the sixteen that is VALID. -/
def contigLeaf (s : State) (pa : Nat) (e : W64) : State × W64 :=
  let strip (x : W64) : W64 := x &&& ~~~(0xF300 : W64)
  let at_ (i : Nat) : W64 := BitVec.ofNat 64 (readNat s.mem (pa / 128 * 128 + 8 * i) 8)
  if (List.range 16).all fun i => strip (at_ i) = strip e then (s, e)
  else
    let (n, s) := freeNat s
    let x := at_ (n % 16)
    (s, if pteBit x 0 && pteBit x 3 && !pteMalformed 0 x then x else e)

/-- Translate an address of a context for an access on a die. `post` says whether a miss on an INVALID page posts a request
(R365), `mark` whether a write is performed and not only checked. Sets A at a fill and D at the first write (R364). -/
def translate (s : State) (core : Option Nat) (die ctxNum : Nat) (va : W64) (acc : PageAcc) (post mark : Bool)
    (devOk : Nat → Bool) : State × Xlat :=
  let ctx := getCtx s ctxNum
  let part := getPart s ctx.part
  match tlbFind s core die part ctx.asid va { acc with write := acc.write && mark } with
  | some t => (s, leafAnswer part t.leaf t.log2 va acc devOk)
  | none =>
    let s := awaitInvalidations s core die part.pid ctx.asid va
    let ok (x : Xlat) : Bool := match x with | .ok _ _ => true | _ => false
    let lgOf (level : Nat) (e : W64) : Nat := if level = 0 && pteBit e 11 then 16 else levelLog2 level
    let marks (level : Nat) (e : W64) : W64 :=
      if acc.write && mark && ok (leafAnswer part e (lgOf level e) va acc devOk) then 0x300 else 0x100
    match findLeaf s die part ctx.asid ctx.root va marks with
    | (s, .fault c pa) => (s, .fault c pa)
    | (s, .absent pa e) => (if post && pteNps e = 0 then postRequest s core ctx va acc pa e else s, .absent)
    | (s, .leaf level pa e) =>
      let lg := lgOf level e
      let (s, own) := if lg = 16 then contigLeaf s pa e else (s, e)
      let e' := e ||| marks level own
      let s := if e' = e then s else devWrite s false pa (leBytes 8 e'.toNat)
      let t (p : TlbPlace) : TlbEntry :=
        ⟨p, part.pid, ctx.asid, pteBit own 10, BitVec.ofNat 64 (va.toNat / 2 ^ lg * 2 ^ lg), lg, own ||| (e' &&& 0x300), false⟩
      ({ s with tlb := ((tlbPath core die).map t).foldl (putTlb ctx.asid va) s.tlb }, leafAnswer part own lg va acc devOk)

/-- A walk begins for a page that no walk is outstanding for, while the die's miss table has one of its 4096 places (R368). -/
def beginWalk (s : State) (ctxNum die : Nat) (va : W64) : State :=
  let ctx := getCtx s ctxNum
  let part := getPart s ctx.part
  let held (m : Miss) : Bool := m.die = die && m.part = part.pid && m.asid = ctx.asid && m.page = va.toNat / 4096
  if 4 ≤ die || s.misses.any held || 4096 ≤ (s.misses.filter fun m => m.die = die).length
      || part.pendingInv.any fun i => i.covers ctx.asid false va then s
  else
    match walkerWalk s die part ctx.asid ctx.root va with
    | (s, .leaf level pa e) =>
      { s with misses := s.misses ++ [⟨die, part.pid, ctx.asid, va.toNat / 4096, level, pa, e⟩] }
    | (s, _) => s

/-! ## Error logs (R259) -/

/-- The 32 bytes of a log entry. -/
def logEntryBytes (seq : Nat) (cause : BitVec 8) (core ctx : Nat) (time : W64) (vaddr : W64) (paddr : Nat) : List Byte :=
  leBytes 8 (cause.toNat + seq % 2 ^ 24 * 2 ^ 8 + core * 2 ^ 40 + ctx * 2 ^ 52) ++ leBytes 8 time.toNat
    ++ leBytes 8 vaddr.toNat ++ leBytes 8 paddr

/-- An entry for the context error log, at its virtual address; none with ELOG = 0 or where the page is not mapped. -/
def logContext (s : State) (ctxNum : Nat) (cause : BitVec 8) (core : Option Nat) (vaddr : W64) (paddr : Nat) : State :=
  let c := getCtx s ctxNum
  if c.elog = 0 then s
  else
    let seq := (c.logSeq + 1) % 2 ^ 24
    let s := setCtx s { c with logSeq := seq }
    let va := c.elog + BitVec.ofNat 64 (32 * ((seq + 2 ^ 24 - 1) % 128))
    match walk s (getPart s c.part) c.root va with
    | .leaf level epa e =>
      let lg := levelLog2 level
      let pa := pteFrame e / 2 ^ lg * 2 ^ lg + va.toNat % 2 ^ lg
      let s := if e ||| 0x300 = e then s else devWrite s false epa (leBytes 8 (e ||| 0x300).toNat)
      devWrite s (pteMtype e = 2) pa (logEntryBytes seq cause (core.getD 0xFFF) ctxNum (partTime s c.part core) vaddr paddr)
    | _ => s

/-- An entry for the partition error log, at its physical address. -/
def logPartition (s : State) (part ctxNum : Nat) (cause : BitVec 8) (core : Option Nat) (vaddr : W64) (paddr : Nat) : State :=
  let p := getPart s part
  let seq := (p.logSeq + 1) % 2 ^ 24
  let s := setPart s { p with logSeq := seq }
  devWrite s false (p.elog.toNat + 32 * ((seq + 2 ^ 24 - 1) % 128))
    (logEntryBytes seq cause (core.getD 0xFFF) ctxNum (partTime s part core) vaddr paddr)

/-- A cause that goes to both logs (0x14, 0x15; R259). -/
def logBoth (s : State) (ctxNum : Nat) (cause : BitVec 8) (core : Option Nat) (vaddr : W64) (paddr : Nat) : State :=
  logPartition (logContext s ctxNum cause core vaddr paddr) (getCtx s ctxNum).part ctxNum cause core vaddr paddr

/-- The page at an address is not present. -/
def pageAbsent (s : State) (ctx : Nat) (va : W64) : Bool :=
  let c := getCtx s ctx
  match walk s (getPart s c.part) c.root va with
  | .absent _ _ => true
  | _ => false

/-- A page that something waits for is there. -/
def pageReady (s : State) (ctx : Nat) (w : Option W64) : Bool :=
  match w with
  | some va => !pageAbsent s ctx va
  | none => true

/-! ## The range-lock table (R217, R218) -/

/-- Half-open ranges that share a byte: none does with an empty one (R217, R398). -/
def LockRange.overlaps (r : LockRange) (share : Option Nat) (lo len : Nat) : Bool :=
  r.share = share && 0 < len && 0 < r.len && r.lo < lo + len && lo < r.lo + r.len

/-- The ranges that stand in an access's way: a load conflicts with destinations, a store with either. An entry's virtual
ranges are those of its context, its share ranges those of its team. -/
def lockRanges (s : State) (core ctx team : Nat) (store : Bool) (share : Option Nat) : List LockRange :=
  (s.ops.filter fun o => o.core = core && (if share.isSome then o.team = team else o.ctx = ctx)).flatMap fun o =>
    if store then o.dstRanges ++ o.srcRanges else o.dstRanges

/-- An access of a lane of the core conflicts with an entry. -/
def lockConflict (s : State) (core ctx team : Nat) (store : Bool) (share : Option Nat) (lo len : Nat) : Bool :=
  (lockRanges s core ctx team store share).any fun r => r.overlaps share lo len

/-- The lowest byte of a range that an entry covers. -/
def lockedByte (s : State) (core ctx team : Nat) (store : Bool) (share : Option Nat) (lo len : Nat) : Option Nat :=
  ((lockRanges s core ctx team store share).filter fun r => r.overlaps share lo len).foldl
    (fun best r => match best with
      | some b => some (min b (max lo r.lo))
      | none => some (max lo r.lo)) none

/-- Entries in use in a core's table, freed by the completion action (R217). -/
def lockEntries (s : State) (core : Nat) : Nat := (s.ops.filter fun o => o.core = core).length

end Sys2Proof.Machine
end

