-- ==== Sys2Proof/Machine/Bronze.lean ====
section
/-! DEFINITION. What Bronze does for every queue: its accesses, its events, the order in which packets start, and the end
of packets that a context's transition ends (R257, R272 to R281, R284). -/

namespace Sys2Proof.Machine

/-! ## Pages and queues -/

def getPage (s : State) (v : Nat) : Option VcpPage := findBy VcpPage.num v s.pages
def setPage (s : State) (p : VcpPage) : State := { s with pages := putBy VcpPage.num p s.pages }
def Queue.key (x : Queue) : Nat := 64 * x.page + x.q
def Queue.blank (page q : Nat) : Queue :=
  { page, q, desc := 0, copy := 0, st := .unmapped, head := 0, shadow := 0, started := [], ready := false, readySince := 0,
    await := none, awaitSince := 0, parkedSince := 0, wdogFired := false, draining := false, unmapping := false, faultAt := none }
def getQueue (s : State) (page q : Nat) : Queue := (findBy Queue.key (64 * page + q) s.queues).getD (Queue.blank page q)
def setQueue (s : State) (x : Queue) : State := { s with queues := putBy Queue.key x s.queues }

/-! ## Fields of a queue descriptor (R276) -/

def dRing (d : BitVec 512) : W64 := d.extractLsb' 448 64
def dHeadwb (d : BitVec 512) : W64 := d.extractLsb' 384 64
def dEva (d : BitVec 512) : W64 := d.extractLsb' 320 64
def dWdog (d : BitVec 512) : Nat := (d.extractLsb' 288 32).toNat
def dCtx (d : BitVec 512) : Nat := (d.extractLsb' 256 12).toNat
def dDrain (d : BitVec 512) : Bool := d.getLsbD 15
def dLog2n (d : BitVec 512) : Nat := (d.extractLsb' 8 5).toNat
def dValid (d : BitVec 512) : Bool := d.getLsbD 0

def pagePriv (s : State) (v : Nat) : Nat := ((getPage s v).map VcpPage.priv).getD 0
/-- The partition of a page. -/
def pagePart (s : State) (page : Nat) : Nat := ((getPage s page).map VcpPage.part).getD 8
/-- A descriptor's address space: none is the management space (R283). DESIGN CHOICE, log entry 127: on a page of privilege 0 CTX = 0xFFF
is context 4095 like any other. -/
def spaceOf (s : State) (page : Nat) (d : BitVec 512) : Option Nat :=
  if dCtx d = 0xFFF && pagePriv s page != 0 then none else some (dCtx d)
def Queue.space (x : Queue) (s : State) : Option Nat := spaceOf s x.page x.copy

/-! ## Bronze's accesses: a context's addresses, or host physical ones in the management space (R283) -/

/-- What a page of a context answers to a permission: none where it translates, else the cause and the place that the answer
names. -/
def pageAnswer (s : State) (ctx : Nat) (acc : PageAcc) (a : W64) : Option (BitVec 8 × Nat) :=
  let c := getCtx s ctx
  let part := getPart s c.part
  match walk s part c.root a with
  | .leaf level _ e =>
    (match leafAnswer part e (levelLog2 level) a acc fun _ => false with
     | .ok _ _ => none
     | .fault cause pa => some (cause, pa)
     | .absent => some (0x04, 0))
  | .absent _ _ => some (0x04, 0)
  | .fault cause pa => some (cause, pa)

/-- The addresses of the pages of a range. -/
def pagesOf (va : W64) (len : Nat) : List W64 :=
  (List.range ((va.toNat % 4096 + len + 4095) / 4096)).map fun i => BitVec.ofNat 64 (va.toNat / 4096 * 4096 + 4096 * i)

/-- Every page of a range of a context translates with a permission. -/
def mappedRange (s : State) (ctx : Nat) (acc : PageAcc) (va : W64) (len : Nat) : Bool :=
  (pagesOf va len).all fun a => (pageAnswer s ctx acc a).isNone

/-- What both logs receive: a cause, a virtual and a physical address (R259). -/
structure LogItem where
  cause : BitVec 8
  vaddr : W64
  paddr : Nat
  deriving DecidableEq, Repr

/-- The poison or the violation that the translation of a range meets at its first such page (R259, R469). -/
def rangeItem (s : State) (ctx : Nat) (acc : PageAcc) (va : W64) (len : Nat) : Option LogItem :=
  (pagesOf va len).findSome? fun a => match pageAnswer s ctx acc a with
    | some (cause, pa) => if cause = 0x14 || cause = 0x15 then some ⟨cause, a, pa⟩ else none
    | none => none

def readAcc : PageAcc := ⟨true, false, false, false⟩
def writeAcc : PageAcc := ⟨false, true, false, false⟩
def bothAcc : PageAcc := ⟨true, true, false, false⟩

/-- A range that a packet or a descriptor names may be used. -/
def spaceOk (s : State) (sp : Option Nat) (acc : PageAcc) (va : W64) (len : Nat) : Bool :=
  match sp with
  | none => true
  | some c => mappedRange s c acc va len

/-- An item for both logs: of a space's context and its partition, or, in the management space, of the page's partition alone
(R259; log entry 110). -/
def logItem (s : State) (sp : Option Nat) (part : Nat) (i : LogItem) : State :=
  match sp with
  | some c => logBoth s c i.cause none i.vaddr i.paddr
  | none => if (getPart s part).v then logPartition s part 0 i.cause none i.vaddr i.paddr else s

/-- Where one line's bytes of a space lie; a poison or a violation goes to both logs (R259, R469). -/
def spaceAddr (s : State) (sp : Option Nat) (acc : PageAcc) (va : W64) : State × Option (Bool × Nat) :=
  match sp with
  | none => (s, some (true, va.toNat))
  | some c =>
    match translate s none 0 c va acc false true fun _ => false with
    | (s, .ok mt pa) => (s, some (mt = 2, pa))
    | (s, .fault cause pa) => (if cause = 0x14 || cause = 0x15 then logBoth s c cause none va pa else s, none)
    | (s, .absent) => (s, none)

/-- n bytes of a space, line by line; none where a page or a line cannot be read. -/
def spaceReadFrom (sp : Option Nat) : Nat → State → W64 → Nat → State × Option (List Byte)
  | 0, s, _, _ => (s, some [])
  | fuel + 1, s, va, n =>
    if n = 0 then (s, some [])
    else
      let k := min n (128 - va.toNat % 128)
      match spaceAddr s sp readAcc va with
      | (s, none) => (s, none)
      | (s, some (host, pa)) =>
        if (if host then s.hostPoison else s.poison).contains (lineOf pa) then
          (match sp with
           | some c => logBoth s c 0x14 none va pa
           | none => s, none)
        else
          let (s, bs) := homeRead s none ((sp.map fun c => (getCtx s c).lease).getD 64) host pa k
          match spaceReadFrom sp fuel s (va + BitVec.ofNat 64 k) (n - k) with
          | (s, some r) => (s, some (bs ++ r))
          | x => x
def spaceRead (s : State) (sp : Option Nat) (va : W64) (n : Nat) : State × Option (List Byte) :=
  spaceReadFrom sp (n / 128 + 2) s va n

/-- Bytes written to a space, line by line; what does not translate is not written. -/
def spaceWriteFrom (sp : Option Nat) : Nat → State → W64 → List Byte → State
  | 0, s, _, _ => s
  | fuel + 1, s, va, bs =>
    if bs = [] then s
    else
      let k := 128 - va.toNat % 128
      let s := match spaceAddr s sp writeAcc va with
        | (s, none) => s
        | (s, some (host, pa)) => devWrite s host pa (bs.take k)
      spaceWriteFrom sp fuel s (va + BitVec.ofNat 64 k) (bs.drop k)
def spaceWrite (s : State) (sp : Option Nat) (va : W64) (bs : List Byte) : State :=
  spaceWriteFrom sp (bs.length / 128 + 2) s va bs

/-! ## Events (R275, R279) -/

/-- VCP_ERR for an event. -/
def errWord (pkt : W32) (q field ev : Nat) : W64 :=
  BitVec.ofNat 64 (1 + 16 * ev + (if ev = 1 then 0x18 * 2 ^ 8 else 0) + field % 64 * 2 ^ 20 + q * 2 ^ 26 + pkt.toNat * 2 ^ 32)

/-- An event of a queue: VCP_ERR when it holds none, and the queue's event record, where its descriptor names one. -/
def postEvent (s : State) (x : Queue) (ev : Nat) (pkt : W32) (field : Nat) (addr1 addr2 : W64) : State :=
  let s := match getPage s x.page with
    | some p => if p.err.getLsbD 0 then s else setPage s { p with err := errWord pkt x.q field ev }
    | none => s
  let sp := x.space s
  let part := match sp with
    | some c => (getCtx s c).part
    | none => ((getPage s x.page).map VcpPage.part).getD 0
  if dEva x.copy = 0 then s
  else
    spaceWrite s sp (dEva x.copy)
      (leBytes 8 (ev + x.q * 2 ^ 8 + pkt.toNat * 2 ^ 32) ++ leBytes 8 addr1.toNat ++ leBytes 8 addr2.toNat
        ++ leBytes 8 (partTime s part none).toNat)

/-! ## Slots (R278) -/

def Queue.holdsSlot (x : Queue) : Bool := x.st = .active || x.st = .waiting
def slotFree (s : State) : Bool := (s.queues.filter Queue.holdsSlot).length < 256
/-- The queue of a list with the least time. -/
def firstBy (key : Queue → Nat) (l : List Queue) : Option Queue :=
  l.foldl (fun best x => match best with
    | some b => if key x < key b then some x else some b
    | none => some x) none
/-- The ready SWAPPED queue that became ready first, and the WAITING queue that has waited longest. -/
def firstReady (s : State) : Option Queue := firstBy (fun x => x.readySince.toNat) (s.queues.filter fun x => x.st = .swapped && x.ready)
def longestWaiting (s : State) : Option Queue := firstBy (fun x => x.parkedSince.toNat) (s.queues.filter fun x => x.st = .waiting)

/-- A slot may have come free, or be wanted: the next swap is owed. -/
def oweSwap (s : State) : State :=
  match firstReady s with
  | none => s
  | some r =>
    if slotFree s then owe s (.queueSwap r.page r.q)
    else match longestWaiting s with
      | some w => owe s (.queueSwap w.page w.q)
      | none => s

/-! ## Contexts that fall idle (R257) -/

/-- The context may run work: queues mapped, tasks dispatched, teams admitted (R257, R262, R276, R298). -/
def ctxRuns (s : State) (ctx : Nat) : Bool := (getCtx s ctx).st = .bound || (getCtx s ctx).st = .running

/-- While a context is SAVED its nodes keep their states (R298). DEDUCED, log entry 114: a run that is asked for meanwhile starts all
the same (R301), and its nodes stay where their start puts them. -/
def ctxSaved (s : State) (ctx : Nat) : Bool := (getCtx s ctx).st = .saved

/-- The last node is done and no queue is ACTIVE: a RUNNING context is BOUND. -/
def ctxIdle (s : State) (ctx : Nat) : State :=
  let c := getCtx s ctx
  if c.st = .running && !s.teams.any (fun t => t.ctx = ctx) && !s.launches.any (fun l => l.ctx = ctx)
      && !s.graphs.any (fun g => g.ctx = ctx && g.run) && !s.queues.any (fun x => x.st = .active && x.space s = some ctx) then
    setCtx s { c with st := .bound }
  else s

def spaceIdle (s : State) (sp : Option Nat) : State :=
  match sp with
  | some c => ctxIdle s c
  | none => s

/-! ## The order of packets (R277, R280, R281) -/

/-- The address of the packet with ring index i. -/
def packetAddr (x : Queue) (i : W32) : W64 := dRing x.copy + BitVec.ofNat 64 (64 * (i.toNat % 2 ^ dLog2n x.copy))

/-- The packet with ring index i, as a number. -/
def packetAt (s : State) (x : Queue) (i : W32) : State × Option Nat :=
  match spaceRead s (x.space s) (packetAddr x i) 64 with
  | (s, some bs) => (s, some (leNat bs))
  | (s, none) => (s, none)

/-- The head moves on, and HEADWB receives it (R280). -/
def advanceHead (s : State) (x : Queue) : State × Queue :=
  let x := { x with head := x.head + 1 }
  let s := setQueue s x
  (if dHeadwb x.copy = 0 then s else spaceWrite s (x.space s) (dHeadwb x.copy) (leBytes 8 x.head.toNat), x)

/-- A capability fault of a packet already started: event 1, and the queue is in ERROR (R277, R281). -/
def packetError (s : State) (x : Queue) (pkt : W32) (field : Nat) (addr : W64) : State :=
  let x := { x with st := .error, await := none, faultAt := some pkt }
  oweSwap (spaceIdle (setQueue (postEvent s x 1 pkt field addr 0) x) (x.space s))

/-- The packet at the head fails before it has any effect. -/
def failPacket (s : State) (x : Queue) (field : Nat) (addr : W64) : State :=
  let (s, y) := advanceHead s x
  packetError s y x.head field addr

/-- The event that executes a packet of a TYPE; none for a TYPE that the page or the space does not allow (R281, R283). -/
def packetEvent (priv : Nat) (management : Bool) (page q n : Nat) : Option Instr :=
  let op := n / 2 ^ 64 % 256
  if management && 1 ≤ n % 256 && n % 256 ≤ 6 then none
  else match n % 256 with
    | 1 => some (.loadGraph page q)
    | 2 => some (.trigger page q)
    | 3 => some (.signal page q)
    | 4 => some (.waitSignal page q)
    | 5 => some (.copy page q)
    | 6 => some (.setCut page q)
    | 7 => some (.query page q)
    | 8 => some (.fencePacket page q)
    | 9 => if priv = 2 then some (.partCreate page q) else none
    | 10 => if priv = 2 then some (.partDestroy page q) else none
    | 11 => if priv = 2 then some (.vcpAssign page q) else none
    | 12 =>
      if priv = 0 then none
      else match op with
        | 1 => some (.ctxBind page q)
        | 2 => some (.ctxDestroy page q)
        | 3 => some (.ctxPreempt page q)
        | 4 => some (.ctxRestore page q)
        | 5 => some (.ctxReset page q)
        | _ => some (.ctxCreate page q)
    | 13 =>
      if priv = 0 then none
      else match op with
        | 1 => some (.setPlacer page q)
        | 2 => some (.setGroupScheduler page q)
        | 3 => some (.setTenantQuantum page q)
        | 4 => some (.setHomingEntry page q)
        | _ => some (.setPortShare page q)
    | _ => none

/-- A SIGNAL or a FENCE behaves as with BAR = 1, be its TYPE allowed or not (R280). -/
def alwaysBars (n : Nat) : Bool := n % 256 = 3 || n % 256 = 8

/-- The queue may start a packet. -/
def Queue.hasNext (x : Queue) : Bool := x.st = .active && x.head != x.shadow && !x.draining

/-- Owe the packet at the head of a queue, or fail it where it cannot be read, or, when BAR lets it start, where its TYPE is not
allowed (R280, R281). -/
def oweNext (s : State) (page q : Nat) : State :=
  let x := getQueue s page q
  if !x.hasNext then s
  else match packetAt s x x.head with
    | (s, none) =>
      let (f, s) := freeNat s
      failPacket s x (f % 64) (packetAddr x x.head)
    | (s, some n) =>
      match packetEvent (pagePriv s page) (x.space s).isNone page q n with
      | some i => owe s i
      | none => if (n.testBit 8 || alwaysBars n) && x.started != [] then s else failPacket s x 0 0

/-- A queue after a packet has completed: drained, MAPPED again, or ready for its next packet (R277). -/
def advanceQueue (s : State) (page q : Nat) : State :=
  let x := getQueue s page q
  if x.started != [] then oweNext s page q
  else if x.draining then
    let x := { x with
      st := if x.unmapping then .unmapped else .drained, head := x.shadow, draining := false, unmapping := false }
    oweSwap (spaceIdle (setQueue s x) (x.space s))
  else if x.st = .active && x.head = x.shadow then
    oweSwap (spaceIdle (setQueue s { x with st := .mapped }) (x.space s))
  else oweNext s page q

/-- Take completed packets off a queue. -/
def completePackets (s : State) (x : Queue) (done : Started → Bool) : State :=
  if x.started.any done then
    advanceQueue (setQueue s { x with started := x.started.filter fun p => !done p }) x.page x.q
  else s

/-- The run of a graph has ended: the triggers that wait for it count it (R282). -/
def runEnded (s : State) (graph : Nat) : State :=
  let count (p : Started) : Started := match p with
    | .trigger g n => if g = graph then .trigger g (n - 1) else p
    | _ => p
  let isOver (p : Started) : Bool := match p with
    | .trigger g n => g = graph && n = 0
    | _ => false
  let s := { s with queues := s.queues.map fun (x : Queue) => { x with started := x.started.map count } }
  s.queues.foldl (fun s x => completePackets s (getQueue s x.page x.q) isOver) s

/-! ## Transitions of a context (R257, R277, R284) -/

/-- STATE codes (R255). -/
def CtxSt.code : CtxSt → Nat
  | .free => 0 | .created => 1 | .bound => 2 | .running => 3 | .preempting => 4 | .saved => 5 | .restoring => 6
  | .faulted => 7 | .destroyed => 8

/-- CTX_OP's RESULT word (R284). -/
def ctxResult (c : Context) (cause : Nat) : List Byte := leBytes 8 (c.num + c.st.code * 2 ^ 12 + cause * 2 ^ 16)

/-- Whether a CTX_OP that lasts has ended: a pre-empt at SAVED or FAULTED, a restore at RUNNING or SAVED. -/
def ctxOpOver (c : Context) (op : Nat) : Bool :=
  match c.st with
  | .preempting | .restoring => false
  | .saved => op = 3 || !c.heldRestore
  | .running | .bound => op = 4 || !c.heldPreempt
  | _ => true

/-- Pre-empts and restores of a context that have ended write RESULT and complete; `failed` says that a restore has
returned to SAVED. -/
def settleCtxOps (s : State) (ctx : Nat) (failed : Bool) : State :=
  let c := getCtx s ctx
  let isOver (p : Started) : Bool := match p with
    | .ctxOp k op _ => k = ctx && ctxOpOver c op
    | _ => false
  s.queues.foldl (fun s x =>
    let s := (x.started.filter isOver).foldl (fun s p => match p with
      | .ctxOp _ op result => spaceWrite s (x.space s) result (ctxResult c (if op = 4 && failed then 0x12 else 0))
      | _ => s) s
    completePackets s (getQueue s x.page x.q) isOver) s

/-- The COPY packets of a queue are abandoned. -/
def dropCopies (s : State) (x : Queue) : State :=
  { s with copies := s.copies.filter fun j => !(j.page = x.page && j.q = x.q) }

/-- A queue's registration as a waiter on a line: its number stands above every group's (R279). -/
def queueWaiter (x : Queue) : Nat := 2 ^ 64 + x.key
def unwait (s : State) (x : Queue) : State := { s with waits := s.waits.filter fun w => w.gid != queueWaiter x }

/-- An event that names no packet: its PKT and FIELD are free values. -/
def postContextEvent (s : State) (x : Queue) (ev : Nat) : State :=
  let (a, s) := freeNat s
  let (b, s) := freeNat s
  postEvent s x ev (BitVec.ofNat 32 a) (b % 64) 0 0

/-- A context is FAULTED: its mapped queues are in ERROR, with event 3, and started packets are abandoned (R277). -/
def queuesFaulted (s : State) (ctx : Nat) : State :=
  s.queues.foldl (fun s x =>
    if x.space s = some ctx && x.st != .unmapped && x.st != .drained then
      let y := { x with st := .error, started := [], await := none, draining := false, unmapping := false, faultAt := none }
      oweSwap (setQueue (unwait (dropCopies (postContextEvent s x 3) x) x) y)
    else s) s

/-- A context is DESTROYED: its queues are UNMAPPED, with event 4, and unstarted packets are discarded (R277). -/
def queuesDestroyed (s : State) (ctx : Nat) : State :=
  s.queues.foldl (fun s x =>
    if x.space s = some ctx && x.st != .unmapped then
      let y := { x with st := .unmapped, started := [], await := none, draining := false, unmapping := false, head := x.shadow }
      oweSwap (setQueue (unwait (dropCopies (postContextEvent s x 4) x) x) y)
    else s) s

end Sys2Proof.Machine
end

