-- ==== Sys2Proof/Machine/Ops.lean ====
section
/-! DEFINITION. Registers, fragments, rejoin and team barriers, taking a trap and returning from one, and the end of
lanes, groups and teams (R43 to R47, R101, R313 to R337, R342 to R351). -/

namespace Sys2Proof.Machine

/-- What a meaning answers. -/
abbrev Res := Host.Outcome State Fault Refusal

/-! ## Lanes and masks -/

def allLanes : Mask := 0xFFFFFFFF
/-- The lanes of a mask, in lane order. -/
def lanesOf (m : Mask) : List Nat := (List.range 32).filter fun L => m.getLsbD L
def laneBit (L : Nat) : Mask := BitVec.ofNat 32 (2 ^ L)
def maskOf (ls : List Nat) : Mask := ls.foldl (fun m L => m ||| laneBit L) 0
/-- The lanes of slice s: 4s to 4s + 3 (R318). -/
def sliceMask (s : Nat) : Mask := BitVec.ofNat 32 (0xF * 2 ^ (4 * s))
/-- The lanes for which p holds. -/
def lanesWhere (m : Mask) (p : Nat → Bool) : Mask := maskOf ((lanesOf m).filter p)
def countLanes (m : Mask) : Nat := (lanesOf m).length
def lowestLane (m : Mask) : Nat := (lanesOf m).headD 0
def highestLane (m : Mask) : Nat := (lanesOf m).getLastD 0

/-! ## Registers (R43 to R46) -/

def getV (g : Group) (r L : Nat) : W32 := sget g.vregs (32 * r + L)
def setV (g : Group) (r L : Nat) (v : W32) : Group := { g with vregs := sset g.vregs (32 * r + L) v }
def getV64 (g : Group) (r L : Nat) : W64 := getV g (r + 1) L ++ getV g r L
def setV64 (g : Group) (r L : Nat) (v : W64) : Group :=
  setV (setV g r L (v.extractLsb' 0 32)) (r + 1) L (v.extractLsb' 32 32)
def getS (g : Group) (r : Nat) : W64 := sget g.sregs r
def setS (g : Group) (r : Nat) (v : W64) : Group := { g with sregs := sset g.sregs r v }
/-- A predicate's lanes; p15 reads 1 (R46). -/
def predLanes (g : Group) (n : Nat) : Mask := if n = 15 then allLanes else sget g.preds n
def getP (g : Group) (n L : Nat) : Bool := (predLanes g n).getLsbD L
/-- Writes to p15 are discarded (R46). -/
def setP (g : Group) (n L : Nat) (b : Bool) : Group :=
  if n = 15 then g
  else
    let m := sget g.preds n
    { g with preds := sset g.preds n (if b then m ||| laneBit L else m &&& ~~~laneBit L) }

def Handle.blank : Handle := ⟨0, false, false, 0, 0⟩
def Rejoin.clear : Rejoin := ⟨0, 0, 0⟩
def getHandle (g : Group) (n : Nat) : Handle := ((g.handles.find? fun p => p.1 = n).map Prod.snd).getD Handle.blank
def setHandle (g : Group) (n : Nat) (h : Handle) : Group :=
  { g with handles := putBy Prod.fst (n, h) g.handles }
def getZ (g : Group) (t i n : Nat) : W32 := sget g.ztiles (1024 * t + 32 * i + n)
def setZ (g : Group) (t i n : Nat) (v : W32) : Group := { g with ztiles := sset g.ztiles (1024 * t + 32 * i + n) v }

/-- The launch's copy of the constant bank (R294). -/
def constReg (s : State) (g : Group) (n : Nat) : W32 :=
  match (getTeam s g.team).bind fun t => getLaunch s t.launch with
  | some l => BitVec.ofNat 32 (readNat l.constBank (4 * n) 4)
  | none => 0

def launchOf (s : State) (g : Group) : Option Launch := (getTeam s g.team).bind fun t => getLaunch s t.launch
def roleOf (s : State) (g : Group) : Option Role := (launchOf s g).bind fun l => l.blk.roles[g.role]?
def ctxOf (s : State) (g : Group) : Nat := ((getTeam s g.team).map Team.ctx).getD 0
/-- FLUSH of the launch (R66). -/
def flushOf (s : State) (g : Group) : Bool := ((launchOf s g).map fun l => l.blk.flush).getD false

/-! ## Fragments (R318, R320) -/

/-- Live lanes of a group (R318). -/
def liveLanes (g : Group) : Mask := g.sides.foldl (fun m x => m ||| x.lanes) 0

/-- Running sides that issue as one: equal PC and counter, and in the same part of a word (R320). -/
def Side.sameFragment (a b : Side) : Bool :=
  a.st = .running && b.st = .running && a.pc = b.pc && a.ctr = b.ctr && a.only = b.only && a.noGuard = b.noGuard && a.ph = b.ph && a.limit = b.limit && a.held = b.held

/-- An issuing fragment: its group, one of its sides, and its live lanes. -/
structure Frag where
  g : Group
  key : Side
  lanes : Mask

/-- The fragment of a group's running side in a slice. Where a handler fragment has met another (R320), it is in trap mode. -/
def fragAt (s : State) (gid slice : Nat) : Option Frag :=
  match getGroup s gid with
  | none => none
  | some g =>
    match g.sides.find? fun x => x.slice = slice && x.st = .running with
    | none => none
    | some k =>
      let mine := g.sides.filter fun x => k.sameFragment x
      some ⟨g, (mine.find? Side.handler).getD k, mine.foldl (fun m x => m ||| x.lanes) 0⟩

/-- The issuing fragment. -/
def issuing (s : State) : Option Frag := s.cur.bind fun p => fragAt s p.1 p.2

/-- One guard: P(L, G[3:0]) XOR G[4] (R53). -/
def guardLanes (g : Group) (x : BitVec 5) : Mask :=
  let m := predLanes g (x.extractLsb' 0 4).toNat
  if x.getLsbD 4 then ~~~m else m

/-- The lanes whose guard is true (R53). -/
def guardOf (g : Group) (f : Fields) : Mask :=
  if f.gcomb = 0 then guardLanes g f.g1 &&& guardLanes g f.g2 else guardLanes g f.g1 ||| guardLanes g f.g2

/-- Active(F) of a full-form word (R35, R53). -/
def activeOf (F : Frag) (f : Fields) : Mask :=
  F.lanes &&& F.key.only &&& (if F.key.noGuard then allLanes else guardOf F.g f)

/-- The fragment's sides changed by h, the others as they are. -/
def mapFrag (g : Group) (k : Side) (h : Side → Side) : Group :=
  { g with sides := g.sides.map fun x => if k.sameFragment x then h x else x }

/-- The limit of a WAITS that has none: no clock reaches it (R170). -/
def noLimit : Nat := 2 ^ 64
/-- When a WAITS gives up, from its core's clock and S(D) on entry (R170). -/
def waitsDue (now lim : W64) : Nat := if lim = 0 then noLimit else now.toNat + lim.toNat

/-- A side at a new PC, at the start of a word. -/
def Side.goto (x : Side) (pc : W64) : Side := { x with pc := pc, only := allLanes, noGuard := false, ph := none, limit := 0, held := none }

/-- Every lane of F goes to PC + 16 (R101). -/
def advance (s : State) (gid : Nat) (k : Side) : State :=
  match getGroup s gid with
  | none => s
  | some g => setGroup s (mapFrag g k fun x => x.goto (x.pc + 16))

/-- Park every lane of F on a wait (R315); the word is issued again for `owed` when the wait resolves. -/
def parkFrag (s : State) (gid : Nat) (k : Side) (owed : Mask) (p : Park) : State :=
  match getGroup s gid with
  | none => s
  | some g => setGroup s (mapFrag g k fun x => { x with only := owed, st := .park p })

/-- A side that holds its slice: it runs, is parked or holds a trap; the others of the slice pend or wait (R319). -/
def Side.front (x : Side) : Bool :=
  match x.st with
  | .running | .park _ | .trapHeld _ _ _ => true
  | _ => false

/-- The first pending side of a slice becomes running (R319). -/
def promoteFirst (slice : Nat) : List Side → List Side
  | [] => []
  | x :: r =>
    if x.slice = slice && x.st = .pending then { x with st := .running } :: r else x :: promoteFirst slice r

/-- Empty sides go, and in every slice whose running side has ended or waits the first pending side runs (R319). -/
def normSides (l : List Side) : List Side :=
  (List.range 8).foldl
    (fun l s => if l.any fun x => x.slice = s && x.front then l else promoteFirst s l)
    (l.filter fun x => x.lanes != 0)

/-- Insert into ascending PC order, lanes at an equal PC and counter forming one side, which is a handler's where one of the two
is (R320, R349, R447). -/
def insertSide (x : Side) : List Side → List Side
  | [] => [x]
  | y :: r =>
    if x.pc = y.pc && x.ctr = y.ctr then { y with lanes := y.lanes ||| x.lanes, handler := y.handler || x.handler } :: r
    else if x.pc.toNat < y.pc.toNat then x :: y :: r
    else y :: insertSide x r

/-- Lanes released or passing in one slice (R349, R447): in an idle slice the lowest PC runs and the others pend before
older pending sides; in a busy slice all of them pend. -/
def placeSlice (l : List Side) (slice : Nat) (fresh : List Side) : List Side :=
  let ord := fresh.foldl (fun acc x => insertSide x acc) []
  if ord = [] then l
  else if l.any (fun x => x.slice = slice && x.front) then l ++ ord.map fun x => { x with st := .pending }
  else
    match ord with
    | [] => l
    | x :: r => { x with st := .running } :: (r.map fun y => { y with st := .pending }) ++ l

/-- Place sides that `pick` takes out of their wait, each changed by h (R349, R447). -/
def releaseSides (g : Group) (pick : Side → Bool) (h : Side → Side) : Group :=
  let fresh := (g.sides.filter pick).map h
  let rest := g.sides.filter fun x => !pick x
  { g with sides := (List.range 8).foldl (fun l s => placeSlice l s (fresh.filter fun x => x.slice = s)) rest }

/-! ## Rejoin barriers (R348, R349) -/

def getRejoin (g : Group) (j : Nat) (trap : Bool) : Rejoin :=
  if trap then g.rejoinTrap else ((g.rejoin.find? fun p => p.1 = j).map Prod.snd).getD Rejoin.clear
def setRejoin (g : Group) (j : Nat) (trap : Bool) (r : Rejoin) : Group :=
  if trap then { g with rejoinTrap := r } else { g with rejoin := putBy Prod.fst (j, r) g.rejoin }

/-- Waiters released by an abandonment or a clear: to the word after their JOIN, counters unchanged (R348, R447). -/
def abandon (g : Group) (j : Nat) (trap : Bool) : Group :=
  releaseSides g (fun x => x.st = .join j trap) fun x => x.goto (x.pc + 16)

/-- The completion test: when ARRIVED ⊇ NAMED the waiting lanes pass with the largest counter plus 1 (R349). -/
def rejoinTest (g : Group) (j : Nat) (trap : Bool) : Group :=
  let r := getRejoin g j trap
  if r.state = 1 && r.named &&& ~~~r.arrived = 0 then
    let c := (g.sides.filter fun x => x.st = .join j trap).foldl (fun m x => max m x.ctr.toNat) 0
    releaseSides (setRejoin g j trap { r with state := 2 }) (fun x => x.st = .join j trap)
      fun x => { x.goto (x.pc + 16) with ctr := BitVec.ofNat 32 (c + 1) }
  else g

/-- Lanes depart from one rejoin barrier (R348). -/
def rejoinDepart (g : Group) (lanes : Mask) (j : Nat) (trap : Bool) : Group :=
  let r := getRejoin g j trap
  if r.state = 1 && r.named &&& lanes != 0 then
    rejoinTest (setRejoin g j trap { r with arrived := r.arrived ||| (r.named &&& lanes) }) j trap
  else g

/-! ## Team barriers (R342 to R344) -/

def TeamBarrier.idle (live : Nat) : TeamBarrier := ⟨0, 0, live, 0, false, false, []⟩
/-- The live lanes of a team; those of a group that a save has halted are live still (R335, R343). -/
def teamLive (s : State) (t : Nat) : Nat :=
  (s.groups.filter fun g => g.team = t && g.st != .exited).foldl (fun n g => n + countLanes (liveLanes g)) 0
def getBarrier (s : State) (t : Team) (b : Nat) : TeamBarrier :=
  ((t.barriers.find? fun p => p.1 = b).map Prod.snd).getD (TeamBarrier.idle (teamLive s t.id))
def setBarrier (s : State) (t : Team) (b : Nat) (x : TeamBarrier) : State :=
  setTeam s { t with barriers := putBy Prod.fst (b, x) t.barriers }
/-- Barriers never touched take the team's live lanes of now: drawn lanes count from the next phase (R343). -/
def fixBarriers (s : State) (tid : Nat) : State :=
  match getTeam s tid with
  | none => s
  | some t => setTeam s { t with barriers := (List.range 16).map fun b => (b, getBarrier s t b) }

/-- The lanes of a group that a barrier does not count in its phase in progress (R343). -/
def TeamBarrier.uncounted (x : TeamBarrier) (gid : Nat) : Mask := ((x.apart.find? fun a => a.1 = gid).map fun a => a.2.1).getD 0
/-- The live lanes of a team that have departed in the phase in progress, drawn again since (R356). -/
def departedLive (s : State) (x : TeamBarrier) : Nat :=
  x.apart.foldl (fun n a => n + countLanes (((getGroup s a.1).map liveLanes).getD 0 &&& a.2.2)) 0
/-- A phase ends: no lane has departed in the one that begins. -/
def clearDeparted (s : State) (tid b : Nat) : State :=
  let one (l : BinLane) : BinLane := { l with departed := l.departed.filter fun k => k != b }
  { s with bins := s.bins.map fun x => if x.team = tid then { x with lanes := x.lanes.map one } else x }

/-- A side's wait on team barrier b with the lanes of the completed phase `ph` taken out of it. -/
def releaseBar (b : Nat) (ph : Bool) (x : Side) : Side :=
  match x.st with
  | .park (.bar b' p0 p1) =>
    if b' = b then { x with st := .park (.bar b (if ph then p0 else 0) (if ph then 0 else p1)) } else x
  | .park (.bwait b' _) => if b' = b then { x with st := .park (.bwait b true) } else x
  | _ => x

/-- A group waits on team barrier b. -/
def waitsOnBar (b : Nat) (g : Group) : Bool :=
  g.sides.any fun x => match x.st with
    | .park (.bar b' _ _) | .park (.bwait b' _) => b' = b
    | _ => false

/-- Release the waiters of the phase `ph` of team barrier b, in every group of the team (R344). -/
def releaseWaiters (s : State) (t b : Nat) (ph : Bool) : State :=
  (s.groups.filter fun g => g.team = t && waitsOnBar b g).foldl
    (fun s g => owe (setGroup s { g with sides := g.sides.map (releaseBar b ph) }) (.dependenceResolved g.id)) s

/-- The completion of a phase (R344): PHASE flips, ARRIVED := 0, NEED is reloaded, waiters are released. -/
def barComplete (s : State) (tid b : Nat) : State :=
  match getTeam s tid with
  | none => s
  | some t =>
    let x := getBarrier s t b
    let waiting := s.groups.any fun g => g.team = tid && waitsOnBar b g
    let s := t.cores.foldl syncClk s
    let s := setBarrier (clearDeparted s tid b) t b { x with
      phase := !x.phase, arrived := 0, need := if x.mode then x.expect else teamLive s tid, state := if waiting then 2 else 0
      apart := [] }
    releaseWaiters s tid b x.phase

/-- One arrival: the phase before it is counted, and the state after (R344). -/
def barArrive (s : State) (tid b : Nat) : Bool × State :=
  match getTeam s tid with
  | none => (false, s)
  | some t =>
    let x := getBarrier s t b
    let s := setBarrier s t b { x with arrived := x.arrived + 1, state := if x.state = 2 then 2 else 1 }
    (x.phase, if x.need ≤ x.arrived + 1 then barComplete s tid b else s)

/-- NEED has fallen to ARRIVED or below: the current phase completes (R344). -/
def barRetest (s : State) (tid b : Nat) : State :=
  match getTeam s tid with
  | none => s
  | some t =>
    let x := getBarrier s t b
    if 1 ≤ x.arrived && x.need ≤ x.arrived then barComplete s tid b else s

/-- RELEASED ends when every released waiter has resumed (R344). -/
def barSettle (s : State) (tid : Nat) : State :=
  match getTeam s tid with
  | none => s
  | some t =>
    let stuck (b : Nat) := s.groups.any fun g => g.team = tid && g.sides.any fun x => match x.st with
      | .park (.bar b' p0 p1) => b' = b && p0 = 0 && p1 = 0
      | .park (.bwait b' w) => b' = b && w
      | _ => false
    let fix (p : Nat × TeamBarrier) :=
      if p.2.state = 2 && !stuck p.1 then (p.1, { p.2 with state := if p.2.arrived = 0 then 0 else 1 }) else p
    setTeam s { t with barriers := t.barriers.map fix }

/-- Lanes of a group end or are filed: NEED of every mode-0 barrier falls by their number (R343); a lane that the barrier does
not count yet has no part in NEED (DEDUCED, log entry 72). -/
def barDepart (s : State) (tid gid : Nat) (lanes : Mask) : State :=
  match getTeam s tid with
  | none => s
  | some t =>
    (List.range 16).foldl (fun s b =>
      match getTeam s tid with
      | none => s
      | some t' =>
        match t.barriers.find? fun p => p.1 = b with
        | none => s                     -- never touched: its NEED follows the live lanes
        | some _ =>
          let x := getBarrier s t' b
          let n := countLanes (lanes &&& ~~~x.uncounted gid)
          if x.mode then s else barRetest (setBarrier s t' b { x with need := x.need - n }) tid b) s

/-! ## Waking parked sides -/

/-- Change the waits that `h` changes, in every group, and owe the resolution of each group changed (R314). -/
def wakeWhere (s : State) (h : Group → Park → Option Park) : State :=
  let one (g : Group) (x : Side) : Side := match x.st with
    | .park p => (match h g p with | some q => { x with st := .park q } | none => x)
    | _ => x
  s.groups.foldl (fun s g =>
    let g' := { g with sides := g.sides.map (one g) }
    if g' = g then s else owe (setGroup s g') (.dependenceResolved g.id)) s

/-- Teams of a graph's launches. -/
def teamOfGraph (s : State) (gn tid : Nat) : Bool :=
  match (getTeam s tid).bind fun t => getLaunch s t.launch with
  | some l => l.graph.map Prod.fst = some gn
  | none => false

/-- Something has changed that an RGET or REMIT of the graph may wait for (R307). -/
def wakeRecords (s : State) (gn : Nat) : State :=
  wakeWhere s fun g p => match p with
    | .record false => if teamOfGraph s gn g.team then some (.record true) else none
    | _ => none

/-! ## The end of groups and teams (R210, R336, R405) -/

/-- The states of a graph's nodes after a fatal fault of its context (R298). -/
def abortNodes (gr : Graph) : Graph :=
  { gr with nodes := gr.nodes.map fun n => if gr.run && n.st != .done then { n with st := .aborted } else n }

/-- Entries of range-lock tables are free: words held on a full table are issued again (R217). -/
def wakeLocked (s : State) : State :=
  let held (g : Group) : Bool := g.sides.any fun x => x.st = .park .rangeLock
  (s.groups.filter held).foldl (fun s g => owe s (.dependenceResolved g.id)) s

/-- Stores that a group's lanes left in L1 go home (R214). -/
def drainGroup (s : State) (g : Group) : State := drainWhere s g.core fun x => x.gid = g.id

/-- Remove a team: its groups, whose stores go home as at every end of a group (R214), operations, waits, deferred requests,
bins, owed writes and records (R336, R405). -/
def dropTeam (s : State) (tid : Nat) : State :=
  let mine := s.groups.filter fun g => g.team = tid
  let gids := mine.map Group.id
  let s := mine.foldl drainGroup s
  wakeLocked { s with
    groups := s.groups.filter fun g => g.team != tid
    teams := s.teams.filter fun t => t.id != tid
    ops := s.ops.filter fun o => o.team != tid
    mmas := s.mmas.filter fun m => !gids.contains m.gid
    loads := s.loads.filter fun l => !gids.contains l.gid
    waits := s.waits.filter fun w => !gids.contains w.gid
    deferred := s.deferred.filter fun d => !gids.contains d.gid
    bins := s.bins.filter fun b => b.team != tid
    gsigs := s.gsigs.filter fun g => g.team != tid
    held := s.held.filter fun h => h.1 != tid }

/-- A fatal team fault in a context (R257, R277, R298, R336): every team of it ends, the cause is logged, its runs abort,
and its queues go to ERROR. DESIGN CHOICE, log entry 104: one log entry names the fault, not one per team. -/
def fatalContext (s : State) (ctxNum : Nat) (cause : BitVec 8) (core : Option Nat) (eaddr : W64) : State :=
  let s := logContext s ctxNum cause core eaddr 0
  let s := (s.teams.filter fun t => t.ctx = ctxNum).foldl (fun s t => dropTeam s t.id) s
  let s := { s with launches := s.launches.filter fun l => l.ctx != ctxNum }
  let s := (s.graphs.filter fun gr => gr.ctx = ctxNum && gr.run).foldl
    (fun s gr => owe (setGraph s (abortNodes gr)) (.runEnd gr.num)) s
  let c := getCtx s ctxNum
  settleCtxOps (queuesFaulted (setCtx s { c with st := .faulted }) ctxNum) ctxNum false

/-- The oldest slots come free in order. -/
def Edge.settleFreed (e : Edge) : Nat → Edge
  | 0 => e
  | n + 1 =>
    if e.freed.contains e.tail then Edge.settleFreed { e with tail := e.tail + 1, freed := e.freed.erase e.tail } n else e
/-- Release record slots that teams hold; what waits for room looks again (R307). -/
def freeRecords (s : State) (which : Nat × RecordRef → Bool) : State :=
  let mine : List (Nat × RecordRef) := s.held.filter which
  let free (gn : Nat) (p : Edge × Nat) : Edge :=
    let its := mine.filter fun (h : Nat × RecordRef) => h.2.graph = gn && h.2.edge = p.2
    let e := { p.1 with freed := p.1.freed ++ its.map fun (h : Nat × RecordRef) => h.2.seq }
    e.settleFreed (e.freed.length + 1)
  let of (gr : Graph) : Bool := mine.any fun h => h.2.graph = gr.num
  let graphs := s.graphs.map fun gr => if of gr then { gr with edges := gr.edges.zipIdx.map (free gr.num) } else gr
  let s := { s with graphs := graphs, held := s.held.filter fun h => !which h }
  (graphs.filter of).foldl (fun s gr => wakeRecords s gr.num) s
/-- Release those that a team still holds. -/
def releaseHeld (s : State) (tid : Nat) : State := freeRecords s fun h => h.1 = tid

/-- No team of a launch has a group left: its task may be complete (R285, R298). -/
def oweDrained (s : State) (launch : Nat) : State :=
  match getLaunch s launch with
  | some l => if l.resident = 0 then owe s (.taskComplete l.id l.cost) else s
  | none => s

/-- A team whose every group has exited, with no lane in a bin, no operation in flight and no owed write, goes (R107,
R405). DESIGN CHOICE, log entry 124: so does one whose context is RESTORING; it is no saved team of that context any more (R257). -/
def reapTeam (s : State) (tid : Nat) : State :=
  if (s.groups.any fun x => x.team = tid) && (s.groups.all fun x => x.team != tid || x.st = .exited) && !s.bins.any (fun b => b.team = tid)
      && !s.ops.any (fun o => o.team = tid) && !s.gsigs.any (fun g => g.team = tid) then
    oweDrained (dropTeam s tid) (((getTeam s tid).map Team.launch).getD 0)
  else s

/-- Cores that no group of a launch is on any more: their cycles are measured (R285). -/
def measure (s : State) (l : Launch) : Launch :=
  let on (c : Nat) : Bool := s.groups.any fun g => g.core = c && g.st != .exited && g.st != .saved
    && (s.teams.any fun t => t.id = g.team && t.launch = l.id)
  let gone := l.busy.filter fun b => !on b.1
  { l with busy := l.busy.filter fun b => on b.1, cost := gone.foldl (fun n b => n + (coreNow s b.1 - b.2).toNat) l.cost }

/-- Groups of a launch are on cores from now on (R285). -/
def occupy (s : State) (l : Launch) (cores : List Nat) : Launch :=
  { l with busy := l.busy ++ (cores.filter fun c => !l.busy.any fun b => b.1 = c).map fun c => (c, coreNow s c) }

/-- A group of a team is off its core: the team's launch measures it (R285). -/
def measureTeam (s : State) (tid : Nat) : State :=
  match (getTeam s tid).bind fun t => getLaunch s t.launch with
  | some l => setLaunch s (measure s l)
  | none => s

/-- Every group of the team has exited and no lane of it waits in a bin: its launch counts it, and its task may be
complete (R285, R298, R303). -/
def teamDone (s : State) (t : Team) : State :=
  let s := releaseHeld s t.id
  match getLaunch s t.launch with
  | none => reapTeam s t.id
  | some l =>
    let l := { l with resident := l.resident - 1, finished := l.finished + 1 }
    let s := reapTeam (setLaunch s l) t.id
    let s := owe s (.teamPlace (getCtx s t.ctx).part)
    oweDrained s l.id

/-- A group all of whose launched lanes have ended is EXITED, and its slot is free (R314). -/
def exitGroup (s : State) (g : Group) : State :=
  let s := setGroup (drainGroup s g) { g with st := .exited, placed := false, sides := [], tm := false }
  let s := measureTeam s g.team
  match getTeam s g.team with
  | none => s
  | some t =>
    let all := s.groups.all fun x => x.team != t.id || x.st = .exited
    let s := if (getCtx s t.ctx).st = .preempting then owe s (.contextSaved t.ctx) else s
    if all && !s.bins.any (fun b => b.team = t.id) then teamDone s t else s

/-! ## Traps (R328 to R332) -/

/-- Causes that end the team and never reach a handler (R326, R328). -/
def fatalCause (cause : BitVec 8) : Bool := cause = 0x0B || cause = 0x0D || cause = 0x13

/-- Trap entry (R328) of a fragment's lanes: what it keeps, the special registers, TM, and the converged handler. -/
def trapEntry (s : State) (g : Group) (k : Side) (cause : BitVec 8) (eaddr : W64) (replay : Mask) : State :=
  let mine := g.sides.filter fun x => k.sameFragment x
  let T := mine.foldl (fun m x => m ||| x.lanes) 0
  let kept := mine.map fun x => KeptSide.mk x.slice x.lanes x.pc x.ctr (g.regions.getD x.slice 0) x.ph
  let g := mapFrag g k fun x => { x.goto g.trapbase with ctr := 0, handler := true }
  setGroup s { g with
    cause := cause, epc := k.pc, eaddr := eaddr, replay := replay, tm := true, trapLanes := T, kept := kept,
    rejoinTrap := Rejoin.clear, st := if g.st = .active then .trapped else g.st }

/-- Deliver a fault or trap of fragment F (R328, R336): a double fault or no handler ends the team, a handler already
running holds the trap, else trap entry. -/
def raise (s : State) (gid : Nat) (k : Side) (cause : BitVec 8) (eaddr : W64) (replay : Mask) : State :=
  match getGroup s gid with
  | none => s
  | some g =>
    if fatalCause cause then fatalContext s (ctxOf s g) cause (some g.core) eaddr
    else if g.tm && k.handler then fatalContext s (ctxOf s g) 0x13 (some g.core) eaddr
    else if g.tm then setGroup s (mapFrag g k fun x => { x with st := .trapHeld cause eaddr replay })
    else if g.trapbase = 0 then fatalContext s (ctxOf s g) cause (some g.core) eaddr
    else trapEntry s g k cause eaddr replay

def Side.holdsTrap (x : Side) : Bool :=
  match x.st with
  | .trapHeld _ _ _ => true
  | _ => false

/-- A trap held while another handler ran is delivered (R328). -/
def deliverHeld (s : State) (gid : Nat) : State :=
  match getGroup s gid with
  | none => s
  | some g =>
    if g.tm then s
    else
      match g.sides.find? Side.holdsTrap with
      | none => s
      | some h =>
        match h.st with
        | .trapHeld c a r =>
          let same (x : Side) := x.st = h.st && x.pc = h.pc && x.ctr = h.ctr
          let g := { g with sides := g.sides.map fun x => if same x then { x with st := .running } else x }
          raise (setGroup s g) gid { h with st := .running } c a r
        | _ => s

/-- Where TRET resumes one slice of T (R332): its PC, and the lanes the word there is issued for: after a timer trap
those still owed it (R168, DEDUCED, log entry 12). -/
def resumption (g : Group) (variant : Nat) (x : KeptSide) : W64 × Mask :=
  let timer := g.cause = 0x0E
  let soft := g.cause = 0x0F || g.cause = 0x16
  if variant = 2 then (g.epc + 16, allLanes)
  else if timer then (g.epc, if g.trapLanes &&& ~~~g.replay = 0 then allLanes else g.replay &&& g.trapLanes)
  else if soft then (g.epc + 16, allLanes)
  else if variant = 1 then (g.epc, g.replay &&& g.trapLanes)
  else (x.region, allLanes)

/-- A side waits at TRET. -/
def Side.atTret (x : Side) : Bool := match x.st with | .gateTret _ => true | _ => false

/-- Trap mode ends: no side is a handler's any more. -/
def endTrap (g : Group) : Group :=
  { g with
    sides := g.sides.map fun x => { x with handler := false }, tm := false, trapLanes := 0, kept := []
    rejoinTrap := Rejoin.clear, st := if g.st = .trapped then .active else g.st }

/-- The return from a trap (R332), once every live lane of T waits at TRET: counters and region PCs as kept, TM := 0. Lanes that
met T at the TRET and are not of it go on after it (R320; DEDUCED, log entry 73). -/
def trapReturn (g : Group) (variant : Nat) : Group :=
  let waiting := g.sides.filter Side.atTret
  let live (k : KeptSide) := (waiting.filter fun x => x.slice = k.slice).foldl (fun m x => m ||| x.lanes) 0 &&& k.lanes
  let back (k : KeptSide) : Side :=
    let (pc, only) := resumption g variant k
    { slice := k.slice, lanes := live k, pc := pc, ctr := k.ctr, handler := false, only := only, noGuard := false,
      ph := if variant = 1 then k.ph else none, limit := 0, held := none, st := .running }
  let met (x : Side) : Side := { x.goto (x.pc + 16) with lanes := x.lanes &&& ~~~g.trapLanes, handler := false, st := .running }
  let fresh := (g.kept.map back ++ waiting.map met).filter fun x => x.lanes != 0
  let rest := (endTrap g).sides.filter fun x => !x.atTret
  let sides := (List.range 8).foldl (fun l s => placeSlice l s (fresh.filter fun x => x.slice = s)) rest
  let regions := g.regions.zipIdx.map fun p =>
    match g.kept.find? fun k => k.slice = p.2 with
    | some k => k.region
    | none => p.1
  { endTrap g with sides := sides, regions := regions }

/-- Whether every live lane of T waits at TRET, and the variant there. -/
def tretGathered (g : Group) : Option Nat :=
  let at_ := g.sides.filter fun x => match x.st with | .gateTret _ => true | _ => false
  let here := at_.foldl (fun m x => m ||| x.lanes) 0
  if g.tm && here != 0 && liveLanes g &&& g.trapLanes &&& ~~~here = 0 then
    some (match (at_.getLast?).map Side.st with | some (.gateTret v) => v | _ => 0)
  else none

/-- The lanes that would transfer to an address that is no multiple of 16, and the first such address (R38). -/
def tretMisaligned (g : Group) (variant : Nat) : Option (Side × W64) :=
  (g.kept.findSome? fun k =>
    let pc := (resumption g variant k).1
    if pc.extractLsb' 0 4 = 0 then none
    else (g.sides.find? fun x => x.atTret && x.handler && x.slice = k.slice).map fun x => (x, pc))

/-- TRET completes when its gather does, unless its target is misaligned; a handler whose every lane has ended leaves trap mode
(R38, R107, R332). -/
def settleTrap (s : State) (gid : Nat) : State :=
  match getGroup s gid with
  | none => s
  | some g =>
    match tretGathered g with
    | some v =>
      (match tretMisaligned g v with
       | some (x, pc) => raise s gid x 0x03 pc 0
       | none => deliverHeld (setGroup s (trapReturn g v)) gid)
    | none =>
      if g.tm && liveLanes g &&& g.trapLanes = 0 then
        deliverHeld (setGroup s (endTrap g)) gid
      else s

/-! ## The save gate and the end of a save routine (R334, R335) -/

/-- Every live lane has entered the gate: the group runs from SAVEPC, converged, with counter 0. A group whose lanes have all
halted is SAVED, and off its core (R285, R314, R335). -/
def settleGate (s : State) (gid : Nat) : State :=
  match getGroup s gid with
  | none => s
  | some g =>
    if g.sides != [] && g.sides.all fun x => x.st = .gateSave then
      let pc := ((launchOf s g).map fun l => l.blk.savepc).getD 0
      let one (i : Nat) : Side :=
        { slice := i, lanes := (liveLanes g) &&& sliceMask i, pc := pc, ctr := 0, handler := false, only := allLanes,
          noGuard := false, ph := none, limit := 0, held := none, st := .running }
      setGroup s { g with
        sides := ((List.range 8).map one).filter fun x => x.lanes != 0, saving := true,
        saveDue := coreNow s g.core + 4 * g.deadline }
    else if g.sides != [] && g.sides.all fun x => x.st = .gateHalt then
      let s := measureTeam (setGroup (drainGroup s g) { g with st := .saved, placed := false }) g.team
      owe s (.contextSaved (ctxOf s g))
    else s

/-! ## Ready, blocked and promoted groups (R313 to R317) -/

/-- The groups that share a group's scheduler and hold a place of its active set. -/
def activeSet (s : State) (core slot : Nat) : List Group :=
  s.groups.filter fun g => g.core = core && g.slot % 4 = slot % 4 && g.placed

/-- A long-latency wait (R315); the interlocks of registers and tiles are none. -/
def Park.long : Park → Bool
  | .mma _ => false
  | _ => true

/-- A group with no running side and a long-latency wait is BLOCKED; one that may issue is not (R314). -/
def settleBlocked (s : State) (gid : Nat) : State :=
  match getGroup s gid with
  | none => s
  | some g =>
    let running := g.sides.any fun x => x.st = .running
    let parked := g.sides.any fun x => match x.st with | .park p => p.long | _ => false
    if (g.st = .active || g.st = .trapped) && !running && parked then
      setGroup s { g with st := .blocked, since := coreNow s g.core }
    else s

/-- After a word or an event of a group: sides, gathers, held traps, the end of the group, and BLOCKED. -/
def settle (s : State) (gid : Nat) : State :=
  match getGroup s gid with
  | none => s
  | some g =>
    let s := setGroup s { g with sides := normSides g.sides }
    let s := settleGate (settleTrap s gid) gid
    match getGroup s gid with
    | none => s
    | some g =>
      if g.st = .exited || g.st = .saved then s
      else if g.sides = [] then exitGroup s g
      else settleBlocked (setGroup s { g with sides := normSides g.sides }) gid

/-- Lanes end in a group (R107, R335, R339): they depart from every barrier that names them. -/
def endLanes (s : State) (gid : Nat) (lanes : Mask) : State :=
  match getGroup s gid with
  | none => s
  | some g =>
    let gone := liveLanes g &&& lanes
    let cut (x : Side) : Side := { x with lanes := x.lanes &&& ~~~lanes }
    let g : Group := { g with sides := (g.sides.map cut).filter fun x => x.lanes != 0 }
    let g := (List.range 8).foldl (fun g j => rejoinDepart g gone j false) g
    let g := if g.tm then rejoinDepart g gone 7 true else g
    barDepart (setGroup s g) g.team gid gone

/-! ## Issuing a word -/

/-- What the body of a word did. -/
inductive Act where
  /-- the word is done: every lane of F goes to PC + 16 -/
  | done (s : State)
  /-- the word has said itself where its lanes are -/
  | placed (s : State)
  /-- a fault or trap of F; `s` holds what partial completion left (R150) -/
  | trap (s : State) (cause : BitVec 8) (eaddr : W64) (replay : Mask)

/-- A fault that names no address: sr.eaddr is a free value (log entry 2), sr.replay the lanes that trap (R322). -/
def plainTrap (s : State) (cause : BitVec 8) (replay : Mask) : Act :=
  let (n, s) := freeNat s
  .trap s cause (BitVec.ofNat 64 n) replay

/-- The budgets of the role (R47); a team of no launch has none. -/
def overBudget (s : State) (g : Group) (i : Instr) : Bool :=
  match roleOf s g with
  | none => true
  | some r =>
    let (v, c, z) := i.reach
    r.vregs < v || r.sregs < c || r.ztiles < z

/-- The end of a word of F. -/
def finish (gid : Nat) (k : Side) : Act → State
  | .done s => settle (advance s gid k) gid
  | .placed s => settle s gid
  | .trap s cause eaddr replay => settle (raise s gid k cause eaddr replay) gid

/-- What the word still waits for: a load in flight into a register it names (R55, R315), or an MMA that writes a z tile it
names (R188). -/
def interlock (s : State) (g : Group) (i : Instr) : Option Park :=
  let (v, c, z) := i.names
  match s.loads.find? fun l => l.gid = g.id && (l.vdest.any v.contains || l.sdest.any c.contains) with
  | some l => some (.load l.id)
  | none =>
    (s.mmas.find? fun m => m.gid = g.id && z.contains m.z).map fun m => .mma m.id

/-- The lanes that sr.replay names for a fault of the word itself (R54): the active ones of a word of the tile class (R185), those
of F otherwise. -/
def wordReplay (F : Frag) (op : Nat) (f : Fields) : Mask := if 0x200 ≤ op && op ≤ 0x20B then activeOf F f else F.lanes
def wordLanes (F : Frag) (i : Instr) : Mask :=
  match i.opFields with
  | some (op, f) => wordReplay F op.toNat f
  | none => F.lanes

/-- Issue a word for the issuing fragment: word faults first, 0x01 before 0x02 (R54, R62), then the interlocks of its
registers, then the word's own effect. -/
def issue (i : Instr) (body : State → Frag → Act) (s : State) : Res :=
  match issuing s with
  | none => .fault .noIssuer
  | some F =>
    if !i.legal then .next (finish F.g.id F.key (plainTrap s 0x01 (wordLanes F i)))
    else if overBudget s F.g i then .next (finish F.g.id F.key (plainTrap s 0x02 (wordLanes F i)))
    else match interlock s F.g i with
      | some p => .next (settle (parkFrag s F.g.id F.key F.key.only p) F.g.id)
      | none => .next (finish F.g.id F.key (body s F))

end Sys2Proof.Machine
end

