-- ==== Sys2Proof/Machine/Operands.lean ====
section
/-! DEFINITION. Operand forms (R40 to R49, R64) and the writes of results: per lane, or once to a scalar register. -/

namespace Sys2Proof.Machine

/-- A 32-bit register value by SRCSEL (R43, R45). -/
def read32 (s : State) (g : Group) (sel : BitVec 2) (r : BitVec 10) (L : Nat) : W32 :=
  match sel.toNat with
  | 0 => getV g r.toNat L
  | 1 => (getS g r.toNat).extractLsb' 0 32
  | _ => constReg s g r.toNat

/-- A 64-bit operand by SRCSEL (R44). -/
def read64 (s : State) (g : Group) (sel : BitVec 2) (r : BitVec 10) (L : Nat) : W64 :=
  match sel.toNat with
  | 0 => getV64 g r.toNat L
  | 1 => getS g r.toNat
  | _ => constReg s g (r.toNat + 1) ++ constReg s g r.toNat

/-- IMM32 as the register operand it stands for (R42): i64 extends the sign, w64 and b64 with zeros. -/
def immBits (ty : Nat) (imm : W32) : Nat := if ty = 3 then (imm.signExtend 64).toNat else imm.toNat

/-- A TYPE of 64 bits. -/
def wide (ty : Nat) : Bool := ty = 3 || ty = 4

/-- A register operand of a TYPE, as its bits. -/
def regBits (s : State) (g : Group) (sel : BitVec 2) (r : BitVec 10) (ty L : Nat) : Nat :=
  if wide ty then (read64 s g sel r L).toNat else (read32 s g sel r L).toNat

/-- Operand A; `one` says that the word has one value source, which IMM32 then replaces (R99). -/
def bitsA (s : State) (g : Group) (f : Fields) (one : Bool) (ty L : Nat) : Nat :=
  if one && f.immForm then immBits ty f.imm32 else regBits s g f.selA f.a ty L
/-- Operand B, which IMM32 replaces in words of two or more value sources (R41). -/
def bitsB (s : State) (g : Group) (f : Fields) (ty L : Nat) : Nat :=
  if f.immForm then immBits ty f.imm32 else regBits s g f.selB f.b ty L
def bitsC (s : State) (g : Group) (f : Fields) (ty L : Nat) : Nat := regBits s g f.selC f.c ty L

/-- A result in D of each lane: one register, or an even pair (R44). All operands are read of the group before the word
(R36). -/
def writeLanes (g : Group) (d : Nat) (w : Bool) (lanes : Mask) (v : Nat → Nat) : Group :=
  (lanesOf lanes).foldl
    (fun g L => if w then setV64 g d L (BitVec.ofNat 64 (v L)) else setV g d L (BitVec.ofNat 32 (v L))) g

/-- A scalar result, written once when Active(F) is not empty; a 32-bit one zeroes bits [63:32] (R45, R49). -/
def writeScalar (g : Group) (d : Nat) (w : Bool) (lanes : Mask) (v : Nat) : Group :=
  if lanes = 0 then g else setS g d (BitVec.ofNat 64 (if w then v else v % 2 ^ 32))

/-- D by DS (R49): the scalar form computes once. -/
def writeD (g : Group) (ds : Bool) (d : Nat) (w : Bool) (lanes : Mask) (v : Nat → Nat) : Group :=
  if ds then writeScalar g d w lanes (v (lowestLane lanes)) else writeLanes g d w lanes v

/-- The predicate D of each lane. -/
def writePred (g : Group) (d : Nat) (lanes : Mask) (v : Nat → Bool) : Group :=
  (lanesOf lanes).foldl (fun g L => setP g d L (v L)) g

/-- A word whose only effect is a value in D (classes 1 to 5). -/
def valueWord (s : State) (F : Frag) (f : Fields) (w : Bool) (v : Nat → Nat) : Act :=
  .done (setGroup s (writeD F.g f.ds f.d.toNat w (activeOf F f) v))

/-- A word whose only effect is a predicate in D. -/
def predWord (s : State) (F : Frag) (f : Fields) (v : Nat → Bool) : Act :=
  .done (setGroup s (writePred F.g f.d.toNat (activeOf F f) v))

/-- A word that may meet the overflow fault in a lane: then nothing is written (R79). -/
def valueOrOverflow (s : State) (F : Frag) (f : Fields) (w : Bool) (v : Nat → Option Nat) : Act :=
  let act := activeOf F f
  let seen := if f.ds then (lanesOf act).take 1 else lanesOf act
  if seen.all fun L => (v L).isSome then valueWord s F f w fun L => (v L).getD 0
  else plainTrap s 0x0A act

/-- Offset of a branch or a memory operand, sign-extended (R41). -/
def offsetOf (f : Fields) : W64 := if f.immForm then f.imm32.signExtend 64 else f.off25.signExtend 64

/-- A 64-bit address operand: an even vector pair or a scalar. -/
def addr64 (g : Group) (sel : BitVec 2) (r : BitVec 10) (L : Nat) : W64 :=
  if sel = 0 then getV64 g r.toNat L else getS g r.toNat

/-- The address of R147 in a lane, with the offset given. -/
def memAddrOff (g : Group) (f : Fields) (off : W64) (L : Nat) : W64 :=
  let idx := getV g f.b.toNat L
  match f.am with
  | 0 => addr64 g f.selA f.a L + idx.signExtend 64 + off
  | 1 => getS g f.a.toNat + off
  | 2 => idx.setWidth 64 + off
  | _ => off

/-- The address of R147 in a lane. -/
def memAddr (g : Group) (f : Fields) (L : Nat) : W64 := memAddrOff g f (offsetOf f) L

end Sys2Proof.Machine
end

