-- ==== Sys2Proof/Machine/Flags.lean ====
section
/-! DEFINITION. What decides a predicate: conditions on integers and floating-point values, their combination with the
old predicate, and the carry out (R116, R118, R119, R126). -/

namespace Sys2Proof.Machine

/-- The integer conditions of E[2:0] (R116, R168). -/
def intCond (cc : Nat) (a b : Int) : Bool :=
  match cc with
  | 0 => a = b
  | 1 => a ≠ b
  | 2 => a < b
  | 3 => a ≤ b
  | 4 => a > b
  | _ => a ≥ b

/-- The floating-point conditions of E[2:0]; a pair with a NaN is unordered (R126). -/
def fpCond (cc : Nat) (a b : Num) : Bool :=
  if a.isNaN || b.isNaN then cc = 1 || cc = 6
  else match cc with
    | 0 => numEq a b
    | 1 => !numEq a b
    | 2 => numLt a b
    | 3 => !numLt b a
    | 4 => numLt b a
    | 5 => !numLt a b
    | 6 => false
    | _ => true

/-- OPS of ICMP and FCMP: set, and, or (R116). -/
def combine (ops : Nat) (old c : Bool) : Bool :=
  match ops with
  | 0 => c
  | 1 => old && c
  | _ => old || c

/-- The carry out of a W-bit sum (R118). -/
def carryOut (w x : Nat) : Bool := 2 ^ w ≤ x

/-- PLOP's truth table (R119). -/
def truthTable (n : Nat) (a b c : Bool) : Bool :=
  n.testBit ((if a then 4 else 0) + (if b then 2 else 0) + (if c then 1 else 0))

end Sys2Proof.Machine
end

