-- ==== Sys2Proof/Machine/IntOps.lean ====
section
/-! DEFINITION. Integer, bit and predicate instructions, class 1 (R112 to R122). -/

namespace Sys2Proof.Machine

/-- Elements of a TYPE in one register: their number and width (R64). -/
def elements (ty : Nat) : Nat × Nat :=
  if 8 ≤ ty ∧ ty ≤ 10 then (2, 16) else if ty = 11 then (4, 8) else (1, (tyKind ty).width)

/-- Sat(x): clamp to the kind's range (R112). -/
def satInt (k : Kind) (x : Int) : Int :=
  match k with
  | .int signed w => if x < intMin signed w then intMin signed w else if intMax signed w < x then intMax signed w else x
  | _ => x

/-- An integer function of each element, wrapped or saturated (R112). -/
def intMap (ty : Nat) (sat : Bool) (h : List Int → Int) (srcs : List Nat) : Nat :=
  let (n, w) := elements ty
  let k := tyKind ty
  (List.range n).foldl (fun acc j =>
    let x := h (srcs.map fun b => decodeInt k (b / 2 ^ (w * j)))
    acc + intBits w (if sat then satInt k x else x) * 2 ^ (w * j)) 0

/-- W (R112). -/
def tyWidth (ty : Nat) : Nat := if wide ty then 64 else 32

def two (h : Int → Int → Int) : List Int → Int
  | [a, b] => h a b
  | _ => 0

/-- A binary integer word, A and B of the TYPE (R113). -/
def intBinary (s : State) (F : Frag) (f : Fields) (h : Int → Int → Int) : Act :=
  valueWord s F f (wide f.ty) fun L =>
    intMap f.ty (f.ops = 1) (two h) [bitsA s F.g f false f.ty L, bitsB s F.g f f.ty L]

/-- A unary integer word (R113). -/
def intUnary (s : State) (F : Frag) (f : Fields) (h : Int → Int) : Act :=
  valueWord s F f (wide f.ty) fun L =>
    intMap f.ty (f.ops = 1) (fun l => h (l.headD 0)) [bitsA s F.g f true f.ty L]

def execIadd (f : Fields) (s : State) : Res := issue (.iadd f) (fun s F => intBinary s F f (· + ·)) s
def execIsub (f : Fields) (s : State) : Res := issue (.isub f) (fun s F => intBinary s F f (· - ·)) s
def execImul (f : Fields) (s : State) : Res := issue (.imul f) (fun s F => intBinary s F f (· * ·)) s
/-- IMULH: ⌊(a × b) / 2^W⌋ (R113). -/
def execImulh (f : Fields) (s : State) : Res :=
  issue (.imulh f) (fun s F => intBinary s F f fun a b => a * b / 2 ^ tyWidth f.ty) s
/-- IMAD: Wrap(a × b + c) (R113). -/
def execImad (f : Fields) (s : State) : Res :=
  issue (.imad f) (fun s F => valueWord s F f (wide f.ty) fun L =>
    intMap f.ty false (fun l => l.getD 0 0 * l.getD 1 0 + l.getD 2 0)
      [bitsA s F.g f false f.ty L, bitsB s F.g f f.ty L, bitsC s F.g f f.ty L]) s
def execImin (f : Fields) (s : State) : Res :=
  issue (.imin f) (fun s F => intBinary s F f min) s
def execImax (f : Fields) (s : State) : Res :=
  issue (.imax f) (fun s F => intBinary s F f max) s
def execIabs (f : Fields) (s : State) : Res :=
  issue (.iabs f) (fun s F => intUnary s F f fun a => a.natAbs) s
def execIneg (f : Fields) (s : State) : Res := issue (.ineg f) (fun s F => intUnary s F f fun a => -a) s

/-! ## Bits (R114, R115) -/

/-- A binary word on bits of W. -/
def bitBinary (s : State) (F : Frag) (f : Fields) (h : Nat → Nat → Nat) : Act :=
  valueWord s F f (wide f.ty) fun L => h (bitsA s F.g f false f.ty L) (bitsB s F.g f f.ty L)
/-- A unary word on bits of W; `dwide` says whether D has W bits. -/
def bitUnary (s : State) (F : Frag) (f : Fields) (dwide : Bool) (h : Nat → Nat) : Act :=
  valueWord s F f dwide fun L => h (bitsA s F.g f true f.ty L)

/-- A << n, A >> n, the signed shift and the rotation, in W bits (R114). -/
def shl (w a n : Nat) : Nat := if w ≤ n then 0 else a * 2 ^ n % 2 ^ w
def shr (w a n : Nat) : Nat := if w ≤ n then 0 else a / 2 ^ n
def shra (w a n : Nat) : Nat :=
  let x : Int := if a < 2 ^ (w - 1) then a else (a : Int) - 2 ^ w
  intBits w (x / 2 ^ (if w ≤ n then w else n))
def rotl (w a n : Nat) : Nat := (a * 2 ^ (n % w) + a / 2 ^ (w - n % w)) % 2 ^ w
/-- The number of 1 bits, and of leading 0 bits, of W bits (R114). -/
def popcount (w a : Nat) : Nat := ((List.range w).filter fun i => a.testBit i).length
def leadingZeros (w a : Nat) : Nat := if a = 0 then w else w - 1 - Nat.log2 a
/-- Bit i of the result is bit W−1−i (R114). -/
def reverseBits (w a : Nat) : Nat := (List.range w).foldl (fun acc i => if a.testBit i then acc + 2 ^ (w - 1 - i) else acc) 0

/-- A shift: the count is one 32-bit operand B whatever the TYPE (R114). -/
def shiftWord (s : State) (F : Frag) (f : Fields) (h : Nat → Nat → Nat → Nat) : Act :=
  valueWord s F f (wide f.ty) fun L =>
    h (tyWidth f.ty) (bitsA s F.g f false f.ty L) (bitsB s F.g f 2 L)

def execAnd (f : Fields) (s : State) : Res := issue (.and_ f) (fun s F => bitBinary s F f Nat.land) s
def execOr (f : Fields) (s : State) : Res := issue (.or_ f) (fun s F => bitBinary s F f Nat.lor) s
def execXor (f : Fields) (s : State) : Res := issue (.xor_ f) (fun s F => bitBinary s F f Nat.xor) s
def execNot (f : Fields) (s : State) : Res :=
  issue (.not_ f) (fun s F => bitUnary s F f (wide f.ty) fun a => 2 ^ tyWidth f.ty - 1 - a) s
def execShl (f : Fields) (s : State) : Res := issue (.shl f) (fun s F => shiftWord s F f shl) s
def execShr (f : Fields) (s : State) : Res := issue (.shr f) (fun s F => shiftWord s F f shr) s
def execShra (f : Fields) (s : State) : Res := issue (.shra f) (fun s F => shiftWord s F f shra) s
def execRotl (f : Fields) (s : State) : Res := issue (.rotl f) (fun s F => shiftWord s F f rotl) s

/-- BFX's result: the field of `a` (read as TYPE) at pos with len bits (R115). -/
def bfx (signed : Bool) (a : Int) (ctl : Nat) : Nat :=
  let pos := ctl % 256
  let len := min (ctl / 256 % 256) 32
  let e := (a / 2 ^ pos % 2 ^ len).toNat
  if len = 0 then 0 else if signed && e ≥ 2 ^ (len - 1) then (e + 2 ^ 32 - 2 ^ len) % 2 ^ 32 else e
/-- BFI's result: B's field laid into A (R115). -/
def bfi (a b ctl : Nat) : Nat :=
  let pos := ctl % 256
  let len := min (ctl / 256 % 256) 32
  let m := (2 ^ len - 1) * 2 ^ pos % 2 ^ 32
  Nat.lor (Nat.land a (2 ^ 32 - 1 - m)) (Nat.land (b * 2 ^ pos) m)

def execBfx (f : Fields) (s : State) : Res :=
  issue (.bfx f) (fun s F => valueWord s F f false fun L =>
    bfx (f.ty = 1) (decodeInt (tyKind f.ty) (bitsA s F.g f false f.ty L)) (bitsB s F.g f 2 L)) s
def execBfi (f : Fields) (s : State) : Res :=
  issue (.bfi f) (fun s F => valueWord s F f false fun L =>
    bfi (bitsA s F.g f false 0 L) (bitsB s F.g f 0 L) (bitsC s F.g f 0 L)) s
def execPopc (f : Fields) (s : State) : Res :=
  issue (.popc f) (fun s F => bitUnary s F f false (popcount (tyWidth f.ty))) s
def execClz (f : Fields) (s : State) : Res :=
  issue (.clz f) (fun s F => bitUnary s F f false (leadingZeros (tyWidth f.ty))) s
def execBrev (f : Fields) (s : State) : Res :=
  issue (.brev f) (fun s F => bitUnary s F f (wide f.ty) (reverseBits (tyWidth f.ty))) s

/-! ## Comparison, selection, moves and addresses (R116 to R121) -/

def execIcmp (f : Fields) (s : State) : Res :=
  issue (.icmp f) (fun s F => predWord s F f fun L =>
    combine f.ops (getP F.g f.d.toNat L)
      (intCond f.e.toNat (decodeInt (tyKind f.ty) (bitsA s F.g f false f.ty L))
        (decodeInt (tyKind f.ty) (bitsB s F.g f f.ty L)))) s
def execSel (f : Fields) (s : State) : Res :=
  issue (.sel f) (fun s F => valueWord s F f (wide f.ty) fun L =>
    if getP F.g f.c.toNat L then bitsA s F.g f false f.ty L else bitsB s F.g f f.ty L) s
def execMov (f : Fields) (s : State) : Res :=
  issue (.mov f) (fun s F => bitUnary s F f (wide f.ty) id) s
/-- LEA: (A + Ext(b) × 2^k) mod 2^64 (R117). -/
def execLea (f : Fields) (s : State) : Res :=
  issue (.lea f) (fun s F => valueWord s F f true fun L =>
    intBits 64 ((regBits s F.g f.selA f.a 4 L : Int) + decodeInt (tyKind f.ty) (bitsB s F.g f f.ty L) * 2 ^ f.e.toNat)) s
/-- IADDC: the sum with the carry in, and the carry out (R118). -/
def execIaddc (f : Fields) (s : State) : Res :=
  issue (.iaddc f) (fun s F =>
    let w := tyWidth f.ty
    let sum (L : Nat) := bitsA s F.g f false f.ty L + bitsB s F.g f f.ty L + (if getP F.g f.c.toNat L then 1 else 0)
    let act := activeOf F f
    let g := writeLanes F.g f.d.toNat (wide f.ty) act fun L => sum L % 2 ^ w
    .done (setGroup s (writePred g f.e.toNat act fun L => carryOut w (sum L)))) s
def execPlop (f : Fields) (s : State) : Res :=
  issue (.plop f) (fun s F => predWord s F f fun L =>
    truthTable f.e.toNat (getP F.g f.a.toNat L) (getP F.g f.b.toNat L) (getP F.g f.c.toNat L)) s
/-- The predicates of a lane as `movp.get` writes them (R120). -/
def predBits (g : Group) (L : Nat) : Nat :=
  (List.range 16).foldl (fun acc n => if getP g n L then acc + 2 ^ n else acc) 0
def execMovpGet (f : Fields) (s : State) : Res :=
  issue (.movpGet f) (fun s F => .done (setGroup s (writeLanes F.g f.d.toNat false (activeOf F f) fun L => predBits F.g L))) s
/-- `movp.set`: the predicates that the mask names (R120). -/
def movpSet (g : Group) (L a mask : Nat) : Group :=
  (List.range 15).foldl (fun g n => if mask.testBit n then setP g n L (a.testBit n) else g) g
def execMovpSet (f : Fields) (s : State) : Res :=
  issue (.movpSet f) (fun s F =>
    .done (setGroup s ((lanesOf (activeOf F f)).foldl
      (fun g L => movpSet g L (getV F.g f.a.toNat L).toNat (bitsB s F.g f 0 L)) F.g))) s
/-- HASH (R121). -/
def hash32 (a b : W32) : W32 :=
  let h := a ^^^ (b * 0x85EBCA6B)
  let h := (h ^^^ (h >>> 16)) * 0x7FEB352D
  let h := (h ^^^ (h >>> 15)) * 0x846CA68B
  h ^^^ (h >>> 16)
def execHash (f : Fields) (s : State) : Res :=
  issue (.hash f) (fun s F => valueWord s F f false fun L =>
    (hash32 (BitVec.ofNat 32 (bitsA s F.g f false 0 L)) (BitVec.ofNat 32 (bitsB s F.g f 0 L))).toNat) s

end Sys2Proof.Machine
end

