-- ==== Sys2Proof/Machine/Special.lean ====
section
/-! DEFINITION. Special functions (R129 to R132): the exact value y to some 200 bits, its two neighbours, and the free
choice between them. A transcendental value is never exact but in the cases R130 and R131 name, so that the bits computed
here fix its neighbours. -/

namespace Sys2Proof.Machine

/-! ## Fixed point: an integer stands for itself / 2^256 -/

def fpOne : Int := 2 ^ 256
def fpMul (a b : Int) : Int := a * b / fpOne
def fpOfQ (q : Q) : Int := q.n * fpOne / (q.d : Int)
def fpToQ (a : Int) : Q := ⟨a, 2 ^ 256⟩

/-- term × z^j / (k+1)(k+2)… summed: e^z by its series, for |z| ≤ 1. -/
def fpExpTerms (z : Int) : Nat → Nat → Int → Int
  | 0, _, _ => 0
  | n + 1, k, term => term + fpExpTerms z n (k + 1) (fpMul term z / (k + 1 : Int))
def fpExp (z : Int) : Int := fpExpTerms z 64 0 fpOne

/-- Σ z^(2k+1) / (2k+1), for |z| ≤ 1/3: atanh z, with `alt` arctan z. -/
def fpOddTerms (alt : Bool) (z2 : Int) : Nat → Nat → Int → Int
  | 0, _, _ => 0
  | n + 1, k, p =>
    let t := p / (2 * k + 1 : Int)
    (if alt && k % 2 = 1 then -t else t) + fpOddTerms alt z2 n (k + 1) (fpMul p z2)
def fpAtanh (z : Int) : Int := fpOddTerms false (fpMul z z) 90 0 z

def fpLn2 : Int := 2 * fpAtanh (fpOne / 3)

/-- e^x for |x| ≤ 256, as an exact multiple of a power of two. -/
def expQ (x : Q) : Q :=
  let k := fpOfQ x / fpLn2
  (fpToQ (fpExp (fpOfQ x - k * fpLn2))).shift (-k)

/-- 2^x. -/
def exp2Q (x : Q) : Q :=
  let k := x.floor
  (fpToQ (fpExp (fpMul (fpOfQ (x.sub (Q.ofInt k))) fpLn2))).shift (-k)

/-- log2 x for x > 0. -/
def log2Q (x : Q) : Q :=
  let e := x.log2
  let m := fpOfQ (x.shift e)
  let ln := 2 * fpAtanh ((m - fpOne) * fpOne / (m + fpOne))
  (Q.ofInt e).add (fpToQ (ln * fpOne / fpLn2))

/-- π at 2^512, by Machin's formula. -/
def piTerms (z2inv : Nat) : Nat → Nat → Int → Int
  | 0, _, _ => 0
  | n + 1, k, p =>
    let t := p / (2 * k + 1 : Int)
    (if k % 2 = 1 then -t else t) + piTerms z2inv n (k + 1) (p / (z2inv : Int))
def pi512 : Int :=
  4 * (4 * piTerms 25 120 0 (2 ^ 512 / 5) - piTerms 57121 40 0 (2 ^ 512 / 239))

/-- Σ of the even or odd terms of sin and cos from `term`, for |r| < 1. -/
def trigTerms (r2 : Int) : Nat → Nat → Int → Int
  | 0, _, _ => 0
  | n + 1, k, term => term - trigTerms r2 n (k + 2) (fpMul term r2 / ((k + 1) * (k + 2) : Int))

/-- The quadrant of x and the remainder in it, in [-π/4, π/4] (R130: exact reduction). -/
def trigReduce (x : Q) : Int × Int :=
  let x512 := x.n * 2 ^ 512 / (x.d : Int)
  let k := (2 * x512 + pi512 / 2) / pi512
  (k, (x512 - k * pi512 / 2) / 2 ^ 256)

/-- sin of x + q quarter turns. -/
def sinQ (x : Q) (quarter : Int) : Q :=
  let (k, r) := trigReduce x
  let r2 := fpMul r r
  let s := trigTerms r2 40 1 r
  let c := trigTerms r2 40 0 fpOne
  match ((k + quarter) % 4).toNat with
  | 0 => fpToQ s
  | 1 => fpToQ c
  | 2 => fpToQ (-s)
  | _ => fpToQ (-c)

/-- The integer square root, bit by bit. -/
def isqrtBits (n : Nat) : Nat → Nat → Nat
  | 0, r => r
  | k + 1, r => isqrtBits n k (if (r + 2 ^ k) * (r + 2 ^ k) ≤ n then r + 2 ^ k else r)
def isqrt (n : Nat) : Nat := isqrtBits n (Nat.log2 n / 2 + 1) 0

/-- √q, exact where it is rational with a short denominator, else a value just above its 256-bit floor. -/
def sqrtQ (q : Q) : Q :=
  let n := (q.n.natAbs * 2 ^ 512) / q.d
  let r := isqrt n
  let y : Q := ⟨r, 2 ^ 256⟩
  if (y.mul y).eq q then y else ⟨2 * r + 1, 2 ^ 257⟩

/-! ## The functions -/

/-- The class-5 operations, in opcode order from 0x140 (R129). -/
inductive Sfu where
  | rcp | rsq | sqrt | exp2 | log2 | sin | cos | tanh | sigm | fdiv
  deriving DecidableEq, Repr

def Sfu.index : Sfu → Nat
  | .rcp => 0 | .rsq => 1 | .sqrt => 2 | .exp2 => 3 | .log2 => 4 | .sin => 5 | .cos => 6 | .tanh => 7 | .sigm => 8
  | .fdiv => 9

/-- q moved into [-b, b]. -/
def Q.clamp (q : Q) (b : Int) : Q :=
  if (Q.ofInt b).lt q then Q.ofInt b else if q.lt (Q.ofInt (-b)) then Q.ofInt (-b) else q

/-- |q| < 2^-40: the first term of a series is then the value but for less than 2^-60 of it. -/
def Q.tiny (q : Q) : Bool := q.abs.lt (Q.dyadic 1 (-40))
/-- q(1 - 2^-60), a value just inside q. -/
def Q.justBelow (q : Q) : Q := q.mul ⟨2 ^ 60 - 1, 2 ^ 60⟩

/-- y for a finite source in the function's domain (R129, R130); 0 is one only of EXP2 and COS, for which R131 lists no
special case. -/
def sfuValue (op : Sfu) (x : Q) : Q :=
  match op with
  | .rcp => (Q.ofInt 1).div x
  | .rsq => sqrtQ ((Q.ofInt 1).div x)
  | .sqrt => sqrtQ x
  | .exp2 => exp2Q (x.clamp 200)
  | .log2 => log2Q x
  | .sin => if x.tiny then x.justBelow else sinQ x 0
  | .cos => if x.n = 0 then Q.ofInt 1 else if x.tiny then (Q.ofInt 1).justBelow else sinQ x 1
  | .tanh =>
    if x.tiny then x.justBelow
    else
      let e := expQ ((x.clamp 60).mul (Q.ofInt 2))
      (e.sub (Q.ofInt 1)).div (e.add (Q.ofInt 1))
  | .sigm => (Q.ofInt 1).div ((expQ (x.clamp 120).neg).add (Q.ofInt 1))
  | .fdiv => x

/-- The value returned for a special source, none for an ordinary one (R131). NaN is the caller's. -/
def sfuSpecial (op : Sfu) (a : Num) : Option Num :=
  let one := Num.ofInt 1
  match op, a with
  | .rcp, .zero s => some (.inf s)
  | .rcp, .inf s => some (.zero s)
  | .rsq, .zero s => some (.inf s)
  | .sqrt, .zero s => some (.zero s)
  | .rsq, .inf false => some (.zero false)
  | .sqrt, .inf false => some (.inf false)
  | .rsq, .inf true | .sqrt, .inf true | .log2, .inf true => some defaultNaN
  | .rsq, .fin q | .sqrt, .fin q => if q.isNeg then some defaultNaN else none
  | .exp2, .inf s => some (if s then .zero false else .inf false)
  | .log2, .zero _ => some (.inf true)
  | .log2, .inf false => some (.inf false)
  | .log2, .fin q => if q.isNeg then some defaultNaN else if q.eq (Q.ofInt 1) then some (.zero false) else none
  | .sin, .inf _ | .cos, .inf _ => some defaultNaN
  | .sin, .zero s => some (.zero s)
  | .tanh, .inf s => some (if s then one.negate else one)
  | .tanh, .zero s => some (.zero s)
  | .sigm, .inf s => some (if s then .zero false else one)
  | .sigm, .zero _ => some (.fin ⟨1, 2⟩)
  | _, _ => none

/-- A faithful result (R130): y where it is representable, ±∞ beyond the largest finite, else the upper neighbour or the
lower, as the free choice `up` has it. -/
def faithful (eb fb : Nat) (y : Q) (up : Bool) : Nat :=
  let neg := y.isNeg
  let m := y.abs
  let emax : Int := 2 ^ (eb - 1) - 1
  if (Q.dyadic (2 ^ (fb + 1) - 1) (emax - fb)).lt m then ieeeInf eb fb neg
  else
    let u := ieeeUnit eb fb m
    match floorHalf (m.shift u) with
    | (t, none) => ieeeSign eb fb neg + ieeeMagBits eb fb t u
    | (t, some _) => ieeeSign eb fb neg + ieeeMagBits eb fb (if up != neg then t + 1 else t) u

/-- The bound of R132 holds between a result and y; `none` outside the stated domain. -/
def lpBound (op : Sfu) (x y r : Q) : Option Bool :=
  let err := (r.sub y).abs
  let rel (k : Nat) := some (err.le (y.abs.mul ⟨1, 2 ^ k⟩))
  let absolute (k : Nat) := some (err.le ⟨1, 2 ^ k⟩)
  match op with
  | .rcp | .rsq | .sqrt | .exp2 => rel 11
  | .log2 => if (⟨1, 2⟩ : Q).le x && x.le (Q.ofInt 2) then absolute 11 else rel 11
  | .sin | .cos => if x.abs.le (Q.ofInt 1024) then absolute 11 else none
  | .tanh => absolute 11
  | .sigm => absolute 12
  | .fdiv => rel 10

/-- The smallest normal magnitude of a kind. -/
def minNormal (eb : Nat) : Q := Q.dyadic 1 (2 - 2 ^ (eb - 1))

/-- The value given for y where the free candidate breaks the bound of R132: the nearest value; the largest finite of
y's sign where y rounds to an infinity and that value meets the bound; a zero of y's sign where y lies below the normal
range and the nearest value misses the bound. -/
def lpNear (op : Sfu) (eb fb : Nat) (x y : Q) : Nat :=
  let k := Kind.ieee eb fb
  let meets (bits : Nat) := match decodeNum k bits with
    | .fin r => (lpBound op x y r).getD true
    | _ => false
  let nearest := roundTo k (Num.ofQ y) 0
  let largest := ieeeMax eb fb y.isNeg
  if (decodeNum k nearest).isInf && meets largest then largest
  else if y.abs.lt (minNormal eb) && !meets nearest then roundTo k (.zero y.isNeg) 0
  else nearest

/-- An `lp` result inside its domain (R132): the free candidate where it meets the bound, or is a zero of y's sign for a
y below the normal range; else `lpNear`. -/
def lpResult (op : Sfu) (eb fb : Nat) (x y : Q) (candidate : Nat) : Option Nat :=
  let k := Kind.ieee eb fb
  let near := lpNear op eb fb x y
  match decodeNum k candidate with
  | .fin r => (lpBound op x y r).map fun ok => if ok then candidate % 2 ^ k.width else near
  | .zero s =>
    (lpBound op x y ⟨0, 1⟩).map fun ok =>
      if ok || (y.abs.lt (minNormal eb) && s = y.isNeg) then candidate % 2 ^ k.width else near
  | _ => (lpBound op x y y).map fun _ => near

/-- A unary special function on bits of TYPE `ty` (5 f32, 6 f16), flush apart (R129 to R132). -/
def sfuBits (op : Sfu) (ty : Nat) (lp : Bool) (rnd : Nat) (bits : Nat) : Nat :=
  let (eb, fb) := if ty = 5 then (8, 23) else (5, 10)
  let k := Kind.ieee eb fb
  let src := bits % 2 ^ k.width
  let a := decodeNum k src
  if a.isNaN then roundTo k a 0
  else match sfuSpecial op a with
    | some v => roundTo k v 0
    | none =>
      let x := a.toQ
      let y := sfuValue op x
      let full :=
        if op = .sqrt then roundTo k (.fin y) rnd
        else faithful eb fb y (Config.faithfulUp op.index ty (BitVec.ofNat 32 src))
      if lp then (lpResult op eb fb x y (Config.lpValue op.index ty (BitVec.ofNat 32 src) 0).toNat).getD full else full

/-- FDIV as IEEE 754 division (R130, R131), flush apart. -/
def fdivNum (a b : Num) : Num :=
  match a, b with
  | .zero _, .zero _ | .inf _, .inf _ => defaultNaN
  | .inf s, y => .inf (s != y.sign)
  | x, .inf s => .zero (x.sign != s)
  | x, .zero s => .inf (x.sign != s)
  | .zero s, y => .zero (s != y.sign)
  | x, y => .fin (x.toQ.div y.toQ)

def fdivBits (ty : Nat) (lp : Bool) (rnd : Nat) (abits bbits : Nat) : Nat :=
  let (eb, fb) := if ty = 5 then (8, 23) else (5, 10)
  let k := Kind.ieee eb fb
  let (sa, sb) := (abits % 2 ^ k.width, bbits % 2 ^ k.width)
  let (a, b) := (decodeNum k sa, decodeNum k sb)
  match firstNaN [a, b] with
  | some v => roundTo k v 0
  | none =>
    let v := fdivNum a b
    let full := roundTo k v rnd
    match v with
    | .fin y =>
      let normal := !y.abs.lt (minNormal eb) && !(decodeNum k full).isInf
      if lp && normal then
        (lpResult .fdiv eb fb a.toQ y
          (Config.lpValue 9 ty (BitVec.ofNat 32 sa) (BitVec.ofNat 32 sb)).toNat).getD full
      else full
    | _ => full

end Sys2Proof.Machine
end

