-- ==== Sys2Proof/Machine/FloatOps.lean ====
section
/-! DEFINITION. Floating-point, conversion, special-function and pair-form instructions: classes 2, 3 and 5 (R86 to R97,
R123 to R133) and the pair form (R57 to R60), with the flush of R66 around them. -/

namespace Sys2Proof.Machine

/-! ## Arithmetic on decoded values (R67, R123 to R125) -/

/-- A result from sources of which the first NaN is returned (R67). -/
def propagate (xs : List Num) (r : Num) : Num := (firstNaN xs).getD r

def faddNum (rnd : Nat) (a b : Num) : Num := propagate [a, b] (sumNum rnd [a, b])
def fsubNum (rnd : Nat) (a b : Num) : Num := propagate [a, b] (sumNum rnd [a, b.negate])
def fmulNum (a b : Num) : Num := propagate [a, b] (mulNum a b)
/-- The exact sum of products and terms, any of them invalid giving the default NaN (R124). -/
def sumOf (rnd : Nat) (xs : List Num) : Num := propagate xs (sumNum rnd xs)
def ffmaNum (rnd : Nat) (a b c : Num) : Num := propagate [a, b, c] (sumOf rnd [mulNum a b, c])
def fdot2Num (rnd : Nat) (a0 a1 b0 b1 c : Num) : Num :=
  propagate [a0, a1, b0, b1, c] (sumOf rnd [mulNum a0 b0, mulNum a1 b1, c])

/-- The order of FMIN and FMAX: −0 is less than +0 (R125). -/
def totalLt (a b : Num) : Bool :=
  match a, b with
  | .zero s, .zero t => s && !t
  | x, y => numLt x y
/-- minimumNumber and maximumNumber (R125). -/
def fminNum (a b : Num) : Num :=
  if a.isNaN && b.isNaN then a else if a.isNaN then b else if b.isNaN then a else if totalLt b a then b else a
def fmaxNum (a b : Num) : Num :=
  if a.isNaN && b.isNaN then a else if a.isNaN then b else if b.isNaN then a else if totalLt a b then b else a
def fmed3Num (a b c : Num) : Num := fmaxNum (fminNum a b) (fminNum (fmaxNum a b) c)

/-- The integral value chosen by the mode (R124). -/
def frndNum (rnd : Nat) (a : Num) : Num :=
  match a with
  | .fin q =>
    let t := roundMag rnd q.isNeg q.abs
    if t = 0 then .zero q.isNeg else .fin ⟨if q.isNeg then -(t : Int) else t, 1⟩
  | x => x

/-- a × 2^n. A scale beyond ±1000 takes every finite value of these kinds beyond the range or below half the smallest
subnormal, as ±1000 does. -/
def fscaleNum (a : Num) (n : Int) : Num :=
  match a with
  | .fin q => .fin (q.shift (-(max (-1000) (min 1000 n))))
  | x => x

/-- FCLASS's bit (R127). -/
def fclassBits (k : Kind) (bits : Nat) : Nat :=
  let sub := isSubnormal k bits
  match decodeNum k bits with
  | .inf s => if s then 0x001 else 0x080
  | .zero s => if s then 0x008 else 0x010
  | .nan _ p => if p.getLsbD 22 then 0x200 else 0x100
  | x => if x.sign then (if sub then 0x004 else 0x002) else (if sub then 0x020 else 0x040)

/-! ## Class 2 -/

/-- Element j of a register of a TYPE, with R66's flush of a source. -/
def element (flush : Bool) (ty : Nat) (bits j : Nat) : Nat :=
  let w := (elements ty).2
  flushBits flush (tyKind ty) (bits / 2 ^ (w * j) % 2 ^ w)

/-- A function on decoded elements, its results rounded and flushed, packed again (R64, R66, R123). -/
def fpMap (flush : Bool) (ty rnd : Nat) (h : List Num → Num) (srcs : List Nat) : Nat :=
  let (n, w) := elements ty
  let k := tyKind ty
  (List.range n).foldl (fun acc j =>
    acc + flushBits flush k (roundTo k (h (srcs.map fun b => decodeNum k (element flush ty b j))) rnd) * 2 ^ (w * j)) 0

/-- A class-2 word of two sources. -/
def fpBinary (s : State) (F : Frag) (f : Fields) (h : Num → Num → Num) : Act :=
  valueWord s F f false fun L =>
    fpMap (flushOf s F.g) f.ty f.rnd (fun l => h (l.getD 0 .nar) (l.getD 1 .nar))
      [bitsA s F.g f false f.ty L, bitsB s F.g f f.ty L]
/-- A class-2 word of three sources. -/
def fpTernary (s : State) (F : Frag) (f : Fields) (h : Num → Num → Num → Num) : Act :=
  valueWord s F f false fun L =>
    fpMap (flushOf s F.g) f.ty f.rnd (fun l => h (l.getD 0 .nar) (l.getD 1 .nar) (l.getD 2 .nar))
      [bitsA s F.g f false f.ty L, bitsB s F.g f f.ty L, bitsC s F.g f f.ty L]

def execFadd (f : Fields) (s : State) : Res := issue (.fadd f) (fun s F => fpBinary s F f (faddNum f.rnd)) s
def fsubBody (s : State) (F : Frag) (f : Fields) : Act := fpBinary s F f (fsubNum f.rnd)
def execFsub (f : Fields) (s : State) : Res := issue (.fsub f) (fun s F => fsubBody s F f) s
def execFmul (f : Fields) (s : State) : Res := issue (.fmul f) (fun s F => fpBinary s F f fmulNum) s
def execFfma (f : Fields) (s : State) : Res := issue (.ffma f) (fun s F => fpTernary s F f (ffmaNum f.rnd)) s
def execFmin (f : Fields) (s : State) : Res := issue (.fmin f) (fun s F => fpBinary s F f fminNum) s
def execFmax (f : Fields) (s : State) : Res := issue (.fmax f) (fun s F => fpBinary s F f fmaxNum) s
def execFmed3 (f : Fields) (s : State) : Res := issue (.fmed3 f) (fun s F => fpTernary s F f fmed3Num) s

/-- A scalar-kind source with flush, decoded. -/
def fpSource (s : State) (g : Group) (ty bits : Nat) : Num := decodeNum (tyKind ty) (element (flushOf s g) ty bits 0)

/-- FCMP (R126). -/
def execFcmp (f : Fields) (s : State) : Res :=
  issue (.fcmp f) (fun s F => predWord s F f fun L =>
    combine f.ops (getP F.g f.d.toNat L)
      (fpCond f.e.toNat (fpSource s F.g f.ty (bitsA s F.g f false f.ty L)) (fpSource s F.g f.ty (bitsB s F.g f f.ty L)))) s
/-- FCLASS (R127). -/
def execFclass (f : Fields) (s : State) : Res :=
  issue (.fclass f) (fun s F => valueWord s F f false fun L =>
    fclassBits (tyKind f.ty) (element (flushOf s F.g) f.ty (bitsA s F.g f true f.ty L) 0)) s
/-- FRND (R124). -/
def execFrnd (f : Fields) (s : State) : Res :=
  issue (.frnd f) (fun s F => valueWord s F f false fun L =>
    fpMap (flushOf s F.g) f.ty f.rnd (fun l => frndNum f.rnd (l.headD .nar)) [bitsA s F.g f true f.ty L]) s
/-- FSCALE: B is read as i32 (R124). -/
def execFscale (f : Fields) (s : State) : Res :=
  issue (.fscale f) (fun s F => valueWord s F f false fun L =>
    fpMap (flushOf s F.g) f.ty f.rnd
      (fun l => fscaleNum (l.headD .nar) (decodeInt kI32 (bitsB s F.g f 1 L))) [bitsA s F.g f false f.ty L]) s
/-- FDOT2: A and B packed, C and D binary32 (R124). -/
def execFdot2 (f : Fields) (s : State) : Res :=
  issue (.fdot2 f) (fun s F => valueWord s F f false fun L =>
    let fl := flushOf s F.g
    let el (b j : Nat) := decodeNum (tyKind f.ty) (element fl f.ty b j)
    let a := bitsA s F.g f false f.ty L
    let b := bitsB s F.g f f.ty L
    flushBits fl kF32 (roundTo kF32
      (fdot2Num f.rnd (el a 0) (el a 1) (el b 0) (el b 1) (fpSource s F.g 5 (bitsC s F.g f 5 L))) f.rnd)) s

/-! ## Class 3: conversion (R86 to R96) -/

/-- CVT's result; none is the overflow fault (R88, R89). -/
def cvtBits (flush : Bool) (src dst rnd ovf bits : Nat) : Option Nat :=
  let k := tyKind dst
  let x := decodeNum (tyKind src) (element flush src bits 0)
  (roundTo? k x rnd (if downConverts src dst then ovfPolicy ovf else .ieee754)).map fun r => destBits k (flushBits flush k r)

def execCvt (f : Fields) (s : State) : Res :=
  issue (.cvt f) (fun s F => valueOrOverflow s F f (wide f.ty) fun L =>
    cvtBits (flushOf s F.g) (eLow4 f) f.ty f.rnd f.ovf (regBits s F.g f.selA f.a (eLow4 f) L)) s

/-- The narrow kinds of CVTN and CVTW, with their slot width and number (R90, R91). -/
def narrowKind : Nat → Kind
  | 0 => kT8
  | 1 => kT6
  | 2 => kT4
  | _ => .int true 4
def slotWidth (ops : Nat) : Nat := if ops < 2 then 8 else 4
/-- Bits [w×j + w−1 : w×j] of a 32-bit value replaced (R91). -/
def putSlot (old w j code : Nat) : Nat := old - old / 2 ^ (w * j) % 2 ^ w * 2 ^ (w * j) + code * 2 ^ (w * j)

def execCvtn (f : Fields) (s : State) : Res :=
  issue (.cvtn f) (fun s F => valueOrOverflow s F f false fun L =>
    let w := slotWidth f.ops
    let old := if f.ds then (getS F.g f.d.toNat).toNat % 2 ^ 32 else (getV F.g f.d.toNat L).toNat
    (roundTo? (narrowKind f.ops) (fpSource s F.g f.ty (bitsA s F.g f false f.ty L)) f.rnd (ovfPolicy f.ovf)).map
      fun code => putSlot old w (bitsB s F.g f 2 L % (32 / w)) code) s

def execCvtw (f : Fields) (s : State) : Res :=
  issue (.cvtw f) (fun s F => valueWord s F f false fun L =>
    let w := slotWidth f.ops
    let code := bitsA s F.g f false 2 L / 2 ^ (w * (bitsB s F.g f 2 L % (32 / w))) % 2 ^ w
    roundTo (tyKind f.ty) (decodeNum (narrowKind f.ops) code) 0) s

/-- The TYPE of PACK's sources (R94). -/
def packSource : Nat → Nat
  | 8 | 9 => 5
  | 10 => 1
  | _ => 2

/-- Elements joined from element 0 upwards; none when one of them overflows. -/
def joinElements (w : Nat) : List (Option Nat) → Option Nat
  | [] => some 0
  | x :: r => do return (← x) + (← joinElements w r) * 2 ^ w

/-- PACK (R95). -/
def execPack (f : Fields) (s : State) : Res :=
  issue (.pack f) (fun s F => valueOrOverflow s F f false fun L =>
    let fl := flushOf s F.g
    let st := packSource f.ty
    let k := tyKind f.ty
    let one (b : Nat) := (roundTo? k (decodeNum (tyKind st) (element fl st b 0)) f.rnd (ovfPolicy f.ovf)).map (flushBits fl k)
    let ab := [bitsA s F.g f false st L, bitsB s F.g f st L]
    let ce := if f.ty = 11 then [bitsC s F.g f st L, (getV F.g f.e.toNat L).toNat] else []
    joinElements k.width ((ab ++ ce).map one)) s

/-- UNPACK (R96). -/
def execUnpack (f : Fields) (s : State) : Res :=
  issue (.unpack f) (fun s F => valueWord s F f false fun L =>
    let fl := flushOf s F.g
    let (n, _) := elements f.ty
    let x := element fl f.ty (bitsA s F.g f false f.ty L) (bitsB s F.g f 2 L % n)
    if f.ty = 8 ∨ f.ty = 9 then flushBits fl kF32 (roundTo kF32 (decodeNum (tyKind f.ty) x) 0)
    else destBits (tyKind f.ty) x) s

/-! ## Class 5: special functions (R129 to R132) -/

/-- A unary special function, `lp` in OPS[9]. -/
def sfuWord (op : Sfu) (s : State) (F : Frag) (f : Fields) : Act :=
  valueWord s F f false fun L =>
    let fl := flushOf s F.g
    flushBits fl (tyKind f.ty) (sfuBits op f.ty (f.ops = 1) f.rnd (element fl f.ty (bitsA s F.g f true f.ty L) 0))

def execRcp (f : Fields) (s : State) : Res := issue (.rcp f) (fun s F => sfuWord .rcp s F f) s
def execRsq (f : Fields) (s : State) : Res := issue (.rsq f) (fun s F => sfuWord .rsq s F f) s
def execSqrt (f : Fields) (s : State) : Res := issue (.sqrt f) (fun s F => sfuWord .sqrt s F f) s
def execExp2 (f : Fields) (s : State) : Res := issue (.exp2 f) (fun s F => sfuWord .exp2 s F f) s
def execLog2 (f : Fields) (s : State) : Res := issue (.log2 f) (fun s F => sfuWord .log2 s F f) s
def execSin (f : Fields) (s : State) : Res := issue (.sin f) (fun s F => sfuWord .sin s F f) s
def execCos (f : Fields) (s : State) : Res := issue (.cos f) (fun s F => sfuWord .cos s F f) s
def execTanh (f : Fields) (s : State) : Res := issue (.tanh f) (fun s F => sfuWord .tanh s F f) s
def execSigm (f : Fields) (s : State) : Res := issue (.sigm f) (fun s F => sfuWord .sigm s F f) s
def execFdiv (f : Fields) (s : State) : Res :=
  issue (.fdiv f) (fun s F => valueWord s F f false fun L =>
    let fl := flushOf s F.g
    flushBits fl (tyKind f.ty)
      (fdivBits f.ty (f.ops = 1) f.rnd (element fl f.ty (bitsA s F.g f false f.ty L) 0)
        (element fl f.ty (bitsB s F.g f f.ty L) 0))) s

/-! ## The pair form (R57 to R60) -/

/-- IMM24 in the float form: the upper 24 bits of a binary32 value, converted with RNE to a kind (R58). -/
def immFloat (k : Kind) (imm : BitVec 24) : Nat := roundTo k (decodeNum kF32 (imm.toNat * 2 ^ 8)) 0
/-- An immediate A of a half (R58). -/
def halfImm (h : Half) : Nat :=
  let hop := h.hop.toNat
  let ty := if 17 ≤ hop && hop ≤ 38 then (cvtHop hop).1 else if 13 ≤ hop && hop ≤ 16 then h.hmod.toNat else 1
  if (tyKind ty).isIeee then
    let e := immFloat (tyKind ty) h.imm24
    if ty = 8 || ty = 9 then e + e * 2 ^ 16 else e
  else (h.imm24.signExtend 32).toNat
/-- The A of a half in a lane. -/
def halfA (g : Group) (h : Half) (L : Nat) : Nat :=
  match h.asel.toNat with
  | 0 => (getV g h.a.toNat L).toNat
  | 1 => (getS g h.a.toNat).toNat % 2 ^ 32
  | _ => halfImm h
/-- The result of a half whose sources are d (its D) and a; none is the overflow fault of a CVT half (R58). -/
def halfValue (flush : Bool) (h : Half) (p0 : Bool) (d a : Nat) : Option Nat :=
  let ty := h.hmod.toNat
  let int (o : Int → Int → Int) := some (intMap ty false (two o) [d, a])
  let flt (o : Num → Num → Num) := some (fpMap flush ty 0 (fun l => o (l.getD 0 .nar) (l.getD 1 .nar)) [d, a])
  match h.hop.toNat with
  | 0 => int (· + ·)
  | 1 => int (· - ·)
  | 2 => int fun x y => if x ≤ y then x else y
  | 3 => int fun x y => if y ≤ x then x else y
  | 4 => some (Nat.land d a)
  | 5 => some (Nat.lor d a)
  | 6 => some (Nat.xor d a)
  | 7 => some (shl 32 d a)
  | 8 => some (shr 32 d a)
  | 9 => some (shra 32 d a)
  | 10 => some a
  | 11 => some (2 ^ 32 - 1 - a)
  | 12 => some (intMap ty false (fun l => -(l.headD 0)) [a])
  | 13 => flt (faddNum 0)
  | 14 => flt fmulNum
  | 15 => flt fminNum
  | 16 => flt fmaxNum
  | 39 => some (if p0 then a else d)
  | hop => cvtBits flush (cvtHop hop).1 (cvtHop hop).2 (ty % 8) (ty / 8) a

/-- The lanes a half acts in: its own guard (R60). -/
def halfLanes (F : Frag) (h : Half) : Mask :=
  F.lanes &&& F.key.only &&& (if F.key.noGuard then allLanes else guardLanes F.g h.g)
/-- A half's value in a lane, of the group before the word. -/
def halfAt (s : State) (F : Frag) (h : Half) (L : Nat) : Option Nat :=
  halfValue (flushOf s F.g) h (getP F.g 0 L) (getV F.g h.d.toNat L).toNat (halfA F.g h L)

/-- PAIR_WORD: both halves read before either writes, and an overflow in either writes nothing (R60). -/
def execPairWord (x y : Half) (s : State) : Res :=
  issue (.pairWord x y) (fun s F =>
    let ok (h : Half) := (lanesOf (halfLanes F h)).all fun L => (halfAt s F h L).isSome
    if ok x && ok y then
      let g := writeLanes F.g x.d.toNat false (halfLanes F x) fun L => (halfAt s F x L).getD 0
      .done (setGroup s (writeLanes g y.d.toNat false (halfLanes F y) fun L => (halfAt s F y L).getD 0))
    else plainTrap s 0x0A (halfLanes F x ||| halfLanes F y)) s

end Sys2Proof.Machine
end

