-- ==== Sys2Proof/Machine/Wire.lean ====
section
/-! DEFINITION. What Brass sends: link pages, next hops, control messages and their sequence numbers (R375 to R378, R385),
and the fields of a remote edge's parameter block (R379). -/

namespace Sys2Proof.Machine

def getLink (s : State) (port : Nat) : Link := (findBy Link.port port s.links).getD (Link.reset port)
def setLink (s : State) (l : Link) : State := { s with links := putBy Link.port l s.links }

/-- Counts of the time base in n nanoseconds (R323). -/
def nsCounts (n : Nat) : Nat := (21 * n + 9) / 10

/-- States in which traffic flows (R375). -/
def LinkSt.up : LinkSt → Bool
  | .upLossless | .upLossy | .cutMoving | .degraded => true
  | _ => false

/-! ## The parameter block (R379) -/

/-- n bits of a block from bit lo. -/
def pBits (p lo n : Nat) : Nat := p / 2 ^ lo % 2 ^ n
def pPort (p : Nat) : Nat := pBits p 178 3
def pK (p : Nat) : Nat := if pBits p 181 5 = 0 then 8 else pBits p 181 5
def pRule (p : Nat) : Nat := pBits p 186 2
def pSlots (p : Nat) : Nat := 2 ^ ((if 8 ≤ pBits p 188 4 then pBits p 188 4 - 8 else pBits p 188 4 + 8) + 4)
def pMaxsub (p : Nat) : Nat := if pBits p 192 8 = 0 then 2 else pBits p 192 8
def pKeyint (p : Nat) : Nat := pBits p 200 8
def pPmax (p : Nat) : Nat := pBits p 208 16
def pDl (p : Nat) : Nat := pBits p 224 32
def pPeer (p : Nat) : W128 := BitVec.ofNat 128 (pBits p 256 128)
def pPmask (p : Nat) : Nat := pBits p 388 60
def pStale (p : Nat) : W64 := BitVec.ofNat 64 (pBits p 448 64)

/-- A block that LOAD_GRAPH accepts, with the MTU of its port. -/
def paramOk (s : State) (p : Nat) : Bool :=
  pBits p 384 4 = 0 && pBits p 0 178 = 0 && (pStale p).toNat % 1024 = 0 && pDl p != 0 && pRule p != 3 && pPort p < 4
    && (pBits p 181 5 = 0 || (4 ≤ pBits p 181 5 && pBits p 181 5 ≤ 16))
    && 256 ≤ pPmax p && pPmax p + 80 ≤ (getLink s (pPort p)).mtu.toNat

def getRemote (s : State) (gn e : Nat) : Option RemoteEdge := s.remotes.find? fun r => r.graph = gn && r.edge = e
def setRemote (s : State) (r : RemoteEdge) : State :=
  { s with remotes := s.remotes.map fun x => if x.graph = r.graph && x.edge = r.edge then r else x }

/-! ## Packets onto the wire (R377) -/

/-- The message types of R378. -/
def tData := 1
def tParity := 2
def tFrame := 3
def tCutPropose := 4
def tCutAccept := 5
def tCutReject := 6
def tStateXfer := 7
def tStateAck := 8
def tRefMiss := 9
def tCack := 10
def tLdata := 11
def tLack := 12

/-- A packet of a port with every other field 0. -/
def blankPacket (l : Link) (graph frame : Nat) (body : List Byte) : EdgePacket :=
  { src := l.ip6, dst := 0, plain := true, ver := 1, spare := 0, graph, edge := 0, frame, group := 0, idx := 0, k := 0, nrec := 0, seq0 := 0, fl := 0,
    cseq := 0, body }

/-- Bytes of a number, and the number of bytes, most significant byte first (R3). -/
def beBytes (n x : Nat) : List Byte := (leBytes n x).reverse
def beNat (bs : List Byte) : Nat := leNat bs.reverse

/-- The 32-byte edge header (R378). -/
def headerBytes (ptype : Nat) (p : EdgePacket) : List Byte :=
  beBytes 1 p.ver ++ beBytes 1 ptype ++ beBytes 2 p.graph ++ beBytes 2 p.edge ++ beBytes 4 p.frame ++ beBytes 2 p.group
    ++ beBytes 1 p.idx ++ beBytes 1 p.k ++ beBytes 2 p.nrec ++ beBytes 2 p.seq0 ++ beBytes 1 p.fl.toNat
    ++ beBytes 1 (p.spare / 2 ^ 32) ++ beBytes 4 p.cseq ++ beBytes 4 p.body.length ++ beBytes 4 p.spare

/-- The type and the packet that a port reads from a UDP payload, in a frame to `dst` from `src` (R378). -/
def packetFrom (src : W128) (dst : BitVec 48) (plain : Bool) (bs : List Byte) : Nat × EdgePacket :=
  let f (off n : Nat) : Nat := beNat ((bs.drop off).take n)
  (f 1 1,
    { src, dst, plain, ver := f 0 1, spare := f 19 1 * 2 ^ 32 + f 28 4, graph := f 2 2, edge := f 4 2, frame := f 6 4,
      group := f 10 2, idx := f 12 1, k := f 13 1, nrec := f 14 2, seq0 := f 16 2, fl := BitVec.ofNat 8 (f 18 1), cseq := f 20 4,
      body := (bs.drop 32).take (f 24 4) })

/-- A packet framed to a MAC address. -/
def framed (port : Nat) (mac : BitVec 48) (peer : W128) (ptype : Nat) (p : EdgePacket) : Sent :=
  .packet mac (Config.mac port) p.src peer 64 0 (if ptype = tData || ptype = tParity || ptype = tRefMiss then p.edge else 0)
    (0x5AB0 + port) (headerBytes ptype p ++ p.body)

/-- The multicast addresses of Neighbor Discovery: all nodes, and the solicited node of an address (PRESUMED, RFC 4861 and its
mapping to Ethernet, log entry 80). -/
def allNodesMac : BitVec 48 := 0x333300000001
def solicitedMac (ip : W128) : BitVec 48 := 0x3333FF000000 ||| (ip.extractLsb' 0 24).setWidth 48
/-- A received frame is addressed to the port (R377). -/
def frameTaken (l : Link) (mac : BitVec 48) : Bool := mac = Config.mac l.port || mac = allNodesMac || mac = solicitedMac l.ip6
/-- An ND message of a port in its frame. -/
def ndFrom (port : Nat) (dst : BitVec 48) (m : NdMessage) : Sent := .nd ⟨dst, Config.mac port, m⟩

/-- Put a packet onto the wire, or hold it until its peer's MAC address is known (R377). -/
def transmit (s : State) (port : Nat) (peer : W128) (ptype : Nat) (p : EdgePacket) : State :=
  let l := getLink s port
  if !l.st.up then s
  else if l.nhV then setLink s { l with wire := l.wire ++ [framed port l.nhMac peer ptype p] }
  else match l.neighbors.find? fun n => n.ip = peer with
    | some n => setLink s { l with wire := l.wire ++ [framed port n.mac peer ptype p] }
    | none =>
      let ask : List Sent := if l.unresolved.any fun u => u.peer = peer then [] else [ndFrom port (solicitedMac peer) (.solicit peer)]
      setLink s { l with wire := l.wire ++ ask, unresolved := l.unresolved ++ [⟨peer, ptype, p, s.now⟩] }

/-! ## Control messages (R385) -/

def Pair.blank (peer : W128) : Pair :=
  { peer, ctlNext := 0, ctlSeen := 0, early := [], dataNext := 0, dataSeen := 0, earlyData := [], unacked := [], misses := [] }
def getPair (l : Link) (peer : W128) : Pair := (l.pairs.find? fun p => p.peer = peer).getD (Pair.blank peer)
def setPair (l : Link) (p : Pair) : Link :=
  { l with pairs := if l.pairs.any (fun x => x.peer = p.peer) then l.pairs.map fun x => if x.peer = p.peer then p else x else l.pairs ++ [p] }

/-- Send a control message: it takes the next CSEQ of its port pair and is kept until a CACK covers it. -/
def sendControl (s : State) (port : Nat) (peer : W128) (ptype : Nat) (p : EdgePacket) : State :=
  let l := getLink s port
  let x := getPair l peer
  let p := { p with cseq := x.ctlNext.toNat }
  let sends := if l.st.up then 1 else 0
  let x := { x with ctlNext := x.ctlNext + 1, unacked := x.unacked ++ [⟨ptype, p, sends, s.now, false, 0⟩] }
  transmit (setLink s (setPair l x)) port peer ptype p

end Sys2Proof.Machine
end

