-- ==== Sys2Proof/Machine/Cuts.lean ====
section
/-! DEFINITION. Graphs split by a cut: who owns a node in a run, which edges are remote in it, and the messages that a run's
start sends and the state that it writes (R386 to R389, R451, R452). -/

namespace Sys2Proof.Machine

def getCut (s : State) (gn : Nat) : Option Cut := s.cuts.find? fun c => c.graph = gn
def setCut (s : State) (c : Cut) : State := { s with cuts := s.cuts.map fun x => if x.graph = c.graph then c else x }

/-! ## Ownership (R387, R451) -/

/-- The edges whose bit is set in the cut in force for a frame (R389). -/
def Cut.edgesAt (c : Cut) (frame : Nat) : List Nat :=
  ((c.cuts.find? fun x => x.1 ≤ frame).map Prod.snd).getD []

/-- One round of spreading sides from node 0 along the edges, taken undirected: nodes with their side, true for node 0's. -/
def spreadSides (gr : Graph) (bits : List Nat) (known : List (Nat × Bool)) : List (Nat × Bool) :=
  gr.edges.zipIdx.foldl (fun known p =>
    let at_ (n : Nat) : Option Bool := (known.find? fun x => x.1 = n).map Prod.snd
    let flip (b : Bool) : Bool := if bits.contains p.2 then !b else b
    match at_ p.1.src, at_ p.1.dst with
    | some b, none => known ++ [(p.1.dst, flip b)]
    | none, some b => known ++ [(p.1.src, flip b)]
    | _, _ => known) known
def sides (gr : Graph) (bits : List Nat) : List (Nat × Bool) :=
  (List.range gr.nodes.length).foldl (fun k _ => spreadSides gr bits k) [(0, true)]

/-- A cut is valid: every node is reached from node 0, and every cycle holds an even number of set bits (R387). -/
def cutValid (gr : Graph) (bits : List Nat) : Bool :=
  let ss := sides gr bits
  let side (n : Nat) : Option Bool := (ss.find? fun x => x.1 = n).map Prod.snd
  (List.range gr.nodes.length).all (fun n => (side n).isSome)
    && gr.edges.zipIdx.all fun p => (side p.1.src != side p.1.dst) = bits.contains p.2

/-- A node is on the near side under a cut. -/
def nearNode (gr : Graph) (bits : List Nat) (n : Nat) : Bool := (((sides gr bits).find? fun x => x.1 = n).map Prod.snd).getD true

/-- This module runs a node in a frame (R451); a graph that is not split is whole. -/
def owns (s : State) (gr : Graph) (frame n : Nat) : Bool :=
  match getCut s gr.num with
  | none => true
  | some c => nearNode gr (c.edgesAt frame) n = c.near

/-- An edge is remote in a frame (R378). -/
def remoteIn (s : State) (gr : Graph) (frame : Nat) (e : Edge) : Bool :=
  match getCut s gr.num with
  | none => false
  | some c =>
    e.isRec && e.remote && nearNode gr (c.edgesAt frame) e.src != nearNode gr (c.edgesAt frame) e.dst

/-! ## The ports of control messages (R452) -/

/-- PORT and PEER of the lowest-numbered edge of a graph that p picks among those with REMOTE = 1. -/
def edgePort (s : State) (gr : Graph) (p : Nat → Bool) : Option (Nat × W128) :=
  match (List.range gr.edges.length).find? fun i => (gr.edges[i]?).any (fun e => e.isRec && e.remote) && p i with
  | some i => (getRemote s gr.num i).map fun r => (pPort r.param, pPeer r.param)
  | none => none
def controlPort (s : State) (gr : Graph) : Option (Nat × W128) := edgePort s gr fun _ => true
/-- STATE-XFER and STATE-ACK travel on an edge that is remote under the new cut. -/
def statePort (s : State) (gr : Graph) (m : Move) : Option (Nat × W128) :=
  edgePort s gr fun i => (gr.edges[i]?).any fun e => nearNode gr m.edges e.src != nearNode gr m.edges e.dst

/-- The accepted moves of a graph that may still receive state: the one in progress, and those that have ended (log entry 34). -/
def Cut.awaited (c : Cut) : List Move := c.move.toList.filter Move.accepted ++ c.late
/-- A change of the accepted move with effective frame e; an ended move with nothing left to write is forgotten. -/
def Cut.change (c : Cut) (e : Nat) (f : Move → Move) : Cut :=
  let g (m : Move) : Move := if m.accepted && m.eframe = e then f m else m
  { c with move := c.move.map g, late := (c.late.map g).filter fun m => !m.incoming.all Incoming.written }

/-- Send a control message of a graph. -/
def sendOn (s : State) (port : Option (Nat × W128)) (ptype graph frame : Nat) (body : List Byte) : State :=
  match port with
  | some (e, peer) => sendControl s e peer ptype (blankPacket (getLink s e) graph frame body)
  | none => s

/-! ## State that moves (R389) -/

/-- The pieces of a STATE-XFER: addresses and bytes. -/
def xferPieces : Nat → List Byte → List (W64 × List Byte)
  | 0, _ => []
  | fuel + 1, bs =>
    if bs.length < 16 then []
    else
      let n := leNat ((bs.drop 8).take 8)
      (BitVec.ofNat 64 (leNat (bs.take 8)), (bs.drop 16).take n) :: xferPieces fuel (bs.drop (16 + n))
/-- The node that a STATE-XFER or a STATE-ACK names. -/
def xferNode (p : EdgePacket) : Nat := leNat (p.body.take 8)

/-- Write a STATE-XFER's tiles at the same addresses, and acknowledge it (R389, R452). -/
def writeXfer (s : State) (gr : Graph) (m : Move) (p : EdgePacket) : State :=
  let s := (xferPieces p.body.length (p.body.drop 8)).foldl (fun s x => spaceWrite s (some gr.ctx) x.1 x.2) s
  sendOn s (statePort s gr m) tStateAck gr.num p.frame (p.body.take 8)

/-- Incoming state changed for one node. -/
def Move.setIncoming (m : Move) (i : Incoming) : Move :=
  { m with incoming := m.incoming.map fun x => if x.node = i.node then i else x }

/-- A STATE-XFER that was held is written, and its move knows. -/
def writeHeld (s : State) (gr : Graph) (m : Move) (i : Incoming) (p : EdgePacket) : State :=
  let s := writeXfer s gr m p
  match getCut s gr.num with
  | some c => setCut s (c.change m.eframe fun m => m.setIncoming { i with held := none, written := true })
  | none => s

/-- At the start of a run after E, state that came late is written before its node, which this module runs, is READY (R389). -/
def writeLate (s : State) (gr : Graph) (frame : Nat) : State :=
  let due := (getCut s gr.num).toList.flatMap Cut.awaited
  (due.filter fun m => m.eframe < frame).foldl (fun s m =>
    (m.incoming.filter fun i => owns s gr frame i.node).foldl (fun s i => match i.held with
      | some p => writeHeld s gr m i p
      | none => s) s) s

/-- The moves whose state of a node has not been written by run `frame`. -/
def staleMoves (s : State) (gn frame n : Nat) : List Move :=
  ((getCut s gn).toList.flatMap Cut.awaited).filter fun m =>
    m.eframe ≤ frame && m.incoming.any fun i => i.node = n && !i.written

/-- A node that becomes READY in run E or later with its state not written runs in stale-state mode (R389). -/
def staleAt (s : State) (gn frame n : Nat) : Bool := staleMoves s gn frame n != []

/-- A node has become READY: what it runs with in run E is decided (R389). -/
def decideNode (s : State) (gn frame n : Nat) : State :=
  match getCut s gn with
  | some c =>
    let decide (m : Move) : Move :=
      { m with incoming := m.incoming.map fun i => if i.node = n then { i with decided := true } else i }
    setCut s ((c.awaited.filter fun m => m.eframe ≤ frame).foldl (fun c m => c.change m.eframe decide) c)
  | none => s

/-- The near side does not start run E before it holds the answer (R389). -/
def runHeld (s : State) (gn frame : Nat) : Bool :=
  match getCut s gn with
  | some c => c.near && (match c.move with
    | some m => c.busy && !m.accepted && m.eframe ≤ frame
    | none => false)
  | none => false

/-- A run has started: the near side sends FRAME (R386), and the frames of the edges that come in start (R383). -/
def announceRun (s : State) (gr : Graph) (frame : Nat) : State :=
  match getCut s gr.num with
  | none => s
  | some c =>
    let s := if c.near then sendOn s (controlPort s gr) tFrame gr.num frame [] else s
    let coming (r : RemoteEdge) : Bool := r.graph = gr.num && match gr.edges[r.edge]? with
      | some e => remoteIn s gr frame e && owns s gr frame e.dst
      | none => false
    let open_ (r : RemoteEdge) : RemoteEdge :=
      let old := (r.frames.find? fun f => f.frame = frame).getD ⟨frame, none, false, [], [], []⟩
      { r with frames := (r.frames.filter fun f => f.frame != frame) ++ [{ old with start := some s.now }] }
    { s with remotes := s.remotes.map fun r => if coming r then open_ r else r }

end Sys2Proof.Machine
end

