-- ==== Sys2Proof/Machine/Runs.lean ====
section
/-! DEFINITION. Runs of resident graphs: node states, completion, loops, the trigger register and record edges (R297 to
R307). -/

namespace Sys2Proof.Machine

/-! ## Record edges (R304 to R307) -/

def Edge.capacity (e : Edge) : Nat := 2 ^ e.log2cap
def Edge.full (e : Edge) : Bool := e.capacity ≤ e.head - e.tail
/-- Records no team has taken. -/
def Edge.untaken (e : Edge) : Nat := e.head - e.taken
/-- The address of a record's slot. -/
def Edge.slotVa (e : Edge) (seq : Nat) : W64 := e.buf + BitVec.ofNat 64 (256 * (seq % e.capacity))
def Edge.free (e : Edge) (seq : Nat) : Edge := Edge.settleFreed { e with freed := e.freed ++ [seq] } (e.freed.length + 1)

def setEdge (gr : Graph) (i : Nat) (e : Edge) : Graph := { gr with edges := gr.edges.set i e }
/-- Indices of the record edges into port b of node n, and out of port b of node n. -/
def inEdge (gr : Graph) (n b : Nat) : Option Nat :=
  (List.range gr.edges.length).find? fun i => match gr.edges[i]? with
    | some e => e.isRec && e.dst = n && e.iport = b
    | none => false
def outEdge (gr : Graph) (n b : Nat) : Option Nat :=
  (List.range gr.edges.length).find? fun i => match gr.edges[i]? with
    | some e => e.isRec && e.src = n && e.oport = b
    | none => false
def inputs (gr : Graph) (n : Nat) : List Edge := gr.edges.filter fun e => e.isRec && e.dst = n
/-- Every input edge is closed and empty; a node with no record edge into it has none to wait for (R298, R450). -/
def inputsDone (gr : Graph) (n : Nat) : Bool := (inputs gr n).all fun e => e.closed && e.untaken = 0

/-- The edges of a producer that is done close; one that is remote in the run closes when its LAST packet has been sent, or
when its frame closes (R304, R383, R451). -/
def closeEdges (gr : Graph) (n : Nat) : Graph :=
  { gr with edges := gr.edges.map fun e => if e.isRec && !e.away && e.src = n then { e with closed := true } else e }

/-! ## Nodes (R298 to R300) -/

def setNode (gr : Graph) (i : Nat) (n : Node) : Graph := { gr with nodes := gr.nodes.set i n }
/-- A node changed where its graph is held. -/
def updNode (s : State) (gn i : Nat) (h : Node → Node) : State :=
  match getGraph s gn with
  | some g => (match g.nodes[i]? with
    | some n => setGraph s (setNode g i (h n))
    | none => s)
  | none => s
def Node.ended (n : Node) : Bool := n.st = .done || n.st = .aborted
/-- Loop node l has node n in its body. -/
def bodyOf (l : Node) (n : Nat) : Bool := l.kind = 4 && l.bodyF ≤ n && n ≤ l.bodyL
/-- Indices of the nodes for which p holds. -/
def nodesWhere (gr : Graph) (p : Node → Nat → Bool) : List Nat :=
  (List.range gr.nodes.length).filter fun i => match gr.nodes[i]? with
    | some n => p n i
    | none => false
/-- Node n lies in a body that node m is not in: m's decrement of it is not counted (R300). -/
def crossesIn (gr : Graph) (m n : Nat) : Bool := gr.nodes.any fun l => bodyOf l n && !bodyOf l m
def inBody (gr : Graph) (n : Nat) : Bool := gr.nodes.any fun l => bodyOf l n

/-- One decrement of a successor (R299). -/
def decrement (gr : Graph) (m : Nat) (dst : Nat) (skip : Bool) : Graph :=
  match gr.nodes[dst]? with
  | none => gr
  | some n =>
    if crossesIn gr m dst then gr
    else setNode gr dst { n with counter := n.counter - 1, taken := n.taken || !skip }

/-- The successors of a node, in edge order (R296). -/
def successors (gr : Graph) (n : Node) : List Nat :=
  (List.range n.nsucc).filterMap fun j => (gr.edges[n.succ0 + j]?).map Edge.dst

def setNodeSt (gr : Graph) (i : Nat) (st : NodeSt) : Graph :=
  match gr.nodes[i]? with
  | some n => setNode gr i { n with st := st }
  | none => gr
def nodeTaken (gr : Graph) (i : Nat) : Bool :=
  match gr.nodes[i]? with
  | some n => n.taken
  | none => false
/-- A node goes to DONE without having run (R298). -/
def skipNode (gr : Graph) (i : Nat) : Graph :=
  match gr.nodes[i]? with
  | some n => setNode gr i { n with st := .done, skip := true }
  | none => gr
/-- A node that completes with skip towards all of its successors (R299). -/
def withSkip (i : Nat) : Nat × (Nat → Bool) := (i, fun _ => true)

/-- Completions, each a node and whether it completes with skip towards its j-th successor (R299). -/
def completeList (fuel : Nat) (gr : Graph) (todo : List (Nat × (Nat → Bool))) : Graph :=
  match fuel, todo with
  | 0, _ => gr
  | _, [] => gr
  | fuel + 1, (m, skip) :: rest =>
    match gr.nodes[m]? with
    | none => completeList fuel gr rest
    | some n =>
      let gr := closeEdges (setNode gr m { n with st := .done }) m
      let succ := successors gr n
      let gr := succ.zipIdx.foldl (fun gr p => decrement gr m p.1 (skip p.2)) gr
      let due := nodesWhere gr fun x i =>
        succ.contains i && x.st = .pending && x.counter = 0 && x.pred != 0 && !crossesIn gr m i
      let skipped := due.filter fun i => !nodeTaken gr i
      let gr := due.foldl (fun gr i => if nodeTaken gr i then setNodeSt gr i .ready else skipNode gr i) gr
      completeList fuel gr (rest ++ skipped.map withSkip)

/-- A fixed-function node of the Brass encoder or decoder (UNIT 4, 5): the spec gives its unit's records no form, and it
takes and releases each (log entry 14). -/
def passBrass (gr : Graph) : Graph :=
  let takes (e : Edge) : Bool := e.isRec && match gr.nodes[e.dst]? with
    | some n => n.kind = 2 && (n.unit = 4 || n.unit = 5) && n.st = .running
    | none => false
  { gr with edges := gr.edges.map fun e => if takes e then { e with taken := e.head, tail := e.head, freed := [] } else e }

/-- A fixed-function node whose input edges are closed and empty is DRAINING (R298). -/
def drainUnits (gr : Graph) : Graph :=
  { gr with nodes := gr.nodes.zipIdx.map fun p =>
      if p.1.kind = 2 && p.1.st = .running && inputsDone gr p.2 then { p.1 with st := .draining } else p.1 }

/-- A record node's or a fixed-function node's inputs are done: its task may be complete, or the node (R285, R298). -/
def oweEnd (s : State) (gn i : Nat) : State :=
  match s.launches.find? fun l => l.graph = some (gn, i) with
  | some l => oweDrained s l.id
  | none => owe s (.nodeDone gn i)

/-- The producer of an edge is DONE and stays so for the run: no loop that holds it can start it again (R300, R451; DEDUCED, log entry
118). -/
def producerOver (gr : Graph) (e : Edge) : Bool :=
  (gr.nodes[e.src]?).any (fun x => x.st = .done) && !gr.nodes.any fun l => bodyOf l e.src && !l.ended

/-- Edges that are remote in the run, whose producer here is done and whose LAST packet has not been sent (R451). -/
def unsentEdges (s : State) (gr : Graph) : List Nat :=
  (List.range gr.edges.length).filter fun i => (getRemote s gr.num i).isSome && (gr.edges[i]?).any fun e =>
    e.away && !e.closed && producerOver gr e && (gr.nodes[e.src]?).any Node.owned
/-- The encoder sends what is left of them (R380, R451). -/
def sendEnds (s : State) (gr : Graph) : State :=
  (unsentEdges s gr).foldl (fun s i => owe s (.brassEncode gr.num i gr.frame)) s

/-- After completions: loops whose bodies are done evaluate again, nodes that are ready are dispatched under R285, and a
run all of whose nodes have ended ends. -/
def afterNodes (s : State) (gr : Graph) : State :=
  let was (i : Nat) : Option NodeSt := ((getGraph s gr.num).bind fun g => g.nodes[i]?).map Node.st
  let fresh := nodesWhere gr fun x i => x.st = .ready && was i != some .ready
  let mark (p : Node × Nat) : Node :=
    if fresh.contains p.2 then { p.1 with stale := p.1.owned && staleAt s gr.num gr.frame p.2 } else p.1
  let gr := passBrass { gr with nodes := gr.nodes.zipIdx.map mark }
  let gr := if ctxSaved s gr.ctx then gr else drainUnits gr
  let s := fresh.foldl (fun s i => decideNode s gr.num gr.frame i) (setGraph s gr)
  let s := sendEnds s gr
  let doneAt (j : Nat) : Bool := match gr.nodes[j]? with
    | some x => x.st = .done
    | none => true
  let loops := nodesWhere gr fun l _ =>
    l.kind = 4 && l.st = .running && (List.range gr.nodes.length).all (fun j => !bodyOf l j || doneAt j)
  let s := loops.foldl (fun s l => owe s (.nodeDone gr.num l)) s
  let closing := nodesWhere gr fun x i =>
    (x.kind = 2 && x.st = .draining) || (x.kind = 1 && (x.st = .launched || x.st = .running) && inputsDone gr i)
  let s := closing.foldl (fun s i => oweEnd s gr.num i) s
  let s := if gr.run && gr.nodes.all Node.ended && unsentEdges s gr = [] then owe s (.runEnd gr.num) else s
  wakeRecords s gr.num

/-- A node is done (R299); `skip` by the position of the successor. -/
def completeNode (s : State) (gn n : Nat) (skip : Nat → Bool) : State :=
  match getGraph s gn with
  | none => s
  | some gr => afterNodes s (completeList (gr.nodes.length + 1) gr [(n, skip)])

/-- A loop starts an iteration: its body goes back to PENDING, the edges of its producers here open, and the body nodes with
PRED = 0 become READY (R300, R304). -/
def startIteration (gr : Graph) (l : Nat) : Graph :=
  match gr.nodes[l]? with
  | none => gr
  | some ln =>
    let gr := setNode gr l { ln with st := .running, iterations := ln.iterations + 1 }
    { gr with
      edges := gr.edges.map fun e => if e.isRec && !e.away && bodyOf ln e.src then { e with closed := false } else e
      nodes := gr.nodes.zipIdx.map fun p =>
        if bodyOf ln p.2 then
          { p.1 with
            st := if p.1.pred = 0 && !gr.nodes.any (fun m => bodyOf m p.2 && m.bodyF ≥ ln.bodyF && m.bodyL ≤ ln.bodyL
                && !(m.bodyF = ln.bodyF && m.bodyL = ln.bodyL)) then .ready else .pending
            counter := p.1.pred, taken := false, skip := false, iterations := 0, waiting := none, config := none, outbox := [] }
        else p.1 }

/-- A loop ends: body nodes that did not run go to DONE with skip and complete so towards nodes outside (R300). -/
def endLoop (s : State) (gn l : Nat) : State :=
  match getGraph s gn with
  | none => s
  | some gr =>
    match gr.nodes[l]? with
    | none => s
    | some ln =>
      let idle := nodesWhere gr fun x i => bodyOf ln i && x.st != .done
      let gr := idle.foldl skipNode gr
      afterNodes s (completeList (gr.nodes.length + idle.length + 1) gr
        ((l, fun _ => false) :: idle.map withSkip))

/-! ## Runs and the trigger register (R301) -/

/-- A run starts, on behalf of an owner (R285): every node PENDING, nodes with PRED = 0 outside a body READY, record edges open and empty. -/
def startRun (s : State) (gn : Nat) (v : W64) (owner : Nat) : State :=
  match getGraph s gn with
  | none => s
  | some gr =>
    let frame := (gr.frame + 1) % 2 ^ 32
    let s := writeLate s gr frame
    let node (p : Node × Nat) : Node :=
      { p.1 with owned := owns s gr frame p.2, stale := false, st := if p.1.pred = 0 && !inBody gr p.2 then .ready else .pending, counter := p.1.pred, taken := false,
                 skip := false, iterations := 0, waiting := none, config := none, outbox := [] }
    let edge (e : Edge) : Edge :=
      if e.isRec then { e with head := 0, tail := 0, taken := 0, freed := [], closed := false, away := remoteIn s gr frame e } else e
    let gr := { gr with
      nodes := gr.nodes.zipIdx.map node, edges := gr.edges.map edge, run := true, frame := frame,
      owner := owner, runArgs := if v = 0 then gr.args else v }
    afterNodes (announceRun (setGraph s { gr with nodes := gr.nodes.map fun (n : Node) => { n with st := .idle } }) gr frame) gr

/-- A held request starts when the graph is idle and its run may start (R301, R389). -/
def startPending (s : State) (gn : Nat) : State :=
  match getGraph s gn with
  | none => s
  | some gr =>
    match gr.pend with
    | some v =>
      if gr.run || runHeld s gn (gr.frame + 1) then s
      else startRun (setGraph s { gr with pend := none }) gn v gr.pendOwner
    | none => s

/-- A run requested: at once on an idle graph, else held, a held one replaced with OVR set (R301). -/
def requestRun (s : State) (gn : Nat) (v : W64) (owner : Nat) : State :=
  match getGraph s gn with
  | none => s
  | some gr =>
    if gr.run || runHeld s gn (gr.frame + 1) then setGraph s { gr with pend := some v, pendOwner := owner, ovr := gr.ovr || gr.pend.isSome }
    else startRun s gn v owner

def clearOvr (s : State) (gn : Nat) : State :=
  match getGraph s gn with
  | none => s
  | some gr => setGraph s { gr with ovr := false }

/-- A store of 8 bytes to the trigger register of a graph. -/
def triggerStore (s : State) (gn : Nat) (v : W64) : State :=
  if v.extractLsb' 0 4 = 0 then requestRun s gn v 0 else if v = 1 then clearOvr s gn else s

/-- What a load of the trigger register reads. -/
def triggerLoad (s : State) (gn : Nat) : Nat :=
  match getGraph s gn with
  | none => 0
  | some gr => gr.donec.toNat + (if gr.run then 2 ^ 32 else 0) + (if gr.pend.isSome then 2 ^ 33 else 0)
      + (if gr.ovr then 2 ^ 34 else 0)

/-- The graph whose trigger register a device location is. -/
def triggerGraph (pa : Nat) : Nat := (pa - triggerBase) / 8

end Sys2Proof.Machine
end

