-- ==== Sys2Proof/Machine/Lanes.lean ====
section
/-! DEFINITION. A lane's accesses: the checks of R149, reads and writes of memory, device locations and scratchpad, and
partial completion (R148 to R155, R209 to R218). -/

namespace Sys2Proof.Machine

/-- SIZE in bytes (R52). -/
def sizeBytes (size : Nat) : Nat := 2 ^ size

/-- What a lane of a group accesses memory as. -/
structure Env where
  gid : Nat
  core : Nat
  ctx : Nat
  team : Nat
  part : Partition
  lease : Nat
  /-- HINT of the word, where the access takes it from here (R56) -/
  hint : Nat
  deriving DecidableEq, Repr

def envOf (s : State) (g : Group) : Env :=
  let c := getCtx s (ctxOf s g)
  ⟨g.id, g.core, c.num, g.team, getPart s c.part, c.lease, 0⟩
/-- The same for a word that says how its accesses use the caches (R56). -/
def hintedEnv (s : State) (F : Frag) (f : Fields) : Env := { envOf s F.g with hint := f.hint.toNat }

/-- A lane of a group has issued an operation, itself or before its group was drawn (R225, R338). -/
def issuedBy (g : Group) (L : Nat) (o : AsyncOp) : Bool := (o.gid = g.id && o.lane = L) || g.priorOps.contains (L, o.id)

/-- A group changed in the state. -/
def updGroup (s : State) (gid : Nat) (h : Group → Group) : State :=
  match getGroup s gid with
  | some g => setGroup s (h g)
  | none => s

/-! ## The checks (R149) -/

/-- Where an access goes. -/
inductive Target where
  /-- a byte of module or host memory; `direct` goes past L1 (MTYPE 1) -/
  | mem (host : Bool) (pa : Nat) (direct : Bool)
  /-- the trigger register of a graph -/
  | trigger (graph : Nat)
  /-- an offset into a peer's scratchpad share, as its key in `Team.scratch` -/
  | share (key : Nat)
  deriving DecidableEq, Repr

inductive Checked where
  | ok (t : Target)
  /-- not present, for tolerant readers (R371) -/
  | absent
  | fault (cause : BitVec 8) (pa : Nat)
  deriving DecidableEq, Repr

/-- What an access is: bytes, read and write, a tile reader or writer, and whether it is a load or a store that a device
location takes (R362). -/
structure Access where
  n : Nat
  read : Bool
  write : Bool
  tile : Bool
  device : Bool
  deriving DecidableEq, Repr

def Access.acc (a : Access) : PageAcc := ⟨a.read, a.write, false, a.tile⟩
def loadOf (n : Nat) : Access := ⟨n, true, false, false, n = 8⟩
def storeOf (n : Nat) : Access := ⟨n, false, true, false, n = 8⟩
/-- An atomic needs R and W (R370). -/
def atomicOf (n : Nat) : Access := ⟨n, true, true, false, false⟩
/-- STF and FRESET write; LDF and WAITA read: no device location takes them (R362). -/
def plainWrite (n : Nat) : Access := ⟨n, false, true, false, false⟩
def plainRead (n : Nat) : Access := ⟨n, true, false, false, false⟩

/-- The trigger register of a graph loaded for the context (R370). -/
def loadedFor (s : State) (ctx pa : Nat) : Bool :=
  match getGraph s (triggerGraph pa) with
  | some gr => gr.ctx = ctx
  | none => false

/-- The graph of a context whose trigger register's word an access of n bytes touches: LOAD_GRAPH maps it at TRIGVA (R301). -/
def triggerAt (s : State) (ctx : Nat) (va : W64) (n : Nat) : Option Nat :=
  (s.graphs.find? fun g => g.ctx = ctx && va.toNat / 8 ≤ g.trigva.toNat / 8 && g.trigva.toNat / 8 ≤ (va.toNat + (n - 1)) / 8).map
    Graph.num

/-- The lowest byte of a range that is a trigger register's, as an offset. -/
def triggerByte (s : State) (ctx : Nat) (va : W64) (n : Nat) : Option Nat :=
  (s.graphs.filter fun g => g.ctx = ctx && va.toNat / 8 ≤ g.trigva.toNat / 8 && g.trigva.toNat / 8 ≤ (va.toNat + (n - 1)) / 8).foldl
    (fun best g =>
      let off := g.trigva.toNat / 8 * 8 - va.toNat
      match best with
      | some b => some (min b off)
      | none => some off) none
def triggerOff (s : State) (ctx : Nat) (va : W64) (n : Nat) : Nat := (triggerByte s ctx va n).getD 0

def poisonedLine (s : State) (host : Bool) (pa : Nat) : Bool :=
  if host then s.hostPoison.contains (lineOf pa) else s.poison.contains (lineOf pa)

/-- Checks 3 to 6 of R149 of the `n` bytes at an address; a poisoned line stops reads only (R470). `mark` as for
`translate`. -/
def checkBytes (s : State) (v : Env) (mark : Bool) (va : W64) (n : Nat) (a : Access) : State × Checked :=
  match triggerAt s v.ctx va n with
  | some g => (s, if a.device then .ok (.trigger g) else .fault 0x05 0)
  | none =>
  let (s', x) := translate s (some v.core) (dieOf v.core) v.ctx va a.acc true mark fun pa => a.device && loadedFor s v.ctx pa
  match x with
  | .absent => (s', .absent)
  | .fault c pa => (s', .fault c pa)
  | .ok mt pa =>
    if mt = 3 then (s', .ok (.trigger (triggerGraph pa)))
    else if a.read && poisonedLine s' (mt = 2) pa then (s', .fault 0x14 pa)
    else (s', .ok (.mem (mt = 2) pa (mt = 1)))

/-- The checks of an access that is performed as soon as it is checked. -/
def checkPage (s : State) (v : Env) (va : W64) (a : Access) : State × Checked := checkBytes s v true va a.n a

/-- The checks of R149 in their order; `mark` as for `translate`. -/
def checkLaneAt (s : State) (v : Env) (mark : Bool) (va : W64) (a : Access) : State × Checked :=
  if va.toNat % a.n != 0 then (s, .fault 0x03 0)
  else if lockConflict s v.core v.ctx v.team a.write none va.toNat a.n then (s, .fault 0x06 0)
  else checkBytes s v mark va a.n a
def checkLane (s : State) (v : Env) (va : W64) (a : Access) : State × Checked := checkLaneAt s v true va a

/-- Bytes of each peer's share (R155), and the cores of the team's span. -/
def shareSize (s : State) (team : Nat) : Nat :=
  match (getTeam s team).bind fun t => getLaunch s t.launch with
  | some l => 256 * l.blk.scratch
  | none => 0
def spanOf (s : State) (team : Nat) : Nat := ((getTeam s team).map fun t => t.cores.length).getD 0

/-- The key of byte `off` of a peer's share in `Team.scratch`. -/
def shareKey (peer off : Nat) : Nat := peer * 2 ^ 32 + off

/-- The checks of a scratchpad access (R155). -/
def checkShare (s : State) (v : Env) (peer : Nat) (va : W64) (a : Access) : State × Checked :=
  let off := va.toNat % 2 ^ 32
  if off % a.n != 0 then (s, .fault 0x03 0)
  else if lockConflict s v.core v.ctx v.team a.write (some peer) off a.n then (s, .fault 0x06 0)
  else if spanOf s v.team ≤ peer || shareSize s v.team < off + a.n then (s, .fault 0x05 0)
  else (s, .ok (.share (shareKey peer off)))

/-! ## Reads and writes -/

/-- A read through the caches with a word's HINT (R30), with what the group's own stores that wait in L1 give it (R209, R212, R214). 16 bytes of
host memory are read in one step (R148; log entry 83). -/
def readTarget (s : State) (v : Env) (t : Target) (hint n : Nat) : LoadResult :=
  match t with
  | .trigger g => ⟨s, leBytes n (triggerLoad s g), false⟩
  | .share k =>
    let s := syncClk s v.core
    ⟨s, readBytes (((getTeam s v.team).map Team.scratch).getD []) k n, false⟩
  | .mem true pa direct => cachedRead s v.core v.ctx v.lease v.part true direct hint pa n
  | .mem false pa direct =>
    match ownStores s v.core v.gid pa n with
    | (s, some bs) => ⟨s, bs, false⟩
    | (s, none) => cachedRead s v.core v.ctx v.lease v.part false direct hint pa n

/-- A read of a tile's bytes (R190, R195), with the HINT of its word. -/
def readTile (s : State) (v : Env) (t : Target) (n : Nat) : LoadResult :=
  match t with
  | .mem false pa direct =>
    match ownStores s v.core v.gid pa n with
    | (s, some bs) => ⟨s, bs, false⟩
    | (s, none) => tileLoad s v.core v.ctx v.lease v.part direct v.hint pa n
  | _ => readTarget s v t v.hint n

/-- Stores of the core's groups that still wait in L1 on a range's lines go home first (R229). -/
def drainOverlap (s : State) (core : Nat) (host : Bool) (pa n : Nat) : State :=
  if host then s else drainWhere s core fun g => g.onLines pa n
/-- A transfer of a lane to or from a line's home slice takes its context's tokens there (R220). -/
def laneTransfer (s : State) (v : Env) (host : Bool) (pa n : Nat) : State := if host then s else portTransfer s v.ctx pa n
/-- A lane's read at the home, whatever copies there are. -/
def homeLoad (s : State) (v : Env) (host : Bool) (pa n : Nat) : State × List Byte :=
  homeRead (laneTransfer (drainOverlap s v.core host pa n) v host pa n) (some v.core) v.lease host pa n
/-- A lane's write at the home. -/
def homeStore (s : State) (v : Env) (host : Bool) (pa : Nat) (bs : List Byte) : State :=
  homeWrite (laneTransfer (drainOverlap s v.core host pa bs.length) v host pa bs.length) (some v.core) host pa bs

/-- The number a line of a scratchpad share has among waits, above every line of memory (R347). -/
def shareLine (team key : Nat) : Nat := 2 ^ 80 * (team + 1) + key / 128

/-- A write to a share, and the wake of waits on its line. -/
def putShare (s : State) (v : Env) (k : Nat) (bs : List Byte) : State :=
  match getTeam s v.team with
  | none => s
  | some tm =>
    let s := setTeam (syncClk s v.core) { tm with scratch := writeBytes tm.scratch k bs }
    let l := shareLine v.team k
    if s.waits.any (fun w => !w.host && w.line = l) then owe s (.waitaWake false l) else s

/-- A lane's stores and those of its group that it may have read go home before a release, a fence or another
synchronisation of the lane (R214, R226): one scope of Mode S above grp takes the whole group's. -/
def drainOwn (s : State) (v : Env) : State := drainGid s v.core v.gid

/-- The scope that an access to a target has: every access to host memory is at sys (R152). -/
def Target.scope (t : Target) (scope : Nat) : Nat :=
  match t with
  | .mem true _ _ => 4
  | _ => scope

/-- A lane's write, with the HINT of its word. A grp-scope store of Mode S stays in L1 (R214) unless `hint=nol1` takes it past L1
(R30); every other write goes to its home. A store to a trigger register comes after all of the group's stores (R227). 16 bytes of
host memory are written in one step (log entry 83). -/
def writeTarget (s : State) (v : Env) (scope : Nat) (t : Target) (bs : List Byte) : State :=
  match t with
  | .trigger g => triggerStore (drainOwn s v) g (BitVec.ofNat 64 (leNat bs))
  | .share k => putShare s v k bs
  | .mem host pa direct =>
    let s := if host then s else markCopies s v.core pa bs.length v.hint
    if v.part.orderMode && scope = 0 && !host && !direct && v.hint != 3 then holdStore s v.core ⟨v.gid, v.ctx, pa, bs, v.hint⟩
    else homeStore s v host pa bs

/-- Where a write goes in module or host memory. -/
def Target.bytes (t : Target) (n : Nat) : List (Bool × Nat × Nat) :=
  match t with
  | .mem host pa _ => [(host, pa, n)]
  | _ => []

/-- The lines that a store's pieces rewrite whole lose their poison (R365, R470; log entry 96), once those of its pieces that wait
in L1 have gone home. -/
def rewriteLines (s : State) (core : Nat) (ws : List (Bool × Nat × Nat)) : State :=
  let whole (host : Bool) (l : Nat) : Bool := (List.range 128).all fun i =>
    ws.any fun w => w.1 = host && w.2.1 ≤ 128 * l + i && 128 * l + i < w.2.1 + w.2.2
  let lines := s.poison.filter (whole false)
  let s := if lines = [] then s else drainWhere s core fun g => lines.contains (lineOf g.pa)
  { s with
    poison := s.poison.filter fun l => !lines.contains l
    hostPoison := s.hostPoison.filter fun l => !whole true l }

/-- An atomic step at the home: the old bytes, and the new ones written (R151, R152). -/
def atomicTarget (s : State) (v : Env) (t : Target) (n : Nat) (h : Nat → Nat) : State × Nat :=
  match t with
  | .mem host pa _ =>
    let (s, bs) := homeLoad s v host pa n
    (homeWrite s (some v.core) host pa (leBytes n (h (leNat bs))), leNat bs)
  | .share k =>
    let old := readNat (((getTeam s v.team).map Team.scratch).getD []) k n
    (putShare s v k (leBytes n (h old)), old)
  | .trigger _ => (s, 0)

/-- Before an access at team scope or wider to a target, of whatever ordering, the group's waiting stores go home: the accesses of
a lane at those scopes are performed in order with its stores (R214, R226, R232, R234; log entry 60). SCOPE 0 is grp. -/
def orderLane (s : State) (v : Env) (t : Target) (scope : Nat) : State :=
  if 1 ≤ t.scope scope then drainOwn s v else s

/-! ## Partial completion (R150) -/

/-- A lane's fault: its lane, cause, address and the physical address that the logs receive. -/
structure LaneFault where
  lane : Nat
  cause : BitVec 8
  va : W64
  pa : Nat
  deriving DecidableEq, Repr

/-- What the lanes of a word have done so far; `missed` says that a load missed. -/
structure Sweep where
  s : State
  faults : List LaneFault
  missed : Bool
  deriving DecidableEq, Repr

/-- One lane after another, in lane order. -/
def sweep (s : State) (lanes : Mask) (h : Sweep → Nat → Sweep) : Sweep := (lanesOf lanes).foldl h ⟨s, [], false⟩

def Sweep.fault (w : Sweep) (s : State) (L : Nat) (cause : BitVec 8) (va : W64) (pa : Nat) : Sweep :=
  { w with s := s, faults := w.faults ++ [⟨L, cause, va, pa⟩] }

/-- A partition violation or a poison goes to both logs (R259). -/
def logLane (s : State) (core ctx : Nat) (f : LaneFault) : State :=
  if f.cause = 0x14 || f.cause = 0x15 then logBoth s ctx f.cause (some core) f.va f.pa else s

/-- The word's end under R150: no lane faulted, or the fault of the lowest with sr.replay as given. -/
def concludeWith (core ctx : Nat) (s : State) (faults : List LaneFault) (replay : Mask) : Act :=
  match faults with
  | [] => .done s
  | f :: _ => .trap (logLane s core ctx f) f.cause f.va replay
def conclude (core ctx : Nat) (s : State) (faults : List LaneFault) : Act :=
  concludeWith core ctx s faults (maskOf (faults.map LaneFault.lane))

/-- The fault that a word issued for lanes still owed it is to raise: that of the lowest lane that has faulted, with every lane that
has (R150). `held` is that of lanes before. -/
def owedFault (held : Option HeldFault) (faults : List LaneFault) : Option HeldFault :=
  let lanes := maskOf (faults.map LaneFault.lane)
  match held with
  | some h => some { h with replay := h.replay ||| lanes }
  | none => faults.head?.map fun y => ⟨y.cause, y.va, lanes⟩
def logOwed (s : State) (v : Env) (held : Option HeldFault) (faults : List LaneFault) : State :=
  if held.isSome then s else (faults.take 1).foldl (fun s y => logLane s v.core v.ctx y) s
def raiseOwed (s : State) (fault : Option HeldFault) : Act :=
  match fault with
  | some h => .trap s h.cause h.eaddr h.replay
  | none => .done s

/-- A load that missed is in flight until LOAD_DATA_RETURN (R221, R315). -/
def inFlight (s : State) (gid : Nat) (vdest sdest : List Nat) : State :=
  owe { s with loads := s.loads ++ [⟨s.nextId, gid, vdest, sdest⟩], nextId := s.nextId + 1 } (.loadDataReturn s.nextId)

/-! ## Register placement (R148) -/

/-- What a load of n bytes puts into a register: 1 and 2 bytes extended by zero or sign. -/
def loadValue (n : Nat) (sx : Bool) (bs : List Byte) : Nat :=
  let x := leNat bs
  if sx && n < 4 && x ≥ 2 ^ (8 * n - 1) then x + 2 ^ 32 - 2 ^ (8 * n) else x
/-- n bytes into vector registers from d in a lane: one, a pair or a quadruple. -/
def putLoad (g : Group) (d n L x : Nat) : Group :=
  (List.range (max 1 (n / 4))).foldl (fun g i => setV g (d + i) L (BitVec.ofNat 32 (x / 2 ^ (32 * i)))) g
/-- Data of n bytes in operand C of a lane. -/
def storeData (s : State) (g : Group) (f : Fields) (n L : Nat) : List Byte :=
  if n = 16 then
    leBytes 16 ((List.range 4).foldl (fun x i => x + (getV g (f.c.toNat + i) L).toNat * 2 ^ (32 * i)) 0)
  else if n = 8 then leBytes 8 (read64 s g f.selC f.c L).toNat
  else leBytes n (read32 s g f.selC f.c L).toNat
/-- 0xDEAD_0BAD in every 32-bit part (R149). -/
def deadBad (n : Nat) : Nat := (List.range (max 1 (n / 4))).foldl (fun x i => x + 0xDEAD0BAD * 2 ^ (32 * i)) 0

end Sys2Proof.Machine
end

