-- ==== Sys2Proof/Machine/MemoryOps.lean ====
section
/-! DEFINITION. Memory instructions, class 6 (R153 to R160). -/

namespace Sys2Proof.Machine

/-- One lane of a vector load; `pred` is LDG's done predicate (R154, R157). -/
def loadLane (F : Frag) (f : Fields) (v : Env) (check : State → Nat → State × Checked) (va : Nat → W64)
    (pred : Option Nat) (w : Sweep) (L : Nat) : Sweep :=
  let n := sizeBytes f.size
  let setDone (g : Group) (b : Bool) : Group := (pred.map fun p => setP g p L b).getD g
  match check w.s L with
  | (s, .ok t) =>
    let r := readTarget (orderLane s v t f.scope) v t f.hint.toNat n
    { w with
      s := updGroup r.state F.g.id fun g => setDone (putLoad g f.d.toNat n L (loadValue n f.opm8 r.bytes)) true
      missed := w.missed || r.missed }
  | (s, .absent) =>
    if pred.isSome then { w with s := updGroup s F.g.id fun g => setDone g false }
    else w.fault s L 0x04 (va L) 0
  | (s, .fault c pa) =>
    let s := if c = 0x15 then updGroup s F.g.id fun g => putLoad g f.d.toNat n L (deadBad n) else s
    w.fault s L c (va L) pa

/-- A vector load of the active lanes under R150. -/
def vectorLoad (s : State) (F : Frag) (f : Fields) (check : State → Nat → State × Checked) (va : Nat → W64)
    (pred : Option Nat) : Act :=
  let v := envOf s F.g
  let w := sweep s (activeOf F f) (loadLane F f v check va pred)
  let s := if w.missed then inFlight w.s F.g.id (from_ f.d.toNat (sizeRegs f.size)) [] else w.s
  conclude v.core v.ctx s w.faults

/-- LD with DS = 1: one load for the fragment; a fault names every active lane (R154). DEDUCED, log entry 100: `sx`
extends to 32 bits, and bits 63:32 are written 0. -/
def scalarLoad (s : State) (F : Frag) (f : Fields) : Act :=
  let act := activeOf F f
  if act = 0 then .done s
  else
    let v := envOf s F.g
    let n := sizeBytes f.size
    let L := lowestLane act
    let va := memAddr F.g f L
    match checkLane s v va (loadOf n) with
    | (s, .ok t) =>
      let r := readTarget (orderLane s v t f.scope) v t f.hint.toNat n
      let s := updGroup r.state F.g.id fun g => setS g f.d.toNat (BitVec.ofNat 64 (loadValue n f.opm8 r.bytes))
      .done (if r.missed then inFlight s F.g.id [] [f.d.toNat] else s)
    | (s, .absent) => concludeWith v.core v.ctx s [⟨L, 0x04, va, 0⟩] act
    | (s, .fault c pa) =>
      let s := if c = 0x15 then updGroup s F.g.id fun g => setS g f.d.toNat (BitVec.ofNat 64 (deadBad n)) else s
      concludeWith v.core v.ctx s [⟨L, c, va, pa⟩] act

/-- LD (R154). -/
def execLd (f : Fields) (s : State) : Res :=
  issue (.ld f) (fun s F =>
    if f.opm9 then scalarLoad s F f
    else
      let v := envOf s F.g
      vectorLoad s F f (fun s L => checkLane s v (memAddr F.g f L) (loadOf (sizeBytes f.size))) (memAddr F.g f) none) s

/-- LDG: a lane whose page is not present does not trap (R157). -/
def execLdg (f : Fields) (s : State) : Res :=
  issue (.ldg f) (fun s F =>
    let v := envOf s F.g
    vectorLoad s F f (fun s L => checkLane s v (memAddr F.g f L) (loadOf (sizeBytes f.size))) (memAddr F.g f)
      (some f.c.toNat)) s

/-- What the lanes of a store have done, and where they have stored. -/
structure StoreSweep where
  w : Sweep
  put : List (Bool × Nat × Nat)
  deriving DecidableEq, Repr

/-- A store of the active lanes in lane order under R150 (R151, R154). -/
def vectorStore (s : State) (F : Frag) (f : Fields) (check : State → Nat → State × Checked) (va : Nat → W64) : Act :=
  let v := envOf s F.g
  let n := sizeBytes f.size
  let x := (lanesOf (activeOf F f)).foldl (fun (x : StoreSweep) L =>
    match check x.w.s L with
    | (s, .ok t) =>
      ⟨{ x.w with s := writeTarget (orderLane s v t f.scope) { v with hint := f.hint.toNat } f.scope t (storeData s F.g f n L) }, x.put ++ t.bytes n⟩
    | (s, .absent) => { x with w := x.w.fault s L 0x04 (va L) 0 }
    | (s, .fault c pa) => { x with w := x.w.fault s L c (va L) pa }) ⟨⟨s, [], false⟩, []⟩
  conclude v.core v.ctx (rewriteLines x.w.s v.core x.put) x.w.faults

/-- ST (R154). -/
def execSt (f : Fields) (s : State) : Res :=
  issue (.st f) (fun s F =>
    let v := envOf s F.g
    vectorStore s F f (fun s L => checkLane s v (memAddr F.g f L) (storeOf (sizeBytes f.size))) (memAddr F.g f)) s

/-- The peer a lane names: its own, or E (R155). -/
def peerOf (F : Frag) (f : Fields) (own : Bool) (L : Nat) : Nat := if own then F.g.peer else (getV F.g f.e.toNat L).toNat

def shareLoad (own : Bool) (s : State) (F : Frag) (f : Fields) : Act :=
  let v := envOf s F.g
  vectorLoad s F f (fun s L => checkShare s v (peerOf F f own L) (memAddr F.g f L) (loadOf (sizeBytes f.size)))
    (memAddr F.g f) none
def shareStore (own : Bool) (s : State) (F : Frag) (f : Fields) : Act :=
  let v := envOf s F.g
  vectorStore s F f (fun s L => checkShare s v (peerOf F f own L) (memAddr F.g f L) (storeOf (sizeBytes f.size)))
    (memAddr F.g f)

/-- LDS, STS, LDP and STP (R155). -/
def execLds (f : Fields) (s : State) : Res := issue (.lds f) (fun s F => shareLoad true s F f) s
def execSts (f : Fields) (s : State) : Res := issue (.sts f) (fun s F => shareStore true s F f) s
def execLdp (f : Fields) (s : State) : Res := issue (.ldp f) (fun s F => shareLoad false s F f) s
def execStp (f : Fields) (s : State) : Res := issue (.stp f) (fun s F => shareStore false s F f) s

/-! ## LDC (R156) -/

/-- The value at an offset of the launch's argument block, or the lane fault. -/
def argRead (s : State) (F : Frag) (f : Fields) (off : Nat) : BitVec 8 ⊕ Nat :=
  let n := sizeBytes f.size
  match launchOf s F.g with
  | none => .inl 0x05
  | some l =>
    if off % n != 0 then .inl 0x03
    else if l.blk.arglen < off + n then .inl 0x05
    else .inr (loadValue n f.opm8 (readBytes l.argBlock off n))

/-- LDC in a lane. DESIGN CHOICE, log entry 69: sr.eaddr of its fault is the byte offset. -/
def ldcLane (s0 : State) (F : Frag) (f : Fields) (w : Sweep) (L : Nat) : Sweep :=
  let off := bitsB s0 F.g f 2 L
  match argRead s0 F f off with
  | .inl c => w.fault w.s L c (BitVec.ofNat 64 off) 0
  | .inr x => { w with s := updGroup w.s F.g.id fun g => putLoad g f.d.toNat (sizeBytes f.size) L x }

def execLdc (f : Fields) (s : State) : Res :=
  issue (.ldc f) (fun s F =>
    let act := activeOf F f
    let v := envOf s F.g
    if f.opm9 then
      if act = 0 then .done s
      else
        let L := lowestLane act
        let off := bitsB s F.g f 2 L
        match argRead s F f off with
        | .inl c => concludeWith v.core v.ctx s [⟨L, c, BitVec.ofNat 64 off, 0⟩] act
        | .inr x => .done (updGroup s F.g.id fun g => setS g f.d.toNat (BitVec.ofNat 64 x))
    else
      let w := sweep s act (ldcLane s F f)
      conclude v.core v.ctx w.s w.faults) s

/-! ## PREF, FENCE, CCTL (R158 to R160) -/

/-- PREF changes no visible state (R158). -/
def execPref (f : Fields) (s : State) : Res := issue (.pref f) (fun s _ => .done s) s

/-- FENCE (R159): at team scope or wider the group's waiting stores go home (R214); loads are performed in order as it is. -/
def execFence (f : Fields) (s : State) : Res :=
  issue (.fence f) (fun s F => .done (if activeOf F f = 0 || f.scope = 0 then s else drainOwn s (envOf s F.g))) s

/-- The instruction-cache key of a word: its physical address, host words apart. -/
def icacheKey (host : Bool) (pa : Nat) : Nat := if host then 2 ^ 64 + pa else pa

/-- CCTL on one line: `ic` drops the core's instruction-cache copy, `evict` the L1 copy (R160). -/
def cctlLine (s : State) (core : Nat) (evict host : Bool) (pa : Nat) : State :=
  if evict then (if host then s else evictLine s core (lineOf pa))
  else
    let k := getCore s core
    setCore s { k with icache := k.icache.filter fun x => lineOf x.1 != lineOf (icacheKey host pa) }

def execCctl (f : Fields) (s : State) : Res :=
  issue (.cctl f) (fun s F =>
    let v := envOf s F.g
    .done ((lanesOf (activeOf F f)).foldl (fun s L =>
      match translate s (some v.core) (dieOf v.core) v.ctx (memAddr F.g f L) ⟨false, false, false, true⟩ false false fun _ => true with
      | (s, .ok mt pa) => cctlLine s v.core f.opm8 (mt = 2) pa
      | (s, _) => s) s)) s

end Sys2Proof.Machine
end

