-- ==== Sys2Proof/Machine/Atomics.lean ====
section
/-! DEFINITION. Atomics, futures and waits, class 7 (R162 to R170), and the wake of waits (R169). -/

namespace Sys2Proof.Machine

/-! ## Atomics (R162, R163) -/

/-- The new value of an atomic operation on a TYPE (R162). -/
def atomNew (op ty old c : Nat) : Nat :=
  let k := tyKind ty
  let w := k.width
  let int (h : Int → Int → Int) := intBits w (h (decodeInt k old) (decodeInt k c))
  let flt (h : Num → Num → Num) := roundTo k (h (decodeNum k old) (decodeNum k c)) 0
  match op with
  | 0 => if k.isIeee then flt (faddNum 0) else int (· + ·)
  | 1 => if k.isIeee then flt fminNum else int fun a b => if a ≤ b then a else b
  | 2 => if k.isIeee then flt fmaxNum else int fun a b => if b ≤ a then a else b
  | 3 => Nat.land old c
  | 4 => Nat.lor old c
  | 5 => Nat.xor old c
  | 6 => c
  | 7 => if c ≤ old then 0 else old + 1
  | _ => if old = 0 ∨ c < old then c else old - 1

/-- An atomic of the active lanes, one after another (R151), the old value in D. -/
def atomicWord (s : State) (F : Frag) (f : Fields) (check : State → Nat → State × Checked) (va : Nat → W64)
    (new : Nat → Nat → Nat) : Act :=
  let v := envOf s F.g
  let n := sizeBytes f.size
  let w := sweep s (activeOf F f) fun w L =>
    match check w.s L with
    | (s, .ok t) =>
      let (s, old) := atomicTarget (orderLane s v t f.scope) v t n (new L)
      { w with s := updGroup s F.g.id fun g => putLoad g f.d.toNat n L old }
    | (s, .absent) => w.fault s L 0x04 (va L) 0
    | (s, .fault c pa) => w.fault s L c (va L) pa
  conclude v.core v.ctx w.s w.faults

/-- ATOM (R162). -/
def execAtom (f : Fields) (s : State) : Res :=
  issue (.atom f) (fun s F =>
    let v := envOf s F.g
    atomicWord s F f (fun s L => checkLane s v (memAddr F.g f L) (atomicOf (sizeBytes f.size))) (memAddr F.g f)
      fun L old => atomNew (eLow4 f) (eTy f) old (regBits s F.g f.selC f.c (eTy f) L)) s

/-- ATOMS, on the core's own share (R162). -/
def execAtoms (f : Fields) (s : State) : Res :=
  issue (.atoms f) (fun s F =>
    let v := envOf s F.g
    atomicWord s F f (fun s L => checkShare s v F.g.peer (memAddr F.g f L) (atomicOf (sizeBytes f.size)))
      (memAddr F.g f) fun L old => atomNew (eLow4 f) (eTy f) old (regBits s F.g f.selC f.c (eTy f) L)) s

/-- ACAS (R163). -/
def execAcas (f : Fields) (s : State) : Res :=
  issue (.acas f) (fun s F =>
    let v := envOf s F.g
    let ty := if f.size = 3 then 4 else 0
    let new (L : Nat) := if f.size = 3 then (getV64 F.g f.e.toNat L).toNat else (getV F.g f.e.toNat L).toNat
    atomicWord s F f (fun s L => checkLane s v (memAddr F.g f L) (atomicOf (sizeBytes f.size))) (memAddr F.g f)
      fun L old => if old = regBits s F.g f.selC f.c ty L then new L else old) s

/-! ## Futures (R164 to R166) -/

/-- A future's value taken by a lane: D and the ready predicate (R165). -/
def takeFuture (g : Group) (d : Nat) (b64 : Bool) (pred L value : Nat) : Group :=
  setP (putLoad g d (if b64 then 8 else 4) L value) pred L true

/-- One lane of LDF: full, deferred (its physical address), or ready 0 at once. -/
structure LdfSweep where
  w : Sweep
  held : List (Nat × Nat)
  deriving DecidableEq, Repr

/-- One lane of LDF (R165). DESIGN CHOICE, log entry 99: a partition violation leaves D as it is. -/
def ldfLane (F : Frag) (f : Fields) (v : Env) (x : LdfSweep) (L : Nat) : LdfSweep :=
  let va := memAddr F.g f L
  let n := sizeBytes f.size
  match checkLane x.w.s v va (plainRead 16) with
  | (s, .ok (.mem host pa _)) =>
    let (s, bs) := homeLoad (orderLane s v (.mem host pa false) f.scope) v host pa 16
    let cell := leNat bs
    let on (s : State) (h : Group → Group) : LdfSweep := { x with w := { x.w with s := updGroup s F.g.id h } }
    let notReady (s : State) : LdfSweep := on s fun g => setP g f.c.toNat L false
    if cell.testBit 64 then on s fun g => takeFuture g f.d.toNat (n = 8) f.c.toNat L (cell % 2 ^ (8 * n))
    else if f.opm9 || host then notReady s
    else if 1024 ≤ ((s.deferred.map fun d => sliceOf v.part d.pa) ++ (x.held.map fun h => sliceOf v.part h.2)).count
        (sliceOf v.part pa) then
      notReady (logContext s v.ctx 0x0C none 0 pa)
    else { w := { x.w with s := s }, held := x.held ++ [(L, pa)] }
  | (s, .ok _) => { x with w := x.w.fault s L 0x05 va 0 }
  | (s, .absent) => { x with w := x.w.fault s L 0x04 va 0 }
  | (s, .fault c pa) => { x with w := x.w.fault s L c va pa }

/-- LDF: the fragment waits until every deferred lane is answered, and a fault of other lanes is raised when they are (R150,
R165). -/
def execLdf (f : Fields) (s : State) : Res :=
  issue (.ldf f) (fun s F =>
    let v := envOf s F.g
    let x := (lanesOf (activeOf F f)).foldl (ldfLane F f v) ⟨⟨s, [], false⟩, []⟩
    let owed := maskOf (x.held.map Prod.fst)
    let s := logOwed x.w.s v F.key.held x.w.faults
    let fault := owedFault F.key.held x.w.faults
    if owed = 0 then raiseOwed s fault
    else
      let reqs := x.held.map fun h =>
        DeferredLdf.mk false h.2 F.g.id h.1 f.d.toNat (f.size = 3) f.c.toNat (memAddr F.g f h.1)
      .placed (parkFrag { s with deferred := s.deferred ++ reqs } F.g.id F.key owed (.ldf false fault))) s

/-- A side that waits in LDF, with a lane answered. -/
def answerSide (L : Nat) (x : Side) : Side :=
  match x.st with
  | .park (.ldf _ fault) =>
    let only := x.only &&& ~~~laneBit L
    { x with only := only, st := .park (.ldf (only = 0) fault) }
  | _ => x

/-- One deferred request answered with a value (R166). -/
def answerOne (value : W64) (s : State) (d : DeferredLdf) : State :=
  match getGroup s d.gid with
  | none => s
  | some g =>
    let (s, _) := homeRead (portTransfer s (ctxOf s g) d.pa 16) (some g.core) 0 false d.pa 16
    let g := takeFuture g d.d d.b64 d.pred d.lane (value.toNat % 2 ^ (if d.b64 then 64 else 32))
    owe (setGroup s { g with sides := g.sides.map (answerSide d.lane) }) (.dependenceResolved g.id)

/-- STF fills a cell and answers every deferred request on it, in arrival order (R166). -/
def fillCell (s : State) (v : Env) (host : Bool) (pa : Nat) (value : W64) : State :=
  let s := homeStore s v host pa (leBytes 16 (value.toNat + 2 ^ 64))
  let mine (d : DeferredLdf) : Bool := d.host = host && d.pa = pa
  (s.deferred.filter mine).foldl (answerOne value) { s with deferred := s.deferred.filter fun d => !mine d }

/-- A write to the future cells of the active lanes under R150. -/
def cellWord (s : State) (F : Frag) (f : Fields) (put : State → Env → Bool → Nat → Nat → State) : Act :=
  let v := envOf s F.g
  let w := sweep s (activeOf F f) fun w L =>
    match checkLane w.s v (memAddr F.g f L) (plainWrite 16) with
    | (s, .ok (.mem host pa _)) => { w with s := put (orderLane s v (.mem host pa false) f.scope) v host pa L }
    | (s, .ok _) => w.fault s L 0x05 (memAddr F.g f L) 0
    | (s, .absent) => w.fault s L 0x04 (memAddr F.g f L) 0
    | (s, .fault c pa) => w.fault s L c (memAddr F.g f L) pa
  conclude v.core v.ctx w.s w.faults

/-- STF, a release (R166). -/
def execStf (f : Fields) (s : State) : Res :=
  issue (.stf f) (fun s F => cellWord s F f fun s' v host pa L =>
    fillCell s' v host pa (BitVec.ofNat 64 (leNat (storeData s F.g f (sizeBytes f.size) L)))) s

/-- FRESET: FULL := 0, VALUE kept, the reserved bits 0 (R166). -/
def execFreset (f : Fields) (s : State) : Res :=
  issue (.freset f) (fun s F => cellWord s F f fun s v host pa _ =>
    homeStore s v host (pa + 8) (leBytes 8 0)) s

/-! ## Waits (R168 to R170) -/

/-- The value at a lane's address, read at its home (R168). -/
def waitRead (s : State) (v : Env) (scope n : Nat) (va : W64) : State × (Checked ⊕ (Bool × Nat × Nat)) :=
  match checkLane s v va (plainRead n) with
  | (s, .ok (.mem host pa _)) =>
    let (s, bs) := homeLoad (orderLane s v (.mem host pa false) scope) v host pa n
    (s, .inr (host, pa, leNat bs))
  | (s, c) => (s, .inl c)

/-- The condition of WAITA and WAITS on a value read and a compare value (R168). -/
def waitCond (f : Fields) (x c : Nat) : Bool :=
  let k := tyKind (eTy f)
  intCond (eLow4 f) (decodeInt k x) (decodeInt k c)

/-- What the lanes of a WAITA have found: the lanes not done, with where they wait. -/
structure WaitSweep where
  w : Sweep
  owed : List (Nat × Bool × Nat)
  deriving DecidableEq, Repr

/-- One lane of WAITA (R168). DESIGN CHOICE, log entry 99: a partition violation leaves D as it is. -/
def waitLane (s0 : State) (F : Frag) (f : Fields) (v : Env) (x : WaitSweep) (L : Nat) : WaitSweep :=
  let n := sizeBytes f.size
  let va := memAddr F.g f L
  match waitRead x.w.s v f.scope n va with
  | (s, .inr (host, pa, val)) =>
    if waitCond f val (regBits s0 F.g f.selC f.c (eTy f) L) then
      { x with w := { x.w with s := updGroup s F.g.id fun g => putLoad g f.d.toNat n L val } }
    else { w := { x.w with s := s }, owed := x.owed ++ [(L, host, pa)] }
  | (s, .inl .absent) => { x with w := x.w.fault s L 0x04 va 0 }
  | (s, .inl (.fault c pa)) => { x with w := x.w.fault s L c va pa }
  | (s, .inl (.ok _)) => { x with w := x.w.fault s L 0x05 va 0 }

/-- Register lanes at the homes of their lines; a lane that finds its slice's 4096 places taken re-reads later instead
(R169). The agent's own table has no stated size. -/
def register (s : State) (part : Partition) (gid : Nat) (owed : List (Nat × Bool × Nat)) : State :=
  owed.foldl (fun s o =>
    let (L, host, pa) := o
    let used := ((s.waits.filter fun w => !w.host).map fun w => sliceOf part (128 * w.line)).count (sliceOf part pa)
    if !host && pa < moduleSize && 4096 ≤ used then owe s (.waitaPoll gid)
    else { s with waits := s.waits ++ [⟨host, lineOf pa, gid, L⟩] }) s

/-- Registrations of lanes are withdrawn: lanes that read again hold none (R168, R169). -/
def unregister (s : State) (gid : Nat) (lanes : Mask) : State :=
  { s with waits := s.waits.filter fun w => !(w.gid = gid && lanes.getLsbD w.lane) }

/-- WAITA (R168): a fault is raised at once and names the lanes not done as well. -/
def execWaita (f : Fields) (s : State) : Res :=
  issue (.waita f) (fun s F =>
    let v := envOf s F.g
    let act := activeOf F f
    let x := (lanesOf act).foldl (waitLane s F f v) ⟨⟨unregister s F.g.id act, [], false⟩, []⟩
    let owed := maskOf (x.owed.map Prod.fst)
    if x.w.faults != [] then
      concludeWith v.core v.ctx x.w.s x.w.faults (maskOf (x.w.faults.map LaneFault.lane) ||| owed)
    else if owed = 0 then .done x.w.s
    else .placed (parkFrag (register x.w.s v.part F.g.id x.owed) F.g.id F.key owed (.waita false))) s

/-- WAITS: one wait for the fragment, with the limit that S(D) holds on entry (R170). -/
def execWaits (f : Fields) (s : State) : Res :=
  issue (.waits f) (fun s F =>
    let act := activeOf F f
    if act = 0 then .done s
    else
      let v := envOf s F.g
      let L := lowestLane act
      let va := memAddr F.g f L
      let now := coreNow s F.g.core
      let due := if F.key.limit != 0 then F.key.limit else waitsDue now (getS F.g f.d.toNat)
      let s := unregister s F.g.id act
      match waitRead s v f.scope (sizeBytes f.size) va with
      | (s', .inr (host, pa, val)) =>
        let out := updGroup s' F.g.id fun g => setS g f.d.toNat (BitVec.ofNat 64 val)
        if waitCond f val (regBits s F.g f.selC f.c (eTy f) L) then .done out
        else if due ≤ now.toNat then .done out
        else
          let s' := register s' v.part F.g.id [(L, host, pa)]
          .placed (updGroup s' F.g.id fun g =>
            mapFrag g F.key fun x => { x with only := act, limit := due, st := .park (.waits false) })
      | (s', .inl .absent) => concludeWith v.core v.ctx s' [⟨L, 0x04, va, 0⟩] act
      | (s', .inl (.fault c pa)) => concludeWith v.core v.ctx s' [⟨L, c, va, pa⟩] act
      | (s', .inl (.ok _)) => concludeWith v.core v.ctx s' [⟨L, 0x05, va, 0⟩] act) s

/-- A side woken out of a wait on a line: one of the lanes that its fragment waits for is hit (R169, R347). -/
def wakeSide (hit : Nat → Bool) (x : Side) : Side :=
  if (lanesOf x.only).any hit then
    match x.st with
    | .park (.waita _) => { x with st := .park (.waita true) }
    | .park (.waits _) => { x with st := .park (.waits true) }
    | .park (.barObj _) => { x with st := .park (.barObj true) }
    | _ => x
  else x

/-- A write to a line wakes every lane registered on it, and every queue (R279); they read again (R169). -/
def wakeLine (s : State) (host : Bool) (line : Nat) : State :=
  let on (w : WaitReg) : Bool := w.host = host && w.line = line
  let hits := s.waits.filter on
  let s := { s with waits := s.waits.filter fun w => !on w }
  let s := hits.foldl (fun s w => if 2 ^ 64 ≤ w.gid then owe s (.waitSignalWake (w.gid % 2 ^ 64 / 64) (w.gid % 64)) else s) s
  s.groups.foldl (fun s g =>
    let hit (L : Nat) : Bool := hits.any fun w => w.gid = g.id && w.lane = L
    let g' := { g with sides := g.sides.map (wakeSide hit) }
    if g' = g then s else owe (setGroup s g') (.dependenceResolved g.id)) s

end Sys2Proof.Machine
end

