-- ==== Sys2Proof/Machine/Barriers.lean ====
section
/-! DEFINITION. Team barriers, memory barrier objects, rejoin barriers and REFORM, class 12 (R338, R339, R342 to R358). -/

namespace Sys2Proof.Machine

/-! ## Team barriers (R355, R356) -/

/-- Arrivals of lanes at a team barrier, in lane order: the lanes still waiting with phase 0 and with phase 1, and the
phase each lane's arrival got. A lane whose phase a later arrival completes waits no more (R344). -/
structure Arrivals where
  s : State
  p0 : Mask
  p1 : Mask
  got : List (Nat × Bool)
  deriving DecidableEq, Repr

def phaseOf (s : State) (tid b : Nat) : Bool := ((getTeam s tid).map fun t => (getBarrier s t b).phase).getD false

def arriveOne (tid b : Nat) (x : Arrivals) (L : Nat) : Arrivals :=
  let (ph, s) := barArrive x.s tid b
  let done := phaseOf s tid b != ph
  let p0 := if ph then x.p0 else x.p0 ||| laneBit L
  let p1 := if ph then x.p1 ||| laneBit L else x.p1
  { s := s, got := x.got ++ [(L, ph)], p0 := if done && !ph then 0 else p0, p1 := if done && ph then 0 else p1 }

/-- The fragment waits until no lane of it waits any more (R355). -/
def waitArrivals (x : Arrivals) (F : Frag) (b : Nat) : Act :=
  if x.p0 ||| x.p1 = 0 then .done x.s
  else .placed (parkFrag x.s F.g.id F.key (x.p0 ||| x.p1) (.bar b x.p0 x.p1))

/-- The arrivals of the active lanes: each is a release at team scope (R345). -/
def teamArrive (s : State) (F : Frag) (f : Fields) : Arrivals :=
  let act := activeOf F f
  (lanesOf act).foldl (arriveOne F.g.team f.e.toNat) ⟨if act = 0 then s else drainOwn s (envOf s F.g), 0, 0, []⟩

/-- Whether a team barrier is in mode 1. -/
def barMode (s : State) (tid b : Nat) : Bool := ((getTeam s tid).map fun t => (getBarrier s t b).mode).getD false

/-- BINIT of a team barrier: counted, or all live lanes; then the completion rule (R356). -/
def binitTeam (s : State) (tid b : Nat) (count : Option Nat) : State :=
  match getTeam s tid with
  | none => s
  | some t =>
    let x := getBarrier s t b
    let x := match count with
      | some n => { x with mode := true, expect := min n 65535, need := min n 65535 }
      | none => { x with
          mode := false, need := teamLive s tid - departedLive s x, apart := x.apart.map fun a => (a.1, a.2.2, a.2.2) }
    barRetest (setBarrier s t b x) tid b

/-! ## Memory barrier objects (R346) -/

def objArrive (o : Nat) : Nat := o % 2 ^ 32
def objExpect (o : Nat) : Nat := o / 2 ^ 32 % 2 ^ 32
def objPend (o : Nat) : Nat := o / 2 ^ 64 % 2 ^ 32
def objPhase (o : Nat) : Bool := o.testBit 96
/-- An object's 16 bytes, reserved bits 0. -/
def objWord (arrive expect pend : Nat) (phase : Bool) : Nat :=
  arrive + expect * 2 ^ 32 + pend % 2 ^ 32 * 2 ^ 64 + (if phase then 2 ^ 96 else 0)
/-- The completion test that ends every update. -/
def objTest (arrive expect pend : Nat) (phase : Bool) : Nat :=
  if arrive = 0 && pend % 2 ^ 32 = 0 then objWord expect expect 0 (!phase) else objWord arrive expect pend phase
/-- Arrival, expectation of n bytes, and an engine's completion of n bytes. -/
def objArrival (o : Nat) : Nat := objTest (objArrive o - 1) (objExpect o) (objPend o) (objPhase o)
def objExpectation (n o : Nat) : Nat := objTest (objArrive o) (objExpect o) (objPend o + n) (objPhase o)
def objCompletion (n o : Nat) : Nat := objTest (objArrive o) (objExpect o) (objPend o + (2 ^ 32 - n % 2 ^ 32)) (objPhase o)
/-- The withdrawal of an arrival at a save: no completion test (R351). -/
def objWithdraw (o : Nat) : Nat := objWord ((objArrive o + 1) % 2 ^ 32) (objExpect o) (objPend o) (objPhase o)

/-- The address of a memory form in a lane; the immediate form of BINIT.m and BEXP has no offset (R354). -/
def objAddr (g : Group) (f : Fields) (immIsC : Bool) (L : Nat) : W64 :=
  if immIsC && f.immForm then memAddrOff g f 0 L else memAddr g f L

/-- The checks of a memory form: memory, or peer E's share with SP (R352, R355). -/
def objCheck (s : State) (v : Env) (f : Fields) (va : W64) (a : Access) : State × Checked :=
  if f.opm9 then checkShare s v (f.e.extractLsb' 0 2).toNat va a else checkLane s v va a

/-- An update of each active lane's object in lane order under R150; `keep` receives the lane and the object before. -/
def objWord_ (s : State) (F : Frag) (f : Fields) (immIsC : Bool) (a : Access) (h : Nat → Nat → Nat)
    (keep : State → Nat → Nat → State) : Sweep :=
  let v := envOf s F.g
  sweep s (activeOf F f) fun w L =>
    let va := objAddr F.g f immIsC L
    match objCheck w.s v f va a with
    | (s, .ok t) =>
      let (s, old) := atomicTarget (orderLane s v t f.scope) v t 16 (h L)
      { w with s := keep s L old }
    | (s, .absent) => w.fault s L 0x04 va 0
    | (s, .fault c pa) => w.fault s L c va pa

/-- The phases of arrivals, as masks of the lanes with phase 0 and with phase 1. -/
def phaseMasks (l : List (Nat × Bool)) : Mask × Mask :=
  (maskOf ((l.filter fun p => !p.2).map Prod.fst), maskOf ((l.filter fun p => p.2).map Prod.fst))

/-- What a test of the active lanes' objects finds: who still waits, and where. -/
structure ObjTest where
  w : Sweep
  owed : List (Nat × Bool × Nat)
  deriving DecidableEq, Repr

/-- One lane's test: it passes when PHASE differs from the phase it has. -/
def objTestLane (F : Frag) (f : Fields) (v : Env) (ph : Nat → Bool) (x : ObjTest) (L : Nat) : ObjTest :=
  let va := memAddr F.g f L
  match objCheck x.w.s v f va (plainRead 16) with
  | (s, .ok t) =>
    let s := orderLane s v t f.scope
    let s := match t with
      | .mem host pa _ => drainOverlap s v.core host pa 16
      | _ => s
    let r := readTarget s v t 3 16
    let spot := match t with
      | .mem host pa _ => (host, pa)
      | .share k => (false, 128 * shareLine v.team k)
      | .trigger _ => (false, 0)
    if objPhase (leNat r.bytes) != ph L then { x with w := { x.w with s := r.state } }
    else { w := { x.w with s := r.state }, owed := x.owed ++ [(L, spot)] }
  | (s, .absent) => { x with w := x.w.fault s L 0x04 va 0 }
  | (s, .fault c pa) => { x with w := x.w.fault s L c va pa }

/-- Wait until PHASE differs in every lane; a fault is raised at once, for the lanes that wait too (R168, R347). -/
def objWait (s : State) (F : Frag) (f : Fields) (ph : Nat → Bool) (masks : Option (Mask × Mask)) : Act :=
  let v := envOf s F.g
  let act := activeOf F f
  let x := (lanesOf act).foldl (objTestLane F f v ph) ⟨⟨unregister s F.g.id act, [], false⟩, []⟩
  let owed := maskOf (x.owed.map Prod.fst)
  if x.w.faults != [] then
    concludeWith v.core v.ctx x.w.s x.w.faults (maskOf (x.w.faults.map LaneFault.lane) ||| owed)
  else if owed = 0 then .done x.w.s
  else
    .placed (updGroup (register x.w.s v.part F.g.id x.owed) F.g.id fun g =>
      mapFrag g F.key fun x => { x with only := owed, ph := masks, st := .park (.barObj false) })

/-- An arrival's bit of `l` for a lane. -/
def phaseIn (l : List (Nat × Bool)) (L : Nat) : Bool := ((l.find? fun p => p.1 = L).map Prod.snd).getD false

/-- Arrivals of a memory form, in a list of lane and phase kept in the state's order (R355). -/
structure ObjArrivals where
  w : Sweep
  got : List (Nat × Bool)
  deriving DecidableEq, Repr

def objArriveLane (F : Frag) (f : Fields) (v : Env) (x : ObjArrivals) (L : Nat) : ObjArrivals :=
  let va := memAddr F.g f L
  match objCheck x.w.s v f va (atomicOf 16) with
  | (s, .ok t) =>
    let (s, old) := atomicTarget (orderLane s v t f.scope) v t 16 objArrival
    { w := { x.w with s := s }, got := x.got ++ [(L, objPhase old)] }
  | (s, .absent) => { x with w := x.w.fault s L 0x04 va 0 }
  | (s, .fault c pa) => { x with w := x.w.fault s L c va pa }

def objArrivals (s : State) (F : Frag) (f : Fields) : ObjArrivals :=
  (lanesOf (activeOf F f)).foldl (objArriveLane F f (envOf s F.g)) ⟨⟨s, [], false⟩, []⟩

/-- BAR.m: arrivals, then the wait; a word issued again after its arrivals only tests (R355). -/
def barObjWord (s : State) (F : Frag) (f : Fields) : Act :=
  match F.key.ph with
  | some (p0, p1) => objWait s F f (fun L => p1.getLsbD L) (some (p0, p1))
  | none =>
    let v := envOf s F.g
    let x := objArrivals s F f
    if x.w.faults != [] then conclude v.core v.ctx x.w.s x.w.faults
    else objWait x.w.s F f (phaseIn x.got) (some (phaseMasks x.got))

/-- BAR (R355). -/
def execBar (f : Fields) (s : State) : Res :=
  issue (.bar f) (fun s F =>
    if barM f then barObjWord s F f else waitArrivals (teamArrive s F f) F f.e.toNat) s

/-- BARV: the phase of each arrival in a predicate; on a mode-0 team barrier it waits as BAR does (R343, R355). -/
def execBarv (f : Fields) (s : State) : Res :=
  issue (.barv f) (fun s F =>
    let put (s : State) (l : List (Nat × Bool)) : State :=
      updGroup s F.g.id fun g => l.foldl (fun g p => setP g f.d.toNat p.1 p.2) g
    if barM f then
      let v := envOf s F.g
      let x := objArrivals s F f
      conclude v.core v.ctx (put x.w.s x.got) x.w.faults
    else
      let mode := barMode s F.g.team f.e.toNat
      let x := teamArrive s F f
      let x := { x with s := put x.s x.got }
      if mode then .done x.s else waitArrivals x F f.e.toNat) s

/-- BWAIT (R355). -/
def execBwait (f : Fields) (s : State) : Res :=
  issue (.bwait f) (fun s F =>
    if barM f then objWait s F f (fun L => getP F.g f.c.toNat L) none
    else
      let b := f.e.toNat
      let ph := phaseOf s F.g.team b
      let owed := lanesWhere (activeOf F f) fun L => getP F.g f.c.toNat L = ph
      if owed = 0 then .done (syncClk s F.g.core) else .placed (parkFrag s F.g.id F.key owed (.bwait b false))) s

/-- BINIT (R356). -/
def execBinit (f : Fields) (s : State) : Res :=
  issue (.binit f) (fun s F =>
    let act := activeOf F f
    if barM f then
      let v := hintedEnv s F f
      let c (L : Nat) := if f.immForm then f.imm32.toNat else (read32 s F.g f.selC f.c L).toNat
      let w := sweep s act fun w L =>
        let va := objAddr F.g f true L
        match objCheck w.s v f va (plainWrite 16) with
        | (s, .ok t) => { w with s := writeTarget (orderLane s v t f.scope) v f.scope t (leBytes 16 (objWord (c L) (c L) 0 false)) }
        | (s, .absent) => w.fault s L 0x04 va 0
        | (s, .fault x pa) => w.fault s L x va pa
      conclude v.core v.ctx w.s w.faults
    else if act = 0 then .done s
    else
      let count := if barVar f = 1 then none else some (bitsB s F.g f 2 (lowestLane act))
      .done (binitTeam s F.g.team f.e.toNat count)) s

/-- BEXP (R356). -/
def execBexp (f : Fields) (s : State) : Res :=
  issue (.bexp f) (fun s F =>
    let v := envOf s F.g
    let n (L : Nat) := if f.immForm then f.imm32.toNat else (read32 s F.g f.selC f.c L).toNat
    let w := objWord_ s F f true (atomicOf 16) (fun L o => objExpectation (n L) o) fun s _ _ => s
    conclude v.core v.ctx w.s w.faults) s

/-! ## Rejoin barriers (R348, R349, R357) -/

/-- j7 in a handler lane is the trap bank (R330). -/
def trapBank (F : Frag) (j : Nat) : Bool := F.g.tm && F.key.handler && j = 7

/-- JARM: an old arming is abandoned; then the completion test (R348). -/
def arm (g : Group) (j : Nat) (trap : Bool) (named : Mask) : Group :=
  let g := if (getRejoin g j trap).state = 1 then abandon g j trap else g
  rejoinTest (setRejoin g j trap ⟨1, named, named &&& ~~~liveLanes g⟩) j trap

/-- JARM (R357). -/
def execJarm (f : Fields) (s : State) : Res :=
  issue (.jarm f) (fun s F =>
    let act := activeOf F f
    if act = 0 then .done s
    else
      let j := f.d.toNat
      let named := if barVar f = 1 then BitVec.ofNat 32 (bitsB s F.g f 2 (lowestLane act)) else act
      .placed (updGroup (advance s F.g.id F.key) F.g.id fun g => arm g j (trapBank F j) named)) s

/-- A side at a JOIN: the lanes that wait there, and those that go on (R348). -/
def joinSide (waiting : Mask) (j : Nat) (trap : Bool) (x : Side) : List Side :=
  [{ x.goto (x.pc + 16) with lanes := x.lanes &&& ~~~waiting }, { x with lanes := x.lanes &&& waiting, st := .join j trap }].filter
    fun x => x.lanes != 0

/-- JOIN (R357): active named lanes arrive at once and wait; every other lane goes on. -/
def execJoin (f : Fields) (s : State) : Res :=
  issue (.join f) (fun s F =>
    let j := f.d.toNat
    let trap := trapBank F j
    let r := getRejoin F.g j trap
    let waiting := if r.state = 1 then activeOf F f &&& r.named else 0
    if waiting = 0 then .done s
    else
      let g := setRejoin F.g j trap { r with arrived := r.arrived ||| waiting }
      let g := { g with sides := g.sides.flatMap fun x => if F.key.sameFragment x then joinSide waiting j trap x else [x] }
      .placed (setGroup s (rejoinTest g j trap))) s

/-- JDROP: active named lanes depart; `clr` releases the waiters and clears the barrier (R348, R357). -/
def execJdrop (f : Fields) (s : State) : Res :=
  issue (.jdrop f) (fun s F =>
    let j := f.d.toNat
    let trap := trapBank F j
    let act := activeOf F f
    if act = 0 then .done s
    else .placed (updGroup (advance s F.g.id F.key) F.g.id fun g =>
      if barVar f = 1 then abandon (setRejoin g j trap Rejoin.clear) j trap else rejoinDepart g act j trap)) s

/-- The word of a team barrier (R342). -/
def barWord (x : TeamBarrier) : Nat :=
  (if x.phase then 1 else 0) + (if x.mode then 2 else 0) + x.state * 4 + x.need % 2 ^ 16 * 2 ^ 16 + x.arrived % 2 ^ 16 * 2 ^ 32
    + x.expect % 2 ^ 16 * 2 ^ 48

/-- BQRY (R358). -/
def execBqry (f : Fields) (s : State) : Res :=
  issue (.bqry f) (fun s F =>
    if activeOf F f = 0 then .done s
    else
      let n := f.e.toNat
      let r := getRejoin F.g n (trapBank F n)
      let x := match barVar f with
        | 0 => ((getTeam s F.g.team).map fun t => barWord (getBarrier s t n)).getD 0
        | 1 => r.named.toNat + r.arrived.toNat * 2 ^ 32
        | _ => r.state
      .done (setGroup s (setS F.g f.d.toNat (BitVec.ofNat 64 x)))) s

/-! ## REFORM (R338, R339) -/

/-- The bin of a key with room for a lane, or a new one of the core's 16. -/
def findBin (s : State) (g : Group) (target : W64) : Option Bin :=
  match s.bins.find? fun b => b.core = g.core && b.team = g.team && b.role = g.role && b.target = target with
  | some b => if b.lanes.length < 64 then some b else none
  | none =>
    let used := (s.bins.filter fun b => b.core = g.core).map Bin.num
    ((List.range 16).find? fun k => !used.contains k).map fun k =>
      { core := g.core, num := k, team := g.team, role := g.role, peer := g.peer, target := target, lanes := [] }

def setBin (s : State) (b : Bin) : State :=
  { s with bins := putBy (fun b => 16 * b.core + b.num) b s.bins }

/-- p0 to p3 of a lane. -/
def lowPreds (g : Group) (L : Nat) : Nat := (List.range 4).foldl (fun x k => if getP g k L then x + 2 ^ k else x) 0

/-- What a lane takes into a bin: v0 to v(n−1) and p0 to p3. -/
def carriedOf (s : State) (g : Group) (n L : Nat) : BinLane :=
  ⟨(List.range n).map fun r => getV g r L, lowPreds g L, coreNow s g.core,
    (s.held.filter fun h => h.1 = g.team && h.2.gid = g.id && h.2.lane = L).map Prod.snd,
    ((((getTeam s g.team).map Team.barriers).getD []).filter fun b => !b.2.mode).map Prod.fst,
    (s.ops.filter (issuedBy g L)).map AsyncOp.id⟩

/-- File lanes in lane order; the lanes filed. -/
def fileLanes (s : State) (F : Frag) (target : W64) (n : Nat) (act : Mask) : State × Mask :=
  (lanesOf act).foldl (fun acc L =>
    match findBin acc.1 F.g target with
    | some b =>
      let s' := setBin acc.1 { b with lanes := b.lanes ++ [carriedOf s F.g n L] }
      ({ s' with held := s'.held.filter fun h => !(h.1 = F.g.team && h.2.gid = F.g.id && h.2.lane = L) }, acc.2 ||| laneBit L)
    | none => acc) (s, 0)

/-- The lanes of REFORM that stay branch to the target; the others go on at PC + 16 (R339). -/
def reformSide (k : Side) (taken : Mask) (target : W64) (x : Side) : List Side :=
  if k.sameFragment x then
    [{ x.goto target with lanes := x.lanes &&& taken },
      { x.goto (k.pc + 16) with
        lanes := x.lanes &&& ~~~taken, st := if x.lanes &&& taken = 0 then .running else .pending }].filter
      fun x => x.lanes != 0
  else [x]

/-- REFORM (R339): filed lanes end in their group; the other active lanes branch. -/
def execReform (f : Fields) (s : State) : Res :=
  issue (.reform f) (fun s F =>
    let act := activeOf F f
    let target := F.key.pc + 16 * offsetOf f
    let (s', filed) := if F.g.tm && F.key.handler then (s, 0) else fileLanes (fixBarriers s F.g.team) F target f.mod.toNat act
    let s' := if filed = 0 then s' else drainGid s' F.g.core F.g.id
    .placed (endLanes (setGroup s' { F.g with sides := F.g.sides.flatMap (reformSide F.key act target) }) F.g.id filed)) s

end Sys2Proof.Machine
end

