-- ==== Sys2Proof/Machine/TileData.lean ====
section
/-! DEFINITION. Tiles: the header and its checks (R172 to R175, R182), where elements and scale factors lie (R176 to
R181), and reading and writing a tile's bytes. -/

namespace Sys2Proof.Machine

/-! ## The header (R172) -/

def hField (h : W128) (lo n : Nat) : Nat := (h.extractLsb' lo n).toNat
def hTag (h : W128) : Nat := hField h 91 13
def hDataoff (h : W128) : Nat := hField h 75 16
def hScaleoff (h : W128) : Nat := hField h 59 16
def hPitch (h : W128) : Nat := hField h 39 20
def hCols (h : W128) : Nat := hField h 29 10 + 1
def hRows (h : W128) : Nat := hField h 19 10 + 1
def hLayout (h : W128) : Nat := hField h 17 2
def hSparse (h : W128) : Nat := hField h 14 3
def hScale (h : W128) : Nat := hField h 11 3
def hKind (h : W128) : Nat := hField h 6 5

/-- One bit step of CRC-16 (R175). -/
def crcBit (c : Nat) : Nat := if c.testBit 15 then Nat.xor (c * 2 % 65536) 0x1021 else c * 2 % 65536
/-- CRC-16 of bytes (R175). -/
def crc16 (bs : List Byte) : Nat :=
  bs.foldl (fun c b => (List.range 8).foldl (fun c _ => crcBit c) (Nat.xor c (b.toNat * 256))) 0xFFFF
/-- CHECK of a header: over its bytes 0 to 13. -/
def hCheck (h : W128) : Nat := crc16 (leBytes 14 (h.toNat % 2 ^ 112))
/-- A header with CHECK computed, as every hardware write of one does (R182). -/
def withCheck (h : W128) : W128 := BitVec.ofNat 128 (h.toNat % 2 ^ 112 + hCheck h * 2 ^ 112)

/-- The kinds of R174. -/
def tileKindOk (k : Nat) : Bool := (1 ≤ k && k ≤ 0xB) || k = 0x10 || k = 0x11
/-- Element width in bits (R174). -/
def kindWidth : Nat → Nat
  | 0x02 | 0x03 | 0x0B => 16
  | 0x04 | 0x07 | 0x08 => 8
  | 0x05 => 6
  | 0x06 | 0x09 => 4
  | 0x11 => 64
  | _ => 32
/-- The number kind of a scalar tile kind. -/
def tileKind : Nat → Kind
  | 0x01 => kF32
  | 0x02 => kF16
  | 0x03 => kBf16
  | 0x04 => kT8
  | 0x05 => kT6
  | 0x06 => kT4
  | 0x07 => .int true 8
  | 0x08 => .int false 8
  | 0x09 => .int true 4
  | 0x0A => kI32
  | _ => .int true 16

/-- The checks of a header (R182). -/
def headerOk (h : W128) : Bool :=
  hField h 0 4 = 0xA && hField h 4 2 = 1 && hField h 104 8 = 0 && tileKindOk (hKind h) && hScale h < 5 && hSparse h < 4
    && hLayout h < 3 && 1 ≤ hDataoff h && hField h 112 16 = hCheck h

/-- A header with kind and shape replaced, CHECK computed. -/
def hReshape (h : W128) (kind rows cols : Nat) : W128 :=
  let keep := h.toNat - hKind h * 2 ^ 6 - hField h 19 10 * 2 ^ 19 - hField h 29 10 * 2 ^ 29
  withCheck (BitVec.ofNat 128 (keep + kind * 2 ^ 6 + (rows - 1) * 2 ^ 19 + (cols - 1) * 2 ^ 29))

/-- The header of an accumulator tile (R188). -/
def zHeader (kind rows cols : Nat) : W128 :=
  withCheck (BitVec.ofNat 128 (0xA + 1 * 2 ^ 4 + kind * 2 ^ 6 + (rows - 1) * 2 ^ 19 + (cols - 1) * 2 ^ 29 + 8 * 2 ^ 39 + 2 ^ 75))
/-- A z tile's header; at admission binary32, 32 × 32 (R188). The state holds its difference from that. -/
def getZHeader (g : Group) (t : Nat) : W128 := sget g.zheaders t ^^^ zHeader 1 32 32
def setZHeader (g : Group) (t : Nat) (h : W128) : Group := { g with zheaders := sset g.zheaders t (h ^^^ zHeader 1 32 32) }

/-! ## Where elements lie (R176, R177) -/

def ceilDiv (a b : Nat) : Nat := (a + b - 1) / b

/-- Bit offset of element (r, c) of a dense tile from its data start, pitch and layout given (R176). -/
def elementBit (layout pitch w r c : Nat) : Nat :=
  match layout with
  | 0 => r * pitch * 128 + c * w
  | 1 => c * pitch * 128 + r * w
  | _ => r / 4 * pitch * 128 + (c / 4 * 16 + r % 4 * 4 + c % 4) * w

/-- Values that a row of a sparse tile keeps, for encodings 1 and 2 (R180). -/
def sparseKept (sparse cols : Nat) : Nat := if sparse = 1 then cols / 2 else cols / 4

/-- The least pitch (R177, R180, R181). -/
def leastPitch (h : W128) : Nat :=
  let w := kindWidth (hKind h)
  match hSparse h with
  | 0 => match hLayout h with
    | 0 => ceilDiv (hCols h * w) 128
    | 1 => ceilDiv (hRows h * w) 128
    | _ => ceilDiv (ceilDiv (hCols h) 4 * 16 * w) 128
  | 3 => ceilDiv (hCols h) 128
  | e => ceilDiv (sparseKept e (hCols h) * w) 128

/-- What R183 asks of any data read or write of a tile. -/
def dataShapeOk (h : W128) : Bool :=
  leastPitch h ≤ hPitch h && (hScale h = 0 || hScaleoff h != 0)
    && !((hSparse h = 1 || hSparse h = 2) && hCols h % 4 != 0)

/-- A run of bits of a tile: its bit offset from the tile start, its length, and whether bits that it leaves in its last
byte are kept (a slot that is not used) or written 0 (R176, R177). -/
structure BitRun where
  bit : Nat
  len : Nat
  keep : Bool
  deriving DecidableEq, Repr

/-- The runs of a dense tile's elements in the rows that `rowOk` picks. -/
def dataRuns (h : W128) (rowOk : Nat → Bool) : List BitRun :=
  let w := kindWidth (hKind h)
  let base := 128 * hDataoff h
  let rows := hRows h
  let cols := hCols h
  let bit (r c : Nat) := base + elementBit (hLayout h) (hPitch h) w r c
  match hLayout h with
  | 0 => ((List.range rows).filter rowOk).map fun r => ⟨bit r 0, cols * w, false⟩
  | 1 => (List.range cols).flatMap fun c =>
      ((List.range (ceilDiv rows 8)).filter fun q => rowOk (8 * q)).map fun q => ⟨bit (8 * q) c, min 8 (rows - 8 * q) * w, false⟩
  | _ => ((List.range rows).filter rowOk).flatMap fun r =>
      (List.range (ceilDiv cols 4)).map fun b =>
        ⟨bit r (4 * b), min 4 (cols - 4 * b) * w, !(r % 4 = 3 || r + 1 = rows)⟩

/-- The runs of a sparse tile's rows: values, and indices of encodings 1 and 2; whole rows of encoding 3 (R180, R181). -/
def sparseRuns (h : W128) (rowOk : Nat → Bool) : List BitRun :=
  let w := kindWidth (hKind h)
  let base := 128 * hDataoff h
  let e := hSparse h
  let kept := sparseKept e (hCols h)
  let lm := if e = 1 then ceilDiv (hCols h) 128 else ceilDiv (hCols h) 256
  ((List.range (hRows h)).filter rowOk).flatMap fun r =>
    let row := base + r * hPitch h * 128
    if e = 3 then [⟨row, hPitch h * 128, false⟩]
    else [⟨row, kept * w, false⟩, ⟨base + hRows h * hPitch h * 128 + r * lm * 128, kept * 2, false⟩]

/-- Bytes of the scale array, `asB` for its reading as B (R178). -/
def scaleBytes (h : W128) (asB : Bool) : Nat :=
  match hScale h with
  | 0 => 0
  | 1 => 4
  | 2 => 2 * hRows h
  | 3 => 2 * hCols h
  | _ => if asB then ceilDiv (hRows h) 16 * hCols h else hRows h * ceilDiv (hCols h) 16
def scaleRuns (h : W128) (asB : Bool) : List BitRun :=
  if hScale h = 0 then [] else [⟨512 * hScaleoff h, 8 * scaleBytes h asB, false⟩]

/-- Everything a reader of a tile reads. -/
def tileRuns (h : W128) (asB : Bool) (rowOk : Nat → Bool) : List BitRun :=
  (if hSparse h = 0 then dataRuns h rowOk else sparseRuns h rowOk) ++ scaleRuns h asB

/-! ## Bytes of a tile -/

/-- A piece of a tile within one 128-byte line: its byte offset from the tile start and its length. -/
structure Piece where
  off : Nat
  len : Nat
  deriving DecidableEq, Repr

/-- A byte range cut at 128-byte lines of the address it lies at. -/
def cutPieces (addr off : Nat) : Nat → Nat → List Piece
  | 0, _ => []
  | fuel + 1, len =>
    if len = 0 then []
    else
      let n := min len (128 - (addr + off) % 128)
      ⟨off, n⟩ :: cutPieces addr (off + n) fuel (len - n)

/-- The bytes that a run touches, as pieces. -/
def BitRun.pieces (addr : Nat) (r : BitRun) : List Piece :=
  let lo := r.bit / 8
  let n := ceilDiv (r.bit % 8 + r.len) 8
  cutPieces addr lo (n / 128 + 2) n

/-- A piece with where it lies. -/
structure Place where
  off : Nat
  len : Nat
  target : Target
  deriving DecidableEq, Repr

/-- The place of a cause among the checks of R149. -/
def checkRank (cause : BitVec 8) : Nat := ([0x03, 0x06, 0x04, 0x05, 0x15] : List (BitVec 8)).idxOf cause
/-- Of two faults of one instruction, the one of the earlier check of R149, and of one check that at the lower address (R185,
R393). DEDUCED, log entry 106. -/
def firstOf : Option TileFault → Option TileFault → Option TileFault
  | some x, some y =>
    let before : Bool := checkRank y.cause < checkRank x.cause
      || (checkRank y.cause = checkRank x.cause && y.va.toNat < x.va.toNat)
    some (if before then y else x)
  | none, y => y
  | x, none => x

/-- What a check of pieces has found: places in order, and the fault that is raised. -/
structure TileCheck where
  s : State
  places : List Place
  fault : Option TileFault
  deriving DecidableEq, Repr

def TileCheck.fail (c : TileCheck) (s : State) (x : TileFault) : TileCheck :=
  { c with s := s, fault := firstOf c.fault (some x) }

/-- The lowest byte of a range that an entry of the core's lock table covers (R218). -/
def lowestLocked (s : State) (v : Env) (store : Bool) (share : Option Nat) (lo len : Nat) : Option Nat :=
  lockedByte s v.core v.ctx v.team store share lo len

/-- Check the page or share of one piece of a tile (R149, R155, R189); `mark` as for `translate`. -/
def checkPiece (v : Env) (h : Handle) (a : Access) (mark : Bool) (c : TileCheck) (p : Piece) : TileCheck :=
  let lo := h.addr.toNat + p.off
  if h.sp then
    let size := if h.peer.toNat < spanOf c.s v.team then shareSize c.s v.team else 0
    if size < lo + p.len then c.fail c.s ⟨0x05, BitVec.ofNat 64 (max lo size), 0, false⟩
    else { c with places := c.places ++ [⟨p.off, p.len, .share (shareKey h.peer.toNat lo)⟩] }
  else
    match checkBytes c.s v mark (BitVec.ofNat 64 lo) p.len a with
    | (s, .ok t) => { c with s := s, places := c.places ++ [⟨p.off, p.len, t⟩] }
    | (s, .absent) => c.fail s ⟨0x04, BitVec.ofNat 64 lo, 0, true⟩
    | (s, .fault cause pa) => c.fail s ⟨cause, BitVec.ofNat 64 (lo + triggerOff s v.ctx (BitVec.ofNat 64 lo) p.len), pa, false⟩

/-- The lowest byte of pieces of a tile that the lock table covers. -/
def lockedPiece (s : State) (v : Env) (h : Handle) (a : Access) (ps : List Piece) : Option TileFault :=
  ps.foldl (fun best p =>
    firstOf best ((lowestLocked s v a.write (if h.sp then some h.peer.toNat else none) (h.addr.toNat + p.off) p.len).map
      fun b => ⟨0x06, BitVec.ofNat 64 b, 0, false⟩)) none

/-- The checks of the bytes of runs: the lock table where `locks`, then pages or the share. Nothing is written yet: D is set
before the writes (R364). -/
def checkRuns (s : State) (v : Env) (h : Handle) (a : Access) (locks : Bool) (rs : List BitRun) : TileCheck :=
  let ps := rs.flatMap (BitRun.pieces h.addr.toNat)
  match (if locks then lockedPiece s v h a ps else none) with
  | some x => ⟨s, [], some x⟩
  | none => ps.foldl (checkPiece v h a false) ⟨s, [], none⟩

/-- Access of a tile reader and of a tile writer (R361's UT). -/
def tileRead : Access := ⟨1, true, false, true, false⟩
def tileWrite : Access := ⟨1, false, true, true, false⟩

/-- The bytes at places, as memory keyed by offset from the tile start. -/
def readPlaces (s : State) (v : Env) (ps : List Place) : State × Memory :=
  ps.foldl (fun acc p =>
    let r := readTile acc.1 v p.target p.len
    (r.state, writeBytes acc.2 p.off r.bytes)) (s, [])

/-- Before places are written, their pages are marked dirty; an entry that has changed since is walked again, and where that walk
leads is written, or its fault met (R364). -/
def markPlaces (s : State) (v : Env) (h : Handle) (ps : List Place) : TileCheck :=
  (ps.map fun p => ⟨p.off, p.len⟩).foldl (checkPiece v h tileWrite true) ⟨s, [], none⟩

/-- Write the bytes of an image of a tile at places, as one store. -/
def writePlaces (s : State) (v : Env) (scope : Nat) (ps : List Place) (img : Memory) : State :=
  let s := ps.foldl (fun s p => writeTarget s v scope p.target (readBytes img p.off p.len)) s
  rewriteLines s v.core (ps.flatMap fun p => p.target.bytes p.len)

/-- Before an access at team scope or wider to places, what the group's lanes have waiting goes home (R234; log entry 60). -/
def orderPlaces (s : State) (v : Env) (ps : List Place) (scope : Nat) : State :=
  if ps.any fun p => 1 ≤ p.target.scope scope then drainOwn s v else s

/-! ## Elements of an image -/

/-- w bits from a bit offset. -/
def bitsOf (m : Memory) (bit w : Nat) : Nat := readNat m (bit / 8) (ceilDiv (bit % 8 + w) 8) / 2 ^ (bit % 8) % 2 ^ w
/-- Bits written at an offset, the other bits of their bytes as they are. -/
def putBits (m : Memory) (bit w x : Nat) : Memory :=
  let n := ceilDiv (bit % 8 + w) 8
  let old := readNat m (bit / 8) n
  writeNat m (bit / 8) n (old - old / 2 ^ (bit % 8) % 2 ^ w * 2 ^ (bit % 8) + x * 2 ^ (bit % 8))

/-- The bits of element (r, c) of a dense tile's image. -/
def elementOf (m : Memory) (h : W128) (r c : Nat) : Nat :=
  let w := kindWidth (hKind h)
  bitsOf m (128 * hDataoff h + elementBit (hLayout h) (hPitch h) w r c) w
def putElement (m : Memory) (h : W128) (r c x : Nat) : Memory :=
  let w := kindWidth (hKind h)
  putBits m (128 * hDataoff h + elementBit (hLayout h) (hPitch h) w r c) w x

/-- Columns that a bitmap row sets (R181). -/
def bitmapCols (m : Memory) (h : W128) (r : Nat) : List Nat :=
  let row := 128 * hDataoff h + r * hPitch h * 128
  (List.range (hCols h)).filter fun c => bitsOf m (row + c) 1 = 1
/-- The values of a bitmap row fit its pitch (R181). -/
def bitmapFits (m : Memory) (h : W128) (r : Nat) : Bool :=
  ceilDiv (hCols h) 128 * 128 + (bitmapCols m h r).length * kindWidth (hKind h) ≤ hPitch h * 128

/-- The values that stand at column c of row r: of a dense tile one, of a sparse tile those its row names, or the zero
(R180, R181). -/
def valuesAt (m : Memory) (h : W128) (r c : Nat) : List Nat :=
  let w := kindWidth (hKind h)
  let base := 128 * hDataoff h
  let row := base + r * hPitch h * 128
  match hSparse h with
  | 0 => [elementOf m h r c]
  | 3 =>
    let cs := bitmapCols m h r
    if cs.contains c then [bitsOf m (row + ceilDiv (hCols h) 128 * 128 + cs.idxOf c * w) w] else [0]
  | e =>
    let per := if e = 1 then 2 else 1
    let lm := if e = 1 then ceilDiv (hCols h) 128 else ceilDiv (hCols h) 256
    let idx := base + hRows h * hPitch h * 128 + r * lm * 128
    let vs := (List.range per).filterMap fun i =>
      let j := per * (c / 4) + i
      if 4 * (c / 4) + bitsOf m (idx + 2 * j) 2 = c then some (bitsOf m (row + j * w) w) else none
    if vs = [] then [0] else vs

/-! ## Scale factors (R178) -/

/-- ScaleValue(q). -/
def scaleValue (q : Nat) : Q := (Q.dyadic (4 + q % 4) ((q / 4 : Nat) - 33))

/-- Offset of the layout-4 byte of (r, c) from the scale array. -/
def blockIndex (h : W128) (asB : Bool) (r c : Nat) : Nat :=
  if asB then r / 16 * hCols h + c else r * ceilDiv (hCols h) 16 + c / 16

/-- The scale factor of element (r, c). -/
def scaleFactor (m : Memory) (h : W128) (asB : Bool) (r c : Nat) : Num :=
  let base := 64 * hScaleoff h
  match hScale h with
  | 0 => Num.ofInt 1
  | 1 => decodeNum kF32 (readNat m base 4)
  | 2 => decodeNum kF16 (readNat m (base + 2 * r) 2)
  | 3 => decodeNum kF16 (readNat m (base + 2 * c) 2)
  | _ => .fin (scaleValue (readNat m (base + blockIndex h asB r c) 1))

/-- The largest finite value of a tile kind 0x01 to 0x06 (R204). -/
def maxFinite (kind : Nat) : Q :=
  match kind with
  | 0x04 => Q.ofInt 1024
  | 0x05 => Q.ofInt 64
  | 0x06 => Q.ofInt 4
  | 0x02 => Q.ofInt 65504
  | 0x03 => Q.dyadic 255 120
  | _ => Q.dyadic (2 ^ 24 - 1) 104

/-- QByte(kind, x) (R204). -/
def qByte (kind : Nat) (x : Num) : Nat :=
  match x with
  | .zero _ => 0x00
  | .fin q =>
    let t := q.abs.div (maxFinite kind)
    ((List.range 256).find? fun i => t.le (scaleValue i)).getD 0xFF
  | _ => 0xFF

end Sys2Proof.Machine
end

