-- ==== Sys2Proof/Machine/Tiles.lean ====
section
/-! DEFINITION. Tile handles, accumulator tiles and the matrix unit, class 8 (R182 to R206), with the completion of an MMA
and the faults of its fetch (R197, R471). -/

namespace Sys2Proof.Machine

/-! ## Faults of class 8 (R185) -/

/-- A fault of steps 2 to 5: the address of the failing operand, sr.replay the active lanes. -/
def tileTrap (s : State) (v : Env) (act : Mask) (x : TileFault) : Act :=
  concludeWith v.core v.ctx s [⟨lowestLane act, x.cause, x.va, x.pa⟩] act
/-- A fault of steps 2 to 4 at a handle; at a z tile the address is 0. -/
def shapeTrap (s : State) (act : Mask) (cause : BitVec 8) (addr : W64) : Act := .trap s cause addr act

/-- A handle that a reader may use (R182). -/
def handleOk (h : Handle) : Bool := h.v && headerOk h.hdr

/-- A word that acts once for the fragment (R189). -/
def onceFor (s : State) (F : Frag) (f : Fields) (body : Mask → Act) : Act :=
  let act := activeOf F f
  if act = 0 then .done s else body act

/-! ## Handles (R198 to R200) -/

/-- HSET (R198). -/
def execHset (f : Fields) (s : State) : Res :=
  issue (.hset f) (fun s F => onceFor s F f fun act =>
    let L := lowestLane act
    let sp := f.mod.getLsbD 0
    let full := read64 s F.g f.selA f.a L
    let a : W64 := if sp then (full.extractLsb' 0 32).setWidth 64 else full
    let hdr := withCheck (read64 s F.g f.selC f.c L ++ read64 s F.g f.selB f.b L)
    if !headerOk hdr then shapeTrap s act 0x07 a
    else if a.extractLsb' 0 4 != 0 then .trap s 0x03 a act
    else .done (setGroup s (setHandle F.g f.d.toNat ⟨f.mod.extractLsb' 1 2, sp, true, a, hdr⟩))) s

/-- The address of HLD and HST, an offset where SP = 1, checked for its 16 bytes (R199). -/
def headerAccess (s : State) (v : Env) (F : Frag) (f : Fields) (L : Nat) (a : Access) : State × W64 × Checked :=
  let va := memAddr F.g f L
  if f.opm9 then
    let (s, c) := checkShare s v (f.e.extractLsb' 0 2).toNat va a
    (s, (va.extractLsb' 0 32).setWidth 64, c)
  else
    let (s, c) := checkLane s v va a
    (s, va, c)

/-- The lowest failing byte of a header access (R185): the first locked byte, the first outside the share, or a trigger
register's. -/
def headerByte (s : State) (v : Env) (f : Fields) (cause : BitVec 8) (store : Bool) (a : W64) : W64 :=
  let share := if f.opm9 then some (f.e.extractLsb' 0 2).toNat else none
  match share with
  | some p =>
    if cause = 0x06 then BitVec.ofNat 64 ((lowestLocked s v store share a.toNat 16).getD a.toNat)
    else if cause = 0x05 && p < spanOf s v.team then BitVec.ofNat 64 (max a.toNat (shareSize s v.team)) else a
  | none =>
    if cause = 0x06 then BitVec.ofNat 64 ((lowestLocked s v store none a.toNat 16).getD a.toNat)
    else if cause = 0x05 then a + BitVec.ofNat 64 (triggerOff s v.ctx a 16) else a

/-- A 16-byte header access (R199). -/
def headerRead : Access := ⟨16, true, false, true, false⟩
def headerWrite : Access := ⟨16, false, true, true, false⟩

/-- HLD (R199). -/
def execHld (f : Fields) (s : State) : Res :=
  issue (.hld f) (fun s F => onceFor s F f fun act =>
    let v := envOf s F.g
    match headerAccess s v F f (lowestLane act) headerRead with
    | (s, a, .ok t) =>
      let r := readTarget (orderLane s v t f.scope) v t f.hint.toNat 16
      let hdr := BitVec.ofNat 128 (leNat r.bytes)
      if !headerOk hdr then shapeTrap r.state act 0x07 a
      else .done (updGroup r.state F.g.id fun g =>
        setHandle g f.d.toNat ⟨if f.opm9 then f.e.extractLsb' 0 2 else 0, f.opm9, true, a, hdr⟩)
    | (s, a, .absent) => tileTrap s v act ⟨0x04, a, 0, true⟩
    | (s, a, .fault c pa) => tileTrap s v act ⟨c, headerByte s v f c false a, pa, false⟩) s

/-- HST (R199). -/
def execHst (f : Fields) (s : State) : Res :=
  issue (.hst f) (fun s F => onceFor s F f fun act =>
    let v := hintedEnv s F f
    let h := getHandle F.g f.c.toNat
    let L := lowestLane act
    if !h.v then shapeTrap s act 0x07 h.addr
    else
      match headerAccess s v F f L headerWrite with
      | (s, _, .ok t) =>
        .done (writeTarget (orderLane s v t f.scope) v f.scope t (leBytes 16 (withCheck h.hdr).toNat))
      | (s, a, .absent) => tileTrap s v act ⟨0x04, a, 0, true⟩
      | (s, a, .fault c pa) => tileTrap s v act ⟨c, headerByte s v f c true a, pa, false⟩) s

/-- HGET's fields, of a handle or of a z tile (R200). -/
def hgetValue (h : Handle) (sel : Nat) : W64 :=
  match sel with
  | 0 => h.hdr.extractLsb' 0 64
  | 1 => h.hdr.extractLsb' 64 64
  | 2 => h.addr
  | 3 => BitVec.ofNat 64 ((if h.v then 1 else 0) + (if h.sp then 2 else 0) + h.peer.toNat * 4)
  | 4 => BitVec.ofNat 64 (hRows h.hdr)
  | 5 => BitVec.ofNat 64 (hCols h.hdr)
  | _ => BitVec.ofNat 64 (hKind h.hdr)

def execHget (f : Fields) (s : State) : Res :=
  issue (.hget f) (fun s F => onceFor s F f fun _ =>
    let h : Handle :=
      if f.mod.getLsbD 0 then ⟨0, false, true, 0, getZHeader F.g f.a.toNat⟩ else getHandle F.g f.a.toNat
    .done (setGroup s (setS F.g f.d.toNat (hgetValue h f.e.toNat)))) s

/-! ## MMA (R83, R84, R186, R193, R201) -/

def tapered (k : Nat) : Bool := k = 4 || k = 5 || k = 6
def smallInt (k : Nat) : Bool := k = 7 || k = 8
/-- The accumulation kind of a pair, as a tile kind; none for a pair R186 does not list. -/
def accKind (a b : Nat) : Option Nat :=
  if tapered a && tapered b then some 0x01
  else if a = b && (a = 1 || a = 2 || a = 3) then some 0x01
  else if (smallInt a || a = 9) && (smallInt b || b = 9) then some 0x0A
  else none

/-- Checks of steps 2 and 3 of an MMA but for R181's rows: a fault's cause and address (R182, R183). DESIGN CHOICE, log entry 75:
R185 does not order the checks of step 3, and the model takes them in the order of R183's table. -/
def mmaShape (a b : Handle) (z : W128) (acc : Bool) : Option (BitVec 8 × W64) :=
  let ka := hKind a.hdr
  let kb := hKind b.hdr
  if !handleOk a then some (0x07, a.addr)
  else if !handleOk b then some (0x07, b.addr)
  else if acc && !headerOk z then some (0x07, 0)
  else if !dataShapeOk a.hdr then some (0x08, a.addr)
  else if !dataShapeOk b.hdr then some (0x08, b.addr)
  else if hCols a.hdr != hRows b.hdr then some (0x08, b.addr)
  else if 32 < hRows a.hdr then some (0x08, a.addr)
  else if 32 < hCols b.hdr then some (0x08, b.addr)
  else if hSparse b.hdr != 0 then some (0x08, b.addr)
  else if acc && (hRows z != hRows a.hdr || hCols z != hCols b.hdr
      || (match accKind ka kb with | some k => hKind z != k | none => false)) then some (0x08, 0)
  else none

/-- Step 4: what the unit does not implement (R184). -/
def mmaPair (a b : Handle) : Option (BitVec 8 × W64) :=
  let ka := hKind a.hdr
  let kb := hKind b.hdr
  if accKind ka kb = none then some (0x09, b.addr)
  else if intKind ka && hScale a.hdr != 0 then some (0x09, a.addr)
  else if intKind kb && hScale b.hdr != 0 then some (0x09, b.addr)
  else if hSparse a.hdr != 0 && (ka = 1 || hLayout a.hdr != 0) then some (0x09, a.addr)
  else none

/-- Rows whose quarter has a lane in the mask (R193). -/
def quarterRow (act : Mask) (i : Nat) : Bool := act.extractLsb' (8 * (i / 8)) 8 != 0

/-- The fault of an operand that the lock table covers, or that lies outside the peer's share (R185, R189, R196). -/
def operandCheck (s : State) (v : Env) (h : Handle) (rs : List BitRun) : Option TileFault :=
  (rs.flatMap (BitRun.pieces h.addr.toNat)).foldl (fun best p =>
    let lo := h.addr.toNat + p.off
    let size := if h.peer.toNat < spanOf s v.team then shareSize s v.team else 0
    let found := match lowestLocked s v false (if h.sp then some h.peer.toNat else none) lo p.len with
      | some b => some (TileFault.mk 0x06 (BitVec.ofNat 64 b) 0 false)
      | none => if h.sp && size < lo + p.len then some ⟨0x05, BitVec.ofNat 64 (max lo size), 0, false⟩ else none
    firstOf best found) none

/-- Some bitmap row of A does not fit (R181), of those that can be read. DEDUCED, log entry 120: a row is read with its tile, so the rows of
quarters that hold no active lane are not checked. -/
def bitmapBad (s : State) (v : Env) (a : Handle) (rowOk : Nat → Bool) : Bool :=
  hSparse a.hdr = 3 && ((List.range (hRows a.hdr)).filter rowOk).any fun r =>
    let c := checkRuns s v a tileRead false (sparseRuns a.hdr fun k => k = r)
    c.fault = none && !bitmapFits (readPlaces c.s v c.places).2 a.hdr r

/-- What the fetch of two operands gives: their bytes, or the fault it meets (R191, R197). -/
structure Fetch where
  s : State
  a : Memory
  b : Memory
  fault : Option TileFault
  deriving DecidableEq, Repr

/-- The tile fetch unit reads the operands, in an MMA's quarters, at its issue (R191; DESIGN CHOICE, log entry 76), after the
group's stores (R224, R234). -/
def fetchOperands (s : State) (v : Env) (a b : Handle) (act : Mask) : Fetch :=
  let ca := checkRuns (drainOwn s v) v a tileRead false (tileRuns a.hdr false (quarterRow act))
  let cb := checkRuns ca.s v b tileRead false (tileRuns b.hdr true fun _ => true)
  match ca.fault.or cb.fault with
  | some x => ⟨cb.s, [], [], some x⟩
  | none =>
    let (s, ma) := readPlaces cb.s v ca.places
    let (s, mb) := readPlaces s v cb.places
    ⟨s, ma, mb, none⟩

/-- An MMA in progress with what its fetch has given; its completion or its fault is owed. -/
def startMma (s0 : State) (gid z : Nat) (acc : Bool) (a b : Handle) (act : Mask) (x : Fetch) : State :=
  let op : MmaOp := ⟨s0.nextId, gid, z, acc, a, b, act, x.a, x.b, x.fault⟩
  owe { x.s with mmas := x.s.mmas ++ [op], nextId := s0.nextId + 1 }
    (match x.fault with
     | some y => .tileFetchFault op.id y.cause y.va
     | none => .mmaComplete op.id)

/-- MMA at issue: the precise checks, then an operation of the matrix unit (R185, R196, R201). -/
def execMma (f : Fields) (s : State) : Res :=
  issue (.mma f) (fun s F => onceFor s F f fun act =>
    let v := hintedEnv s F f
    let a := getHandle F.g f.a.toNat
    let b := getHandle F.g f.b.toNat
    let acc := !f.mod.getLsbD 0
    match mmaShape a b (getZHeader F.g f.d.toNat) acc with
    | some (c, va) => shapeTrap s act c va
    | none =>
      if bitmapBad s v a (quarterRow act) then shapeTrap s act 0x08 a.addr
      else match mmaPair a b with
      | some (c, va) => shapeTrap s act c va
      | none =>
        match firstOf (operandCheck s v a (tileRuns a.hdr false fun _ => true))
          (operandCheck s v b (tileRuns b.hdr true fun _ => true)) with
        | some x => tileTrap s v act x
        | none => .done (startMma s F.g.id f.d.toNat acc a b act (fetchOperands s v a b act))) s

/-- A sum of products in one chunk (R84): no payload survives. -/
def chunkSum (xs : List Num) : Num :=
  if xs.any Num.isNaN then defaultNaN
  else match sumNum 0 xs with
    | .zero _ => .zero false
    | x => x

/-- A product of two scaled elements; a NaN or NaR operand and ∞ × 0 give NaN (R84). -/
def scaledMul (x y : Num) : Num := if x.isNaN || y.isNaN then defaultNaN else mulNum x y

/-- The scaled values that stand at (r, c) of an operand. -/
def scaledAt (m : Memory) (h : W128) (asB : Bool) (r c : Nat) : List Num :=
  (valuesAt m h r c).map fun x => scaledMul (decodeNum (tileKind (hKind h)) x) (scaleFactor m h asB r c)

/-- The products of column k of row i of A with row k of column n of B. -/
def productsAt (ma mb : Memory) (a b : W128) (i n k : Nat) : List Num :=
  (scaledAt ma a false i k).flatMap fun x => (scaledAt mb b true k n).map fun y => scaledMul x y

/-- An element of the result from the accumulator's bits (R83). -/
def mmaElement (ma mb : Memory) (a b : W128) (float : Bool) (i n : Nat) (z : W32) : W32 :=
  let k := hCols a
  (List.range (ceilDiv k 16)).foldl (fun acc c =>
    let ks := (List.range (min 16 (k - 16 * c))).map fun j => 16 * c + j
    let sum := chunkSum (ks.flatMap (productsAt ma mb a b i n))
    if float then
      let x := chunkSum' (decodeNum kF32 acc.toNat) (decodeNum kF32 (roundTo kF32 sum 0))
      BitVec.ofNat 32 (roundTo kF32 x 0)
    else BitVec.ofNat 32 (intBits 32 (decodeInt kI32 acc.toNat + sum.toQ.n / sum.toQ.d))) z
where
  /-- acc + chunk, signed zeros as IEEE 754 has them (R84). -/
  chunkSum' (x y : Num) : Num := if x.isNaN || y.isNaN then defaultNaN else sumNum 0 [x, y]

/-- The z tile after an MMA's rows (R201). -/
def mmaTile (g : Group) (op : MmaOp) (ma mb : Memory) : Group :=
  let a := op.a.hdr
  let b := op.b.hdr
  let kind := (accKind (hKind a) (hKind b)).getD 0x01
  let cells := (List.range 32).flatMap fun i => (List.range 32).map fun n => (i, n)
  let g' := (cells.filter fun c => quarterRow op.rows c.1).foldl (fun g' c =>
    if c.1 < hRows a && c.2 < hCols b then
      setZ g' op.z c.1 c.2
        (mmaElement ma mb a b (kind = 0x01) c.1 c.2 (if op.accumulate then getZ g op.z c.1 c.2 else 0))
    else if op.accumulate then g' else setZ g' op.z c.1 c.2 0) g
  if op.accumulate then g' else setZHeader g' op.z (zHeader kind (hRows a) (hCols b))

/-! ## A fault of the tile fetch unit (R197) -/

/-- A team whose page is awaited holds no core; its lanes' stores remain (R197, R471). -/
def parkTeam (s : State) (t : Team) (va : W64) : State :=
  let t' := { t with
    cores := [], barriers := [], scratch := [], relaunches := t.relaunches + 1, waiting := some va, walkedAt := none
    unstarted := [] }
  measureTeam (setTeam (dropTeam s t.id) t') t.id

/-- The end of a team by a fetch fault: a page not present relaunches it at most three times where its block allows,
every other fault is fatal (R197). -/
def fetchFault (s : State) (gid : Nat) (x : TileFault) : State :=
  match getGroup s gid with
  | none => s
  | some g =>
    let ctx := ctxOf s g
    match getTeam s g.team with
    | none => s
    | some t =>
      let relaunchable := ((launchOf s g).map fun l => l.blk.relaunch).getD false
      if x.absent && relaunchable && t.relaunches < 3 then
        owe (parkTeam (logContext s ctx 0x0B (some g.core) x.va 0) t x.va) (.relaunchWalk t.id)
      else if x.cause = 0x04 then fatalContext s ctx 0x0B (some g.core) x.va
      else fatalContext (logLane s g.core ctx ⟨0, x.cause, x.va, x.pa⟩) ctx x.cause (some g.core) x.va

/-- TILE_FETCH_FAULT: an MMA's fetch meets a fault (R197). -/
def execTileFetchFault (mma : Nat) (cause : BitVec 8) (va : W64) (s : State) : Res :=
  match s.mmas.find? fun m => m.id = mma with
  | none => .fault (.noSuchObject "MMA")
  | some op =>
    match op.fault with
    | some x =>
      if x.cause = cause ∧ x.va = va then .next (fetchFault { s with mmas := s.mmas.filter fun m => m.id != mma } op.gid x)
      else .fault (.noSuchObject "fault of this fetch")
    | none => .fault (.noSuchObject "fault of this fetch")

/-- A side that waits for an MMA is resolved when it is done (R188). -/
def wakeMma (s : State) (id : Nat) : State :=
  (s.groups.filter fun g => g.sides.any fun x => x.st = .park (.mma id)).foldl (fun s g => owe s (.dependenceResolved g.id)) s

/-- MMA_COMPLETE: form the elements of the bytes fetched, and write the tile (R201). -/
def execMmaComplete (id : Nat) (s : State) : Res :=
  match s.mmas.find? fun m => m.id = id with
  | none => .fault (.noSuchObject "MMA")
  | some op =>
    if op.fault.isSome then .fault (.noSuchObject "MMA fetched")
    else
      .next (wakeMma (updGroup { s with mmas := s.mmas.filter fun m => m.id != id } op.gid fun g => mmaTile g op op.aBytes op.bBytes) id)

/-! ## ZLD and ZST (R202, R203) -/

/-- Checks of steps 2 to 4 of ZLD. -/
def zldCheck (h : Handle) : Option (BitVec 8) :=
  if !handleOk h then some 0x07
  else if !dataShapeOk h.hdr || 32 < hRows h.hdr || 32 < hCols h.hdr then some 0x08
  else if !(hKind h.hdr = 0x01 || hKind h.hdr = 0x0A) || hScale h.hdr != 0 || hSparse h.hdr != 0 then some 0x09
  else none

/-- A z tile filled from an image: elements within the shape, 0 elsewhere. -/
def fillTile (g : Group) (z : Nat) (h : W128) (m : Memory) : Group :=
  let g := (List.range 32).foldl (fun g i => (List.range 32).foldl (fun g n =>
    setZ g z i n (if i < hRows h && n < hCols h then BitVec.ofNat 32 (elementOf m h i n) else 0)) g) g
  setZHeader g z (zHeader (hKind h) (hRows h) (hCols h))

/-- ZLD (R202). -/
def execZld (f : Fields) (s : State) : Res :=
  issue (.zld f) (fun s F => onceFor s F f fun act =>
    let v := hintedEnv s F f
    let h := getHandle F.g f.a.toNat
    match zldCheck h with
    | some c => shapeTrap s act c h.addr
    | none =>
      let c := checkRuns s v h tileRead true (dataRuns h.hdr fun _ => true)
      match c.fault with
      | some x => tileTrap c.s v act x
      | none =>
        let (s, m) := readPlaces (orderPlaces c.s v c.places f.scope) v c.places
        .done (updGroup s F.g.id fun g => fillTile g f.d.toNat h.hdr m)) s

/-- The families of R192. -/
def zstFamily (z kind : Nat) : Bool :=
  if z = 0x01 then 1 ≤ kind && kind ≤ 6 else kind = 0x0A || kind = 0x0B || kind = 0x07 || kind = 0x08 || kind = 0x09

/-- The magnitude of the largest element of a list; a NaN among them is NaN (R203). -/
def maxMagnitude (xs : List Num) : Num :=
  xs.foldl (fun m x =>
    if m.isNaN then m else if x.isNaN then x
    else
      let x := if x.sign then x.negate else x
      if numLt m x then x else m) (.zero false)

/-- The layout-4 bytes of a new shape, by their index (R178, R203). -/
def blockBytes (h : W128) (asB : Bool) (value : Nat → Nat → Num) : List Nat :=
  let rows := hRows h
  let cols := hCols h
  let cells (lo hi : Nat) (p : Nat → Num) : Num := maxMagnitude ((List.range (min 16 (hi - lo))).map fun j => p (lo + j))
  if asB then
    (List.range (ceilDiv rows 16)).flatMap fun br => (List.range cols).map fun c =>
      qByte (hKind h) (cells (16 * br) rows fun r => value r c)
  else
    (List.range rows).flatMap fun r => (List.range (ceilDiv cols 16)).map fun bc =>
      qByte (hKind h) (cells (16 * bc) cols fun c => value r c)

/-- A value divided by a positive exact scale. -/
def divScale (x : Num) (q : Q) : Num :=
  match x with
  | .fin v => .fin (v.div q)
  | x => x

/-- One element of a converted tile; none is the overflow fault (R79, R203). -/
def zstElement (zkind : Nat) (h : W128) (scales : List Nat) (asB : Bool) (rnd ovf : Nat) (r c : Nat) (bits : W32) :
    Option Nat :=
  let kind := hKind h
  if kind = zkind && hScale h = 0 then some bits.toNat
  else
    let q := if hScale h = 4 then scaleValue (scales.getD (blockIndex h asB r c) 0) else Q.ofInt 1
    roundTo? (tileKind kind) (divScale (decodeNum (tileKind zkind) bits.toNat) q) rnd (ovfPolicy ovf)

/-- The image of a tile: elements of a shape, bits of unused slots taken from the old image, scale bytes after them,
then the header (R177, R203). -/
def tileImage (h : W128) (old : Memory) (runs : List BitRun) (elem : Nat → Nat → Nat) (scales : List Nat) : Memory :=
  let kept := runs.foldl (fun m r =>
    let e := r.bit + r.len
    if r.keep && e % 8 != 0 then putBits m e (8 - e % 8) (bitsOf old e (8 - e % 8)) else m) []
  let m := (List.range (hRows h)).foldl (fun m r =>
    (List.range (hCols h)).foldl (fun m c => putElement m h r c (elem r c)) m) kept
  let m := scales.zipIdx.foldl (fun m p => writeNat m (64 * hScaleoff h + p.2) 1 p.1) m
  writeNat m 0 16 h.toNat

/-- Checks of steps 2 to 4 of ZST on the z tile's header and the destination's new one: a fault's cause and address. -/
def zstCheck (h : Handle) (z : W128) (new : W128) : Option (BitVec 8 × W64) :=
  if !headerOk z then some (0x07, 0)
  else (if !handleOk h then some 0x07
  else if !dataShapeOk new then some 0x08
  else if !zstFamily (hKind z) (hKind new) || hSparse h.hdr != 0 || (hScale new != 0 && hScale new != 4)
      || (hScale new = 4 && intKind (hKind new)) then some 0x09
  else none).map fun c => (c, h.addr)

/-- ZST (R203): every check, overflow among them, before anything is written. With `keep` the target kind is the handle's, and a
word that R207 makes illegal for an integer target is illegal. -/
def execZst (f : Fields) (s : State) : Res :=
  issue (.zst f) (fun s F =>
    let h := getHandle F.g f.d.toNat
    let kd := (f.e.extractLsb' 0 5).toNat
    if kd = 0 && intKind (hKind h.hdr) && (f.e.extractLsb' 8 2 = 1 || f.e.extractLsb' 8 2 = 2) then plainTrap s 0x01 (activeOf F f)
    else onceFor s F f fun act =>
    let v := hintedEnv s F f
    let z := getZHeader F.g f.a.toNat
    let kind := if kd = 0 then hKind h.hdr else kd
    let new := hReshape h.hdr kind (hRows z) (hCols z)
    let asB := f.opm9
    match zstCheck h z new with
    | some (c, a) => shapeTrap s act c a
    | none =>
      let runs := dataRuns new (fun _ => true)
      let c := checkRuns s v h tileWrite true (runs ++ scaleRuns new asB ++ [⟨0, 128, false⟩])
      match c.fault with
      | some x => tileTrap c.s v act x
      | none =>
        let zk := hKind z
        let bits (r n : Nat) := getZ F.g f.a.toNat r n
        let scales := if hScale new = 4 then blockBytes new asB fun r n => decodeNum (tileKind zk) (bits r n).toNat else []
        let elem (r n : Nat) :=
          zstElement zk new scales asB (f.e.extractLsb' 5 3).toNat (f.e.extractLsb' 8 2).toNat r n (bits r n)
        let all := (List.range (hRows new)).all fun r => (List.range (hCols new)).all fun n => (elem r n).isSome
        if !all then plainTrap c.s 0x0A act
        else
          let (s, old) := if runs.any (fun r => r.keep && (r.bit + r.len) % 8 != 0) then readPlaces c.s v c.places else (c.s, [])
          let img := tileImage new old runs (fun r n => (elem r n).getD 0) scales
          let w := markPlaces s v h c.places
          match w.fault with
          | some x => tileTrap w.s v act x
          | none =>
            let s := writePlaces (orderPlaces w.s v w.places f.scope) v f.scope w.places img
            .done (updGroup s F.g.id fun g => setHandle g f.d.toNat { h with hdr := new })) s

/-! ## QSCALE, ZZERO, ZMOV, ZRED, ZSCALE (R204 to R206) -/

/-- QSCALE (R204). -/
def execQscale (f : Fields) (s : State) : Res :=
  issue (.qscale f) (fun s F =>
    .done (setGroup s (writeLanes F.g f.d.toNat false (activeOf F f) fun L =>
      qByte f.mod.toNat (decodeNum kF32 (read32 s F.g f.selA f.a L).toNat)))) s

/-- All 1024 elements of a z tile by a function. -/
def mapTile (g : Group) (z : Nat) (h : Nat → Nat → Option W32) : Group :=
  (List.range 32).foldl (fun g i => (List.range 32).foldl (fun g n =>
    match h i n with
    | some x => setZ g z i n x
    | none => g) g) g

/-- ZZERO (R206). -/
def execZzero (f : Fields) (s : State) : Res :=
  issue (.zzero f) (fun s F => onceFor s F f fun _ =>
    let kind := if f.mod.getLsbD 0 then 0x0A else 0x01
    let h := zHeader kind ((f.mod.extractLsb' 1 5).toNat + 1) ((f.mod.extractLsb' 6 5).toNat + 1)
    .done (setGroup s (setZHeader (mapTile F.g f.d.toNat fun _ _ => some 0) f.d.toNat h))) s

/-- ZMOV: 0 zz, 1 rv, 2 vr (R206). -/
def execZmov (f : Fields) (s : State) : Res :=
  issue (.zmov f) (fun s F =>
    let act := activeOf F f
    let row := bitsB s F.g f 2 (lowestLane act) % 32
    match f.mod.toNat with
    | 0 => onceFor s F f fun _ =>
        .done (setGroup s (setZHeader (mapTile F.g f.d.toNat fun i n => some (getZ F.g f.a.toNat i n)) f.d.toNat
          (getZHeader F.g f.a.toNat)))
    | 1 => .done (setGroup s (writeLanes F.g f.d.toNat false act fun L => (getZ F.g f.a.toNat row L).toNat))
    | _ => .done (setGroup s ((lanesOf act).foldl (fun g L => setZ g f.d.toNat row L (getV F.g f.a.toNat L)) F.g))) s

/-- ZRED on one element: 0 add, 1 min, 2 max, by the tile's kind (R206). Of two NaNs D's payload stays (DESIGN CHOICE, log entry
77). -/
def zredElement (kind op : Nat) (d a : W32) : W32 :=
  let k := tileKind kind
  let int (h : Int → Int → Int) := BitVec.ofNat 32 (intBits 32 (h (decodeInt k d.toNat) (decodeInt k a.toNat)))
  let flt (h : Num → Num → Num) := BitVec.ofNat 32 (roundTo k (h (decodeNum k d.toNat) (decodeNum k a.toNat)) 0)
  match op with
  | 0 => if kind = 0x01 then flt (faddNum 0) else int (· + ·)
  | 1 => if kind = 0x01 then flt fminNum else int fun x y => if x ≤ y then x else y
  | _ => if kind = 0x01 then flt fmaxNum else int fun x y => if y ≤ x then x else y

def execZred (f : Fields) (s : State) : Res :=
  issue (.zred f) (fun s F => onceFor s F f fun act =>
    let d := getZHeader F.g f.d.toNat
    let a := getZHeader F.g f.a.toNat
    if !headerOk a || !headerOk d then shapeTrap s act 0x07 0
    else if hKind d != hKind a || hRows d != hRows a || hCols d != hCols a then shapeTrap s act 0x08 0
    else
      .done (setGroup s (mapTile F.g f.d.toNat fun i n =>
        if i < hRows d && n < hCols d then
          some (zredElement (hKind d) f.mod.toNat (getZ F.g f.d.toNat i n) (getZ F.g f.a.toNat i n))
        else none))) s

/-- The factor of ZSCALE for an element: 0 tile, 1 row, 2 col (R206). Of two NaNs the tile's payload stays (DESIGN CHOICE, log
entry 77). -/
def zscaleFactor (s : State) (F : Frag) (f : Fields) (act : Mask) (i n : Nat) : Option Nat :=
  match f.mod.toNat with
  | 0 => some (bitsB s F.g f 5 (lowestLane act))
  | 1 => if act.getLsbD i then some (getV F.g f.b.toNat i).toNat else none
  | _ => if act.getLsbD n then some (getV F.g f.b.toNat n).toNat else none

def execZscale (f : Fields) (s : State) : Res :=
  issue (.zscale f) (fun s F => onceFor s F f fun act =>
    let d := getZHeader F.g f.d.toNat
    if !headerOk d then shapeTrap s act 0x07 0
    else if hKind d != 0x01 then shapeTrap s act 0x09 0
    else
      .done (setGroup s (mapTile F.g f.d.toNat fun i n =>
        if i < hRows d && n < hCols d then
          (zscaleFactor s F f act i n).map fun q => BitVec.ofNat 32
            (roundTo kF32 (fmulNum (decodeNum kF32 (getZ F.g f.d.toNat i n).toNat) (decodeNum kF32 q)) 0)
        else none))) s

end Sys2Proof.Machine
end

