-- ==== Sys2Proof/Machine/Engines.lean ====
section
/-! DEFINITION. Asynchronous engines, class 9: issue, the movement of bytes, and the completion action (R390 to R405). -/

namespace Sys2Proof.Machine

/-! ## Ranges at issue (R393) -/

/-- A bad range: cause, address, physical address, and whether it is a page not present (R393's tolerant rows). -/
abbrev RangeFault := TileFault

/-- Accesses of the engines: of bytes, and of tiles. -/
def byteRead : Access := ⟨1, true, false, false, false⟩
def byteWrite : Access := ⟨1, false, true, false, false⟩

/-- The lowest poisoned byte of n bytes at a physical address, as an offset from it (R149). -/
def poisonIn (s : State) (host : Bool) (pa n : Nat) : Option Nat :=
  (if host then s.hostPoison else s.poison).foldl (fun best l =>
    if 128 * l < pa + n && pa < 128 * l + 128 then
      let off := max (128 * l) pa - pa
      match best with
      | some b => some (min b off)
      | none => some off
    else best) none

/-- The checks of n bytes of one page; a trigger register's word is no memory (R301, R370). -/
def checkPageOf (v : Env) (a : Access) (s : State) (va : W64) (n : Nat) : State × Option RangeFault :=
  match translate s (some v.core) (dieOf v.core) v.ctx va a.acc true false fun _ => false with
  | (s, .absent) => (s, some ⟨0x04, va, 0, true⟩)
  | (s, .fault c pa) => (s, some ⟨c, va, pa, false⟩)
  | (s, .ok mt pa) =>
    match triggerByte s v.ctx va n, (if a.read then poisonIn s (mt = 2) pa n else none) with
    | some off, _ => (s, some ⟨0x05, va + BitVec.ofNat 64 off, 0, false⟩)
    | none, some off => (s, some ⟨0x14, va + BitVec.ofNat 64 off, pa + off, false⟩)
    | none, none => (s, none)

/-- Every page of a range is checked, and the fault of the range is that of R149's first check that fails (R393). -/
def checkPages (v : Env) (a : Access) : Nat → State → W64 → Nat → State × Option RangeFault
  | 0, s, _, _ => (s, none)
  | fuel + 1, s, va, len =>
    if len = 0 then (s, none)
    else
      let n := min len (4096 - va.toNat % 4096)
      let (s, x) := checkPageOf v a s va n
      let (s, y) := checkPages v a fuel s (va + BitVec.ofNat 64 n) (len - n)
      (s, firstOf x y)

/-- A scratchpad reference's offset and peer (R398). -/
def refOffset (a : W64) : Nat := (a.extractLsb' 0 32).toNat
def refPeer (a : W64) : Nat := (a.extractLsb' 32 2).toNat

/-- The range of a side: a share's by its reference, else virtual. -/
def lockRangeOf (share : Bool) (a : W64) (len : Nat) : LockRange :=
  if share then ⟨some (refPeer a), refOffset a, len⟩ else ⟨none, a.toNat, len⟩

/-- The checks of one range: the lock table, then the share or the pages (R149, R155, R393, R398). An empty range has no byte
beyond its share. -/
def checkSpan (s : State) (v : Env) (a : Access) (share : Bool) (va : W64) (len : Nat) : State × Option RangeFault :=
  let r := lockRangeOf share va len
  match lowestLocked s v a.write r.share r.lo len with
  | some b => (s, some ⟨0x06, va + BitVec.ofNat 64 (b - r.lo), 0, false⟩)
  | none =>
    if share then
      if va.extractLsb' 34 30 != 0 || spanOf s v.team ≤ refPeer va || (len != 0 && shareSize s v.team < refOffset va + len) then
        (s, some ⟨0x05, va, 0, false⟩)
      else (s, none)
    else checkPages v a (len / 4096 + 2) s va len

/-- Checks made in order, the first that fails being the fault (R393). -/
def firstFault (s : State) : List (State → State × Option RangeFault) → State × Option RangeFault
  | [] => (s, none)
  | h :: r =>
    match h s with
    | (s, some x) => (s, some x)
    | (s, none) => firstFault s r

/-- A source and a destination of one lane that overlap (R393). -/
def selfOverlap (src dst : LockRange) (va : W64) (s : State) : State × Option RangeFault :=
  if src.overlaps dst.share dst.lo dst.len then
    (s, some ⟨0x06, va + BitVec.ofNat 64 (max src.lo dst.lo - dst.lo), 0, false⟩)
  else (s, none)

/-! ## Commands (R391, R392, R396) -/

/-- A command: its four registers and the flags of MOD. -/
structure Command where
  target : W64
  value : W64
  third : W64
  drec : W64
  cw : Bool
  tol : Bool
  rw : Bool
  dsp : Bool
  ssp : Bool
  scope : Nat
  tsp : Bool
  kb : Bool
  deriving DecidableEq, Repr

def commandOf (g : Group) (f : Fields) : Command :=
  let e := f.e.toNat
  { target := getS g e, value := getS g (e + 1), third := getS g (e + 2), drec := getS g (e + 3),
    cw := f.mod.getLsbD 10, tol := f.mod.getLsbD 9, rw := f.mod.getLsbD 8, dsp := f.mod.getLsbD 7, ssp := f.mod.getLsbD 6,
    scope := f.scope, tsp := f.mod.getLsbD 2, kb := f.mod.getLsbD 1 }

def Command.len (c : Command) : Nat := (c.third.extractLsb' 0 32).toNat
def Command.stride (c : Command) : Nat := (c.third.extractLsb' 32 32).toNat
/-- Bytes of the completion target. -/
def Command.targetLen (c : Command) : Nat := if c.cw then 8 else 16

/-- A failure of the operand checks: cause, and the address where one is at fault (R393). -/
structure CommandFault where
  cause : BitVec 8
  addr : Option W64
  deriving DecidableEq, Repr

/-- Alignment of TARGET. -/
def Command.targetBad (c : Command) : Option CommandFault :=
  if c.target.toNat % c.targetLen != 0 then some ⟨0x03, some c.target⟩ else none

/-- The operand checks of GTHR and SCTR; misaligned before out of range (R393). -/
def Command.rowsBad (c : Command) (drec : Bool) : Option CommandFault :=
  (c.targetBad).or
    (if drec && c.drec.toNat % 8 != 0 then some ⟨0x03, some c.drec⟩
     else if c.stride % 4 != 0 || c.len % 4 != 0 then some ⟨0x03, none⟩
     else if c.len < 4 || 4096 < c.len then some ⟨0x05, none⟩
     else none)

def commandTrap (s : State) (act : Mask) (x : CommandFault) : Act :=
  match x.addr with
  | some a => .trap s x.cause a act
  | none => plainTrap s x.cause act

/-- TARGET, and a DREC other than 0, as destinations for write (R393). -/
def targetChecks (v : Env) (c : Command) (drec : Bool) : List (State → State × Option RangeFault) :=
  (fun s => checkSpan s v byteWrite c.tsp c.target c.targetLen)
    :: (if drec && c.drec != 0 then [fun s => checkSpan s v byteWrite false c.drec 8] else [])

/-- An operation of a command with nothing of its own yet. -/
def blankOp (F : Frag) (v : Env) (c : Command) (kind : OpKind) (lane : Nat) : AsyncOp :=
  { id := 0, batch := 0, kind := kind, gid := F.g.id, team := v.team, core := v.core, ctx := v.ctx, lane := lane,
    scope := c.scope, dst := 0, src := 0, dstShare := false, srcShare := false, len := 0, pos := 0, window := none,
    dstH := Handle.blank, srcH := Handle.blank, conv := 0, kb := c.kb, cw := c.cw, tsp := c.tsp, tol := c.tol,
    target := c.target, value := c.value, drec := 0, req := 0, bytes := 0, srcRanges := [], dstRanges := [],
    pc := F.key.pc, moved := false, whole := false, failed := false, waiting := none, audits := none }

/-- What the lanes of an instruction have found: operations, tolerant lanes not done, faults. -/
structure Issue where
  s : State
  ops : List AsyncOp
  notDone : Mask
  faults : List LaneFault
  deriving DecidableEq, Repr

def Issue.fault (x : Issue) (s : State) (L : Nat) (f : RangeFault) : Issue :=
  { x with s := s, faults := x.faults ++ [⟨L, f.cause, f.va, f.pa⟩] }

/-- Number the operations of one instruction, give each the requested lanes and bytes, and owe their movement. -/
def enterOps (s : State) (ops : List AsyncOp) (req : Mask) (bytes : Nat) : State :=
  let batch := s.nextId
  let ops := ops.zipIdx.map fun p => { p.1 with id := batch + p.2, batch := batch, req := req, bytes := bytes }
  ops.foldl (fun s o => owe s (.asyncOpComplete o.id)) { s with ops := s.ops ++ ops, nextId := batch + ops.length }

/-- The end of an issue: lanes that passed create their operations (R390, R393, R150); with no entry free for them the
instruction is held (R217). The completion action being a release of the issuing lane, the group's waiting stores go home
first (R226, R238). `s0` is the state before the checks. -/
def issueOps (s0 : State) (F : Frag) (v : Env) (act : Mask) (x : Issue) (bytes : Nat) : Act :=
  if x.ops != [] && 256 < lockEntries s0 v.core + x.ops.length then
    .placed (parkFrag s0 F.g.id F.key act .rangeLock)
  else
    let req := maskOf (x.ops.map AsyncOp.lane) ||| x.notDone
    let s := if x.ops = [] then x.s else enterOps (drainOwn x.s v) x.ops req bytes
    conclude v.core v.ctx s x.faults

/-! ## CPY, GTHR, SCTR (R398 to R400) -/

/-- The window entry a remote reference names, if it may be used (R399). -/
def windowFor (s : State) (ctx : Nat) (dst : W64) (len : Nat) : Option Window :=
  match s.windows.find? fun w => w.idx = (dst.extractLsb' 56 8).toNat with
  | some w =>
    if w.v && w.dir = 0 && w.ctx = ctx && dst.extractLsb' 40 16 = 0 && (dst.extractLsb' 0 40).toNat + len ≤ 4096 * w.npages
    then some w else none
  | none => none

/-- The destination of a CPY lane: a remote window, or a range (R399). -/
def copyDestination (v : Env) (c : Command) (dst : W64) (len : Nat) (src : LockRange) :
    List (State → State × Option RangeFault) :=
  if c.rw then
    [fun s => if (windowFor s v.ctx dst len).isSome then (s, none) else (s, some ⟨0x05, dst, 0, false⟩)]
  else
    [selfOverlap src (lockRangeOf c.dsp dst len) dst, fun s => checkSpan s v byteWrite c.dsp dst len]

/-- One lane of CPY. -/
def cpyLane (F : Frag) (f : Fields) (v : Env) (c : Command) (x : Issue) (L : Nat) : Issue :=
  let dst := addr64 F.g f.selA f.a L
  let src := addr64 F.g f.selB f.b L
  let rs := lockRangeOf c.ssp src c.len
  let checks := (fun s => checkSpan s v byteRead c.ssp src c.len) :: copyDestination v c dst c.len rs ++ targetChecks v c false
  match firstFault x.s checks with
  | (s, some y) => x.fault s L y
  | (s, none) =>
    if c.len = 0 then { x with s := s }
    else
      let o := { blankOp F v c .cpy L with
        dst := dst, src := src, dstShare := c.dsp, srcShare := c.ssp, len := c.len, srcRanges := [rs]
        dstRanges := if c.rw then [] else [lockRangeOf c.dsp dst c.len]
        window := if c.rw then some (dst.extractLsb' 56 8).toNat else none }
      { x with s := s, ops := x.ops ++ [o] }

/-- CPY (R398). -/
def execCpy (f : Fields) (s : State) : Res :=
  issue (.cpy f) (fun s F =>
    let act := activeOf F f
    let v := envOf s F.g
    let c := commandOf F.g f
    let bad := (c.targetBad).or (if 4194304 < c.len then some ⟨0x05, none⟩ else none)
    match (if act = 0 then none else bad) with
    | some y => commandTrap s act y
    | none =>
      let x := (lanesOf act).foldl (cpyLane F f v c) ⟨s, [], 0, []⟩
      issueOps s F v act x (c.len * x.ops.length)) s

/-- One lane of GTHR, or of SCTR with `scatter` (R400). -/
def rowLane (scatter : Bool) (F : Frag) (f : Fields) (v : Env) (c : Command) (x : Issue) (L : Nat) : Issue :=
  let r := (getV F.g f.c.toNat L).toNat
  let row := getS F.g f.b.toNat + BitVec.ofNat 64 (r * c.stride)
  let slot := getS F.g f.a.toNat + BitVec.ofNat 64 (L * c.len)
  let src := if scatter then slot else row
  let dst := if scatter then row else slot
  let ssp := c.ssp
  let dsp := c.dsp
  let rs := lockRangeOf ssp src c.len
  let rd := lockRangeOf dsp dst c.len
  let first := if row.extractLsb' 0 2 != 0 then (x.s, some ⟨0x03, row, 0, false⟩) else checkSpan x.s v byteRead ssp src c.len
  let rest := [selfOverlap rs rd dst, fun s => checkSpan s v byteWrite dsp dst c.len] ++ targetChecks v c (!scatter)
  let o := { blankOp F v c (if scatter then .sctr else .gthr) L with
    dst := dst, src := src, dstShare := dsp, srcShare := ssp, len := c.len, srcRanges := [rs], dstRanges := [rd]
    drec := if scatter then 0 else c.drec }
  match first with
  | (s, some y) =>
    if y.absent && c.tol then
      match firstFault s rest with
      | (s, some z) => x.fault s L z
      | (s, none) => { x with s := s, notDone := x.notDone ||| laneBit L }
    else x.fault s L y
  | (s, none) =>
    match firstFault s rest with
    | (s, some y) => x.fault s L y
    | (s, none) => { x with s := s, ops := x.ops ++ [o] }

def rowWord (scatter : Bool) (s : State) (F : Frag) (f : Fields) : Act :=
  let act := activeOf F f
  let v := envOf s F.g
  let c := commandOf F.g f
  match (if act = 0 then none else c.rowsBad (!scatter)) with
  | some y => commandTrap s act y
  | none =>
    let x := (lanesOf act).foldl (rowLane scatter F f v c) ⟨s, [], 0, []⟩
    issueOps s F v act x (c.len * (x.ops.length + countLanes x.notDone))

/-- GTHR and SCTR (R400). -/
def execGthr (f : Fields) (s : State) : Res := issue (.gthr f) (fun s F => rowWord false s F f) s
def execSctr (f : Fields) (s : State) : Res := issue (.sctr f) (fun s F => rowWord true s F f) s

/-! ## CPYT (R402) -/

/-- The ranges of runs of a tile, of a share by its peer. -/
def tileRanges (h : Handle) (rs : List BitRun) : List LockRange :=
  rs.map fun r => ⟨if h.sp then some h.peer.toNat else none, h.addr.toNat + r.bit / 8, ceilDiv (r.bit % 8 + r.len) 8⟩

/-- The 16 bytes of a tile's header as a run. -/
def headerRun : BitRun := ⟨0, 128, false⟩

/-- The header that CPYT writes: the source's, or the destination's with the target kind and the source's shape. -/
def cpytHeader (d src : W128) (conv : BitVec 10) : W128 :=
  let kd := (conv.extractLsb' 0 5).toNat
  if kd = 0 then withCheck src else hReshape d kd (hRows src) (hCols src)

/-- Two kinds of one family of R192; rgba8 and rgba16f only copy. -/
def sameFamily (a b : Nat) : Bool := (1 ≤ a && a ≤ 6 && 1 ≤ b && b ≤ 6) || (intKind a && intKind b)

/-- Checks of R182 to R184 for CPYT, in the order A, B: cause and address. -/
def cpytCheck (a b : Handle) (conv : BitVec 10) : Option (BitVec 8 × W64) :=
  let new := cpytHeader a.hdr b.hdr conv
  let copy : Bool := conv.extractLsb' 0 5 = 0
  if !handleOk a then some (0x07, a.addr)
  else if !handleOk b then some (0x07, b.addr)
  else if !dataShapeOk b.hdr then some (0x08, b.addr)
  else if !copy && !dataShapeOk new then some (0x08, a.addr)
  else if hSparse b.hdr != 0 then some (0x09, b.addr)
  else if copy then none
  else if hScale b.hdr = 4 && intKind (hKind b.hdr) then some (0x09, b.addr)
  else if !sameFamily (hKind b.hdr) (hKind new) || hSparse a.hdr != 0 || hScale a.hdr = 1 || hScale a.hdr = 2
      || hScale a.hdr = 3 || (hScale a.hdr = 4 && intKind (hKind new)) then some (0x09, a.addr)
  else none

def everyRow (_ : Nat) : Bool := true

/-- With `kb` CPYT writes layout-4 scales in their B reading (R396); the copy form takes the source's bytes in the reading that it
writes (R402). DEDUCED, log entry 107. -/
def cpytSourceB (kb : Bool) (conv : BitVec 10) : Bool := kb && conv.extractLsb' 0 5 = 0

/-- What CPYT reads and writes: header, elements and scale array (R402). -/
def cpytSourceRuns (h : W128) (asB : Bool) : List BitRun := headerRun :: tileRuns h asB everyRow
def cpytTargetRuns (new : W128) (asB : Bool) : List BitRun := dataRuns new everyRow ++ scaleRuns new asB ++ [headerRun]

/-- The fault of a tile's check as a lane's. -/
def tileLane (L : Nat) (x : TileFault) : LaneFault := ⟨L, x.cause, x.va, x.pa⟩

def rangesOverlap (a b : List LockRange) : Option LockRange :=
  a.find? fun r => b.any fun q => r.overlaps q.share q.lo q.len

/-- CPYT at issue (R393, R402). -/
def execCpyt (f : Fields) (s : State) : Res :=
  issue (.cpyt f) (fun s0 F => onceFor s0 F f fun act =>
    let v := envOf s0 F.g
    let c := commandOf F.g f
    let L := lowestLane act
    let a := getHandle F.g f.a.toNat
    let b := getHandle F.g f.b.toNat
    match c.targetBad with
    | some y => commandTrap s0 act y
    | none =>
      match cpytCheck a b f.c with
      | some (cause, va) => shapeTrap s0 act cause va
      | none =>
        let new := cpytHeader a.hdr b.hdr f.c
        let rs := cpytSourceRuns b.hdr (cpytSourceB c.kb f.c)
        let rd := cpytTargetRuns new c.kb
        let cs := checkRuns s0 v b tileRead true rs
        let cd := checkRuns cs.s v a tileWrite true rd
        match cs.fault with
        | some x => tileTrap cs.s v act x
        | none =>
          match rangesOverlap (tileRanges a rd) (tileRanges b rs) with
          | some r => .trap cs.s 0x06 (BitVec.ofNat 64 r.lo) act
          | none =>
            match cd.fault with
            | some x => tileTrap cd.s v act x
            | none =>
              match firstFault cd.s (targetChecks v c false) with
              | (s, some y) => concludeWith v.core v.ctx s [⟨L, y.cause, y.va, y.pa⟩] act
              | (s, none) =>
                let bytes := (rd.map fun r => ceilDiv (r.bit % 8 + r.len) 8).foldl (· + ·) 0
                let o := { blankOp F v c .cpyt L with
                  dstH := a, srcH := b, conv := f.c, srcRanges := tileRanges b rs, dstRanges := tileRanges a rd }
                issueOps s0 F v act ⟨s, [o], 0, []⟩ bytes) s

/-! ## Moving bytes (R394) -/

/-- What an operation accesses memory as: at the home, past L1 and RDC (R208). -/
def opEnv (s : State) (o : AsyncOp) : Env :=
  let c := getCtx s o.ctx
  ⟨o.gid, o.core, o.ctx, o.team, getPart s c.part, c.lease, 3⟩

/-- Where a movement stands: still going, waiting for a page, or a fault. -/
inductive Halt where
  | absent (va : W64)
  | fault (cause : BitVec 8) (va : W64) (pa : Nat)
  deriving DecidableEq, Repr

/-- Where a byte of one side lies. -/
def sideTarget (s : State) (v : Env) (a : Access) (share : Bool) (va : W64) (off : Nat) : State × (Halt ⊕ Target) :=
  if share then (s, .inr (.share (shareKey (refPeer va) (refOffset va + off))))
  else
    let x := va + BitVec.ofNat 64 off
    match checkPage s v x a with
    | (s, .ok t) => (s, .inr t)
    | (s, .absent) => (s, .inl (.absent x))
    | (s, .fault c pa) => (s, .inl (.fault c x pa))

/-- Read n bytes of a side, cut at lines; each read at its home (R394). -/
def sideRead (s : State) (v : Env) (share : Bool) (va : W64) (off n : Nat) : State × (Halt ⊕ List Byte) :=
  (cutPieces (if share then 0 else va.toNat) off (n / 128 + 2) n).foldl (fun acc p =>
    match acc with
    | (s, .inl h) => (s, .inl h)
    | (s, .inr bs) =>
      match sideTarget s v byteRead share va p.off with
      | (s, .inl h) => (s, .inl h)
      | (s, .inr t) =>
        let s := match t with
          | .mem host pa _ => drainOverlap s v.core host pa p.len
          | _ => s
        let r := readTarget s v t 3 p.len
        (r.state, .inr (bs ++ r.bytes))) (s, .inr [])

/-- Write bytes of one aligned unit of a side. -/
def sideWrite (s : State) (v : Env) (scope : Nat) (share : Bool) (va : W64) (off : Nat) (bs : List Byte) :
    State × Option Halt :=
  match sideTarget s v byteWrite share va off with
  | (s, .inl h) => (s, some h)
  | (s, .inr t) => (writeTarget s v (max 1 scope) t bs, none)

/-- Copy line by line of the destination, from `pos` on: the bytes moved, and what stopped it. The bytes within an aligned 8-byte
unit are of one write (R222, R394), and a line rewritten whole is rewritten by one (R470). -/
def moveUnits (v : Env) (o : AsyncOp) : Nat → State → Nat → State × Nat × Option Halt
  | 0, s, pos => (s, pos, none)
  | fuel + 1, s, pos =>
    if o.len ≤ pos then (s, pos, none)
    else
      let at_ := if o.dstShare then refOffset o.dst + pos else o.dst.toNat + pos
      let n := min (128 - at_ % 128) (o.len - pos)
      match sideRead s v o.srcShare o.src pos n with
      | (s, .inl h) => (s, pos, some h)
      | (s, .inr bs) =>
        match sideWrite s v o.scope o.dstShare o.dst pos bs with
        | (s, some h) => (s, pos, some h)
        | (s, none) => moveUnits v o fuel s (pos + n)

/-- A fault of an engine after issue ends the team (R336, R394). -/
def engineFault (s : State) (o : AsyncOp) (cause : BitVec 8) (va : W64) (pa : Nat) : State :=
  fatalContext (logLane s o.core o.ctx ⟨o.lane, cause, va, pa⟩) o.ctx cause (some o.core) va

def setOp (s : State) (o : AsyncOp) : State := { s with ops := s.ops.map fun x => if x.id = o.id then o else x }
def getOp (s : State) (id : Nat) : Option AsyncOp := s.ops.find? fun o => o.id = id

/-- The image of what CPYT writes, or none where policy 11 meets an overflow (R402). -/
def cpytImage (new src : W128) (conv : BitVec 10) (asB : Bool) (runs : List BitRun) (m old : Memory) : Option Memory :=
  if conv.extractLsb' 0 5 = 0 then
    let scales := (List.range (scaleBytes src asB)).map fun i => readNat m (64 * hScaleoff src + i) 1
    some (tileImage new old runs (fun r c => elementOf m src r c) scales)
  else
    let scaled (r c : Nat) : Num := fmulNum (decodeNum (tileKind (hKind src)) (elementOf m src r c)) (scaleFactor m src false r c)
    let scales := if hScale new = 4 then blockBytes new asB scaled else []
    let elem (r c : Nat) : Option Nat :=
      let q := if hScale new = 4 then scaleValue (scales.getD (blockIndex new asB r c) 0) else Q.ofInt 1
      roundTo? (tileKind (hKind new)) (divScale (scaled r c) q) (conv.extractLsb' 5 3).toNat
        (ovfPolicy (conv.extractLsb' 8 2).toNat)
    if (List.range (hRows new)).all fun r => (List.range (hCols new)).all fun c => (elem r c).isSome then
      some (tileImage new old runs (fun r c => (elem r c).getD 0) scales)
    else none

/-- A fault of a tile's check after issue: a page not present is waited for, another fault ends the team (R394). -/
def tileHalt (x : TileFault) : Halt := if x.absent then .absent x.va else .fault x.cause x.va x.pa

/-- An engine's write of a tile's places, each page marked dirty before any is written (R364). -/
def writeMarked (s : State) (v : Env) (h : Handle) (scope : Nat) (ps : List Place) (img : Memory) : State × Option Halt :=
  let w := markPlaces s v h ps
  match w.fault with
  | some x => (w.s, some (tileHalt x))
  | none => (writePlaces w.s v (max 1 scope) w.places img, none)

/-- CPYT's movement: everything, or nothing but what stopped it. -/
def moveTile (s : State) (v : Env) (o : AsyncOp) : State × Option Halt :=
  let new := cpytHeader o.dstH.hdr o.srcH.hdr o.conv
  let rd := cpytTargetRuns new o.kb
  let cs := checkRuns s v o.srcH tileRead false (cpytSourceRuns o.srcH.hdr (cpytSourceB o.kb o.conv))
  match cs.fault with
  | some x => (cs.s, some (tileHalt x))
  | none =>
    let cd := checkRuns cs.s v o.dstH tileWrite false rd
    match cd.fault with
    | some x => (cd.s, some (tileHalt x))
    | none =>
      let (s, m) := readPlaces cd.s v cs.places
      let (s, old) := if rd.any (fun r => r.keep && (r.bit + r.len) % 8 != 0) then readPlaces s v cd.places else (s, [])
      match cpytImage new o.srcH.hdr o.conv o.kb (dataRuns new everyRow) m old with
      | none => (s, some (.fault 0x0A o.dstH.addr 0))
      | some img => writeMarked s v o.dstH o.scope cd.places img

/-! ## The completion action (R392) -/

/-- The first poisoned byte of an object's 16, which an update of it reads (R365, R394, R469). -/
def objPoison (s : State) : Target → Option (Nat × Nat)
  | .mem host pa _ => (poisonIn s host pa 16).map fun off => (off, pa)
  | _ => none

/-- The completion action of a batch: the done record, then the object or the word (R392, R401). -/
def completionAction (s : State) (v : Env) (o : AsyncOp) (done : Mask) (failed : Bool) : State × Option Halt :=
  let rec1 := if o.drec != 0 then sideWrite s v o.scope false o.drec 0 (leBytes 8 (done.toNat + o.req.toNat * 2 ^ 32)) else (s, none)
  match rec1 with
  | (s, some h) => (s, some h)
  | (s, none) =>
    if o.cw then
      let val : W64 := if failed then o.value ^^^ (2 ^ 63 : Nat) else o.value
      sideWrite s v o.scope o.tsp o.target 0 (leBytes 8 val.toNat)
    else
      match sideTarget s v byteWrite o.tsp o.target 0 with
      | (s, .inl h) => (s, some h)
      | (s, .inr t) =>
        match objPoison s t with
        | some (off, pa) => (s, some (.fault 0x14 (o.target + BitVec.ofNat 64 off) (pa + off)))
        | none => ((atomicTarget s v t 16 (objCompletion o.bytes)).1, none)

/-- Entries are free and operations done: what waited for them looks again (R217, R308, R403, R405). -/
def opsFreed (s : State) (o : AsyncOp) : State :=
  let looks (p : Park) : Bool := match p with
    | .rangeLock | .drain _ => true
    | _ => false
  let s := (s.groups.filter fun g => g.core = o.core && g.sides.any fun x => match x.st with | .park p => looks p | _ => false).foldl
    (fun s g => owe s (.dependenceResolved g.id)) s
  let s := (s.gsigs.filter fun g => g.team = o.team).foldl (fun s g => owe s (.gsigWrite g.id)) s
  reapTeam s o.team

/-- The whole batch has moved: its action, and its entries go; an action whose page is not present waits for it (R394). -/
def completeBatch (s : State) (o : AsyncOp) : State :=
  let mine := s.ops.filter fun x => x.batch = o.batch
  if mine.any fun x => !x.moved then s
  else
    let done := maskOf ((mine.filter AsyncOp.whole).map AsyncOp.lane)
    match completionAction s (opEnv s o) o done (mine.any AsyncOp.failed) with
    | (s, some (.absent va)) => setOp s { o with waiting := some va }
    | (s, some (.fault c va pa)) => engineFault s o c va pa
    | (s, none) => opsFreed { s with ops := s.ops.filter fun x => x.batch != o.batch } o

/-- A tolerant row that will not be copied whole (R400). -/
def loseRow (s : State) (o : AsyncOp) : State :=
  let o := { o with pos := o.len, moved := true, whole := false, waiting := none }
  completeBatch (setOp s o) o

/-- An earlier row of the same SCTR has not moved: rows land in lane order (R395). -/
def rowHeld (s : State) (o : AsyncOp) : Bool :=
  o.kind = .sctr && s.ops.any fun x => x.batch = o.batch && x.lane < o.lane && !x.moved

/-- Rows of the same SCTR that come after this one. -/
def oweRows (s : State) (o : AsyncOp) : State :=
  (s.ops.filter fun x => o.kind = .sctr && x.batch = o.batch && o.lane < x.lane && !x.moved).foldl
    (fun s x => owe s (.asyncOpComplete x.id)) s

/-- The movement of CPY, GTHR or SCTR within the module. A tolerant row is written only after its source's pages have
translated, and one that loses a page is not done (R394, R400). -/
def moveBytes (s : State) (o : AsyncOp) : State :=
  let v := opEnv s o
  if rowHeld s o then s
  else
    let first := if o.tol && o.pos = 0 && !o.srcShare then checkPages v byteRead (o.len / 4096 + 2) s o.src o.len else (s, none)
    match first with
    | (s, some x) => if x.absent then loseRow s o else engineFault s o x.cause x.va x.pa
    | (s, none) =>
      match moveUnits v o (o.len + 1) s o.pos with
      | (s, _, none) =>
        let o := { o with pos := o.len, moved := true, whole := o.whole || o.pos < o.len, waiting := none }
        completeBatch (oweRows (setOp s o) o) o
      | (s, pos, some (.absent va)) => if o.tol then loseRow s o else setOp s { o with pos := pos, waiting := some va }
      | (s, _, some (.fault c va pa)) => engineFault s o c va pa

/-- The movement of CPYT. -/
def moveCpyt (s : State) (o : AsyncOp) : State :=
  match moveTile s (opEnv s o) o with
  | (s, none) =>
    let o := { o with moved := true, whole := true, waiting := none }
    completeBatch (setOp s o) o
  | (s, some (.absent va)) => setOp s { o with waiting := some va }
  | (s, some (.fault c va pa)) => engineFault s o c va pa

/-- An operation that a restore re-created (`pos` is 1) learns its ray's address from its slot's RAY, and its source range with
it (R435, R436). -/
def learnRay (s : State) (o : AsyncOp) : State × (Halt ⊕ AsyncOp) :=
  if o.pos != 1 then (s, .inr o)
  else match sideRead s (opEnv s o) false o.dst 24 8 with
    | (s, .inr bs) =>
      let a := BitVec.ofNat 64 (leNat bs)
      (s, .inr { o with pos := 0, src := a, srcRanges := [lockRangeOf false a 48] })
    | (s, .inl h) => (s, .inl h)

/-! ## ADRAIN, AQRY (R403, R404) -/

/-- A lane of a group has issued an operation, itself or before the group was drawn (R338, R403, R404). -/
def groupIssued (g : Group) (o : AsyncOp) : Bool := o.gid = g.id || g.priorOps.any fun p => p.2 = o.id
/-- Lanes that still wait in ADRAIN. -/
def drainOwed (s : State) (F : Frag) (act : Mask) (all : Bool) : Mask :=
  lanesWhere act fun L => s.ops.any fun o => if all then groupIssued F.g o else issuedBy F.g L o

/-- ADRAIN (R403). -/
def execAdrain (f : Fields) (s : State) : Res :=
  issue (.adrain f) (fun s F =>
    let all := f.mod.getLsbD 0
    let owed := drainOwed s F (activeOf F f) all
    if owed = 0 then .done (syncClk s F.g.core) else .placed (parkFrag s F.g.id F.key owed (.drain all))) s

/-- AQRY (R404). -/
def execAqry (f : Fields) (s : State) : Res :=
  issue (.aqry f) (fun s F => onceFor s F f fun _ =>
    let x := if f.mod.getLsbD 0 then 256 - lockEntries s F.g.core else (s.ops.filter (groupIssued F.g)).length
    .done (setGroup s (setS F.g f.d.toNat (BitVec.ofNat 64 x)))) s

end Sys2Proof.Machine
end

