-- ==== Sys2Proof/Machine/LaunchBlocks.lean ====
section
/-! DEFINITION. Launch blocks and their checks (R287 to R292), reads by the device in a context, and the dealing of a
coverage launch's points (R408 to R413). -/

namespace Sys2Proof.Machine

/-! ## Reads and writes by the device in a context -/

/-- What a device access of a context's memory finds. -/
inductive DevRead where
  | ok (bs : List Byte)
  | absent (va : W64)
  | fault (cause : BitVec 8) (va : W64) (pa : Nat)
  deriving DecidableEq, Repr

/-- A piece of a device access: pages, then poison, then the bytes at their home (R211, R370); `mark` as for `translate`. -/
def devPiece (s : State) (ctx : Nat) (a : Access) (mark : Bool) (va : W64) (n : Nat) : State × (DevRead ⊕ (Bool × Nat)) :=
  match translate s none 0 ctx va a.acc true mark fun _ => false with
  | (s, .absent) => (s, .inl (.absent va))
  | (s, .fault c pa) => (s, .inl (.fault c va pa))
  | (s, .ok mt pa) =>
    match (if a.read then poisonIn s (mt = 2) pa n else none) with
    | some off => (s, .inl (.fault 0x14 (va + BitVec.ofNat 64 off) (pa + off)))
    | none => (s, .inr (mt = 2, pa))

/-- A transfer of the device for a context takes the context's tokens (R219, R220). -/
def devTransfer (s : State) (ctx : Nat) (host : Bool) (pa n : Nat) : State := if host then s else portTransfer s ctx pa n

/-- n bytes at a virtual address of a context, read by the device at dev scope. -/
def devRead (s : State) (ctx : Nat) (tile : Bool) (va : W64) (n : Nat) : State × DevRead :=
  let a : Access := ⟨1, true, false, tile, false⟩
  (cutPieces va.toNat 0 (n / 128 + 2) n).foldl (fun acc p =>
    match acc with
    | (s, .ok bs) =>
      match devPiece s ctx a false (va + BitVec.ofNat 64 p.off) p.len with
      | (s, .inl x) => (s, x)
      | (s, .inr (host, pa)) =>
        let (s, b) := homeRead (devTransfer s ctx host pa p.len) none (getCtx s ctx).lease host pa p.len
        (s, .ok (bs ++ b))
    | x => x) (s, .ok [])

/-- Bytes written by the device at a virtual address of a context, every piece checked before any is written. -/
def devStore (s : State) (ctx : Nat) (tile : Bool) (va : W64) (bs : List Byte) : State × DevRead :=
  let a : Access := ⟨1, false, true, tile, false⟩
  let each (mark : Bool) (put : State → Piece → Bool → Nat → State) (s : State) : State × DevRead :=
    (cutPieces va.toNat 0 (bs.length / 128 + 2) bs.length).foldl (fun acc p =>
      match acc with
      | (s, .ok _) =>
        match devPiece s ctx a mark (va + BitVec.ofNat 64 p.off) p.len with
        | (s, .inl x) => (s, x)
        | (s, .inr (host, pa)) => (put s p host pa, .ok [])
      | x => x) (s, .ok [])
  match each false (fun s _ _ _ => s) s with
  | (s, .ok _) => each true (fun s p host pa => homeWrite (devTransfer s ctx host pa p.len) none host pa ((bs.drop p.off).take p.len)) s
  | x => x

/-- An access by Brass for a context: it carries no bucket (R219). -/
def bareRead (s : State) (ctx : Nat) (tile : Bool) (va : W64) (n : Nat) : State × DevRead :=
  let (t, r) := devRead s ctx tile va n
  ({ t with ports := s.ports }, r)
def bareStore (s : State) (ctx : Nat) (tile : Bool) (va : W64) (bs : List Byte) : State × DevRead :=
  let (t, r) := devStore s ctx tile va bs
  ({ t with ports := s.ports }, r)

/-- An 8-byte word of a context. -/
def devWord (s : State) (ctx : Nat) (va : W64) : State × DevRead := devRead s ctx false va 8

/-! ## The launch block (R287 to R290) -/

/-- n bits of a number. -/
def nBits (x lo n : Nat) : Nat := x / 2 ^ lo % 2 ^ n
def nW64 (x lo : Nat) : W64 := BitVec.ofNat 64 (nBits x lo 64)

/-- Role entry k (R289). -/
def roleEntry (b k : Nat) : Nat := nBits b (1024 + 128 * k) 128
def roleFrom (e : Nat) : Role :=
  { entry := nW64 e 0, vregs := 8 * nBits e 64 8, sregs := nBits e 72 9, ztiles := nBits e 81 8, groups := nBits e 89 6,
    last := nBits e 96 5 + 1 }

def spanCode : Nat → Nat
  | 0 => 1
  | 1 => 2
  | _ => 4

/-- The block in 256 bytes. -/
def blockFrom (va : W64) (b : Nat) : LaunchBlock :=
  { va := va, code := nW64 b 448, codelen := nBits b 512 32, btmap := nW64 b 704, const := nW64 b 64, args := nW64 b 128
    arglen := nBits b 192 17, span := spanCode (nBits b 26 2)
    roles := (List.range (nBits b 24 2 + 1)).map fun k => roleFrom (roleEntry b k)
    gx := nBits b 576 32, gy := nBits b 608 32, gz := nBits b 640 32, scratch := nBits b 48 16, recsz := nBits b 40 8
    v0scale := nBits b 32 8, seed := nW64 b 384, savepc := nW64 b 320, trapbase := nW64 b 256, deadline := nBits b 224 32
    relaunch := b.testBit 28, depthf := b.testBit 29, flush := b.testBit 30, coven := b.testBit 31, cov := nBits b 1536 512 }

def sumBy (l : List Role) (h : Role → Nat) : Nat := (l.map h).foldl (· + ·) 0

/-- Launched lanes of a role on each peer (R289). -/
def Role.lanes (r : Role) : Nat := 32 * (r.groups - 1) + r.last
/-- Groups per peer (R293). -/
def LaunchBlock.groupsPerPeer (l : LaunchBlock) : Nat := sumBy l.roles Role.groups

/-- Bytes of an n-byte number that are not 0. -/
def nonzeroBytes (x n : Nat) : List Nat := (List.range n).filter fun i => x / 2 ^ (8 * i) % 256 != 0
/-- What is left of a number in bit ranges (first bit, count). -/
def onlyBits (x : Nat) (ranges : List (Nat × Nat)) : Nat := ranges.foldl (fun r p => r + nBits x p.1 p.2 * 2 ^ p.1) 0
/-- A field at a byte that fails when `bad` holds. -/
def errorIf (at_ : Nat) (bad : Bool) : List Nat := if bad then [at_] else []

/-- Reserved bits of the block and of its role entries; entries of no role are all zero (R287, R289). -/
def blockReserved (b : Nat) : List (Nat × Nat) :=
  [(209, 15), (544, 32), (672, 32), (768, 256)] ++ (List.range 4).flatMap fun k =>
    if k ≤ nBits b 24 2 then [(1024 + 128 * k + 95, 1), (1024 + 128 * k + 101, 27)] else [(1024 + 128 * k, 128)]

/-- The failing bytes of the coverage block (R290, R291, R409). -/
def coverageErrors (l : LaunchBlock) (spanField : Nat) : List Nat :=
  (nonzeroBytes (onlyBits l.cov [(80, 16), (177, 335)]) 64).map (192 + ·)
    ++ errorIf 200 (8 ≤ nBits l.cov 64 4)
    ++ errorIf 201 (nBits l.cov 72 8 != 0 && !(4 ≤ nBits l.cov 72 8 && nBits l.cov 72 8 ≤ 8))
    ++ errorIf 3 (spanField != 0 || !(l.roles.head?.any fun r => 64 ≤ r.lanes))

/-- The failing bytes of one role entry (R289, R291). -/
def roleErrors (l : LaunchBlock) (p : Role × Nat) : List Nat :=
  let o := 128 + 16 * p.2
  let e := p.1.entry.toNat
  errorIf o (e % 16 != 0 || e < l.code.toNat || l.code.toNat + 16 * l.codelen ≤ e)
    ++ errorIf (o + 8) (p.1.vregs = 0 || 1024 < p.1.vregs) ++ errorIf (o + 9) (256 < p.1.sregs)
    ++ errorIf (o + 10) (128 < p.1.ztiles) ++ errorIf (o + 11) (p.1.groups = 0)

/-- The bytes of a launch block that fail R291 (and R409); none in a valid one. -/
def blockErrors (va : W64) (b : Nat) : List Nat :=
  let l := blockFrom va b
  errorIf 0 (nBits b 0 16 != 0x1B7C) ++ errorIf 2 (nBits b 16 8 != 0x01) ++ errorIf 3 (nBits b 26 2 = 3)
    ++ nonzeroBytes (onlyBits b (blockReserved b)) 256
    ++ errorIf 6 (1024 < l.scratch) ++ errorIf 24 (65536 < l.arglen) ++ errorIf 32 (l.trapbase.toNat % 16 != 0)
    ++ errorIf 40 (l.savepc.toNat % 16 != 0) ++ errorIf 72 (l.gx = 0) ++ errorIf 76 (l.gy = 0) ++ errorIf 80 (l.gz = 0)
    ++ errorIf 88 (l.btmap.toNat % 16 != 0) ++ errorIf 139 (32 < l.groupsPerPeer)
    ++ l.roles.zipIdx.flatMap (roleErrors l) ++ (if l.coven then coverageErrors l (nBits b 26 2) else [])

/-- A valid launch block (R291, R409). -/
def blockValid (va : W64) (b : Nat) : Bool := blockErrors va b = []

/-- One peer's share fits on an empty core (R292). -/
def admissible (l : LaunchBlock) : Bool :=
  sumBy l.roles (fun r => r.groups * r.vregs) ≤ 2048 && sumBy l.roles (fun r => r.groups * r.sregs) ≤ 2048
    && sumBy l.roles (fun r => r.groups * r.ztiles) ≤ 128 && 256 * l.scratch ≤ 262144

/-- Teams of a launch. -/
def LaunchBlock.teams (l : LaunchBlock) : Nat := l.gx * l.gy * l.gz

/-! ## Coverage (R407 to R413) -/

def covExp (l : LaunchBlock) : Bool := l.cov.testBit 176
def covPattern (l : LaunchBlock) : Nat := nBits l.cov 64 4
/-- PHASE; 0 at the basic level (R407). -/
def covPhase (l : LaunchBlock) : Nat := if covExp l then nBits l.cov 68 4 else 0
def covAudit (l : LaunchBlock) : Nat := if covExp l then nBits l.cov 72 8 else 0
def covGuide (l : LaunchBlock) : W64 := if covExp l then nW64 l.cov 0 else 0
def covThresh (l : LaunchBlock) : Nat := nBits l.cov 96 32
def covTarget (l : LaunchBlock) : Nat := nBits l.cov 128 32
/-- The controller's bounds, swapped where they cross (R415). -/
def covBounds (l : LaunchBlock) : Nat × Nat :=
  let lo := min (nBits l.cov 160 8) 7
  let hi := min (nBits l.cov 168 8) 7
  if hi < lo then (hi, lo) else (lo, hi)
/-- The controller runs (R415). -/
def covControls (l : LaunchBlock) : Bool :=
  covExp l && covAudit l != 0 && (match decodeNum kF32 (covTarget l) with
    | .fin q => 0 < q.n
    | _ => false)
/-- The code a launch starts at: PATTERN, clamped at the expert level (R407, R415). -/
def covStart (l : LaunchBlock) : Nat :=
  if covExp l then min (max (covPattern l) (covBounds l).1) (covBounds l).2 else covPattern l

/-- A point is kept by a code at ψ (R410). -/
def pointKept (code psi x y : Nat) : Bool :=
  let x := x + psi % 4
  let y := y + psi / 4
  match code with
  | 0 => true
  | 1 => (x + y) % 2 = 0
  | 2 => y % 2 = 0
  | 3 => x % 2 = 0
  | 4 => x % 2 = 0 && y % 2 = 0
  | 5 => (x + 2 * y) % 4 = 0
  | 6 => x % 4 = 0 && y % 2 = 0
  | _ => x % 4 = 0 && y % 4 = 0
/-- Solder's window of a code (R410). -/
def windowOf : Nat → Nat × Nat
  | 0 => (1, 1)
  | 1 | 4 => (2, 2)
  | 2 => (1, 2)
  | 3 => (2, 1)
  | 5 | 6 => (4, 2)
  | _ => (4, 4)

/-- The kind of a point: 0 kept, 1 skipped, 2 audit (R412, R413). -/
structure Point where
  x : Nat
  y : Nat
  kind : Nat
  deriving DecidableEq, Repr

/-- The points of a block in row-major order with their kinds; skipped ones are numbered as they come (R412). -/
def blockPoints (x0 y0 code psi audit t frame : Nat) : List Point :=
  ((List.range 64).foldl (fun (acc : List Point × Nat) i =>
    let x := x0 + i % 8
    let y := y0 + i / 8
    if pointKept code psi x y then (acc.1 ++ [⟨x, y, 0⟩], acc.2)
    else
      let hit := audit != 0 && code != 0 && (acc.2 + t + frame) % 2 ^ audit = 0
      (acc.1 ++ [⟨x, y, if hit then 2 else 1⟩], acc.2 + 1)) ([], 0)).1

/-- Team index (R293). -/
def teamIndex (l : LaunchBlock) (t : Team) : Nat := t.x + l.gx * (t.y + l.gy * t.z)
/-- The record of a team's block (R413). -/
def recordOf (l : Launch) (t : Team) : Option BlockRecord := l.cov.blocks.find? fun b => b.block = teamIndex l.blk t
/-- The code for a block admitted now: an update takes effect from the cycle after it (R415). -/
def Coverage.codeAt (c : Coverage) (now : W64) : Nat :=
  match c.changed with
  | some (t, old) => if t = now then old else c.code
  | none => c.code
def teamPoints (l : Launch) (t : Team) (b : BlockRecord) : List Point :=
  blockPoints (8 * t.x) (8 * t.y) b.code b.psi (covAudit l.blk) (teamIndex l.blk t) l.frame
/-- The points dealt to role 0, in order (R408). -/
def dealtPoints (l : Launch) (t : Team) (b : BlockRecord) : List Point := (teamPoints l t b).filter fun p => p.kind != 1

end Sys2Proof.Machine
end

