-- ==== Sys2Proof/Machine/Fetch.lean ====
section
/-! DEFINITION. Instruction fetch (R63, R370): whole words, through the core's instruction-cache copies. -/

namespace Sys2Proof.Machine

/-- What a fetch answers: a word, or the fault of its page (R370). -/
inductive Fetched where
  | word (w : W128)
  | fault (cause : BitVec 8) (pa : Nat)
  deriving DecidableEq, Repr

/-- The instruction cache holds 64 KiB, 4096 words (R16): a new word takes the place of the one held longest. -/
def keepCode (l : List (Nat × W128)) (x : Nat × W128) : List (Nat × W128) :=
  let l := l.filter (fun y => y.1 != x.1) ++ [x]
  l.drop (l.length - 4096)

/-- The word at a PC for a group. A copy that the core's instruction cache holds is read until it leaves the cache, or `CCTL.ic`
or an admission invalidates it (R63). DESIGN CHOICE, log entry 70: when a copy leaves for another reason is the turns'
choice, so that a fetch before the invalidation finds the old word or the new one. -/
def fetchWord (s : State) (g : Group) (pc : W64) : State × Fetched :=
  if pc.extractLsb' 0 4 != 0 then (s, .fault 0x03 0)
  else
    match translate s (some g.core) (dieOf g.core) (ctxOf s g) pc ⟨false, false, true, false⟩ true false fun _ => false with
    | (s, .absent) => (s, .fault 0x04 0)
    | (s, .fault c pa) => (s, .fault c pa)
    | (s, .ok mt pa) =>
      let host : Bool := mt = 2
      if poisonedLine s host pa then (s, .fault 0x14 pa)
      else
        let k := getCore s g.core
        match k.icache.find? fun x => x.1 = icacheKey host pa with
        | some x => (s, .word x.2)
        | none =>
          let w := BitVec.ofNat 128 (readNat (if host then s.hostMem else s.mem) pa 16)
          (setCore s { k with icache := keepCode k.icache (icacheKey host pa, w) }, .word w)

/-- The fields of the full-form word at a PC, if it is one, for an event that must know the word a lane waits in. -/
def fieldsAt (s : State) (g : Group) (pc : W64) : Option Fields :=
  match (fetchWord s g pc).2 with
  | .word w => some (fieldsOf w)
  | .fault _ _ => none

end Sys2Proof.Machine
end

