-- ==== Sys2Proof/Machine/GraphOps.lean ====
section
/-! DEFINITION. Graph instructions, class 10: LAUNCH, RGET, REMIT, RDONE, GSIG, COVQ (R302 to R308, R420), and the write
that a GSIG owes. -/

namespace Sys2Proof.Machine

/-! ## LAUNCH (R302, R303) -/

/-- What LAUNCH finds at one lane: its status, and the block where it is 0. -/
structure LaunchTry where
  status : Nat
  blk : Option LaunchBlock
  deriving DecidableEq, Repr

/-- A range of the context can be read (R294, R302). -/
def readable (s : State) (v : Env) (va : W64) (len : Nat) : State × Bool :=
  let (s, x) := checkPages v byteRead (len / 4096 + 2) s va len
  (s, x.isNone)

/-- Children of a partition that wait for their dispatch (R302). -/
def pendingChildren (s : State) (part : Nat) : Nat :=
  (s.launches.filter fun l => l.parent.isSome && !l.dispatched && (getCtx s l.ctx).part = part).length

/-- The checks of LAUNCH in their order (R302). -/
def tryLaunch (s : State) (v : Env) (a b : W64) : State × LaunchTry :=
  if a.toNat % 64 != 0 then (s, ⟨1, none⟩)
  else
    match readable s v a 256 with
    | (s, false) => (s, ⟨4, none⟩)
    | (s, true) =>
      match devRead s v.ctx false a 256 with
      | (s, .ok bs) =>
        let l := blockFrom a (leNat bs)
        if !blockValid a (leNat bs) then (s, ⟨1, none⟩)
        else
          let (s, c) := readable s v l.const 4096
          let (s, r) := readable s v (if b = 0 then l.args else b) l.arglen
          if !c || !r then (s, ⟨4, none⟩)
          else if !admissible l then (s, ⟨3, none⟩)
          else if 65536 ≤ pendingChildren s v.part.pid then (s, ⟨2, none⟩)
          else (s, ⟨0, some l⟩)
      | (s, _) => (s, ⟨4, none⟩)

/-- A launch with nothing placed yet. -/
def newLaunch (id ctx : Nat) (blk : LaunchBlock) (argVa : W64) : Launch :=
  { id, ctx, graph := none, parent := none, childNo := 0, completion := none, tenant := 0, frame := 0, blk, argVa,
    owner := 0, dispatched := false, settled := false, fetched := false, constBank := [], argBlock := [], starts := [],
    startBase := 0, next := 0, resident := 0, finished := 0,
    cov := ⟨covStart blk, none, ⟨0, 1, 0, 0⟩, 0, [], 0, false⟩, busy := [], cost := 0, charged := 0, waiting := none }

/-- A child appended for a parent launch, numbered after every child before it (R302, R303). -/
def appendChild (s : State) (parent : Launch) (blk : LaunchBlock) (b : W64) (completion : Option W64) : State :=
  let p := getPart s (getCtx s parent.ctx).part
  let node := match parent.graph with
    | some n => some n
    | none => parent.parent
  let l := { newLaunch s.nextId parent.ctx blk b with
    parent := node, childNo := p.nextChild, completion := completion, tenant := parent.tenant, owner := parent.owner, frame := parent.frame }
  setLaunch (setPart { s with nextId := s.nextId + 1 } { p with nextChild := p.nextChild + 1 }) l

/-- LAUNCH (R302); the child's lanes see what the group's lanes have stored (R227, R232). -/
def execLaunch (f : Fields) (s : State) : Res :=
  issue (.launch f) (fun s F =>
    let act := activeOf F f
    let one := f.mod.getLsbD 0
    let v := envOf s F.g
    let s := if act = 0 then s else drainOwn s v
    let lanes := if one then laneBit (lowestLane act) &&& act else act
    let step (acc : State × List (Nat × Nat)) (L : Nat) : State × List (Nat × Nat) :=
      let b := addr64 F.g f.selB f.b L
      let (s, t) := tryLaunch acc.1 v (addr64 F.g f.selA f.a L) b
      let s := match t.blk, launchOf s F.g with
        | some blk, some parent =>
          appendChild s parent blk b (if f.mod.getLsbD 1 then some (addr64 F.g f.selC f.c L) else none)
        | _, _ => s
      (s, acc.2 ++ [(L, t.status)])
    let (s, sts) := (lanesOf lanes).foldl step (s, [])
    let status (L : Nat) : Nat := match sts.find? fun p => one || p.1 = L with
      | some p => p.2
      | none => 0
    .done (updGroup s F.g.id fun g => writeLanes g f.d.toNat false act status)) s

/-! ## RGET, REMIT, RDONE (R304 to R307) -/

/-- The graph and node whose record team a group is of (R307). -/
def recordNode (s : State) (g : Group) : Option (Graph × Nat) :=
  match (launchOf s g).bind Launch.graph with
  | some (gn, n) =>
    match getGraph s gn with
    | some gr => if (gr.nodes[n]?).any (fun x => x.kind = 1) then some (gr, n) else none
    | none => none
  | none => none

/-- B of RGET and REMIT: the port. -/
def portOf (s : State) (g : Group) (f : Fields) (L : Nat) : Nat := bitsB s g f 0 L

/-- RGET's lanes: those that still wait. -/
structure TakeSweep where
  s : State
  owed : Mask
  took : Bool
  deriving DecidableEq, Repr

def takeLane (F : Frag) (f : Fields) (gn n : Nat) (x : TakeSweep) (L : Nat) : TakeSweep :=
  let none_ (s : State) : TakeSweep := { x with s := updGroup s F.g.id fun g => setP g f.c.toNat L false }
  match getGraph x.s gn with
  | none => none_ x.s
  | some gr =>
    match inEdge gr n (portOf x.s F.g f L) with
    | none => none_ x.s
    | some i =>
      match gr.edges[i]? with
      | none => none_ x.s
      | some e =>
        if e.untaken != 0 then
          let s := setGraph x.s (setEdge gr i { e with taken := e.taken + 1 })
          let s := { s with held := s.held ++ [(F.g.team, ⟨gn, i, e.taken, F.g.id, L⟩)] }
          let s := match getTeam s F.g.team with
            | some t => setTeam s { t with took := true }
            | none => s
          { x with s := updGroup s F.g.id fun g => setP (setV64 g f.d.toNat L (e.slotVa e.taken)) f.c.toNat L true, took := true }
        else if e.closed then none_ x.s
        else { x with owed := x.owed ||| laneBit L }

/-- RGET: an acquire; lanes that find nothing wait for a record or for the close (R307). -/
def execRget (f : Fields) (s : State) : Res :=
  issue (.rget f) (fun s F =>
    let act := activeOf F f
    match recordNode s F.g with
    | none => if act = 0 then .done s else plainTrap s 0x17 act
    | some (gr, n) =>
      let x := (lanesOf act).foldl (takeLane F f gr.num n) ⟨s, 0, false⟩
      let s := if x.took then oweEnd (syncClk x.s F.g.core) gr.num n else x.s
      if x.owed = 0 then .done s else .placed (parkFrag s F.g.id F.key x.owed (.record false))) s

/-- A record's header fields (R304). -/
def recLen (h : Nat) : Nat := nBits h 112 16
/-- A header built by a lane that REMIT may copy (R307). -/
def recordOk (h : Nat) : Bool := recLen h ≤ 240 && nBits h 100 12 = 0
/-- The header that REMIT writes: EDGE, FRAME and SEQ its own, KEY, flags and LEN from h (R307); a node in stale-state mode
sets SUBST_STALE (R389). -/
def recHeader (h edge frame seq : Nat) (stale : Bool) : Nat :=
  edge + frame % 2 ^ 32 * 2 ^ 16 + nBits h 48 32 * 2 ^ 48 + seq % 2 ^ 16 * 2 ^ 80
    + (nBits h 96 4 ||| if stale then 2 else 0) * 2 ^ 96 + recLen h * 2 ^ 112
def nodeStale (gr : Graph) (n : Nat) : Bool := (gr.nodes[n]?).any Node.stale

/-- Bytes at a lane's address under R149, in 16-byte pieces; the record's address may have any 16-byte alignment. -/
def laneBytes (s : State) (v : Env) (va : W64) (n : Nat) : State × (RangeFault ⊕ List Byte) :=
  match checkSpan s v byteRead false va n with
  | (s, some x) => (s, .inl x)
  | (s, none) =>
    match sideRead s v false va 0 n with
    | (s, .inr bs) => (s, .inr bs)
    | (s, .inl (.absent a)) => (s, .inl ⟨0x04, a, 0, true⟩)
    | (s, .inl (.fault c a pa)) => (s, .inl ⟨c, a, pa, false⟩)

/-- A slot written by the front end, on behalf of a lane's REMIT or of a node (R304). -/
def storeRecord (s : State) (ctx : Nat) (e : Edge) (hdr : Nat) (payload : List Byte) : State × DevRead :=
  devStore s ctx false (e.slotVa e.head) (leBytes 16 hdr ++ payload)

/-- The consumer of an edge still takes records (R307); the encoder takes those of a remote one (R451). -/
def consumerLive (gr : Graph) (e : Edge) : Bool :=
  e.away || match gr.nodes[e.dst]? with
  | some n => n.st = .ready || n.st = .launched || n.st = .running
  | none => false

/-- A record has arrived at the head of an edge: takers and the admission of record teams look again (R305, R307). -/
def recordArrived (s : State) (gn i : Nat) (e : Edge) : State :=
  let s := match getGraph s gn with
    | some gr => setGraph s (passBrass gr)
    | none => s
  let s := wakeRecords s gn
  let sends : Bool := e.away && ((getGraph s gn).bind fun gr => gr.nodes[e.src]?).any Node.owned
  if sends then owe s (.brassEncode gn i (((getGraph s gn).map Graph.frame).getD 0))
  else match s.launches.find? fun l => l.graph = some (gn, e.dst) with
  | some l => owe s (.recordTeamAdmit l.id)
  | none => s

/-- REMIT's lanes so far. -/
structure EmitSweep where
  s : State
  faults : List LaneFault
  owed : Mask
  deriving DecidableEq, Repr

def EmitSweep.fail (x : EmitSweep) (s : State) (L : Nat) (c : BitVec 8) (va : W64) (pa : Nat) : EmitSweep :=
  { x with s := s, faults := x.faults ++ [⟨L, c, va, pa⟩] }

/-- One lane of REMIT: it waits behind a lane that waits (R307). -/
def emitLane (F : Frag) (f : Fields) (v : Env) (gn n : Nat) (frame : Nat) (x : EmitSweep) (L : Nat) : EmitSweep :=
  let va := addr64 F.g f.selA f.a L
  if x.owed != 0 then { x with owed := x.owed ||| laneBit L }
  else
    match laneBytes x.s v va 16 with
    | (s, .inl y) => x.fail s L y.cause y.va y.pa
    | (s, .inr hb) =>
      let h := leNat hb
      if !recordOk h then x.fail s L 0x17 va 0
      else
        match (getGraph s gn).bind fun gr => (outEdge gr n (portOf s F.g f L)).bind fun i => (gr.edges[i]?).map fun e => (gr, i, e) with
        | none => x.fail s L 0x17 va 0
        | some (gr, i, e) =>
          if e.full then
            if consumerLive gr e then { x with s := s, owed := x.owed ||| laneBit L } else x.fail s L 0x17 va 0
          else
            match laneBytes s v va (16 + recLen h) with
            | (s, .inl y) => x.fail s L y.cause y.va y.pa
            | (s, .inr bs) =>
              let s := drainOwn s v
              match storeRecord s v.ctx e (recHeader h e.edgeId frame e.head (nodeStale gr n)) (bs.drop 16) with
              | (s, .ok _) =>
                let s := setGraph s (setEdge gr i { e with head := e.head + 1 })
                { x with s := recordArrived s gn i e }
              | (s, .absent a) => x.fail s L 0x04 a 0
              | (s, .fault c a pa) => x.fail s L c a pa

/-- REMIT (R307): a fault of some lanes is raised when the lanes that wait have emitted (R150). -/
def execRemit (f : Fields) (s : State) : Res :=
  issue (.remit f) (fun s F =>
    let act := activeOf F f
    match recordNode s F.g with
    | none => if act = 0 then .done s else plainTrap s 0x17 act
    | some (gr, n) =>
      let v := envOf s F.g
      let x := (lanesOf act).foldl (emitLane F f v gr.num n gr.frame) ⟨s, [], 0⟩
      let s := logOwed x.s v F.key.held x.faults
      let held := owedFault F.key.held x.faults
      if x.owed != 0 then
        .placed (updGroup s F.g.id fun g =>
          mapFrag g F.key fun y => { y with only := x.owed, held, st := .park (.record false) })
      else raiseOwed s held) s

/-- One lane of RDONE: the slot it holds at A goes back to its producer (R307). -/
def releaseSlot (F : Frag) (f : Fields) (w : Sweep) (L : Nat) : Sweep :=
  let va := addr64 F.g f.selA f.a L
  let mine (h : Nat × RecordRef) : Bool :=
    h.1 = F.g.team && h.2.gid = F.g.id && h.2.lane = L
      && (match (getGraph w.s h.2.graph).bind fun gr => gr.edges[h.2.edge]? with
          | some e => e.slotVa h.2.seq = va
          | none => false)
  match w.s.held.find? mine with
  | none => w.fault w.s L 0x05 va 0
  | some h =>
    match getGraph w.s h.2.graph with
    | none => w
    | some gr =>
      match gr.edges[h.2.edge]? with
      | none => w
      | some e =>
        let s := setGraph { w.s with held := w.s.held.erase h } (setEdge gr h.2.edge (e.free h.2.seq))
        { w with s := wakeRecords s gr.num }

/-- RDONE (R307). -/
def execRdone (f : Fields) (s : State) : Res :=
  issue (.rdone f) (fun s F =>
    let v := envOf s F.g
    let w := sweep s (activeOf F f) (releaseSlot F f)
    conclude v.core v.ctx w.s w.faults) s

/-! ## GSIG (R308) -/

/-- One lane's signal: its place is checked at issue, and the write owed after the lane's operations (R308). -/
def signalLane (F : Frag) (f : Fields) (v : Env) (w : Sweep) (L : Nat) : Sweep :=
  let va := addr64 F.g f.selA f.a L
  let add := f.mod.getLsbD 0
  let value : W64 := if f.immForm then f.imm32.signExtend 64 else read64 w.s F.g f.selC f.c L
  match checkLaneAt w.s v false va (if add then atomicOf 8 else plainWrite 8) with
  | (s, .ok (.mem _ _ _)) =>
    let ops := (s.ops.filter (issuedBy F.g L)).map AsyncOp.id
    let x : OwedGsig := ⟨s.nextId, v.team, F.g.id, L, v.core, va, add, value, ops, none⟩
    { w with s := owe { s with gsigs := s.gsigs ++ [x], nextId := s.nextId + 1 } (.gsigWrite x.id) }
  | (s, .ok _) => w.fault s L 0x05 va 0
  | (s, .absent) => w.fault s L 0x04 va 0
  | (s, .fault c pa) => w.fault s L c va pa

/-- GSIG (R308). -/
def execGsig (f : Fields) (s : State) : Res :=
  issue (.gsig f) (fun s F =>
    let v := envOf s F.g
    let w := sweep s (activeOf F f) (signalLane F f v)
    conclude v.core v.ctx w.s w.faults) s

/-- What a GSIG's write accesses memory as. -/
def gsigEnv (s : State) (x : OwedGsig) : Env :=
  let c := getCtx s (((getTeam s x.team).map Team.ctx).getD 0)
  ⟨x.gid, x.core, c.num, x.team, getPart s c.part, c.lease, 0⟩

/-- The write of a GSIG, a release; it stays owed while an operation it waits for is in flight (R308). Its page is translated
again: absent, it is waited for, and another fault ends the team as an engine's does (DEDUCED, log entry 71). -/
def performGsig (s : State) (x : OwedGsig) : State :=
  if s.ops.any fun o => x.ops.contains o.id then s
  else
    let v := gsigEnv s x
    let fatal (s : State) (cause : BitVec 8) (pa : Nat) : State :=
      fatalContext (logLane s x.core v.ctx ⟨x.lane, cause, x.va, pa⟩) v.ctx cause (some x.core) x.va
    match checkPage (drainOwn s v) v x.va (if x.add then atomicOf 8 else plainWrite 8) with
    | (s, .ok (.mem host pa direct)) =>
      let (s, _) := atomicTarget s v (.mem host pa direct) 8 fun old =>
        if x.add then (old + x.value.toNat) % 2 ^ 64 else x.value.toNat
      reapTeam { s with gsigs := s.gsigs.filter fun g => g.id != x.id } x.team
    | (s, .ok _) => fatal s 0x05 0
    | (s, .absent) => { s with gsigs := s.gsigs.map fun g => if g.id = x.id then { g with waiting := some x.va } else g }
    | (s, .fault c pa) => fatal s c pa

/-- GSIG_WRITE (R308). -/
def execGsigWrite (id : Nat) (s : State) : Res :=
  match s.gsigs.find? fun g => g.id = id with
  | none => .fault (.noSuchObject "GSIG")
  | some x => .next (performGsig s x)

/-! ## COVQ (R420) -/

/-- The lane's dealt point; of a group drawn from a bin the spec states none (log entry 8). -/
def execCovqMe (f : Fields) (s : State) : Res :=
  issue (.covqMe f) (fun s F =>
    let act := activeOf F f
    let put (g : Group) (v : Nat → Nat × Nat) : Group :=
      (lanesOf act).foldl (fun g L => setV (setV g f.d.toNat L (BitVec.ofNat 32 (v L).1)) (f.d.toNat + 1) L (BitVec.ofNat 32 (v L).2)) g
    let far : Nat × Nat := (0xFFFFFFFF, 0xFFFFFFFF)
    match launchOf s F.g, getTeam s F.g.team with
    | some l, some t =>
      if !l.blk.coven || F.g.role != 0 then .done (setGroup s (put F.g fun _ => far))
      else if F.g.drawn then
        let (n, s) := freeNat s
        .done (setGroup s (put F.g fun L => (n / 2 ^ (64 * L), n / 2 ^ (64 * L + 32))))
      else
        match recordOf l t with
        | none => .done (setGroup s (put F.g fun _ => far))
        | some b =>
          let ps := dealtPoints l t b
          .done (setGroup s (put F.g fun L => match ps[32 * F.g.index + L]? with
            | some p => (p.x, p.y)
            | none => far))
    | _, _ => .done (setGroup s (put F.g fun _ => far))) s

/-- The status word of a point (R420). -/
def pointStatus (l : Launch) (t : Team) (x y : Nat) : Nat :=
  if !l.blk.coven then 3
  else
    match recordOf l t with
    | none => 3
    | some b =>
      let kind := match (teamPoints l t b).find? fun p => p.x = x && p.y = y with
        | some p => p.kind
        | none => 3
      kind + b.code * 2 ^ 4 + b.psi * 2 ^ 8 + (if b.forced then 2 ^ 12 else 0) + l.cov.code * 2 ^ 16

def execCovqPt (f : Fields) (s : State) : Res :=
  issue (.covqPt f) (fun s F =>
    let at_ (L : Nat) : Nat := match launchOf s F.g, getTeam s F.g.team with
      | some l, some t => pointStatus l t (bitsA s F.g f false 0 L) (bitsB s F.g f 0 L)
      | _, _ => 3
    .done (setGroup s (writeLanes F.g f.d.toNat false (activeOf F f) at_))) s

end Sys2Proof.Machine
end

