-- ==== Sys2Proof/Machine/SaveRecords.lean ====
section
/-! DEFINITION. Save records: their layout, what a save writes and a restore reads, and the events of a context that
instructions raise (R257, R260 to R270, R351, R460, R461). -/

namespace Sys2Proof.Machine

/-! ## Layout (R263, R264, R460) -/

/-- Offsets of the sections; 0 for one that is absent. -/
structure Layout where
  v : Nat
  s : Nat
  p : Nat
  f : Nat
  b : Nat
  h : Nat
  z : Nat
  x : Nat
  a : Nat
  deriving DecidableEq, Repr

/-- The bytes of the F section. -/
def fBytes : Nat := 8 * 32 + 8 * 16 + 48

/-- Sections back to back from byte 64 at multiples of 16 (R460): the offset of one of n bytes, and the next free one. -/
def placeSection (at_ n : Nat) : Nat × Nat := (ceilDiv at_ 16 * 16, ceilDiv at_ 16 * 16 + n)
/-- Only a B, X, Z or A section may be absent: its offset is 0, and it takes no room. -/
def placeIfAny (at_ n : Nat) : Nat × Nat := if n = 0 then (0, at_) else placeSection at_ n

/-- The layout of a record for budgets, the leader's form with the B and X sections, and a number of replay records. -/
def layoutOf (vregs sregs ztiles xbytes replays : Nat) (leader : Bool) : Layout :=
  let (v, n) := placeSection 64 (128 * vregs)
  let (s, n) := placeSection n (8 * sregs)
  let (p, n) := placeSection n 128
  let (f, n) := placeSection n fBytes
  let (b, n) := placeIfAny n (if leader then 256 else 0)
  let (h, n) := placeSection n 1024
  let (z, n) := placeIfAny n (4112 * ztiles)
  let (x, n) := placeIfAny n (if leader then xbytes else 0)
  let (a, _) := placeIfAny n (32 * replays)
  ⟨v, s, p, f, b, h, z, x, a⟩

/-- The team leader: its first group still resident, by peer, role and position; drawn groups come after (R263; DESIGN CHOICE, log
entry 102: at the moment at which it is asked for). -/
def leaderOf (s : State) (tid : Nat) : Option Nat :=
  let gs := s.groups.filter fun g => g.team = tid && g.st != .exited
  let key (g : Group) : Nat := (if g.drawn then 2 ^ 20 else 0) + g.index
  (gs.foldl (fun best g => match best with
    | some b => if key g < key b then some g else some b
    | none => some g) none).map Group.id

/-- A record's header (R263). -/
structure RecordHeader where
  layout : Layout
  restpc : W64
  launched : Mask
  live : Mask
  cause : BitVec 8
  tm : Bool
  nreplay : Nat
  peer : Nat
  role : Nat
  span : Nat
  sregs : Nat
  ztiles : Nat
  vregs : Nat
  kind : Nat
  ok : Bool
  deriving DecidableEq, Repr

def RecordHeader.bits (r : RecordHeader) : Nat :=
  let l := r.layout
  0x5AFE0C7A + 0x01 * 2 ^ 32 + r.kind * 2 ^ 40 + r.vregs * 2 ^ 53 + r.ztiles * 2 ^ 64 + r.sregs * 2 ^ 72 + r.span * 2 ^ 81
    + r.role * 2 ^ 84 + r.peer * 2 ^ 86 + r.nreplay * 2 ^ 96 + (if r.tm then 2 ^ 112 else 0) + r.cause.toNat * 2 ^ 120
    + r.live.toNat * 2 ^ 128 + r.launched.toNat * 2 ^ 160 + r.restpc.toNat * 2 ^ 192 + l.v * 2 ^ 256 + l.s * 2 ^ 288
    + l.p * 2 ^ 320 + l.f * 2 ^ 352 + l.b * 2 ^ 384 + l.h * 2 ^ 416 + l.z * 2 ^ 448 + l.a * 2 ^ 480

/-- The header in 64 bytes; `ok` says that MAGIC and VER are right. The X section follows the Z section. -/
def headerFrom (n : Nat) : RecordHeader :=
  let off (lo : Nat) := nBits n lo 32
  { layout := ⟨off 256, off 288, off 320, off 352, off 384, off 416, off 448, 0, off 480⟩
    restpc := nW64 n 192, launched := BitVec.ofNat 32 (nBits n 160 32), live := BitVec.ofNat 32 (nBits n 128 32)
    cause := BitVec.ofNat 8 (nBits n 120 8), tm := n.testBit 112, nreplay := nBits n 96 16, peer := nBits n 86 2
    role := nBits n 84 2, span := nBits n 81 3, sregs := nBits n 72 9, ztiles := nBits n 64 8, vregs := nBits n 53 11
    kind := nBits n 40 8, ok := nBits n 0 32 = 0x5AFE0C7A && nBits n 32 8 = 0x01 }

/-! ## The F section (R265, R461) -/

/-- Resume states in ascending PC order, those of one PC and counter as one (R461). -/
def insertKept (x : KeptSide) : List KeptSide → List KeptSide
  | [] => [x]
  | y :: r =>
    if x.pc = y.pc && x.ctr = y.ctr then { y with lanes := y.lanes ||| x.lanes } :: r
    else if x.pc.toNat < y.pc.toNat then x :: y :: r
    else y :: insertKept x r

def sliceSides (kept : List KeptSide) (slice : Nat) : List KeptSide :=
  (kept.filter fun k => k.slice = slice && k.lanes != 0).foldl (fun l k => insertKept k l) []

/-- The four lanes of a slice, of a lane mask. -/
def nibble (m : Mask) (slice : Nat) : Nat := nBits m.toNat (4 * slice) 4

/-- Of the sides of a slice above the running side: the one that its record holds as pending, which stands at the second PC with
the running side's counter (R461). -/
def pendingKept (x : KeptSide) (r : List KeptSide) : Option KeptSide :=
  (r.find? fun y => y.pc != x.pc).bind fun next => r.find? fun y => y.pc = next.pc && y.ctr = x.ctr

/-- A slice's record: running side, and a pending side of the same counter (R265, R461). -/
def sliceRecord (kept : List KeptSide) (slice : Nat) (region : W64) : Nat :=
  match sliceSides kept slice with
  | [] => region.toNat * 2 ^ 192
  | x :: r =>
    x.pc.toNat + x.ctr.toNat * 2 ^ 64 + nibble x.lanes slice * 2 ^ 96
      + (match pendingKept x r with
         | some y => nibble y.lanes slice * 2 ^ 100 + y.pc.toNat * 2 ^ 128
         | none => 0)
      + x.region.toNat * 2 ^ 192

/-- The sides of a slice that its record cannot hold (R461). -/
def sideReplays (kept : List KeptSide) (slice : Nat) : List KeptSide :=
  match sliceSides kept slice with
  | [] => []
  | x :: r => r.filter fun y => pendingKept x r != some y

/-- A replay record (R266, R461). -/
structure Replay where
  type : Nat
  mask : Mask
  pc : W64
  block : Nat
  deriving DecidableEq, Repr

def Replay.bits (r : Replay) : Nat := r.type + r.mask.toNat * 2 ^ 8 + r.pc.toNat * 2 ^ 64 + r.block * 2 ^ 128
def replayFrom (n : Nat) : Replay := ⟨nBits n 0 8, BitVec.ofNat 32 (nBits n 8 32), nW64 n 64, nBits n 128 128⟩

/-- TYPE 5 records of every slice. -/
def splitReplays (kept : List KeptSide) : List Replay :=
  (List.range 8).flatMap fun i => (sideReplays kept i).map fun k => ⟨5, k.lanes, k.pc, k.ctr.toNat⟩

/-- A rejoin record (R265). -/
def rejoinBits (r : Rejoin) : Nat := r.named.toNat + r.arrived.toNat * 2 ^ 32 + r.state * 2 ^ 64
def rejoinFrom (n : Nat) : Rejoin := ⟨nBits n 64 2, BitVec.ofNat 32 (nBits n 0 32), BitVec.ofNat 32 (nBits n 32 32)⟩

/-- The trap block with a cause (R265). -/
def trapBits (g : Group) (cause : BitVec 8) : Nat :=
  g.epc.toNat + g.eaddr.toNat * 2 ^ 64 + g.replay.toNat * 2 ^ 128 + cause.toNat * 2 ^ 160 + g.rcount.toNat * 2 ^ 192
    + g.cmp.toNat * 2 ^ 256

/-- j7 of a record is the trap bank while TM = 1 (R330). -/
def recordRejoin (g : Group) (j : Nat) : Rejoin := if j = 7 && g.tm then g.rejoinTrap else getRejoin g j false

/-- The F section's bytes. -/
def fSection (g : Group) (slices : Nat → Nat) (cause : BitVec 8) : List Byte :=
  ((List.range 8).flatMap fun i => leBytes 32 (slices i)) ++ ((List.range 8).flatMap fun j => leBytes 16 (rejoinBits (recordRejoin g j)))
    ++ leBytes 48 (trapBits g cause)

/-- A handle's 32 bytes (R187, R264). -/
def handleBits (h : Handle) : Nat :=
  h.hdr.toNat + h.addr.toNat * 2 ^ 128 + (if h.v then 2 ^ 192 else 0) + (if h.sp then 2 ^ 193 else 0) + h.peer.toNat * 2 ^ 194
def handleFrom (n : Nat) : Handle :=
  ⟨BitVec.ofNat 2 (nBits n 194 2), n.testBit 193, n.testBit 192, nW64 n 128, BitVec.ofNat 128 (nBits n 0 128)⟩
def hSection (g : Group) : List Byte := (List.range 32).flatMap fun i => leBytes 32 (handleBits (getHandle g i))

/-! ## What a restore gives back (R266, R270) -/

/-- A fresh side of a restored group. -/
def restoredSide (tm : Bool) (slice : Nat) (lanes : Mask) (pc : W64) (ctr : W32) (st : SideSt) : Side :=
  { slice, lanes, pc, ctr, handler := tm, only := allLanes, noGuard := false, ph := none, limit := 0, held := none, st }

/-- The sides of one slice: running, pending, then the TYPE 5 sides in record order (R461). DESIGN CHOICE, log
entry 97: a recorded PC that is no multiple of 16 is taken as it is, and its fetch raises 0x03 (R38). -/
def restoredSlice (tm : Bool) (live : Mask) (rec_ : Nat → Nat) (replays : List Replay) (slice : Nat) : List Side :=
  let n := rec_ slice
  let lanes (lo : Nat) : Mask := BitVec.ofNat 32 (nBits n lo 4 * 2 ^ (4 * slice)) &&& live
  let ctr : W32 := BitVec.ofNat 32 (nBits n 64 32)
  [restoredSide tm slice (lanes 96) (nW64 n 0) ctr .running, restoredSide tm slice (lanes 100) (nW64 n 128) ctr .pending]
    ++ (replays.filter fun r => r.type = 5).map fun r =>
        restoredSide tm slice (r.mask &&& sliceMask slice &&& live) r.pc (BitVec.ofNat 32 r.block) .pending

/-- A replay of TYPE 2 to 4: its lanes issue the word at its PC once more, without their guard (R266). -/
def reissue (r : Replay) (x : Side) : Side :=
  if (r.type = 2 || r.type = 3 || r.type = 4) && x.lanes &&& r.mask != 0 then
    { x with pc := r.pc, only := r.mask, noGuard := true }
  else x

/-- Everything `crest.go` puts back into a group from a record (R265, R266, R270). -/
def restoreGroup (g : Group) (h : RecordHeader) (slices : Nat → Nat) (rejoins : Nat → Nat) (trap : Nat) (handles : Option (Nat → Nat))
    (replays : List Replay) : Group :=
  let sides := (List.range 8).flatMap (restoredSlice h.tm (h.live &&& h.launched) slices replays)
  let sides := sides.map fun x => replays.foldl (fun x r => reissue r x) x
  let sides := normSides sides
  let one (i : Nat) : List KeptSide :=
    let mine := sides.filter fun x => x.slice = i
    (mine.head?.map fun x => KeptSide.mk i (mine.foldl (fun m y => m ||| y.lanes) 0) x.pc x.ctr (nW64 (slices i) 192) none).toList
  let kept := if h.tm then (List.range 8).flatMap one else []
  let g := { g with
    sides := sides, regions := (List.range 8).map fun i => nW64 (slices i) 192
    rejoin := (List.range 8).map fun j => (j, if h.tm && j = 7 then Rejoin.clear else rejoinFrom (rejoins j))
    rejoinTrap := if h.tm then rejoinFrom (rejoins 7) else Rejoin.clear
    tm := h.tm, trapLanes := if h.tm then h.live else 0, kept := kept, cmp := nW64 trap 256, rcount := nW64 trap 192
    cause := if h.kind = 1 then 0x10 else BitVec.ofNat 8 (nBits trap 160 8)
    replay := BitVec.ofNat 32 (nBits trap 128 32), eaddr := nW64 trap 64, epc := nW64 trap 0
    restoring := false, saving := false, stopping := false, gateKept := [] }
  match handles with
  | some hs => { g with handles := ((List.range 32).map fun i => (i, handleFrom (hs i))).filter fun p => p.2 != Handle.blank }
  | none => g

/-- A TRACE that a forced save abandoned, from its replay record and the word at its PC (R436); `learnRay` gives it its ray. -/
def traceReplay (g : Group) (core ctx : Nat) (r : Replay) (f : Fields) : List AsyncOp :=
  (lanesOf r.mask).map fun L =>
    { id := 0, batch := 0, kind := .trace, gid := g.id, team := g.team, core := core, ctx := ctx, lane := L, scope := f.scope,
      dst := BitVec.ofNat 64 (nBits r.block 0 64 + 32 * L), src := 0, dstShare := false, srcShare := false, len := 32, pos := 1,
      window := none, dstH := Handle.blank, srcH := Handle.blank, conv := 0, kb := false, cw := false, tsp := f.mod.getLsbD 2,
      tol := false, target := nW64 r.block 64, value := BitVec.ofNat 64 (nBits r.block 0 64), drec := 0, req := 0, bytes := 0
      srcRanges := [], dstRanges := [⟨none, (nBits r.block 0 64 + 32 * L) % 2 ^ 64, 32⟩], pc := r.pc, moved := false,
      whole := false, failed := false, waiting := none, audits := none }

/-- A WAITS that a record issues again has for its limit the S(D) that the restore has put back, whichever of its slices reads it
first (R170, R266). -/
def fixLimits (s : State) (gid : Nat) (replays : List Replay) : State :=
  (replays.filter fun r => r.type = 4).foldl (fun s r =>
    match (getGroup s gid).bind fun g => (fieldsAt s g r.pc).map fun f => (g, f) with
    | none => s
    | some (g, f) =>
      let due := waitsDue (coreNow s g.core) (getS g f.d.toNat)
      let mine (x : Side) : Bool := x.noGuard && x.pc = r.pc && x.only = r.mask
      setGroup s { g with sides := g.sides.map fun x => if mine x then { x with limit := due } else x }) s

/-- The operations of TRACE that a record's TYPE 1 replays create again (R436). -/
def traceReplays (s : State) (gid : Nat) (replays : List Replay) : State :=
  (replays.filter fun r => r.type = 1).foldl (fun s r =>
    match getGroup s gid with
    | none => s
    | some g =>
      match fieldsAt s g r.pc with
      | some f =>
        let learn (acc : State × List AsyncOp) (o : AsyncOp) : State × List AsyncOp := match learnRay acc.1 o with
          | (s, .inr o) => (s, acc.2 ++ [o])
          | (s, .inl _) => (s, acc.2 ++ [o])
        let (s, ops) := (traceReplay g g.core (ctxOf s g) r f).foldl learn (s, [])
        enterOps s ops r.mask (32 * countLanes r.mask)
      | none => s) s

/-! ## Pre-emption and restore of a context (R257, R260) -/

/-- Groups of a context that are resident, in the order of their admission, those of one cycle by core and slot (R262). -/
def residentGroups (s : State) (ctx : Nat) : List Group :=
  let key (g : Group) : Nat := ((g.admitted.toNat * 2048 + g.core) * 64 + g.slot) * 2 ^ 64 + g.id
  (s.groups.filter fun g => ctxOf s g = ctx && g.st != .exited && g.st != .saved).foldl (fun l g => putBy key g l) []

/-- A group told of a pre-empt request: its record's address and its deadline, then sr.preq (R260, R262). -/
def tellGroup (s : State) (save : W64) (p : Group × Nat) : State :=
  match launchOf s p.1 with
  | none => s
  | some l =>
    setGroup s { p.1 with
      savearea := save + BitVec.ofNat 64 (p.2 * 4096 * l.blk.recsz), deadline := BitVec.ofNat 64 l.blk.deadline,
      preq := true, recordIndex := p.2 }

/-- A pre-empt request of a RUNNING context (R257, R260). -/
def startPreempt (s : State) (ctx : Nat) : State :=
  let c := getCtx s ctx
  let s := setCtx s { c with st := .preempting, heldPreempt := false, nextRecord := (residentGroups s ctx).length }
  let s := (residentGroups s ctx).zipIdx.foldl (fun s p => tellGroup s c.save p) s
  let s := { s with teams := s.teams.map fun t => if t.ctx = ctx then { t with preqAt := some (coreNow s (t.cores.headD 0)) } else t }
  if residentGroups s ctx = [] then owe s (.contextSaved ctx) else s

/-- A group has passed `crest.go`; when every group of its context has, the context is RUNNING (R257), and its nodes move on (R298). -/
def groupRestored (s : State) (ctx : Nat) : State :=
  let c := getCtx s ctx
  if c.st = .restoring && !s.groups.any (fun g => ctxOf s g = ctx && (g.restoring || g.st = .saved)) then
    let s := settleCtxOps (setCtx s { c with st := .running, savedTeams := [], savedGroups := [], savedHeld := [] }) ctx false
    let s := (s.graphs.filter fun gr => gr.ctx = ctx && gr.run).foldl (fun s gr => ((getGraph s gr.num).map (afterNodes s)).getD s) s
    if c.heldPreempt then startPreempt s ctx else s
  else s

/-- A capacity mismatch in a restore: every team admitted for the attempt is terminated and scrubbed, as `dropTeam` ends one, the
records stay, and the teams' groups are SAVED again as the save left them, with the record slots that they held then (R257, R270,
R308, R405). Their stores go home, as at every end of a group (R214). A pre-empt request held meanwhile finds the context SAVED and
ends (DESIGN CHOICE, log entry 82). -/
def abortRestore (s : State) (ctx : Nat) : State :=
  let c := getCtx s ctx
  let mine (tid : Nat) : Bool := c.savedTeams.contains tid
  let there (tid : Nat) : Bool := s.teams.any fun t => t.id = tid
  let ended := s.groups.filter fun g => mine g.team
  let gids := ended.map Group.id
  let slot (r : RecordRef) : Nat × Nat × Nat := (r.graph, r.edge, r.seq)
  let kept := c.savedHeld.filter fun h => there h.1
  let s := ended.foldl drainGroup s
  let s := freeRecords s fun h => mine h.1 && !kept.any fun k => slot k.2 = slot h.2
  let s : State := { s with
    groups := (s.groups.filter fun g => !mine g.team) ++ c.savedGroups.filter fun g => there g.team
    teams := s.teams.map fun t => if mine t.id then { t with cores := [], scratch := [], unstarted := [] } else t
    bins := s.bins.filter fun b => !mine b.team
    ops := s.ops.filter fun o => !mine o.team
    gsigs := s.gsigs.filter fun x => !mine x.team
    held := (s.held.filter fun h => !mine h.1) ++ kept
    waits := s.waits.filter fun w => !gids.contains w.gid
    deferred := s.deferred.filter fun d => !gids.contains d.gid
    loads := s.loads.filter fun l => !gids.contains l.gid
    mmas := s.mmas.filter fun m => !gids.contains m.gid }
  let s := ((s.launches.filter fun (l : Launch) => l.ctx = ctx).foldl (fun s l => setLaunch s (measure s l)) s : State)
  settleCtxOps (wakeLocked (setCtx s { c with st := .saved, heldPreempt := false })) ctx true

/-! ## Waits that enter the save gate (R351) -/

/-- Withdraw n arrivals from a team barrier (R344); with none to withdraw nothing changes. -/
def barWithdraw (s : State) (tid b n : Nat) : State :=
  match (if n = 0 then none else getTeam s tid) with
  | none => s
  | some t =>
    let x := getBarrier s t b
    setBarrier s t b { x with arrived := x.arrived - n, state := if x.arrived - n = 0 then 0 else x.state }

/-- The object of a lane of a BAR.m, which its arrival has checked; the range-lock table stops no withdrawal (R218, R351). -/
def objPlace (s : State) (v : Env) (f : Fields) (va : W64) : State × Checked :=
  if f.opm9 then (s, .ok (.share (shareKey (f.e.extractLsb' 0 2).toNat (va.toNat % 2 ^ 32)))) else checkPage s v va (atomicOf 16)

/-- One lane of a BAR.m: its arrival is withdrawn unless its phase has completed; whether it was released (R351).
DESIGN CHOICE, log entry 130: where the object's page cannot be had at that moment, nothing is withdrawn. -/
def objWithdrawLane (g : Group) (f : Fields) (ph : Mask) (acc : State × Mask) (L : Nat) : State × Mask :=
  let v := envOf acc.1 g
  match objPlace acc.1 v f (memAddr g f L) with
  | (s, .ok t) =>
    let old := match t with
      | .mem host pa _ => readNat (if host then s.hostMem else s.mem) pa 16
      | .share k => readNat (((getTeam s v.team).map Team.scratch).getD []) k 16
      | .trigger _ => 0
    if objPhase old != ph.getLsbD L then (s, acc.2 ||| laneBit L) else ((atomicTarget s v t 16 objWithdraw).1, acc.2)
  | (s, _) => (s, acc.2)

/-- Where a waiting side resumes after a save: the lanes that resume at the waiting word, the others after it; arrivals
withdrawn (R351). A BAR.m that has arrived waits until its phase is seen to have completed. None for a side that does not wait
at a JOIN or a barrier. -/
def barrierWait (s : State) (g : Group) (x : Side) : State × Option Mask :=
  match x.ph, fieldsAt s g x.pc with
  | some (_, p1), some f =>
    let (s, out) := (lanesOf (x.only &&& x.lanes)).foldl (objWithdrawLane g f p1) (s, 0)
    (s, some (x.only &&& x.lanes &&& ~~~out))
  | _, _ =>
  match x.st with
  | .join _ _ => (s, some x.lanes)
  | .park (.bar b p0 p1) =>
    let w := (p0 ||| p1) &&& x.lanes
    (barWithdraw s g.team b (countLanes w), some w)
  | .park (.bwait _ woken) => (s, some (if woken then 0 else x.only &&& x.lanes))
  | .park (.barObj _) => (s, some (x.only &&& x.lanes))
  | _ => (s, none)

/-- The resume state of a side's lanes, as kept for CSAVE. -/
def keepSide (g : Group) (x : Side) (lanes : Mask) (pc : W64) : KeptSide := ⟨x.slice, lanes, pc, x.ctr, g.regions.getD x.slice 0, none⟩
def keepSplit (g : Group) (x : Side) (stay : Mask) : List KeptSide :=
  [keepSide g x (x.lanes &&& stay) x.pc, keepSide g x (x.lanes &&& ~~~stay) (x.pc + 16)].filter fun k => k.lanes != 0

/-- Sides of a group that wait at a JOIN or a barrier enter the save gate (R351). -/
def gateWaiters (s : State) (gid : Nat) : State :=
  match getGroup s gid with
  | none => s
  | some g =>
    let step (acc : State × List Side × List KeptSide) (x : Side) : State × List Side × List KeptSide :=
      match barrierWait acc.1 g x with
      | (s, some stay) => (s, acc.2.1 ++ [{ x with st := .gateSave, ph := none, only := allLanes }], acc.2.2 ++ keepSplit g x stay)
      | (s, none) => (s, acc.2.1 ++ [x], acc.2.2)
    let (s, sides, kept) := g.sides.foldl step (s, [], [])
    let s := { s with waits := s.waits.filter fun w => !(w.gid = gid && (sides.any fun x => x.st = .gateSave && x.lanes.getLsbD w.lane)) }
    barSettle (setGroup s { g with sides := sides, gateKept := g.gateKept ++ kept }) g.team

end Sys2Proof.Machine
end

