-- ==== Sys2Proof/Machine/System.lean ====
section
/-! DEFINITION. Traps, special registers, the timer, and context save and restore by software, class 13 (R270, R324, R327,
R331 to R335). -/

namespace Sys2Proof.Machine

/-! ## Traps (R331, R332) -/

/-- TRAP: sr.replay the active lanes, sr.eaddr 0 (R331). -/
def execTrap (f : Fields) (s : State) : Res :=
  issue (.trap f) (fun s F => onceFor s F f fun act => .trap s 0x0F 0 act) s

/-- Lanes of a side at a gather: they wait in a state, the others go on at PC + 16. -/
def gatherSide (act : Mask) (st : SideSt) (x : Side) : List Side :=
  [{ x with lanes := x.lanes &&& act, st := st }, { x.goto (x.pc + 16) with lanes := x.lanes &&& ~~~act }].filter
    fun x => x.lanes != 0

/-- The active lanes of F wait in a state (R332, R335). -/
def gather (g : Group) (k : Side) (act : Mask) (st : SideSt) : Group :=
  { g with sides := g.sides.flatMap fun x => if k.sameFragment x then gatherSide act st x else [x] }

/-- TRET: 0 plain, 1 fine, 2 skip; outside trap mode an illegal instruction (R332). -/
def execTret (f : Fields) (s : State) : Res :=
  issue (.tret f) (fun s F =>
    if !(F.g.tm && F.key.handler) then plainTrap s 0x01 F.lanes
    else onceFor s F f fun act => .placed (setGroup s (gather F.g F.key act (.gateTret (f.mod.extractLsb' 0 2).toNat)))) s

/-- REGION: the region PC of every slice of F, and sr.rcount; nothing in trap mode (R327). -/
def execRegion (f : Fields) (s : State) : Res :=
  issue (.region f) (fun s F => onceFor s F f fun _ =>
    if F.g.tm && F.key.handler then .done s
    else
      let in_ (i : Nat) : Bool := F.lanes &&& sliceMask i != 0
      let regions := F.g.regions.zipIdx.map fun p => if in_ p.2 then F.key.pc else p.1
      .done (setGroup s { F.g with regions := regions, rcount := F.g.rcount + 1 })) s

/-! ## Pre-emption (R334, R335) -/

/-- PYIELD: the active lanes go to the save gate, with the group's lanes that wait at a JOIN or a barrier (R334, R351). -/
def execPyield (f : Fields) (s : State) : Res :=
  issue (.pyield f) (fun s F => onceFor s F f fun act =>
    if !F.g.preq || F.g.tm || F.g.saving then .done s
    else
      let mine := F.g.sides.filter fun x => F.key.sameFragment x
      let kept := (mine.map fun x => keepSide F.g x (x.lanes &&& act) (x.pc + 16)).filter fun k => k.lanes != 0
      let g := { gather F.g F.key act .gateSave with gateKept := F.g.gateKept ++ kept }
      .placed (gateWaiters (setGroup s g) F.g.id)) s

/-- HALT: in a save routine the active lanes wait for every live lane; else they end (R335). -/
def execHalt (f : Fields) (s : State) : Res :=
  issue (.halt f) (fun s F => onceFor s F f fun act =>
    if F.g.saving && !(F.g.tm && F.key.handler) then .placed (setGroup s (gather F.g F.key act .gateHalt))
    else .placed (endLanes (advance s F.g.id F.key) F.g.id act)) s

/-! ## The timer and the special registers (R322 to R324, R333) -/

/-- The timer armed with a value (R333). -/
def armTimer (s : State) (g : Group) (rel : Bool) (v : W64) : State :=
  setGroup s { g with cmp := if v = 0 then 0 else if rel then s.now + v else v }

/-- B of TIMER and SWR: a 64-bit uniform value. -/
def uniform64 (s : State) (F : Frag) (f : Fields) (act : Mask) : W64 := BitVec.ofNat 64 (bitsB s F.g f 4 (lowestLane act))

/-- TIMER (R333). -/
def execTimer (f : Fields) (s : State) : Res :=
  issue (.timer f) (fun s F => onceFor s F f fun act =>
    .done (armTimer s F.g (f.mod.getLsbD 0) (uniform64 s F f act))) s

/-- The lowest slice with lanes of a fragment (R322). -/
def lowestSlice (F : Frag) : Nat := ((List.range 8).find? fun i => F.lanes &&& sliceMask i != 0).getD 0

/-- A special register as a lane reads it (R322). -/
def specialReg (s : State) (F : Frag) (n L : Nat) : W64 :=
  let g := F.g
  let t := getTeam s g.team
  let l := launchOf s g
  let ofTeam (h : Team → Nat) : W64 := BitVec.ofNat 64 ((t.map h).getD 0)
  let ofLaunch (h : Launch → Nat) : W64 := BitVec.ofNat 64 ((l.map h).getD 0)
  let c := getCtx s (ctxOf s g)
  match n with
  | 0 => BitVec.ofNat 64 L
  | 1 => BitVec.ofNat 64 g.index
  | 2 => ofTeam Team.x
  | 3 => ofTeam Team.y
  | 4 => ofTeam Team.z
  | 5 => ofLaunch fun l => l.blk.gx
  | 6 => ofLaunch fun l => l.blk.gy
  | 7 => ofLaunch fun l => l.blk.gz
  | 8 => BitVec.ofNat 64 g.role
  | 9 => ofTeam fun t => t.cores.length
  | 10 => BitVec.ofNat 64 g.peer
  | 11 => (liveLanes g).setWidth 64
  | 12 => g.launched.setWidth 64
  | 13 => F.lanes.setWidth 64
  | 14 => (liveLanes g &&& ~~~F.lanes).setWidth 64
  | 15 => s.now
  | 16 => g.cmp
  | 17 => if g.preq then 1 else 0
  | 18 => g.deadline
  | 19 => g.regions.getD (lowestSlice F) 0
  | 20 => g.rcount
  | 21 => g.cause.setWidth 64
  | 22 => g.epc
  | 23 => g.eaddr
  | 24 => g.replay.setWidth 64
  | 25 => g.trapbase
  | 26 => g.savearea
  | 27 => ofTeam fun t => t.cov.toNat
  | 28 => g.seed
  | 29 => BitVec.ofNat 64 c.num
  | 30 => BitVec.ofNat 64 c.part
  | _ => ofLaunch Launch.frame

/-- SRD: per lane, or once for the highest active lane (R37, R324). -/
def execSrd (f : Fields) (s : State) : Res :=
  issue (.srd f) (fun s F =>
    let act := activeOf F f
    let v (L : Nat) : Nat := (specialReg s F f.a.toNat L).toNat
    if f.ds then .done (setGroup s (writeScalar F.g f.d.toNat true act (v (highestLane act))))
    else .done (setGroup s (writeLanes F.g f.d.toNat (f.mod.getLsbD 0) act v))) s

/-- SWR: sr.cmp, sr.trapbase, sr.savearea (R324). -/
def execSwr (f : Fields) (s : State) : Res :=
  issue (.swr f) (fun s F => onceFor s F f fun act =>
    let v := uniform64 s F f act
    match f.d.toNat with
    | 16 => .done (armTimer s F.g false v)
    | 25 => if v.extractLsb' 0 4 != 0 then plainTrap s 0x03 act else .done (setGroup s { F.g with trapbase := v })
    | _ =>
      if v.extractLsb' 0 12 != 0 then plainTrap s 0x03 act
      else if (F.g.tm && F.key.handler) || F.g.saving || F.g.restoring then .done (setGroup s { F.g with savearea := v })
      else plainTrap s 0x05 act) s

/-! ## CSAVE and CREST (R269, R270) -/

/-- The lowest failing byte of several ranges (R269). -/
def checkExtents (s : State) (v : Env) (a : Access) (spans : List (W64 × Nat)) : State × Option RangeFault :=
  spans.foldl (fun acc p =>
    match checkSpan acc.1 v a false p.1 p.2 with
    | (s, none) => (s, acc.2)
    | (s, some x) => (s, match acc.2 with
      | some y => if x.va.toNat < y.va.toNat then some x else some y
      | none => some x)) (s, none)

/-- Bytes written at dev scope at a checked address. -/
def writeSpan (s : State) (v : Env) (va : W64) (bs : List Byte) : State :=
  (cutPieces va.toNat 0 (bs.length / 128 + 2) bs.length).foldl
    (fun s p => (sideWrite s v 3 false va p.off ((bs.drop p.off).take p.len)).1) s

/-- n bytes read at a checked address, as a number. -/
def readSpan (s : State) (v : Env) (va : W64) (n : Nat) : State × Nat :=
  match sideRead s v false va 0 n with
  | (s, .inr bs) => (s, leNat bs)
  | (s, .inl _) => (s, 0)

/-- A capacity mismatch is logged, and is a fault (R259, R270). DESIGN CHOICE, log entry 123: where the fault ends the team, its
termination is a second entry. -/
def capacityTrap (s : State) (F : Frag) (a : W64) (act : Mask) : Act :=
  .trap (logContext s (ctxOf s F.g) 0x12 (some F.g.core) a 0) 0x12 a act
/-- One that CREST raises goes to Bronze while the context is RESTORING, where every resident group has been admitted for the
restore (R257, R262, R270). -/
def capacityFault (s : State) (F : Frag) (a : W64) (act : Mask) : Act :=
  let ctx := ctxOf s F.g
  if (getCtx s ctx).st = .restoring then .placed (abortRestore (logContext s ctx 0x12 (some F.g.core) a 0) ctx)
  else capacityTrap s F a act

/-- The budgets of a group's role (R289). -/
def budgetsOf (s : State) (g : Group) : Nat × Nat × Nat :=
  match roleOf s g with
  | some r => (r.vregs, r.sregs, r.ztiles)
  | none => (0, 0, 0)

/-- The header that a save of a group writes (R263, R270). -/
def headerOf (s : State) (g : Group) (restpc : W64) (kind : Nat) (cause : BitVec 8) (replays : Nat) : RecordHeader :=
  let (vr, sr, zt) := budgetsOf s g
  let span := spanOf s g.team
  let lay := layoutOf vr sr zt (span * shareSize s g.team) replays (leaderOf s g.team = some g.id)
  { layout := lay, restpc := restpc, launched := g.launched, live := liveLanes g, cause := cause, tm := g.tm, nreplay := replays,
    peer := g.peer, role := g.role, span := span, sregs := sr, ztiles := zt, vregs := vr, kind := kind, ok := true }

/-- Parts of a record at their addresses: those whose section is present. -/
def recordSpans (a : W64) (l : Layout) (replays : Nat) : List (W64 × Nat) :=
  let at_ (off : Nat) : W64 := a + BitVec.ofNat 64 off
  [(a, 64), (at_ l.f, fBytes), (at_ l.h, 1024)] ++ (if replays = 0 then [] else [(at_ l.a, 32 * replays)])

/-- Slice records of a save; a group with no resume state held since PYIELD has free values there (R270, log entry 9). -/
def savedSlices (s : State) (g : Group) : State × (Nat → Nat) :=
  if g.saving then (s, fun i => sliceRecord g.gateKept i (g.regions.getD i 0))
  else
    let (n, s) := freeNat s
    (s, fun i => n / 2 ^ (256 * i) % 2 ^ 256)

/-- CSAVE (R270). -/
def execCsave (f : Fields) (s : State) : Res :=
  issue (.csave f) (fun s F => onceFor s F f fun act =>
    let a := getS F.g f.a.toNat
    if a.extractLsb' 0 12 != 0 then .trap s 0x03 a act
    else if act != liveLanes F.g then capacityTrap s F a act
    else
      let v := envOf s F.g
      let replays := if F.g.saving then splitReplays F.g.gateKept else []
      let h := headerOf s F.g (getS F.g f.b.toNat) 0 0 replays.length
      match checkExtents s v byteWrite (recordSpans a h.layout replays.length) with
      | (s, some x) => concludeWith v.core v.ctx s [⟨lowestLane act, x.cause, x.va, x.pa⟩] act
      | (s, none) =>
        let (s, slices) := savedSlices s F.g
        let at_ (off : Nat) : W64 := a + BitVec.ofNat 64 off
        let s := writeSpan s v a (leBytes 64 h.bits)
        let s := writeSpan s v (at_ h.layout.f) (fSection F.g slices F.g.cause)
        let s := writeSpan s v (at_ h.layout.h) (hSection F.g)
        .done (if replays = [] then s else writeSpan s v (at_ h.layout.a) (replays.flatMap fun r => leBytes 32 r.bits))) s

/-- The header at a record address as CREST finds it: checked, and tested against the group (R270). -/
inductive HeaderTest where
  | fits (s : State) (h : RecordHeader)
  | ends (x : Act)

/-- DESIGN CHOICE, log entry 101: a record whose LIVE has a lane outside Active(F) is a capacity mismatch (R269). -/
def testHeader (s : State) (F : Frag) (act : Mask) (a : W64) : HeaderTest :=
  if a.extractLsb' 0 12 != 0 then .ends (.trap s 0x03 a act)
  else
    let v := envOf s F.g
    match checkExtents s v byteRead [(a, 64)] with
    | (s, some x) => .ends (concludeWith v.core v.ctx s [⟨lowestLane act, x.cause, x.va, x.pa⟩] act)
    | (s, none) =>
      let (s, n) := readSpan s v a 64
      let h := headerFrom n
      let (vr, sr, zt) := budgetsOf s F.g
      let bad := !h.ok || h.span != spanOf s F.g.team || h.role != F.g.role || vr < h.vregs || sr < h.sregs || zt < h.ztiles
        || h.launched != F.g.launched || h.live &&& ~~~act != 0
      if bad then .ends (capacityFault s F a act) else .fits s h

/-- CREST.chk (R270). -/
def execCrestChk (f : Fields) (s : State) : Res :=
  issue (.crestChk f) (fun s F => onceFor s F f fun act =>
    match testHeader s F act (getS F.g f.a.toNat) with
    | .ends x => x
    | .fits s _ => .done s) s

/-- The k-th of the n-byte units of a section. -/
def unitOf (section_ n k : Nat) : Nat := section_ / 2 ^ (8 * n * k) % 2 ^ (8 * n)

/-- The replay records of a record. -/
def recordReplays (s : State) (v : Env) (a : W64) (h : RecordHeader) : State × List Replay :=
  let (s, as) := if h.layout.a = 0 then (s, 0) else readSpan s v (a + BitVec.ofNat 64 h.layout.a) (32 * h.nreplay)
  (s, if h.layout.a = 0 then [] else (List.range h.nreplay).map fun k => replayFrom (unitOf as 32 k))

/-- A core's range-lock table has an entry for every lane whose TRACE replays create again; with none free they wait (R16, R217,
R436). -/
def traceRoom (s : State) (core : Nat) (rs : List Replay) : Bool :=
  let n := (rs.filter fun r => r.type = 1).foldl (fun n r => n + countLanes r.mask) 0
  n = 0 || lockEntries s core + n ≤ 256

/-- A group's divergence state, handles and replays from its record (R270). -/
def restoreFrom (s : State) (v : Env) (gid : Nat) (a : W64) (h : RecordHeader) (replays : List Replay) : State :=
  let at_ (off : Nat) : W64 := a + BitVec.ofNat 64 off
  let (s, fs) := if h.layout.f = 0 then (s, 0) else readSpan s v (at_ h.layout.f) fBytes
  let (s, hs) := if h.layout.h = 0 then (s, none) else
    let (s, n) := readSpan s v (at_ h.layout.h) 1024
    (s, some n)
  let rejoins := fs / 2 ^ (8 * 256)
  let s := updGroup s gid fun g =>
    let gone := g.launched &&& ~~~h.live
    let g := restoreGroup g h (unitOf fs 32) (unitOf rejoins 16) (fs / 2 ^ (8 * 384)) (hs.map fun n => unitOf n 32) replays
    let g := { g with st := if g.tm && g.st = .active then .trapped else g.st }
    (List.range 8).foldl (fun g j => rejoinDepart g gone j false) g
  fixLimits (traceReplays s gid replays) gid replays

/-- CREST.go (R270): lanes outside LIVE end, which no team barrier counts as a departure (R343), and every slice goes where its
record says; where its replays need more range-lock entries than are free, it is held (R217). -/
def execCrestGo (f : Fields) (s : State) : Res :=
  issue (.crestGo f) (fun s F => onceFor s F f fun act =>
    let a := getS F.g f.a.toNat
    match testHeader s F act a with
    | .ends x => x
    | .fits s h =>
      let v := envOf s F.g
      let spans := ((recordSpans a h.layout h.nreplay).drop 1).filter fun p => p.1 != a
      match checkExtents s v byteRead spans with
      | (s, some x) => concludeWith v.core v.ctx s [⟨lowestLane act, x.cause, x.va, x.pa⟩] act
      | (s, none) =>
        let (s, rs) := recordReplays s v a h
        if !traceRoom s v.core rs then .placed (parkFrag s F.g.id F.key act .rangeLock)
        else
          let s := restoreFrom s v F.g.id a h rs
          .placed (groupRestored s (ctxOf s F.g))) s

end Sys2Proof.Machine
end

