-- ==== Sys2Proof/Machine/Sched.lean ====
section
/-! DEFINITION. Events of groups and fragments: waits that resolve, promotion, the timer, faults of the word to be issued,
REFORM draws, and the end of a team (R62, R169 to R171, R197, R314 to R317, R333, R336, R338, R370, R471). -/

namespace Sys2Proof.Machine

/-! ## Waits that resolve (R314, R315) -/

/-- The side after its dependence has resolved; none while it has not. A word that waits in its middle (LDF, RGET, REMIT, ADRAIN)
goes on for the lanes that it still owes, whose guard has been read. -/
def resolved (s : State) (x : Side) : Option Side :=
  let again := some { x with st := .running }
  let within := some { x with noGuard := true, st := .running }
  let next := some { x.goto (x.pc + 16) with st := .running }
  match x.st with
  | .park (.load id) => if s.loads.any fun l => l.id = id then none else again
  | .park (.mma id) => if s.mmas.any fun m => m.id = id then none else again
  | .park (.bar _ p0 p1) => if p0 = 0 && p1 = 0 then next else none
  | .park (.bwait _ woken) => if woken then next else none
  | .park (.waita w) | .park (.waits w) | .park (.barObj w) => if w then again else none
  | .park (.ldf w fault) => if w then some { x with noGuard := true, held := fault, st := .running } else none
  | .park (.record w) => if w then within else none
  | .park .rangeLock => again
  | .park (.drain _) => within
  | _ => none

/-- A side of a wait on a team barrier. -/
def atBarrier (x : Side) : Bool :=
  match x.st with
  | .park (.bar _ _ _) | .park (.bwait _ _) => true
  | _ => false

/-- A BLOCKED group of which a dependence resolves (R314). -/
def unblock (s : State) (g : Group) : Group :=
  if g.st = .blocked then
    { g with st := if !g.placed then .pending else if g.tm then .trapped else .active, since := coreNow s g.core }
  else g

/-- Sides that wait as one. -/
def Side.sameWait (a b : Side) : Bool := ({ a with st := .running } : Side).sameFragment { b with st := .running } && a.st = b.st

/-- The fault that a fragment's LDF raises once its lanes are answered (R150, R165). -/
def Side.answeredFault (x : Side) : Option HeldFault :=
  match x.st with
  | .park (.ldf true fault) => if x.only = 0 then fault else none
  | _ => none

/-- A fragment whose LDF is answered raises the fault of its other lanes. -/
def raiseAnswered (s : State) (g : Group) (x : Side) (h : HeldFault) : State :=
  let back (y : Side) : Side := if x.sameWait y then { y with only := allLanes, st := .running } else y
  let s := setGroup s { unblock s g with sides := g.sides.map back }
  settle (raise s g.id { x with only := allLanes, st := .running } h.cause h.eaddr h.replay) g.id

/-- The sides of a group whose dependences have resolved run again; RELEASED barriers settle (R344). -/
def resolveGroup (s : State) (g : Group) : State :=
  match g.sides.findSome? fun x => x.answeredFault.map fun h => (x, h) with
  | some (x, h) => owe (raiseAnswered s g x h) (.dependenceResolved g.id)
  | none =>
  let sides := g.sides.map fun x => (resolved s x).getD x
  if sides = g.sides then s
  else
    let met := g.sides.any fun x => atBarrier x && (resolved s x).isSome
    let s := setGroup s (unblock s { g with sides := sides })
    let s := if met then barSettle (syncClk s g.core) g.team else s
    settle s g.id

/-- DEPENDENCE_RESOLVED (R314). -/
def execDependenceResolved (gid : Nat) (s : State) : Res :=
  match getGroup s gid with
  | none => .fault (.noSuchObject "group")
  | some g => .next (resolveGroup s g)

/-- LOAD_DATA_RETURN: the load's data is there; its waiters resolve (R221, R315). -/
def execLoadDataReturn (load : Nat) (s : State) : Res :=
  match s.loads.find? fun l => l.id = load with
  | none => .fault (.noSuchObject "load")
  | some l => .next (owe { s with loads := s.loads.filter fun x => x.id != load } (.dependenceResolved l.gid))

/-- WAITA_WAKE: a write to the line has become visible at its home (R169). -/
def execWaitaWake (host : Bool) (line : Nat) (s : State) : Res := .next (wakeLine s host line)

/-- Lanes of the sides that wait on lines. -/
def lineWaiters (g : Group) : Mask :=
  g.sides.foldl (fun m x => match x.st with
    | .park (.waita _) | .park (.waits _) | .park (.barObj _) => m ||| x.lanes
    | _ => m) 0

/-- WAITA_POLL: lanes that found the registrations full read again (R169). -/
def execWaitaPoll (gid : Nat) (s : State) : Res :=
  match getGroup s gid with
  | none => .fault (.noSuchObject "group")
  | some g =>
    let s := unregister s gid (lineWaiters g)
    .next (resolveGroup s { g with sides := g.sides.map (wakeSide fun _ => true) })

/-- A WAITS whose limit has run out. -/
def limitPassed (now : W64) (x : Side) : Bool :=
  match x.st with
  | .park (.waits _) => x.limit != 0 && x.limit ≤ now.toNat
  | _ => false

/-- WAITS_LIMIT_EXPIRY: the fragment reads once more and goes on (R170). -/
def execWaitsLimitExpiry (gid : Nat) (s : State) : Res :=
  match getGroup s gid with
  | none => .fault (.noSuchObject "group")
  | some g =>
    let due := g.sides.filter (limitPassed (coreNow s g.core))
    if due = [] then .fault (.noSuchObject "expired WAITS")
    else
      let s := unregister s gid (due.foldl (fun m x => m ||| x.lanes) 0)
      .next (resolveGroup s { g with
        sides := g.sides.map fun x => if limitPassed (coreNow s g.core) x then { x with st := .park (.waits true) } else x })

/-! ## Promotion (R317) -/

/-- The group of the active set that makes room: the one BLOCKED longest, else the one longest in the set. -/
def demoted (set : List Group) : Option Group :=
  let oldest (key : Group → Nat) (l : List Group) : Option Group :=
    l.foldl (fun best g => match best with
      | some b => if key g < key b then some g else some b
      | none => some g) none
  (oldest (fun g => g.since.toNat) (set.filter fun g => g.st = .blocked)).or (oldest (fun g => g.activeSince.toNat) set)

/-- A group leaves the active set; a BLOCKED one stays BLOCKED until its dependence resolves (R314). -/
def demote (s : State) (g : Group) : State :=
  setGroup s { g with placed := false, st := if g.st = .blocked then .blocked else .pending, since := coreNow s g.core }

/-- GROUP_PROMOTE (R317). -/
def execGroupPromote (gid : Nat) (s : State) : Res :=
  match getGroup s gid with
  | none => .fault (.noSuchObject "group")
  | some g =>
    if g.st != .pending then .fault (.noSuchObject "PENDING group")
    else
      let set := activeSet s g.core g.slot
      let s := if set.length < 8 then s else
        match demoted set with
        | some d => demote s d
        | none => s
      .next (settle (setGroup s { g with
        placed := true, st := if g.tm then .trapped else .active, since := coreNow s g.core, activeSince := s.now }) gid)

/-! ## The timer (R333) -/

/-- A side parked in WAITA or WAITS, or in BWAIT.m, whose wait has WAITA's rules (R347). -/
def Side.waitsOnLine (x : Side) : Bool :=
  match x.st with
  | .park (.waita _) | .park (.waits _) => true
  | .park (.barObj _) => x.ph.isNone
  | _ => false

/-- A timer whose time has come: sr.cmp goes to 0 and the trap is owed, but with no handler (R329, R333). -/
def fireTimer (s : State) (g : Group) : Group :=
  let fires : Bool := g.cmp != 0 && g.cmp.toNat ≤ s.now.toNat
  { g with cmp := if fires then 0 else g.cmp, timerDue := (fires || g.timerDue) && g.trapbase != 0 }

/-- The timer trap of a fragment, taken at its next word (R328, R333): sr.eaddr is a free value, sr.replay its lanes that
are still owed that word. -/
def timerTrap (s : State) (g : Group) (k : Side) (lanes : Mask) : State :=
  let (n, s) := freeNat s
  settle (raise (setGroup s { g with timerDue := false }) g.id k 0x0E (BitVec.ofNat 64 n) (lanes &&& k.only)) g.id

/-- The timer trap of a fragment parked at a line; its registrations are withdrawn (R169). -/
def timerTrapParked (s : State) (g : Group) (x : Side) : State :=
  let mine := g.sides.filter x.sameWait
  let lanes := mine.foldl (fun m y => m ||| y.lanes) 0
  let s := unregister s g.id lanes
  let g := { unblock s g with sides := g.sides.map fun y => if x.sameWait y then { y with st := .running } else y }
  timerTrap (setGroup s g) g { x with st := .running } lanes

/-- A fired timer whose trap a fragment parked at a line can take (R329, R333). -/
def timerLate (g : Group) : Bool := g.timerDue && !g.tm && g.sides.any Side.waitsOnLine

/-- A resident group whose timer fires now, or whose fired timer a parked fragment takes now. -/
def timerReady (s : State) (g : Group) : Bool :=
  g.st != .exited && g.st != .saved && ((g.cmp != 0 && decide (g.cmp.toNat ≤ s.now.toNat)) || timerLate g)

/-- A group's timer fires: sr.cmp goes to 0, and the trap is owed; a fragment parked at a line takes it at once (R333). -/
def timerFires (s : State) (g : Group) : State :=
  let g := fireTimer s g
  let s := setGroup s g
  match (if g.tm || g.trapbase = 0 then none else g.sides.find? Side.waitsOnLine) with
  | some x => timerTrapParked s g x
  | none => s

/-- TIMER_FIRE (R333). -/
def execTimerFire (gid : Nat) (s : State) : Res :=
  match getGroup s gid with
  | none => .fault (.noSuchObject "group")
  | some g => if timerReady s g then .next (timerFires s g) else .fault (.noSuchObject "due timer")

/-- Every timer whose time has come fires, before anything else acts (R333). -/
def fireTimers (s : State) : State :=
  (s.groups.filter (timerReady s)).foldl (fun s g => ((getGroup s g.id).map (timerFires s)).getD s) s

/-! ## Faults of the word to be issued (R62, R370) -/

/-- ILLEGAL_INSTRUCTION: the issuing fragment meets a word that is no instruction (R62). -/
def execIllegalInstruction (word : W128) (s : State) : Res :=
  match issuing s with
  | none => .fault .noIssuer
  | some F =>
    match decode word with
    | .ok _ => .fault (.noSuchObject "illegal word")
    | .reject _ =>
      let lanes := if word.getLsbD 1 then F.lanes else wordReplay F (opField word) (fieldsOf word)
      .next (finish F.g.id F.key (plainTrap s 0x01 lanes))

/-- INSTRUCTION_FETCH_FAULT: sr.epc and sr.eaddr are the PC (R370); poison and partition violations go to both logs. -/
def execInstructionFetchFault (cause : BitVec 8) (s : State) : Res :=
  match issuing s with
  | none => .fault .noIssuer
  | some F =>
    let pa := match (fetchWord s F.g F.key.pc).2 with
      | .fault _ pa => pa
      | .word _ => 0
    let s := logLane s F.g.core (ctxOf s F.g) ⟨0, cause, F.key.pc, pa⟩
    .next (finish F.g.id F.key (.trap s cause F.key.pc F.lanes))

/-! ## The end of a team, and relaunch (R197, R336, R471) -/

/-- TEAM_TERMINATE (R336). -/
def execTeamTerminate (team : Nat) (cause : BitVec 8) (s : State) : Res :=
  match getTeam s team with
  | none => .fault (.noSuchObject "team")
  | some t => .next (fatalContext s t.ctx cause t.cores.head? 0)

/-- RELAUNCH_WALK: the front end walks the address a relaunch waits for (R471). -/
def execRelaunchWalk (team : Nat) (s : State) : Res :=
  match getTeam s team with
  | none => .fault (.noSuchObject "team")
  | some t =>
    match t.waiting with
    | none => .fault (.noSuchObject "team to relaunch")
    | some va =>
      let c := getCtx s t.ctx
      let s := setTeam s { t with walkedAt := some s.now }
      match walk s (getPart s c.part) c.root va with
      | .leaf _ _ _ => .next (owe (setTeam s { t with waiting := none, walkedAt := none }) (.teamPlace c.part))
      | _ => .next s

/-! ## REFORM draws (R338) -/

/-- A group at its start: converged at a PC, registers zero, special registers as R322's Reset column. -/
def freshGroup (s : State) (l : Launch) (team id index role peer core slot : Nat) (lanes : Mask) (pc : W64) : Group :=
  let room : Bool := (activeSet s core slot).length < 8
  { id, team, index, role, peer, core, slot, st := if room then .active else .pending, placed := room, since := coreNow s core,
    activeSince := s.now, launched := lanes,
    sides := ((List.range 8).map fun i => restoredSide false i (lanes &&& sliceMask i) pc 0 .running).filter fun x => x.lanes != 0,
    tm := false, trapLanes := 0, kept := [], regions := List.replicate 8 pc, vregs := [], sregs := [], preds := [],
    handles := [], ztiles := [], zheaders := [], rejoin := [], rejoinTrap := Rejoin.clear, cmp := 0, timerDue := false,
    rcount := 0, cause := 0, epc := 0, eaddr := 0, replay := 0, trapbase := l.blk.trapbase, savearea := 0, seed := l.blk.seed,
    preq := false, deadline := BitVec.ofNat 64 l.blk.deadline, gateKept := [], saving := false, restoring := false,
    saveDue := 0, yielded := false, stopping := false, admitted := s.now, recordIndex := 0, drawn := false, priorOps := [] }

/-- A drawn lane's registers. -/
def fillDrawn (g : Group) (p : BinLane × Nat) : Group :=
  let g := p.1.carried.zipIdx.foldl (fun g r => setV g r.2 p.2 r.1) g
  (List.range 4).foldl (fun g k => setP g k p.2 (p.1.preds.testBit k)) g

/-- The bin's age threshold (R338). -/
def ageLimit (p : Partition) : Nat := max 256 p.age.toNat

/-- A bin's group slots that are free: of groups that have EXITED, or are SAVED during a save (R338). What room a draw needs beside
its slot is the model's choice, drawRoom below (DESIGN CHOICE, log entry 115). -/
def freeSlot (s : State) (b : Bin) : Option Group :=
  s.groups.find? fun g => g.team = b.team && g.role = b.role && g.core = b.core && (g.st = .exited || g.st = .saved)
    && !s.groups.any fun o => o.core = g.core && o.slot = g.slot && o.id != g.id && o.st != .exited && o.st != .saved

/-- Groups resident on a core. -/
def onCore (s : State) (core : Nat) : List Group := s.groups.filter fun g => g.core = core && g.st != .exited && g.st != .saved
/-- What the groups of a core hold of a budget. -/
def held (s : State) (core : Nat) (h : Role → Nat) : Nat :=
  (onCore s core).foldl (fun n g => n + ((roleOf s g).map h).getD 0) 0

/-- The core of a bin has the registers and tiles of one more group of its role. DESIGN CHOICE, log entry 115: R338 asks for a free
slot only, but what an exited group held may be another team's by now (R292, R310), and a core has no more than it has (R16). -/
def drawRoom (s : State) (b : Bin) : Bool :=
  match (((getTeam s b.team).bind fun t => getLaunch s t.launch).map fun l => l.blk.roles[b.role]?).join with
  | some r => held s b.core Role.vregs + r.vregs ≤ 2048 && held s b.core Role.sregs + r.sregs ≤ 2048
      && held s b.core Role.ztiles + r.ztiles ≤ 128
  | none => false

/-- A draw is due (R338): the bin is full enough or old enough, no group of the team on the core can go on, or a
pre-emption is requested. -/
def drawDue (s : State) (b : Bin) : Bool :=
  let ctx := ((getTeam s b.team).map Team.ctx).getD 0
  let busy := s.groups.any fun g => g.team = b.team && g.core = b.core && (g.st = .active || g.st = .pending || g.st = .trapped)
  let oldest := (b.lanes.head?.map BinLane.arrived).getD (coreNow s b.core)
  b.lanes != [] && (freeSlot s b).isSome && drawRoom s b
    && (32 ≤ b.lanes.length || decide (ageLimit (getPart s (getCtx s ctx).part) < (coreNow s b.core - oldest).toNat) || !busy
        || (getCtx s ctx).st = .preempting)

/-- A group is drawn: no barrier counts its lanes in the phase in progress, from which some of them may have departed. -/
def setApart (s : State) (tid gid : Nat) (lanes : List BinLane) : State :=
  match getTeam s tid with
  | none => s
  | some t =>
    let gone (b : Nat) : Mask := maskOf ((lanes.zipIdx.filter fun p => p.1.departed.contains b).map Prod.snd)
    let one (p : Nat × TeamBarrier) : Nat × TeamBarrier :=
      (p.1, { p.2 with apart := p.2.apart ++ [(gid, maskOf (List.range lanes.length), gone p.1)] })
    setTeam s { t with barriers := t.barriers.map one }

/-- A drawn group of a context in pre-emption is told of it, with the next record index (R262, R338). -/
def tellDrawn (s : State) (g : Group) (l : Launch) (ctx : Nat) : State × Group :=
  let c := getCtx s ctx
  if c.st = .preempting then
    (setCtx s { c with nextRecord := c.nextRecord + 1 },
      { g with
        preq := true, recordIndex := c.nextRecord, savearea := c.save + BitVec.ofNat 64 (c.nextRecord * 4096 * l.blk.recsz) })
  else (s, g)

/-- Draw a new group from a bin into the slot of `old` (R338). -/
def drawGroup (s : State) (b : Bin) (old : Group) (l : Launch) : State :=
  let taken := b.lanes.take 32
  let id := s.nextId
  let s := setApart (fixBarriers s b.team) b.team id taken
  let g := freshGroup s l b.team id old.index b.role old.peer b.core old.slot (maskOf (List.range taken.length)) b.target
  let (s, g) := tellDrawn s (taken.zipIdx.foldl fillDrawn { g with
    drawn := true, priorOps := taken.zipIdx.flatMap fun p => p.1.ops.map fun o => (p.2, o) }) l l.ctx
  let back := taken.zipIdx.flatMap fun p => p.1.held.map fun r => (b.team, { r with gid := id, lane := p.2 })
  let rest := { b with lanes := b.lanes.drop 32 }
  let s := if rest.lanes = [] then { s with bins := s.bins.filter fun x => !(x.core = b.core && x.num = b.num) } else setBin s rest
  let s := if old.st = .exited then { s with groups := s.groups.filter fun x => x.id != old.id } else s
  let s := setLaunch s (occupy s l [b.core])
  { s with groups := s.groups ++ [g], held := s.held ++ back, nextId := id + 1 }

/-- REFORM_DRAW (R338). -/
def execReformDraw (core bin : Nat) (s : State) : Res :=
  match s.bins.find? fun b => b.core = core && b.num = bin with
  | none => .fault (.noSuchObject "REFORM bin")
  | some b =>
    match freeSlot s b, (getTeam s b.team).bind fun t => getLaunch s t.launch with
    | some old, some l => if drawDue s b then .next (drawGroup s b old l) else .next s
    | _, _ => .next s

end Sys2Proof.Machine
end

