-- ==== Sys2Proof/Machine/Coherence.lean ====
section
/-! DEFINITION. Logical clocks that advance and are rebased, and port periods (R213, R216, R219, R220). -/

namespace Sys2Proof.Machine

/-- A group is resident on a core. -/
def resident (s : State) (core : Nat) : Bool := s.groups.any fun g => g.core = core && g.st != .exited && g.st != .saved

/-- CLOCK_ADVANCE: a core with a resident group gains a tick (R213). -/
def execClockAdvance (core : Nat) (s : State) : Res :=
  if resident s core then
    let k := getCore s core
    .next (setCore s { k with clk := k.clk + 1 })
  else .fault (.noSuchObject "core with a resident group")

/-! ## Rebase (R216) -/

/-- A clock or stamp after the rebase; one below the base becomes 0, as if it had been the base (R216; DESIGN CHOICE, log entry 121). -/
def rebased (base : Nat) (x : BitVec 48) : BitVec 48 := BitVec.ofNat 48 (x.toNat - base)
/-- A copy after the rebase; none for one whose lease ends below the base (DESIGN CHOICE, log entry 121). -/
def Copy.rebased (base : Nat) (x : Copy) : Option Copy :=
  if x.le.toNat < base then none
  else some { x with ws := Machine.rebased base x.ws, le := Machine.rebased base x.le }

/-- Stamps of the lines for which p holds. -/
def rebaseStamps (base : Nat) (p : Nat → Bool) (m : SMap 48) : SMap 48 :=
  (m.map fun e => if p e.1 then (e.1, rebased base e.2) else e).filter fun e => e.2 != 0

/-- A core after the rebase. -/
def Core.rebased (base : Nat) (k : Core) : Core :=
  { k with clk := Machine.rebased base k.clk, l1 := k.l1.filterMap (Copy.rebased base) }

/-- Some clock of the partition has reached 2^47. -/
def clockHigh (s : State) (p : Partition) : Bool := s.cores.any fun k => coreIn p k.id && decide (2 ^ 47 ≤ k.clk.toNat)

/-- CLOCK_REBASE: one base leaves every clock, ws and le of the partition; the order of all of them is kept (R216). -/
def execClockRebase (part : Nat) (base : Nat) (s : State) : Res :=
  let p := getPart s part
  if clockHigh s p then
    let mine (line : Nat) : Bool := (homeDie p (128 * line)).isSome
    .next { s with
      cores := s.cores.map fun k => if coreIn p k.id then k.rebased base else k
      rdc := s.rdc.filterMap fun e => if mine e.2.line then (e.2.rebased base).map fun x => (e.1, x) else some e
      ws := rebaseStamps base mine s.ws, le := rebaseStamps base mine s.le
      hostWs := rebaseStamps base (fun k => k / 2 ^ 57 = part) s.hostWs
      hostLe := rebaseStamps base (fun k => k / 2 ^ 57 = part) s.hostLe
      devClk := rebaseStamps base (fun k => k = part) s.devClk }
  else .fault (.noSuchObject "clock at its limit")

/-! ## Port periods (R219, R220) -/

/-- A bucket at a period boundary: pool is what all left unused, and share the rates of those that ran dry. Transfers that
have waited for it take their tokens. -/
def Bucket.boundary (pool share rate cap : Nat) (b : Bucket) : Bucket :=
  ({ tokens := min (b.tokens + rate) (2 * rate), taken := 0, emptied := false, owed := 0,
     allot := if b.emptied then min cap (pool * rate / share) else 0 } : Bucket).take b.owed

/-- One slice port at a period boundary, for the bucketed contexts of its partition. -/
def portBoundary (cs : List Context) (s : State) (port : Nat × Nat) : State :=
  let of (c : Context) : Bucket := portBucket s c port.1 port.2
  let pool := cs.foldl (fun n c => n + (portRate c - (of c).taken)) 0
  let share := (cs.filter fun c => (of c).emptied).foldl (fun n c => n + portRate c) 0
  cs.foldl (fun t c => setPortBucket t c.num port.1 port.2 ((of c).boundary pool share (portRate c) (portCap c))) s

/-- The ports where a context of the partition has made a transfer. -/
def busyPorts (s : State) (cs : List Context) : List (Nat × Nat) :=
  ((s.ports.filter fun p => cs.any fun c => c.num = p.ctx).map fun p => (p.die, p.slice)).eraseDups

/-- PORT_PERIOD_BOUNDARY (R220): every slice port of the partition; one that no context has used since it was bucketed is the
same for all. -/
def execPortPeriodBoundary (part : Nat) (s : State) : Res :=
  let cs := s.ctxs.filter (bucketed part)
  let s := (busyPorts s cs).foldl (portBoundary cs) s
  .next { s with ctxs := s.ctxs.map fun c => if bucketed part c then { c with idle := c.idle.boundary 0 1 (portRate c) (portCap c) } else c }

end Sys2Proof.Machine
end

