-- ==== Sys2Proof/Machine/Pages.lean ====
section
/-! DEFINITION. Walks, the registers of the translation page, and range invalidation (R366 to R369). -/

namespace Sys2Proof.Machine

/-- PAGE_WALK: a miss on a die is walked; a valid leaf fills the TLB, an INVALID page posts a request (R364, R365, R368). -/
def execPageWalk (ctx die : Nat) (va : W64) (acc : PageAcc) (s : State) : Res :=
  if 4 ≤ die then .fault (.noSuchObject "die")
  else .next (translate s none die ctx va acc true false (loadedFor s ctx)).1

/-- TR_PRQ_WRITE: BASE, LOG2N and EN; a LOG2N above 7 changes nothing of LOG2N (R366). -/
def execTrPrqWrite (part : Nat) (value : W64) (s : State) : Res :=
  let p := getPart s part
  let n := (value.extractLsb' 8 4).toNat
  .next (setPart s { p with
    prqBase := value.extractLsb' 12 52 ++ (0 : BitVec 12), prqLog2n := if n < 8 then n else p.prqLog2n,
    prqEn := value.getLsbD 0 })

/-- The invalidation that the two registers describe. -/
def invalidationOf (p : Partition) : Invalidation :=
  let va : BitVec 57 := p.invAddr.extractLsb' 12 45 ++ (0 : BitVec 12)
  { asid := p.invCtl.extractLsb' 48 16, glob := p.invCtl.getLsbD 45, allas := p.invCtl.getLsbD 44, va := va.signExtend 64,
    npages := (p.invCtl.extractLsb' 0 40).toNat }

/-- An invalidation is accepted and pending; walks of its range that began before it end, and fill nothing (R369). -/
def beginInvalidation (s : State) (p : Partition) : State :=
  let i := invalidationOf p
  setPart { s with misses := s.misses.filter fun m => !i.removesMiss p.pid m }
    { p with pendingInv := p.pendingInv ++ [i], invSeq := p.invSeq + 1 }

/-- TR_INV_GO: an invalidation is accepted while fewer than 16 are pending (R369). -/
def execTrInvGo (part : Nat) (value : W64) (s : State) : Res :=
  let p := getPart s part
  if !value.getLsbD 0 then .next s
  else if 16 ≤ p.pendingInv.length then .next (setPart s { p with invovf := true })
  else .next (owe (beginInvalidation s p) (.invalidationComplete part))

/-- INVALIDATION_COMPLETE: the oldest pending invalidation has removed its entries, and DONE counts it (R369). -/
def execInvalidationComplete (part : Nat) (s : State) : Res :=
  if (getPart s part).pendingInv = [] then .fault (.noSuchObject "pending invalidation")
  else
    let s := completeInvalidation s part
    .next (if (getPart s part).pendingInv = [] then s else owe s (.invalidationComplete part))

end Sys2Proof.Machine
end

