-- ==== Sys2Proof/Machine/Packets.lean ====
section
/-! DEFINITION. Packets: their form and checks, what starts them, and SIGNAL, WAIT_SIGNAL, COPY, QUERY and FENCE (R279 to
R282). -/

namespace Sys2Proof.Machine

/-! ## The form of a packet (R281, R282) -/

/-- len bytes of a packet from byte `at_`. -/
def pk (n at_ len : Nat) : Nat := n / 2 ^ (8 * at_) % 2 ^ (8 * len)
def pkW (n at_ : Nat) : W64 := BitVec.ofNat 64 (pk n at_ 8)

/-- A failing field: its byte offset, the failing address or 0 (R275, R279), and the poison or violation that its check met. -/
structure BadField where
  at_ : Nat
  addr : W64
  item : Option LogItem
  deriving DecidableEq, Repr

/-- A field that fails when `bad` holds. -/
def fails (at_ : Nat) (bad : Bool) (addr : W64 := 0) (item : Option LogItem := none) : List BadField :=
  if bad then [⟨at_, addr, item⟩] else []

/-- The first failing field in packet order (R281). -/
def firstBad (l : List BadField) : Option BadField :=
  l.foldl (fun best x => match best with
    | some b => if x.at_ < b.at_ then some x else some b
    | none => some x) none

/-- Reserved bits of the header, and nonzero bytes that the packet does not list. -/
def reservedBad (n : Nat) (listed : List (Nat × Nat)) : List BadField :=
  fails 1 (nBits n 9 7 != 0) ++ fails 4 (nBits n 32 32 != 0)
    ++ (List.range 56).flatMap fun i =>
        fails (8 + i) (pk n (8 + i) 1 != 0 && !listed.any fun f => f.1 ≤ 8 + i && 8 + i < f.1 + f.2)

/-- An address range that does not lie aligned, or does not translate with a permission. -/
def rangeBad (s : State) (x : Queue) (at_ : Nat) (acc : PageAcc) (va : W64) (align len : Nat) : List BadField :=
  fails at_ (va.toNat % align != 0 || !spaceOk s (x.space s) acc va len) va
    ((x.space s).bind fun c => rangeItem s c acc va len)

/-- The field that fails takes to the logs what its check met (R259, R469; log entry 110). -/
def logField (s : State) (x : Queue) (b : BadField) : State :=
  match b.item with
  | some i => logItem s (x.space s) (pagePart s x.page) i
  | none => s

/-- What one TYPE of packet is: the event that executes it, its listed bytes, whether it always waits for the packets before
it, its checks, what delays its start, and its effect. -/
structure PacketForm where
  event : Instr
  listed : List (Nat × Nat)
  bar : Bool
  check : State → Queue → Nat → List BadField
  held : State → Queue → Nat → Bool
  effect : State → Queue → W32 → Nat → State

/-- The packet at the head of a queue, executed as one of a form. It waits while an earlier packet must complete first
(R280); it fails with no effect; or the head advances and it has its effect. -/
def runPacket (page q : Nat) (p : PacketForm) (s : State) : Res :=
  let x := getQueue s page q
  if !x.hasNext then .fault (.noSuchObject "packet")
  else match packetAt s x x.head with
    | (s, none) => .next (oweNext s page q)
    | (s, some n) =>
      if packetEvent (pagePriv s page) (x.space s).isNone page q n != some p.event then .next (oweNext s page q)
      else if (n.testBit 8 || p.bar) && x.started != [] then .next s
      else match firstBad (reservedBad n p.listed ++ p.check s x n) with
        | some b => .next (failPacket (logField s x b) x b.at_ b.addr)
        | none =>
          if p.held s x n then .next s
          else
            let (s, y) := advanceHead s x
            .next (advanceQueue (p.effect s y x.head n) page q)

/-- Nothing delays the start. -/
def neverHeld (_ : State) (_ : Queue) (_ : Nat) : Bool := false

/-- A packet with no lasting part. -/
def startPacket (s : State) (x : Queue) (p : Started) : State :=
  let x := getQueue s x.page x.q
  setQueue s { x with started := x.started ++ [p] }

/-! ## SIGNAL (R282) -/

def scopeBad (n at_ : Nat) : List BadField := fails at_ (pk n at_ 1 != 3 && pk n at_ 1 != 4)

/-- A write or a wrapping add of 8 bytes, a release (R282). -/
def signalWord (s : State) (x : Queue) (idx : W32) (va : W64) (value : Nat) (add : Bool) : State :=
  match spaceAddr s (x.space s) (if add then bothAcc else writeAcc) va with
  | (s, none) => packetError s x idx 8 va
  | (s, some (host, pa)) =>
    if !add then devWrite s host pa (leBytes 8 value)
    else match spaceRead s (x.space s) va 8 with
      | (s, none) => packetError s x idx 8 va
      | (s, some old) => devWrite s host pa (leBytes 8 ((leNat old + value) % 2 ^ 64))

def signalForm (page q : Nat) : PacketForm :=
  { event := .signal page q, listed := [(8, 8), (16, 8), (24, 1), (25, 1)], bar := true
    check := fun s x n =>
      rangeBad s x 8 (if pk n 24 1 = 0 then writeAcc else bothAcc) (pkW n 8) 8 8 ++ fails 24 (1 < pk n 24 1) ++ scopeBad n 25
    held := neverHeld, effect := fun s x i n => signalWord s x i (pkW n 8) (pk n 16 8) (pk n 24 1 = 1) }

/-- SIGNAL (R282). -/
def execSignal (page q : Nat) (s : State) : Res := runPacket page q (signalForm page q) s

/-! ## WAIT_SIGNAL (R279, R282) -/

/-- The comparisons of WAITA on a w64 (R168). -/
def waitHolds (cc : Nat) (x v : Nat) : Bool :=
  match cc with
  | 0 => x = v
  | 1 => x != v
  | 2 => x < v
  | 3 => x ≤ v
  | 4 => v < x
  | _ => v ≤ x

/-- The awaited word, read as an acquire: whether the condition holds; none where it cannot be read. -/
def awaitRead (s : State) (x : Queue) (a : Await) : State × Option Bool :=
  match spaceRead s (x.space s) a.addr 8 with
  | (s, some bs) => (s, some (waitHolds a.cc (leNat bs) a.value.toNat))
  | (s, none) => (s, none)

/-- Register the queue at the line's home (R169, R279). -/
def registerQueue (s : State) (x : Queue) (a : Await) : State :=
  match spaceAddr (unwait s x) (x.space s) readAcc a.addr with
  | (s, some (host, pa)) => { s with waits := s.waits ++ [⟨host, lineOf pa, queueWaiter x, 0⟩] }
  | (s, none) => s

/-- The condition holds: the wait is over, and the queue goes on. -/
def waitOver (s : State) (x : Queue) : State :=
  advanceQueue (setQueue (unwait s x) { x with st := .active, await := none, ready := false }) x.page x.q

/-- The awaited word cannot be read: the packet fails (R281). -/
def waitFailed (s : State) (x : Queue) (a : Await) : State := packetError (unwait s x) x a.idx 8 a.addr

/-- Park the queue in WAITING, registered; its slot may be taken by a ready queue (R277, R278). DESIGN
CHOICE, log entry 125: the wait that R277 and R278 compare is counted from here, anew after each swap. -/
def parkQueue (s : State) (x : Queue) (a : Await) : State :=
  let y := { x with st := .waiting, ready := false, parkedSince := s.now }
  oweSwap (spaceIdle (setQueue (registerQueue s x a) y) (x.space s))

/-- A wait begins. -/
def beginWait (s : State) (x : Queue) (a : Await) : State :=
  match awaitRead s x a with
  | (s, none) => waitFailed s x a
  | (s, some true) => s
  | (s, some false) => parkQueue s { x with await := some a, awaitSince := s.now, wdogFired := false } a

def waitForm (page q : Nat) : PacketForm :=
  { event := .waitSignal page q, listed := [(8, 8), (16, 8), (24, 1), (25, 1)], bar := false
    check := fun s x n => rangeBad s x 8 readAcc (pkW n 8) 8 8 ++ fails 24 (5 < pk n 24 1) ++ scopeBad n 25
    held := neverHeld
    effect := fun s x i n => beginWait s x ⟨i, pkW n 8, pk n 24 1, pkW n 16, pk n 25 1⟩ }

/-- WAIT_SIGNAL (R282). -/
def execWaitSignal (page q : Nat) (s : State) : Res := runPacket page q (waitForm page q) s

/-- WAIT_SIGNAL_WAKE: a write to the line: the queue reads again. One that is SWAPPED becomes ready (R277, R279). -/
def execWaitSignalWake (page q : Nat) (s : State) : Res :=
  let x := getQueue s page q
  match x.await with
  | none => .fault (.noSuchObject "waiting queue")
  | some a =>
    match awaitRead s x a with
    | (s, none) => .next (waitFailed s x a)
    | (s, some false) => .next (registerQueue s x a)
    | (s, some true) =>
      if x.st = .waiting then .next (waitOver s x)
      else if x.st = .swapped && !x.ready then
        .next (oweSwap (setQueue (registerQueue s x a) { x with ready := true, readySince := s.now }))
      else .next s

/-- A queue gives up its slot (R277, R278). -/
def swapOut (s : State) (x : Queue) : State := oweSwap (setQueue s { x with st := .swapped, ready := false })

/-- A ready queue receives a slot; one that waits reads again before it parks (R278, R279). -/
def swapIn (s : State) (x : Queue) : State :=
  match x.await with
  | none => advanceQueue (setQueue s { x with st := .active, ready := false }) x.page x.q
  | some a =>
    match awaitRead s x a with
    | (s, none) => waitFailed s x a
    | (s, some true) => waitOver s x
    | (s, some false) => parkQueue s x a

/-- QUEUE_SWAP: the WAITING queue that has waited longest leaves its slot to a ready one, or the queue that became ready
first takes a free slot (R278). -/
def execQueueSwap (page q : Nat) (s : State) : Res :=
  let x := getQueue s page q
  let first (o : Option Queue) : Bool := o.map Queue.key = some x.key
  if x.st = .waiting && !slotFree s && (firstReady s).isSome && first (longestWaiting s) then .next (swapOut s x)
  else if x.st = .swapped && x.ready && slotFree s && first (firstReady s) then .next (swapIn s x)
  else .fault (.noSuchObject "queue to swap")

/-- QUEUE_WAIT_TIMEOUT: 65,536 cycles of waiting (R277). -/
def execQueueWaitTimeout (page q : Nat) (s : State) : Res :=
  let x := getQueue s page q
  if x.st = .waiting && decide (65536 ≤ (s.now - x.parkedSince).toNat) then .next (swapOut s x)
  else .fault (.noSuchObject "queue waiting so long")

/-- The address of the first SIGNAL packet from ring index i on, n packets; 0 if there is none (R279). -/
def laterSignal (s : State) (x : Queue) (i : W32) : Nat → W64
  | 0 => 0
  | n + 1 =>
    match (packetAt s x i).2 with
    | some p => if pk p 0 1 = 3 then pkW p 8 else laterSignal s x (i + 1) n
    | none => laterSignal s x (i + 1) n

/-- A queue's watchdog is due: once for each WAIT_SIGNAL, after WDOG × 1024 cycles (R279). -/
def watchdogDue (s : State) (x : Queue) : Bool :=
  x.await.isSome && dWdog x.copy != 0 && !x.wdogFired && decide (1024 * dWdog x.copy ≤ (s.now - x.awaitSince).toNat)

/-- QUEUE_WATCHDOG: event 2; the queue stays waiting (R279). -/
def execQueueWatchdog (page q : Nat) (s : State) : Res :=
  let x := getQueue s page q
  match x.await with
  | none => .fault (.noSuchObject "waiting queue")
  | some a =>
    if watchdogDue s x then
      let (n, s) := freeNat s
      let later := laterSignal s x x.head (x.shadow - x.head).toNat
      .next (postEvent (setQueue s { x with wdogFired := true }) x 2 a.idx (n % 64) a.addr later)
    else .fault (.noSuchObject "queue waiting so long")

/-! ## COPY (R282) -/

def overlapping (a b len : Nat) : Bool := decide (a < b + len) && decide (b < a + len)

/-- DESIGN CHOICE, log entry 128: with LEN out of its range the packet fails with FIELD 24, and SRC and DST, which then have no extent,
are not looked up (R281, R282). -/
def copyForm (page q : Nat) : PacketForm :=
  { event := .copy page q, listed := [(8, 8), (16, 8), (24, 8), (32, 1)], bar := false
    check := fun s x n =>
      let len := pk n 24 8
      let ok : Bool := 1 ≤ len && len ≤ 2 ^ 32
      (if ok then rangeBad s x 8 readAcc (pkW n 8) 1 len ++ rangeBad s x 16 writeAcc (pkW n 16) 1 len
          ++ fails 16 (overlapping (pk n 8 8) (pk n 16 8) len)
        else fails 24 true) ++ scopeBad n 32
    held := neverHeld
    effect := fun s x i n =>
      let j : CopyJob := ⟨s.nextId, x.page, x.q, i, dCtx x.copy, pkW n 8, pkW n 16, pk n 24 8⟩
      owe (startPacket { s with copies := s.copies ++ [j], nextId := s.nextId + 1 } x (.copy j.id)) (.copyPacketComplete j.id) }

/-- COPY (R282). -/
def execCopy (page q : Nat) (s : State) : Res := runPacket page q (copyForm page q) s

/-- COPY_PACKET_COMPLETE: every byte has been written, and the release performed (R282). -/
def execCopyPacketComplete (copy : Nat) (s : State) : Res :=
  match s.copies.find? fun j => j.id = copy with
  | none => .fault (.noSuchObject "COPY packet")
  | some j =>
    let s := { s with copies := s.copies.filter fun k => k.id != copy }
    let mine (p : Started) : Bool := p = .copy copy
    match spaceRead s (some j.ctx) j.src j.len with
    | (s, none) =>
      let x := getQueue s j.page j.q
      let x := { x with started := x.started.filter fun p => !mine p }
      .next (advanceQueue (packetError s x j.idx 8 j.src) j.page j.q)
    | (s, some bs) =>
      let s := spaceWrite s (some j.ctx) j.dst bs
      .next (completePackets s (getQueue s j.page j.q) mine)

/-! ## QUERY (R253, R255, R282) -/

/-- The partition descriptor (R253). -/
def Partition.bits (p : Partition) : Nat :=
  p.pid + (if p.v then 2 ^ 3 else 0) + (if p.orderMode then 2 ^ 7 else 0) + p.qdies.toNat * 2 ^ 32 + p.elanes.toNat * 2 ^ 64
    + p.fesched.toNat * 2 ^ 72 + p.homing.toNat * 2 ^ 128 + p.elog.toNat * 2 ^ 192
/-- The context descriptor (R255). -/
def Context.bits (c : Context) : Nat :=
  c.st.code * 2 ^ 8 + c.asid.toNat * 2 ^ 32 + c.part % 8 * 2 ^ 48 + c.lease % 2 ^ 13 * 2 ^ 51 + c.ptroot.toNat * 2 ^ 320
    + c.save.toNat * 2 ^ 384 + c.elog.toNat * 2 ^ 448
/-- QSTATE (R274). -/
def QueueSt.code : QueueSt → Nat
  | .unmapped => 0 | .mapped => 1 | .active => 2 | .waiting => 3 | .swapped => 4 | .error => 5 | .drained => 6

def deficitOf (p : Partition) (t : Nat) : Int := ((p.deficit.find? fun d => d.1 = t).map Prod.snd).getD 0

/-- What QUERY writes; none where there is no such object. -/
def queryBytes (s : State) (x : Queue) (sel : Nat) : Option (List Byte) :=
  let p := pagePart s x.page
  match sel with
  | 0 => if p < 8 then some (leBytes 32 (getPart s p).bits) else none
  | 1 => (x.space s).map fun c => leBytes 64 (getCtx s c).bits
  | 2 => some (leBytes 4 x.head.toNat ++ leBytes 4 x.shadow.toNat ++ leBytes 8 x.st.code)
  | 3 =>
    if p < 8 then
      some ((List.range 16).flatMap fun t => leBytes 8 (BitVec.ofInt 64 (deficitOf (getPart s p) t)).toNat)
    else none
  | _ => none

def queryForm (page q : Nat) : PacketForm :=
  { event := .query page q, listed := [(8, 1), (16, 8)], bar := false
    check := fun s x n =>
      match queryBytes s x (pk n 8 1) with
      | none => fails 8 true
      | some bs => rangeBad s x 16 writeAcc (pkW n 16) 64 bs.length
    held := neverHeld
    effect := fun s x _ n => spaceWrite s (x.space s) (pkW n 16) ((queryBytes s x (pk n 8 1)).getD []) }

/-- QUERY (R282). -/
def execQuery (page q : Nat) (s : State) : Res := runPacket page q (queryForm page q) s

/-! ## FENCE (R282) -/

def fenceForm (page q : Nat) : PacketForm :=
  { event := .fencePacket page q, listed := [(8, 1)], bar := true, check := fun _ _ n => scopeBad n 8, held := neverHeld
    effect := fun s _ _ _ => s }

/-- FENCE (R282): every earlier packet has completed, and its writes are at their homes. -/
def execFencePacket (page q : Nat) (s : State) : Res := runPacket page q (fenceForm page q) s

end Sys2Proof.Machine
end

