-- ==== Sys2Proof/Machine/Solder.lean ====
section
/-! DEFINITION. Solder: reconstruction of a block, its audits, the controller, and RCON (R413 to R418). -/

namespace Sys2Proof.Machine

/-! ## The kernels (R414) -/

/-- Channels of an element. -/
def solderChannels (kind bits : Nat) : List Num :=
  match kind with
  | 0x10 => (List.range 4).map fun i => Num.ofQ ⟨(nBits bits (8 * i) 8 : Nat), 255⟩
  | 0x11 => (List.range 4).map fun i => decodeNum kF16 (nBits bits (16 * i) 16)
  | k => [decodeNum (tileKind k) bits]

/-- The width of a channel, and a channel's result rounded (R414). -/
def channelWidth (kind : Nat) : Nat := match kind with
  | 0x10 => 8
  | 0x11 => 16
  | k => kindWidth k
def channelBits (kind : Nat) (r : Num) : Nat :=
  match kind with
  | 0x10 => roundTo (.int false 8) (mulNum r (Num.ofInt 255)) 0
  | 0x11 => roundTo kF16 r 0
  | k => if 4 ≤ k && k ≤ 6 then roundTo (tileKind k) (decodeNum kF32 (roundTo kF32 r 0)) 0 else roundTo (tileKind k) r 0
def joinChannels (kind : Nat) (cs : List Nat) : Nat :=
  (cs.zipIdx.map fun p => p.1 * 2 ^ (channelWidth kind * p.2)).foldl (· + ·) 0

/-- A contributing point: its weight, its distance squared, and its bits. -/
structure Contributor where
  weight : Q
  dist : Nat
  bits : Nat
  deriving DecidableEq, Repr

/-- The weighted mean of values, with NaN and infinities (R414). -/
def weightedMean (xs : List (Q × Num)) : Num :=
  let vs := xs.map Prod.snd
  if vs.any Num.isNaN then defaultNaN
  else if vs.any (fun v => v = .inf false) && vs.any (fun v => v = .inf true) then defaultNaN
  else if vs.any fun v => v = .inf false then .inf false
  else if vs.any fun v => v = .inf true then .inf true
  else
    let top := xs.foldl (fun (a : Q) p => a.add (p.1.mul p.2.toQ)) ⟨0, 1⟩
    let w := xs.foldl (fun (a : Q) p => a.add p.1) ⟨0, 1⟩
    Num.ofQ (top.div w)

/-- The bits that Solder gives a point from its contributors, in row-major order; none where there is none. -/
def solderBits (kind : Nat) (qs : List Contributor) : Option Nat :=
  if qs = [] then none
  else if intKind kind then
    (qs.foldl (fun best q => match best with
      | some b => if q.dist < b.dist then some q else some b
      | none => some q) none).map Contributor.bits
  else
    let n := (solderChannels kind 0).length
    some (joinChannels kind ((List.range n).map fun i =>
      channelBits kind (weightedMean (qs.map fun q => (q.weight, (solderChannels kind q.bits).getD i (.zero false))))))

/-! ## Audits (R417) -/

/-- What a difference or a sum of differences is: an exact value, +∞, or NaN. -/
inductive Audit where
  | fin (q : Q)
  | inf
  | nan
  deriving DecidableEq, Repr

def Audit.add (a b : Audit) : Audit :=
  match a, b with
  | .nan, _ | _, .nan => .nan
  | .inf, _ | _, .inf => .inf
  | .fin x, .fin y => .fin (x.add y)

/-- The difference of one channel (R417). -/
def channelDiff (a b : Num) : Audit :=
  if a.isNaN || b.isNaN then .nan
  else if a.isInf || b.isInf then (if a = b then .fin ⟨0, 1⟩ else .inf)
  else .fin (a.toQ.sub b.toQ).abs

/-- The difference of two elements: the mean over the channels. -/
def elementDiff (kind a b : Nat) : Audit :=
  let xs := (solderChannels kind a).zip (solderChannels kind b)
  match (xs.map fun p => channelDiff p.1 p.2).foldl Audit.add (.fin ⟨0, 1⟩) with
  | .fin q => .fin (q.div (Q.ofInt xs.length))
  | x => x

/-! ## A block (R414, R417) -/

/-- What Solder works on: image, guide, the block's points with their kinds, and its code. -/
structure SolderJob where
  image : Handle
  guide : Option Handle
  points : List Point
  code : Nat
  deriving DecidableEq, Repr

def insideTile (h : W128) (x y : Nat) : Bool := x < hCols h && y < hRows h

/-- Bit runs of a block's elements inside a tile. -/
def blockRuns (h : W128) (ps : List Point) : List BitRun :=
  (ps.filter fun p => insideTile h p.x p.y).map fun p =>
    ⟨128 * hDataoff h + elementBit (hLayout h) (hPitch h) (kindWidth (hKind h)) p.y p.x, kindWidth (hKind h), false⟩

/-- The guide's value at a point; 0 without a guide, outside it, and where it is not finite (R414). -/
def guideAt (j : SolderJob) (m : Memory) (x y : Nat) : Q :=
  match j.guide with
  | none => ⟨0, 1⟩
  | some g =>
    if !insideTile g.hdr x y then ⟨0, 1⟩
    else
      match decodeNum (tileKind (hKind g.hdr)) (elementOf m g.hdr y x) with
      | .fin q => q
      | _ => ⟨0, 1⟩

def absDiff (a b : Nat) : Nat := if a ≤ b then b - a else a - b

/-- The points that contribute to a point (R414). -/
def nearPoints (j : SolderJob) (p : Point) : List Point :=
  let (sx, sy) := windowOf j.code
  j.points.filter fun q =>
    q.kind = 0 && insideTile j.image.hdr q.x q.y && absDiff q.x p.x < sx && absDiff q.y p.y < sy

/-- The contributors of a point (R414). -/
def contributors (j : SolderJob) (img gd : Memory) (p : Point) : List Contributor :=
  let (sx, sy) := windowOf j.code
  (nearPoints j p).map fun q =>
    let dx := absDiff q.x p.x
    let dy := absDiff q.y p.y
    let b := Q.ofInt ((sx - dx) * (sy - dy) : Nat)
    let g := ((guideAt j gd q.x q.y).sub (guideAt j gd p.x p.y)).abs
    ⟨b.div ((Q.ofInt 1).add ((Q.ofInt 16).mul g)), dx * dx + dy * dy, elementOf img j.image.hdr q.y q.x⟩

/-- The points that a fill gives a value, and with `audits` those it audits: inside the tile, with a contributor (R417). -/
def fillTargets (j : SolderJob) (audits : Bool) : List Point :=
  j.points.filter fun p =>
    insideTile j.image.hdr p.x p.y && (p.kind = 1 || (audits && p.kind = 2)) && nearPoints j p != []
/-- The points whose elements the fill of some points reads: contributors, audits, and points that share a byte with others (R417,
R470). -/
def readsFor (j : SolderJob) (ts : List Point) : List Point :=
  j.points.filter fun p =>
    (ts.any fun t => (nearPoints j t).contains p) || (ts.contains p && (p.kind = 2 || kindWidth (hKind j.image.hdr) % 8 != 0))
/-- The points whose guide elements weigh in it; the integer kernel has no weights (R414). -/
def guideReadsFor (j : SolderJob) (ts : List Point) : List Point :=
  if intKind (hKind j.image.hdr) then [] else j.points.filter fun p => ts.contains p || ts.any fun t => (nearPoints j t).contains p

/-- What points come to: skipped ones with their bits, the audits' sum and count. -/
structure SolderResult where
  fills : List (Point × Nat)
  sum : Audit
  count : Nat
  deriving DecidableEq, Repr

def solderPoints (j : SolderJob) (ts : List Point) (img gd : Memory) : SolderResult :=
  let k := hKind j.image.hdr
  ts.foldl (fun r p =>
    match solderBits k (contributors j img gd p) with
    | none => r
    | some b =>
      if p.kind = 1 then { r with fills := r.fills ++ [(p, b)] }
      else { r with sum := r.sum.add (elementDiff k b (elementOf img j.image.hdr p.y p.x)), count := r.count + 1 })
    ⟨[], .fin ⟨0, 1⟩, 0⟩

/-- The fill of some points at once: what they come to, or what stops it, with nothing written (R394, R417). It reads and writes only
what they need. -/
def fillPoints (s : State) (v : Env) (scope : Nat) (j : SolderJob) (ts : List Point) : State × (Halt ⊕ SolderResult) :=
  let ci := checkRuns s v j.image tileRead false (blockRuns j.image.hdr (readsFor j ts))
  let cg := match j.guide with
    | some g => checkRuns ci.s v g tileRead false (blockRuns g.hdr (guideReadsFor j ts))
    | none => ⟨ci.s, [], none⟩
  match ci.fault.or cg.fault with
  | some x => (cg.s, .inl (tileHalt x))
  | none =>
    let cw := checkRuns cg.s v j.image tileWrite false (blockRuns j.image.hdr (ts.filter fun p => p.kind = 1))
    match cw.fault with
    | some x => (cw.s, .inl (tileHalt x))
    | none =>
      let (s, img) := readPlaces cw.s v ci.places
      let (s, gd) := readPlaces s v cg.places
      let r := solderPoints j ts img gd
      let out := r.fills.foldl (fun m p => putElement m j.image.hdr p.1.y p.1.x p.2) img
      match writeMarked s v j.image scope cw.places out with
      | (s, some h) => (s, .inl h)
      | (s, none) => (s, .inr r)

/-- The fill point by point, up to the first that is stopped: the writes already made remain (R394, R419). -/
def fillEach (s : State) (v : Env) (scope : Nat) (j : SolderJob) (ts : List Point) : State × (Halt ⊕ SolderResult) :=
  ts.foldl (fun acc p => match acc with
    | (s, .inl h) => (s, .inl h)
    | (s, .inr r) =>
      match fillPoints s v scope j [p] with
      | (s, .inl h) => (s, .inl h)
      | (s, .inr x) => (s, .inr ⟨r.fills ++ x.fills, r.sum.add x.sum, r.count + x.count⟩)) (s, .inr ⟨[], .fin ⟨0, 1⟩, 0⟩)

/-- The fill of a block: at once where nothing stops it. -/
def fillBlock (s : State) (v : Env) (scope : Nat) (j : SolderJob) (audits : Bool) : State × (Halt ⊕ SolderResult) :=
  match fillPoints s v scope j (fillTargets j audits) with
  | (s, .inl _) => fillEach s v scope j (fillTargets j audits)
  | x => x

/-! ## The controller (R415) -/

def AuditSum.value (a : AuditSum) : Audit :=
  match a.kind with
  | 0 => .fin ⟨a.num, a.den⟩
  | 1 => .inf
  | _ => .nan
def AuditSum.from (a : Audit) (count : Nat) : AuditSum :=
  match a with
  | .fin q => ⟨q.n.toNat, q.d, 0, count⟩
  | .inf => ⟨0, 1, 1, count⟩
  | .nan => ⟨0, 1, 2, count⟩
def AuditSum.add (a b : AuditSum) : AuditSum := .from (a.value.add b.value) (a.count + b.count)

/-- The code and the sums after an update of the controller (R415). -/
def covUpdate (now : W64) (l : Launch) : Launch :=
  let c := l.cov
  let (lo, hi) := covBounds l.blk
  let target := (decodeNum kF32 (covTarget l.blk)).toQ
  let code :=
    if c.audits.count = 0 || !covControls l.blk then c.code
    else
      match c.audits.value with
      | .nan => c.code
      | .inf => max lo (c.code - 1)
      | .fin q =>
        match decodeNum kF32 (roundTo kF32 (Num.ofQ (q.div (Q.ofInt c.audits.count))) 0) with
        | .inf _ => max lo (c.code - 1)
        | x => if (target.mul ⟨5, 4⟩).lt x.toQ then max lo (c.code - 1)
               else if x.toQ.lt (target.mul ⟨1, 2⟩) then min hi (c.code + 1) else c.code
  { l with cov := { c with audits := ⟨0, 1, 0, 0⟩, code := code, changed := some (now, c.codeAt now), added := 0 } }

/-- The code that a node's next run starts at is the code its run has come to, be the run ended or not (R415). -/
def keepCovCode (s : State) (l : Launch) : State :=
  match l.graph with
  | some (gn, i) => if l.blk.coven then updNode s gn i fun n => { n with covCode := some l.cov.code } else s
  | none => s

/-- An update of the controller. -/
def updateCoverage (s : State) (l : Launch) : State := keepCovCode (setLaunch s (covUpdate s.now l)) (covUpdate s.now l)

/-- COVERAGE_UPDATE (R415). -/
def execCoverageUpdate (id : Nat) (s : State) : Res :=
  match getLaunch s id with
  | none => .fault (.noSuchObject "launch")
  | some l => .next (updateCoverage s l)

/-- A block's sum and count enter the launch's, once per block and run; the 4096th block since the last update brings one at once
(R415). -/
def contribute (s : State) (l : Launch) (block : Nat) (a : AuditSum) : State :=
  match l.cov.blocks.find? fun b => b.block = block with
  | none => s
  | some b =>
    if b.audited then s
    else
      let mark (x : BlockRecord) : BlockRecord := if x.block = block then { x with audited := true } else x
      let c : Coverage := { l.cov with audits := l.cov.audits.add a, added := l.cov.added + 1, blocks := l.cov.blocks.map mark }
      let l := { l with cov := c }
      if 4096 ≤ c.added then updateCoverage s l else setLaunch s l

/-! ## RCON (R416 to R418) -/

/-- Checks of R182 to R184 for RCON: cause and address. -/
def rconCheck (a : Handle) (g : Option Handle) : Option (BitVec 8 × W64) :=
  let guideBad (h : Handle → Bool) : Bool := match g with
    | some x => h x
    | none => false
  let gaddr := (g.map Handle.addr).getD 0
  if !handleOk a then some (0x07, a.addr)
  else if guideBad fun x => !handleOk x then some (0x07, gaddr)
  else if !dataShapeOk a.hdr then some (0x08, a.addr)
  else if guideBad fun x => !dataShapeOk x.hdr || hRows x.hdr != hRows a.hdr || hCols x.hdr != hCols a.hdr then some (0x08, gaddr)
  else if hSparse a.hdr != 0 || hScale a.hdr != 0 then some (0x09, a.addr)
  else if guideBad fun x => !(1 ≤ hKind x.hdr && hKind x.hdr ≤ 3) || hSparse x.hdr != 0 || hScale x.hdr != 0 then some (0x09, gaddr)
  else none

/-- The points of a team's block; each is kept in a launch with COVEN = 0 (R418). -/
def rconPoints (l : Launch) (t : Team) : List Point :=
  match recordOf l t with
  | some b => if l.blk.coven then teamPoints l t b else blockPoints (8 * t.x) (8 * t.y) 0 0 0 0 0
  | none => blockPoints (8 * t.x) (8 * t.y) 0 0 0 0 0

/-- The range checks of a tile's runs for a fragment's operation, with the lock table. -/
def checkTileRange (s : State) (v : Env) (h : Handle) (a : Access) (rs : List BitRun) : State × Option RangeFault :=
  let c := checkRuns s v h a true rs
  (c.s, c.fault.map fun x => { x with absent := false })

/-- The next RCON of a team's block is the block's first of the run (R415, R417). -/
def firstRcon (l : Launch) (t : Team) : Bool := (recordOf l t).any fun b => !b.claimed
/-- A team's block has issued its first RCON. -/
def claimRcon (s : State) (l : Launch) (t : Team) : State :=
  let mark (b : BlockRecord) : BlockRecord := if b.block = teamIndex l.blk t then { b with claimed := true } else b
  setLaunch s { l with cov := { l.cov with blocks := l.cov.blocks.map mark } }

/-- RCON at issue (R393, R417). -/
def execRcon (f : Fields) (s : State) : Res :=
  issue (.rcon f) (fun s0 F => onceFor s0 F f fun act =>
    let v := envOf s0 F.g
    let c := commandOf F.g f
    let c := { c with tol := false, kb := f.opm9 }
    let L := lowestLane act
    let a := getHandle F.g f.a.toNat
    let g := if f.opm9 then some (getHandle F.g f.b.toNat) else none
    match c.targetBad with
    | some y => commandTrap s0 act y
    | none =>
      match rconCheck a g with
      | some (cause, va) => shapeTrap s0 act cause va
      | none =>
        match launchOf s0 F.g, getTeam s0 F.g.team with
        | some l, some t =>
          let ps := rconPoints l t
          let src := match g with
            | some x => [fun s => checkTileRange s v x tileRead (blockRuns x.hdr ps)]
            | none => []
          let checks := src ++ [fun s => checkTileRange s v a tileWrite (blockRuns a.hdr ps)] ++ targetChecks v c false
          match firstFault s0 checks with
          | (s, some y) => concludeWith v.core v.ctx s [⟨L, y.cause, y.va, y.pa⟩] act
          | (s, none) =>
            let o := { blankOp F v c .rcon L with
              dstH := a, srcH := g.getD Handle.blank, dstRanges := tileRanges a (blockRuns a.hdr ps)
              audits := if firstRcon l t then some ⟨0, 1, 0, 0⟩ else none
              srcRanges := match g with
                | some x => tileRanges x (blockRuns x.hdr ps)
                | none => [] }
            let room : Bool := lockEntries s0 v.core < 256
            let s := if room then claimRcon s l t else s
            issueOps s0 F v act ⟨s, [o], 0, []⟩ (64 * ceilDiv (kindWidth (hKind a.hdr)) 8)
        | _, _ => .done s0) s

/-- The completion of RCON's operation, then its audits to the controller: none where the team has ended first (R415, R417). -/
def finishRcon (s : State) (o : AsyncOp) (block : Option (Nat × Nat)) : State :=
  let s := completeBatch (setOp s o) o
  if (getOp s o.id).isSome || (getCtx s o.ctx).st = .faulted then s
  else match block, o.audits with
    | some (launch, b), some a => ((getLaunch s launch).map fun l => contribute s l b a).getD s
    | _, _ => s

/-- The movement of RCON: the fill, with the audits of the block's first RCON, which its issue has marked, then the completion
action (R415, R417). -/
def moveRcon (s : State) (o : AsyncOp) : State :=
  let done (a : Option AuditSum) : AsyncOp := { o with moved := true, whole := true, waiting := none, audits := a }
  match getTeam s o.team, (getTeam s o.team).bind fun t => getLaunch s t.launch with
  | some t, some l =>
    let block := some (l.id, teamIndex l.blk t)
    if o.moved then finishRcon s (done o.audits) block
    else
      let rec_ := recordOf l t
      let j : SolderJob :=
        ⟨o.dstH, if o.kb then some o.srcH else none, rconPoints l t, (rec_.map BlockRecord.code).getD 0⟩
      match fillBlock s (opEnv s o) o.scope j o.audits.isSome with
      | (s, .inl (.absent va)) => setOp s { o with waiting := some va }
      | (s, .inl (.fault c va pa)) => engineFault s o c va pa
      | (s, .inr r) => finishRcon s (done (o.audits.map fun _ => .from r.sum r.count)) block
  | _, _ => finishRcon s (done none) none

end Sys2Proof.Machine
end

