-- ==== Sys2Proof/Machine/Graphs.lean ====
section
/-! DEFINITION. Graph images and LOAD_GRAPH, and the TRIGGER packet (R282, R295 to R297, R379, R387, R422). -/

namespace Sys2Proof.Machine

/-! ## Fields of an image (R295 to R297) -/

/-- n bytes of an image from an offset, as a number. -/
def imgNum (img : List Byte) (at_ n : Nat) : Nat := leNat ((img.drop at_).take n)

def nodeFrom (n : Nat) : Node :=
  { kind := nBits n 0 4, unit := nBits n 4 4, pred := nBits n 16 16, succ0 := nBits n 64 32, nsucc := nBits n 32 16,
    lboff := nBits n 96 32, word := nW64 n 128, count := nW64 n 192, bodyF := nBits n 256 14, bodyL := nBits n 272 14,
    ntrue := nBits n 288 16, st := .idle, counter := 0, taken := false, skip := false, iterations := 0, covCode := none,
    lastCost := none, waiting := none, config := none, outbox := [], owned := true, stale := false }

def edgeFrom (n : Nat) : Edge :=
  { src := nBits n 0 14, dst := nBits n 16 14, isRec := n.testBit 32, remote := n.testBit 33, away := false,
    oport := nBits n 40 3, iport := nBits n 43 3, edgeId := nBits n 48 16, buf := nW64 n 64, log2cap := nBits n 128 8,
    rparam := nW64 n 192, head := 0, tail := 0, taken := 0, freed := [], closed := false }

/-- A parsed image: its header's fields, its tables, and where they stand. -/
structure Image where
  bytes : List Byte
  trigva : W64
  args : W64
  nodes : List Node
  edges : List Edge
  deriving DecidableEq, Repr

def imgNodes (img : List Byte) : Nat := nBits (imgNum img 0 64) 32 18
def imgEdges (img : List Byte) : Nat := nBits (imgNum img 0 64) 96 16
def nodeAt (i : Nat) : Nat := 64 + 64 * i
def edgeAt (nn i : Nat) : Nat := 64 + 64 * nn + 32 * i

def parseImage (img : List Byte) : Image :=
  let h := imgNum img 0 64
  let nn := imgNodes img
  { bytes := img, trigva := nW64 h 128, args := nW64 h 192
    nodes := (List.range nn).map fun i => nodeFrom (imgNum img (nodeAt i) 64)
    edges := (List.range (imgEdges img)).map fun i => edgeFrom (imgNum img (edgeAt nn i) 32) }

/-! ## What fails an image: the offsets of failing bytes (R295) -/

/-- The header. -/
def headerErrors (img : List Byte) : List Nat :=
  let h := imgNum img 0 64
  errorIf 0 (nBits h 0 16 != 0x6A7F) ++ errorIf 2 (nBits h 16 8 != 0x01)
    ++ nonzeroBytes (onlyBits h [(24, 8), (50, 46), (112, 16), (256, 256)]) 64
    ++ errorIf 4 (imgNodes img = 0 || 16384 < imgNodes img) ++ errorIf 16 (nBits h 128 3 != 0)
    ++ errorIf img.length (img.length < edgeAt (imgNodes img) (imgEdges img))

/-- Nodes from which a node is reached through dependency edges, itself among them. -/
def reaching (x : Image) (n : Nat) : List Nat :=
  (List.range x.nodes.length).foldl (fun set _ => x.edges.foldl (fun set e =>
    if !e.isRec && set.contains e.dst && !set.contains e.src then set ++ [e.src] else set) set) [n]

def loopNodes (x : Image) : List (Node × Nat) := x.nodes.zipIdx.filter fun p => p.1.kind = 4
def within (a b : Node) : Bool := b.bodyF ≤ a.bodyF && a.bodyL ≤ b.bodyL
/-- The innermost loop whose body holds a node. -/
def innermost (x : Image) (n : Nat) : Option Node :=
  ((loopNodes x).filter fun p => bodyOf p.1 n).foldl (fun best p => match best with
    | some b => if within p.1 b then some p.1 else some b
    | none => some p.1) none

/-- An edge (R296, R297, R379). -/
def edgeErrors (s : State) (ctx : Nat) (x : Image) (i : Nat) (e : Edge) : List Nat :=
  let o := edgeAt x.nodes.length i
  let entry := imgNum x.bytes o 32
  let enters := (loopNodes x).any fun p =>
    bodyOf p.1 e.dst && !bodyOf p.1 e.src && e.src != p.2 && !(reaching x p.2).contains e.src
  let param := match spaceRead s (some ctx) e.rparam 64 with
    | (_, some bs) => paramOk s (leNat bs)
    | _ => false
  (nonzeroBytes (onlyBits entry [(14, 2), (30, 2), (34, 6), (46, 2), (136, 56)]) 32).map (o + ·)
    ++ errorIf o (x.nodes.length ≤ e.src || (!e.isRec && enters)) ++ errorIf (o + 2) (x.nodes.length ≤ e.dst)
    ++ errorIf (o + 16) (e.isRec && !(4 ≤ e.log2cap && e.log2cap ≤ 16)) ++ errorIf (o + 8) (e.isRec && e.buf.toNat % 256 != 0)
    ++ errorIf (o + 24) (if e.isRec && e.remote then !param else e.rparam != 0)

/-- A fixed-function unit's configuration block in an image (R422, R424, R429). -/
def configErrors (unit o n : Nat) : List Nat :=
  let at_ (i : Nat) : Nat := nBits n (8 * i) 8
  let size (i : Nat) : Bool := nBits n (8 * i) 32 = 0 || 16384 < nBits n (8 * i) 32
  let rest (k : Nat) : List Nat := (List.range (64 - k)).flatMap fun i => errorIf (o + k + i) (at_ (k + i) != 0)
  if unit = 0 then
    errorIf (o + 8) (size 8) ++ errorIf (o + 12) (size 12) ++ errorIf (o + 16) (2 < at_ 16) ++ errorIf (o + 17) (2 < at_ 17) ++ rest 18
  else if unit = 2 then
    errorIf (o + 24) (2 < at_ 24) ++ errorIf (o + 25) (2 < at_ 25) ++ errorIf (o + 26) (1 < at_ 26) ++ rest 27
  else []

/-- The block or the configuration at LBOFF. -/
def lboffErrors (image : W64) (x : Image) (o : Nat) (n : Node) : List Nat :=
  let len := if n.kind ≤ 1 then 256 else 64
  let reads : Bool := n.kind ≤ 1 || (n.kind = 2 && (n.unit = 0 || n.unit = 2))
  if !reads then []
  else if n.lboff % 64 != 0 || x.bytes.length < n.lboff + len then [o + 12]
  else if n.kind = 2 then configErrors n.unit n.lboff (imgNum x.bytes n.lboff 64)
  else
    let va := image + BitVec.ofNat 64 n.lboff
    let b := imgNum x.bytes n.lboff 256
    (blockErrors va b).map (n.lboff + ·) ++ errorIf (n.lboff + 128) (blockErrors va b = [] && !admissible (blockFrom va b))

/-- A node (R296). -/
def nodeErrors (image : W64) (x : Image) (i : Nat) (n : Node) : List Nat :=
  let o := nodeAt i
  let entry := imgNum x.bytes o 64
  let ownEdge (j : Nat) : Bool := (x.edges[n.succ0 + j]?).any fun e => !e.isRec && e.src = i
  let bad (p : Node × Nat) : Bool :=
    p.2 != i && n.bodyF ≤ p.1.bodyL && p.1.bodyF ≤ n.bodyL && !within n p.1 && !within p.1 n
  let inside := match innermost x i with
    | some l => (x.edges.filter fun e => !e.isRec && e.dst = i && bodyOf l e.src).length
    | none => n.pred
  let word : Bool := n.kind = 3 || (n.kind = 4 && n.count = 0)
  (nonzeroBytes (onlyBits entry [(8, 8), (48, 16), (270, 2), (286, 2), (304, 208)]) 64).map (o + ·)
    ++ errorIf o (4 < n.kind || (n.kind = 2 && 5 < n.unit)) ++ errorIf (o + 2) (n.pred != inside)
    ++ errorIf (o + 8) (!(List.range n.nsucc).all ownEdge) ++ errorIf (o + 16) (word && n.word.toNat % 8 != 0)
    ++ errorIf (o + 32) (n.kind = 4 && (n.bodyL < n.bodyF || bodyOf n i || (loopNodes x).any bad))
    ++ errorIf (o + 34) (n.kind = 4 && x.nodes.length ≤ n.bodyL) ++ lboffErrors image x o n

/-- The first failing byte of an image. -/
def imageError (s : State) (ctx gn : Nat) (image : W64) (img : List Byte) : Option Nat :=
  let least (l : List Nat) : Option Nat := l.foldl (fun best k => match best with
    | some b => some (min b k)
    | none => some k) none
  match least (headerErrors img) with
  | some e => some e
  | none =>
    let x := parseImage img
    let others := (s.graphs.filter fun g => g.num != gn).foldl (fun n g => n + g.nodes.length) 0
    least (errorIf 4 (16384 < others + x.nodes.length) ++ x.nodes.zipIdx.flatMap (fun p => nodeErrors image x p.2 p.1)
      ++ x.edges.zipIdx.flatMap fun p => edgeErrors s ctx x p.2 p.1)

/-! ## LOAD_GRAPH (R282, R295, R301, R382) -/

/-- Clear VALID in every slot of a stale store (R382). -/
def clearStale (s : State) (ctx : Nat) (r : RemoteEdge) : State :=
  (List.range (pSlots r.param)).foldl
    (fun s i => spaceWrite s (some ctx) (pStale r.param + BitVec.ofNat 64 (1024 * i + 516)) [0]) s

def newRemote (gn i param : Nat) : RemoteEdge :=
  { graph := gn, edge := i, param, taken := [], sentFrame := 0, sent := [], miss := [], frames := [], delivering := none, prevFrame := 0,
    prev := [], rcvd := [] }

/-- The REMOTE edges of a graph, and its cut, as it is loaded; a graph with none is not split (R379, R387). -/
def loadRemotes (s : State) (ctx gn : Nat) (edges : List Edge) : State :=
  let s := { s with remotes := s.remotes.filter fun r => r.graph != gn, cuts := s.cuts.filter fun c => c.graph != gn }
  let one (s : State) (p : Edge × Nat) : State :=
    if p.1.isRec && p.1.remote then
      match spaceRead s (some ctx) p.1.rparam 64 with
      | (s, some bs) =>
        let r := newRemote gn p.2 (leNat bs)
        clearStale { s with remotes := s.remotes ++ [r] } ctx r
      | (s, none) => s
    else s
  let s := edges.zipIdx.foldl one s
  let bits := (List.range edges.length).filter fun i => Config.firstCut gn i
  if edges.any fun e => e.isRec && e.remote then
    { s with cuts := s.cuts ++ [⟨gn, Config.nearSide gn, [(0, bits)], none, [], false⟩] }
  else s

/-- The graph's entry is written, and its trigger register mapped at TRIGVA (R301). -/
def loadGraph (s : State) (x : Queue) (gn : Nat) (image : W64) (img : List Byte) : State :=
  let ctx := dCtx x.copy
  let i := parseImage img
  let part := (getCtx s ctx).part
  let tenant := ((getPage s x.page).map VcpPage.tenant).getD 0
  let g : Graph :=
    { num := gn, ctx, part, tenant, owner := 0, pendOwner := 0, image, trigva := i.trigva, args := i.args, nodes := i.nodes,
      edges := i.edges, run := false, frame := 0, donec := 0, pend := none, ovr := false, runArgs := 0 }
  loadRemotes (setGraph s g) ctx gn i.edges

/-- A graph some node of which is neither IDLE nor DONE, or whose run has not ended yet. -/
def graphBusy (s : State) (gn : Nat) : Bool :=
  match getGraph s gn with
  | some g => g.run || g.nodes.any fun n => n.st != .idle && n.st != .done
  | none => false

/-- The image's first failing byte, as LOAD_GRAPH's failing field. -/
def imageBad (s : State) (x : Queue) (n : Nat) : List BadField :=
  match spaceRead s (x.space s) (pkW n 8) (pk n 16 4) with
  | (_, none) => fails 8 true (pkW n 8)
  | (s, some img) =>
    match imageError s (dCtx x.copy) (pk n 20 2) (pkW n 8) img with
    | some e => fails 8 true (pkW n 8 + BitVec.ofNat 64 e)
    | none => []

def loadForm (page q : Nat) : PacketForm :=
  { event := .loadGraph page q, listed := [(8, 8), (16, 4), (20, 2)], bar := false
    check := fun s x n =>
      let ok : Bool := 1 ≤ pk n 16 4 && pk n 16 4 ≤ 2 ^ 24
      let other := match getGraph s (pk n 20 2) with
        | some g => g.ctx != dCtx x.copy
        | none => false
      let range := if ok then rangeBad s x 8 readAcc (pkW n 8) 16 (pk n 16 4)
        else fails 8 (pk n 8 8 % 16 != 0) (pkW n 8) ++ fails 16 true
      range ++ fails 20 (1023 < pk n 20 2 || other)
        ++ (if range = [] && !other && pk n 20 2 ≤ 1023 && !graphBusy s (pk n 20 2) then imageBad s x n else [])
    held := fun s _ n => graphBusy s (pk n 20 2)
    effect := fun s x _ n =>
      match spaceRead s (x.space s) (pkW n 8) (pk n 16 4) with
      | (s, some img) => loadGraph s x (pk n 20 2) (pkW n 8) img
      | (s, none) => s }

/-- LOAD_GRAPH (R282). -/
def execLoadGraph (page q : Nat) (s : State) : Res := runPacket page q (loadForm page q) s

/-! ## TRIGGER (R282) -/

/-- The number of a queue as an owner of runs (R285). -/
def runOwner (x : Queue) : Nat := x.key + 1

/-- A TRIGGER acts as a store to the trigger register; it completes with the run that it asked for, or the one that starts
in its place. -/
def triggerRun (s : State) (x : Queue) (gn : Nat) (args : W64) : State :=
  match getGraph s gn with
  | none => s
  | some g =>
    let waits : Bool := g.run || runHeld s gn (g.frame + 1)
    let s := startPacket s x (.trigger gn (if g.run then 2 else 1))
    if waits then requestRun s gn args (runOwner x) else startRun s gn args (runOwner x)

def triggerForm (page q : Nat) : PacketForm :=
  { event := .trigger page q, listed := [(8, 2), (16, 8)], bar := false
    check := fun s x n =>
      fails 8 (!(getGraph s (pk n 8 2)).any fun g => g.ctx = dCtx x.copy) ++ fails 16 (pk n 16 8 % 16 != 0) (pkW n 16)
    held := neverHeld, effect := fun s x _ n => triggerRun s x (pk n 8 2) (pkW n 16) }

/-- TRIGGER (R282). -/
def execTrigger (page q : Nat) (s : State) : Res := runPacket page q (triggerForm page q) s

/-- TRIGGER_RUN_REQUEST: a store to the trigger register that requests a run (R301). -/
def execTriggerRunRequest (graph : Nat) (value : W64) (s : State) : Res :=
  match getGraph s graph with
  | none => .fault (.noSuchObject "graph")
  | some _ => if value.extractLsb' 0 4 = 0 then .next (requestRun s graph value 0) else .next s

/-- TRIGGER_CLEAR_OVR: a store of 1 (R301). -/
def execTriggerClearOvr (graph : Nat) (s : State) : Res :=
  match getGraph s graph with
  | none => .fault (.noSuchObject "graph")
  | some _ => .next (clearOvr s graph)

end Sys2Proof.Machine
end

