-- ==== Sys2Proof/Machine/Kernel.lean ====
section
/-! DEFINITION. The front end: rounds among tenants, dispatch, the reads before a launch's first team, placement, admission
and the start of cores, and the end of a task (R285, R291 to R294, R298 to R300, R305, R309 to R311, R408, R411, R450). -/

namespace Sys2Proof.Machine

/-! ## Tenants (R285) -/

/-- The cores of a partition. -/
def partCores (p : Partition) : Nat := 128 * ((List.range 16).filter fun k => p.qdies.getLsbD k).length
/-- The tenants of a partition that have a page. -/
def pagedTenants (s : State) (part : Nat) : List Nat :=
  (List.range 16).filter fun t => s.pages.any fun v => v.part = part && v.tenant = t
/-- Q_t: as set, or the basic share. -/
def quantumOf (s : State) (p : Partition) (t : Nat) : Nat :=
  let q := (sget p.quantum t).toNat
  if q != 0 then q else 1024 * partCores p / max 1 (pagedTenants s p.pid).length

def setDeficit (p : Partition) (t : Nat) (d : Int) : Partition := { p with deficit := putBy Prod.fst (t, d) p.deficit }
def addDeficit (s : State) (part t : Nat) (d : Int) : State :=
  let p := getPart s part
  setPart s (setDeficit p t (deficitOf p t + d))

/-- The tenant on whose behalf a graph runs: that of the page whose queue asked for the run, or of the one that loaded it. -/
def runTenant (s : State) (g : Graph) : Nat :=
  if g.owner = 0 then g.tenant else ((getPage s ((g.owner - 1) / 64)).map VcpPage.tenant).getD g.tenant

/-- What waits for dispatch. -/
inductive Task where
  | node (graph node : Nat)
  | child (launch : Nat)
  deriving DecidableEq, Repr

/-- The ready tasks of a tenant with their owners: nodes, then children in number order (R285, R303). DEDUCED,
log entry 129: condition, loop and fixed-function nodes, which R298 has dispatched under R285 too, are tasks of cost 0. -/
def readyTasks (s : State) (part t : Nat) : List (Nat × Task) :=
  let nodes := (s.graphs.filter fun g => g.part = part && runTenant s g = t && ctxRuns s g.ctx).flatMap fun g =>
    (nodesWhere g fun n _ => n.st = .ready && pageReady s g.ctx n.waiting).map fun i => (g.owner, Task.node g.num i)
  let kids := (s.launches.filter fun l =>
    !l.dispatched && l.tenant = t && (getCtx s l.ctx).part = part && ctxRuns s l.ctx && pageReady s l.ctx l.waiting).map
      fun l => (l.owner, Task.child l.id)
  nodes ++ kids

/-- The next task, a tenant's owners taken in round robin. -/
def nextTask (s : State) (p : Partition) (t : Nat) : Option (Nat × Task) :=
  let ts := readyTasks s p.pid t
  let last := ((p.turn.find? fun x => x.1 = t).map Prod.snd).getD 0
  let least (l : List (Nat × Task)) : Option (Nat × Task) := l.foldl (fun best x => match best with
    | some b => if x.1 < b.1 then some x else some b
    | none => some x) none
  (least (ts.filter fun x => last < x.1)).or (least ts)

/-! ## Dispatch (R285, R287, R291, R298, R300) -/

/-- A launch ends before any team is placed: a fatal fault of its context (R291, R294). -/
def launchFault (s : State) (ctx : Nat) (cause : BitVec 8) (va : W64) (pa : Nat) : State :=
  let s := if cause = 0x14 || cause = 0x15 then logPartition s (getCtx s ctx).part ctx cause none va pa else s
  fatalContext s ctx cause none va

/-- A fault away from the cores that ends nothing: the context log, and the partition log for a poison or a violation
(R259). -/
def logAway (s : State) (ctx : Nat) (cause : BitVec 8) (va : W64) (pa : Nat) : State :=
  if cause = 0x14 || cause = 0x15 then logBoth s ctx cause none va pa else logContext s ctx cause none va pa

/-- A block read at dispatch. -/
inductive BlockRead where
  | ok (l : LaunchBlock)
  | absent (va : W64)
  | fault (cause : BitVec 8) (va : W64) (pa : Nat)
  deriving DecidableEq, Repr

def readBlock (s : State) (ctx : Nat) (va : W64) : State × BlockRead :=
  match devRead s ctx false va 256 with
  | (s, .ok bs) =>
    let l := blockFrom va (leNat bs)
    (s, if blockValid va (leNat bs) && admissible l then .ok l else .fault 0x18 va 0)
  | (s, .absent a) => (s, .absent a)
  | (s, .fault c a pa) => (s, .fault c a pa)

def waitNode (s : State) (gn i : Nat) (va : W64) : State :=
  match getGraph s gn with
  | some g => (match g.nodes[i]? with
    | some n => setGraph s (setNode g i { n with waiting := some va })
    | none => s)
  | none => s

/-- What the launch of a node charges until its cost is measured. -/
def provisional (s : State) (p : Partition) (t : Nat) (n : Node) : Nat := n.lastCost.getD (quantumOf s p t / 8)

/-- A kernel node or a record node goes to the placer; a coverage launch starts at the code its last run ended with (R415). -/
def launchNode (s : State) (g : Graph) (i : Nat) (n : Node) (blk : LaunchBlock) : State × Nat :=
  let t := runTenant s g
  let cost := provisional s (getPart s g.part) t n
  let l := newLaunch s.nextId g.ctx blk (if g.runArgs = 0 then blk.args else g.runArgs)
  let l := { l with
    graph := some (g.num, i), tenant := t, owner := g.owner, frame := g.frame, dispatched := true, charged := cost
    cov := { l.cov with code := if covExp blk then n.covCode.getD l.cov.code else l.cov.code } }
  let s := setGraph (setLaunch { s with nextId := s.nextId + 1 } l) (setNode g i { n with st := .launched, waiting := none })
  (owe s (.launchArgsFetch l.id), cost)

/-- A child is dispatched: its block is read once more (R287, R291). -/
def dispatchChild (s : State) (id : Nat) : State × Nat :=
  match getLaunch s id with
  | none => (s, 0)
  | some l =>
    match readBlock s l.ctx l.blk.va with
    | (s, .absent va) => (setLaunch s { l with waiting := some va }, 0)
    | (s, .fault c va pa) => (launchFault s l.ctx c va pa, 0)
    | (s, .ok blk) =>
      let cost := quantumOf s (getPart s (getCtx s l.ctx).part) l.tenant / 8
      let fresh := newLaunch l.id l.ctx blk (if l.argVa = 0 then blk.args else l.argVa)
      let l := { l with
        blk := blk, argVa := fresh.argVa, cov := fresh.cov, dispatched := true, waiting := none, charged := cost }
      (owe (setLaunch s l) (.launchArgsFetch id), cost)

/-- SRULE 2 of a node in stale-state mode: the data of its tiles is zeroed, their headers stay (R389). -/
def zeroTile (s : State) (ctx : Nat) (va : W64) : State :=
  match spaceRead s (some ctx) va 16 with
  | (s, some hb) =>
    let h := BitVec.ofNat 128 (leNat hb)
    if !headerOk h then logContext s ctx 0x07 none va 0
    else
      (tileRuns h false everyRow).foldl (fun s r =>
        spaceWrite s (some ctx) (va + BitVec.ofNat 64 (r.bit / 8)) (List.replicate (ceilDiv (r.bit % 8 + r.len) 8) 0)) s
  | (s, none) => s
/-- The tile addresses of a state-table entry. -/
def tileList (s : State) (ctx : Nat) (e : StateEntry) : List W64 :=
  match (spaceRead s (some ctx) e.tlist (8 * e.nt)).2 with
  | some bs => (List.range e.nt).map fun k => BitVec.ofNat 64 (leNat ((bs.drop (8 * k)).take 8))
  | none => []
def zeroStale (s : State) (g : Graph) (i : Nat) (n : Node) : State :=
  match (staleMoves s g.num g.frame i).findSome? fun m => m.table.find? fun e => e.node = i with
  | some e => if n.stale && e.srule = 2 then (tileList s g.ctx e).foldl (fun s va => zeroTile s g.ctx va) s else s
  | none => s

/-- A w64 word of a node, read as an acquire at dev (R298, R300). -/
def nodeWord (s : State) (g : Graph) (va : W64) : State × DevRead := devWord s g.ctx va

/-- A condition node acts and is DONE (R298, R299). -/
def conditionNode (s : State) (g : Graph) (i : Nat) (n : Node) : State :=
  match nodeWord s g n.word with
  | (s, .absent va) => waitNode s g.num i va
  | (s, .fault c va pa) => launchFault s g.ctx c va pa
  | (s, .ok bs) =>
    let yes : Bool := leNat bs != 0
    completeNode s g.num i fun j => if yes then n.ntrue ≤ j else j < n.ntrue

/-- A loop node evaluates its condition: another iteration, or its end (R300). -/
def loopNode (s : State) (g : Graph) (i : Nat) (n : Node) : State :=
  let go (s : State) (more : Bool) : State := if more then afterNodes s (startIteration g i) else endLoop s g.num i
  if n.count != 0 then go s (n.iterations.toNat < n.count.toNat)
  else match nodeWord s g n.word with
    | (s, .absent va) => waitNode s g.num i va
    | (s, .fault c va pa) => launchFault s g.ctx c va pa
    | (s, .ok bs) => go s (leNat bs != 0)

/-- A node is dispatched, and what it charges. One that this module does not own completes at once (R451). -/
def dispatchNode (s : State) (gn i : Nat) : State × Nat :=
  match getGraph s gn with
  | none => (s, 0)
  | some g =>
    match g.nodes[i]? with
    | none => (s, 0)
    | some n =>
      if !n.owned then (completeNode s gn i (fun _ => false), 0)
      else
        let s := zeroStale s g i n
        match n.kind with
        | 2 => (afterNodes s (setNode g i { n with st := .running }), 0)
        | 3 => (conditionNode s g i n, 0)
        | 4 => (loopNode s g i n, 0)
        | _ =>
          match readBlock s g.ctx (g.image + BitVec.ofNat 64 n.lboff) with
          | (s, .absent va) => (waitNode s gn i va, 0)
          | (s, .fault c va pa) => (launchFault s g.ctx c va pa, 0)
          | (s, .ok blk) => launchNode s g i n blk

def dispatch (s : State) : Task → State × Nat
  | .node gn i => dispatchNode s gn i
  | .child id => dispatchChild s id

/-- A tenant's tasks are dispatched while its deficit is positive (R285). -/
def serveTenant (part t : Nat) : Nat → State → State
  | 0, s => s
  | fuel + 1, s =>
    let p := getPart s part
    if deficitOf p t ≤ 0 then s
    else match nextTask s p t with
      | none => s
      | some (owner, task) =>
        let s := setPart s { p with turn := putBy Prod.fst (t, owner) p.turn }
        let (s, cost) := dispatch s task
        serveTenant part t fuel (addDeficit s part t (-(cost : Int)))

/-- One tenant's part of a round. -/
def roundFor (part : Nat) (s : State) (t : Nat) : State :=
  let p := getPart s part
  let d := deficitOf p t
  if readyTasks s part t = [] then (if d ≤ 0 then s else setPart s (setDeficit p t 0))
  else
    let q : Int := quantumOf s p t
    let s := setPart s (setDeficit p t (min (d + q) q))
    serveTenant part t (s.launches.length + s.graphs.foldl (fun n g => n + g.nodes.length) 0) s

/-- TENANT_ROUND (R285). -/
def execTenantRound (part : Nat) (s : State) : Res :=
  let s := setPart s { getPart s part with roundAt := s.now }
  .next ((List.range 16).foldl (roundFor part) s)

/-! ## The guide's header (R411) -/

/-- The header of the guide tile. -/
def guideHandle (s : State) (ctx : Nat) (va : W64) : State × (DevRead ⊕ Handle) :=
  match devRead s ctx true va 16 with
  | (s, .ok bs) => (s, .inr ⟨0, false, true, va, BitVec.ofNat 128 (leNat bs)⟩)
  | (s, x) => (s, .inl x)
def guideBad (h : Handle) : Option (BitVec 8) :=
  if h.addr.toNat % 16 != 0 then some 0x03
  else if !handleOk h then some 0x07
  else if !dataShapeOk h.hdr then some 0x08
  else if !(1 ≤ hKind h.hdr && hKind h.hdr ≤ 6) || hSparse h.hdr != 0 || hScale h.hdr != 0 then some 0x09
  else none

/-- The check at the start of a run, made once for each launch, with the reads of R294 (DEDUCED, log entry 78): the launch keeps
the header, or its predictor is off. -/
def checkGuide (s : State) (l : Launch) : State × Option Launch :=
  let off : Launch := { l with cov := { l.cov with predictorOff := true } }
  let va := covGuide l.blk
  if !l.blk.coven || va = 0 then (s, some l)
  else match guideHandle s l.ctx va with
    | (s, .inl (.absent a)) => (setLaunch s { l with waiting := some a }, none)
    | (s, .inl (.fault c a pa)) => (logAway s l.ctx c a pa, some off)
    | (s, .inl (.ok _)) => (s, some off)
    | (s, .inr h) =>
      match guideBad h with
      | some c => (logContext s l.ctx c none va 0, some off)
      | none => (s, some { l with cov := { l.cov with guide := h.hdr } })

/-! ## Constant bank and argument block (R294) -/

/-- LAUNCH_ARGS_FETCH: both are read, once, before the launch's first team is placed (R294), and the guide is checked (R411). -/
def execLaunchArgsFetch (launch : Nat) (s : State) : Res :=
  match getLaunch s launch with
  | none => .fault (.noSuchObject "launch")
  | some l =>
    if l.fetched || !l.dispatched then .fault (.noSuchObject "launch to fetch for")
    else
      let put (bs : List Byte) : Memory := writeBytes [] 0 bs
      match devRead s l.ctx false l.blk.const 4096 with
      | (s, .absent va) => .next (setLaunch s { l with waiting := some va })
      | (s, .fault c va pa) => .next (launchFault s l.ctx c va pa)
      | (s, .ok cs) =>
        match devRead s l.ctx false l.argVa l.blk.arglen with
        | (s, .absent va) => .next (setLaunch s { l with waiting := some va })
        | (s, .fault c va pa) => .next (launchFault s l.ctx c va pa)
        | (s, .ok as) =>
          match checkGuide s l with
          | (s, none) => .next s
          | (s, some l) =>
            let s := setLaunch s { l with waiting := none, fetched := true, constBank := put cs, argBlock := put as }
            .next (owe (owe s (.teamPlace (getCtx s l.ctx).part)) (.recordTeamAdmit launch))

/-! ## Room on cores (R292, R310, R313) -/

def heldScratch (s : State) (core : Nat) : Nat :=
  (s.teams.filter fun t => t.cores.contains core).foldl (fun n t => n + ((getLaunch s t.launch).map fun l => 256 * l.blk.scratch).getD 0) 0

/-- One peer's share of a team fits on a core. -/
def fitsCore (s : State) (l : LaunchBlock) (core : Nat) : Bool :=
  held s core Role.vregs + sumBy l.roles (fun r => r.groups * r.vregs) ≤ 2048
    && held s core Role.sregs + sumBy l.roles (fun r => r.groups * r.sregs) ≤ 2048
    && held s core Role.ztiles + sumBy l.roles (fun r => r.groups * r.ztiles) ≤ 128
    && heldScratch s core + 256 * l.scratch ≤ 262144
    && (onCore s core).length + l.groupsPerPeer ≤ 64

/-- Nothing on a core is taken beyond what it has (R16). -/
def coreFits (s : State) (core : Nat) : Bool :=
  held s core Role.vregs ≤ 2048 && held s core Role.sregs ≤ 2048 && held s core Role.ztiles ≤ 128 && heldScratch s core ≤ 262144
    && (onCore s core).length ≤ 64

/-- The quads of a partition, ascending, and a quad's cores that take a team (R14, R310). -/
def partQuads (p : Partition) : List Nat := (List.range 512).filter fun q => coreIn p (4 * q)
def quadRoom (s : State) (l : LaunchBlock) (q : Nat) : Option (List Nat) :=
  let free := [4 * q, 4 * q + 1, 4 * q + 2, 4 * q + 3].filter (fitsCore s l)
  if l.span ≤ free.length then some (free.take l.span) else none

/-- The lists of n of some cores, in order. -/
def coreChoices : Nat → List Nat → List (List Nat)
  | 0, _ => [[]]
  | _ + 1, [] => []
  | n + 1, c :: r => (coreChoices n r).map (c :: ·) ++ coreChoices (n + 1) r

/-! ## The placer (R309, R310) -/

def placerD (p : Partition) : Nat := if p.placer.getLsbD 0 then (p.placer.extractLsb' 1 3).toNat else 0
def coreScore (s : State) (p : Partition) (c : Nat) : Nat :=
  (p.placer.extractLsb' 4 8).toNat * (getCore s c).temp.toNat + (p.placer.extractLsb' 12 8).toNat * (getCore s c).droop.toNat
def score (s : State) (p : Partition) (cs : List Nat) : Nat := cs.foldl (fun n c => n + coreScore s p c) 0
def stagger (p : Partition) : Nat := (p.placer.extractLsb' 20 12).toNat
def passesOf (p : Partition) (q : Nat) : Nat := ((p.passes.find? fun x => x.1 = q).map Prod.snd).getD 0

/-- The quad of a team, its cores, and the partition's pointer and counts after it (R310). -/
def choosePlace (s : State) (p : Partition) (l : LaunchBlock) : Option (List Nat × Partition) :=
  let qs := partQuads p
  let order := (List.range qs.length).map fun k => (p.placerPtr + k) % qs.length
  let all := order.filterMap fun k => (quadRoom s l (qs.getD k 0)).map fun cs => (k, cs)
  match all.take (placerD p + 1) with
  | [] => none
  | first :: rest =>
    let best := if placerD p ≤ passesOf p first.1 then first
      else rest.foldl (fun b x => if score s p x.2 < score s p b.2 then x else b) first
    let n := if best.1 = first.1 then 0 else passesOf p first.1 + 1
    some (best.2, { p with placerPtr := (first.1 + 1) % qs.length, passes := putBy Prod.fst (first.1, n) p.passes })

/-- Every place of a team: the placer's choice first, then all cores of every quad (R268). -/
def allPlaces (s : State) (p : Partition) (l : LaunchBlock) : List (List Nat × Partition) :=
  let all (q : Nat) : List (List Nat) := coreChoices l.span ([4 * q, 4 * q + 1, 4 * q + 2, 4 * q + 3].filter (fitsCore s l))
  (choosePlace s p l).toList ++ ((partQuads p).flatMap all).map fun cs => (cs, p)

/-! ## Admission (R293, R305, R408, R411) -/

/-- The groups that a team starts on a peer: role, position on the peer, launched lanes. Role 0 of a coverage launch takes
its points (R408). -/
def peerGroups (l : LaunchBlock) (dealt : Option Nat) : List (Nat × Nat × Mask) :=
  let entries := l.roles.zipIdx.flatMap fun p => (List.range p.1.groups).map fun k => (p.2, k, p.1)
  (entries.zipIdx.map fun e =>
    let (r, k, role) := e.1
    let n := match dealt with
      | some d => if r = 0 then min 32 (d - 32 * k) else if k + 1 = role.groups then role.last else 32
      | none => if k + 1 = role.groups then role.last else 32
    (r, e.2, maskOf (List.range n))).filter fun x => x.2.2 != 0

/-- The lowest free slot of a core (R313). -/
def lowestSlot (s : State) (core : Nat) : Nat :=
  ((List.range 64).find? fun k => !(onCore s core).any fun g => g.slot = k).getD 0

/-- v0 of a lane: its global index, scaled (R293). -/
def startV0 (l : LaunchBlock) (team peer q L : Nat) : W32 :=
  BitVec.ofNat 32 ((((team * l.span + peer) * l.groupsPerPeer + q) * 32 + L) * l.v0scale)

/-- A group starts on its core (R293, R313). -/
def admitGroup (l : Launch) (t : Team) (peer : Nat) (s : State) (x : Nat × Nat × Mask) : State :=
  let core := t.cores.getD peer 0
  let pc := ((l.blk.roles[x.1]?).map Role.entry).getD 0
  let g := freshGroup s l t.id s.nextId (peer * l.blk.groupsPerPeer + x.2.1) x.1 peer core (lowestSlot s core) x.2.2 pc
  let g := (lanesOf x.2.2).foldl (fun g L => setV g 0 L (startV0 l.blk (teamIndex l.blk t) peer x.2.1 L)) g
  { s with groups := s.groups ++ [g], nextId := s.nextId + 1 }

/-- What the predictor says of a block: it waits for a page, or whether it forces the block, with the launch's new
predictor state. -/
inductive Forced where
  | wait (va : W64)
  | known (forced off : Bool)
  deriving DecidableEq, Repr

/-- The predictor for the block of a team, by the guide's header as the run found it (R411). -/
def predict (s : State) (l : Launch) (x y : Nat) : State × Forced :=
  let va := covGuide l.blk
  let h := l.cov.guide
  if va = 0 || l.cov.predictorOff then (s, .known false l.cov.predictorOff)
  else if hCols h ≤ x || hRows h ≤ y then (s, .known false false)
  else
    let bit := 128 * hDataoff h + elementBit (hLayout h) (hPitch h) (kindWidth (hKind h)) y x
    let w := kindWidth (hKind h)
    let at_ := va + BitVec.ofNat 64 (bit / 8)
    match devRead s l.ctx true at_ (ceilDiv (bit % 8 + w) 8) with
    | (s, .absent a) => (s, .wait a)
    | (s, .fault c _ pa) => (logAway s l.ctx c at_ pa, .known false true)
    | (s, .ok bs) =>
      let v := decodeNum (tileKind (hKind h)) (leNat bs / 2 ^ (bit % 8) % 2 ^ w)
      let t := decodeNum kF32 (covThresh l.blk)
      (s, .known (!v.isNaN && !t.isNaN && numLt t v) false)

/-- The block's record, made as its team is admitted, with the code in force at that cycle; a relaunched team keeps it, and a further
team of a record node at the same coordinates has one of its own, whose first RCON is the block's if none has been issued yet
(R408, R413, R415). -/
def withRecord (now : W64) (l : Launch) (t : Team) (forced off : Bool) : Launch :=
  let claimed := (recordOf l t).any BlockRecord.claimed
  let audited := (recordOf l t).any BlockRecord.audited
  let code := if forced then 0 else l.cov.codeAt now
  let b : BlockRecord := ⟨teamIndex l.blk t, code, (covPhase l.blk + l.frame) % 16, forced, claimed, audited⟩
  { l with cov := { l.cov with blocks := putBy BlockRecord.block b l.cov.blocks, predictorOff := l.cov.predictorOff || off } }

/-- The first team of a context or a node runs (R257, R298). -/
def teamAdmitted (s : State) (l : Launch) : State :=
  let c := getCtx s l.ctx
  let s := if c.st = .bound then setCtx s { c with st := .running } else s
  match l.graph with
  | some (gn, i) =>
    (match getGraph s gn with
     | some g => (match g.nodes[i]? with
        | some n => if n.st = .launched then setGraph s (setNode g i { n with st := .running }) else s
        | none => s)
     | none => s)
  | none => s

/-- A team starts on its cores: its groups, and when each of the cores starts (R293, R311, R313). -/
def startTeam (s : State) (l : Launch) (t : Team) (p : Partition) : State :=
  let dealt := if l.blk.coven then (recordOf l t).map fun b => (dealtPoints l t b).length else none
  let base := if l.starts = [] then s.now else l.startBase
  let order := l.starts ++ t.cores.filter fun c => !l.starts.contains c
  let step (c : Nat) : Nat := order.idxOf c / 16
  let at_ (c : Nat) : W64 :=
    let x := base + BitVec.ofNat 64 (stagger p * step c)
    if x.toNat < s.now.toNat then s.now else x
  let cov := match recordOf l t with
    | some b => BitVec.ofNat 8 (b.code + 16 * b.psi)
    | none => 0
  let t := { t with unstarted := t.cores.map fun c => (c, at_ c), cov := cov }
  let l := occupy s { l with starts := order, startBase := base } t.cores
  let s := teamAdmitted (setTeam (setLaunch s l) t) l
  let s := (List.range t.cores.length).foldl (fun s peer => (peerGroups l.blk dealt).foldl (admitGroup l t peer) s) s
  owe s (.coreStart t.id)

/-- A new team of a launch at coordinates (R293). -/
def newTeam (id : Nat) (l : Launch) (index : Nat) (cores : List Nat) : Team :=
  { id, ctx := l.ctx, launch := l.id, x := index % l.blk.gx, y := index / l.blk.gx % l.blk.gy,
    z := index / (l.blk.gx * l.blk.gy), cores, barriers := [], scratch := [], relaunches := 0, waiting := none, walkedAt := none, preqAt := none,
    unstarted := [], took := false, cov := 0 }

/-- Place one team of a launch at an index, if there is room, and leave `next` as the launch's next one; while its predictor waits
for a page, the team is still to place (R411). -/
def placeTeam (s : State) (l : Launch) (index next : Nat) : Option State :=
  let p := getPart s (getCtx s l.ctx).part
  match choosePlace s p l.blk with
  | none => none
  | some (cores, p') =>
    let t := newTeam s.nextId l index cores
    match (if l.blk.coven then predict s l t.x t.y else (s, .known false false)) with
    | (s, .wait va) => some (setLaunch s { l with waiting := some va })
    | (s, .known forced off) =>
      let l := { l with waiting := none, resident := l.resident + 1, next := next }
      let l := if l.blk.coven then withRecord s.now l t forced off else l
      some (startTeam (setPart { s with nextId := s.nextId + 1 } p') l t p')

/-- A relaunched team starts again, from its roles' entries, on new cores; an RCON that its end has dropped was not its block's first
(R197, R415, R471). -/
def replaceTeam (s : State) (l : Launch) (t : Team) : Option State :=
  let p := getPart s (getCtx s l.ctx).part
  let again (b : BlockRecord) : BlockRecord := if b.block = teamIndex l.blk t then { b with claimed := b.audited } else b
  let l := { l with cov := { l.cov with blocks := l.cov.blocks.map again } }
  (choosePlace s p l.blk).map fun x =>
    startTeam (setPart s x.2) l { t with cores := x.1, barriers := [], scratch := [], took := false } x.2

/-- The graph and node of a launch that takes records: a record node with an input record edge (R305, R450). -/
def takesRecords (s : State) (l : Launch) : Option (Graph × Nat) :=
  match l.graph with
  | some (gn, i) =>
    match getGraph s gn with
    | some g => if (g.nodes[i]?).any (fun n => n.kind = 1) && inputs g i != [] then some (g, i) else none
    | none => none
  | none => none

/-- Teams to place: those of relaunches, then launches in the order in which they were dispatched, children in number
order (R303, R310). -/
def relaunchable (s : State) (part : Nat) (t : Team) : Bool :=
  t.cores = [] && t.waiting.isNone && (getCtx s t.ctx).part = part && ctxRuns s t.ctx && !(getCtx s t.ctx).savedTeams.contains t.id
def placeable (s : State) (part : Nat) (l : Launch) : Bool :=
  l.fetched && decide (l.next < l.blk.teams) && (takesRecords s l).isNone && (getCtx s l.ctx).part = part && ctxRuns s l.ctx
    && pageReady s l.ctx l.waiting
    && !(l.parent.isSome && s.launches.any fun k => k.parent.isSome && k.childNo < l.childNo && decide (k.next < k.blk.teams)
          && (getCtx s k.ctx).part = part && ctxRuns s k.ctx)

/-- The first of a list that can be placed. -/
def firstPlaced {α : Type} (h : α → Option State) : List α → Option State
  | [] => none
  | x :: r => (h x).or (firstPlaced h r)

/-- TEAM_PLACE: one team of the partition is placed; with no candidate it waits (R310). -/
def execTeamPlace (part : Nat) (s : State) : Res :=
  let again (t : Team) : Option State := (getLaunch s t.launch).bind fun l => replaceTeam s l t
  let next (l : Launch) : Option State := placeTeam s l l.next (l.next + 1)
  match (firstPlaced again (s.teams.filter (relaunchable s part))).or (firstPlaced next (s.launches.filter (placeable s part))) with
  | some s' => .next (owe s' (.teamPlace part))
  | none => .next s

/-- CORE_START: the cores of a team whose time has come drop their instruction copies, and their groups may issue (R63, R311). -/
def execCoreStart (team : Nat) (s : State) : Res :=
  match getTeam s team with
  | none => .fault (.noSuchObject "team")
  | some t =>
    if t.unstarted = [] then .fault (.noSuchObject "core to start")
    else
      let due (p : Nat × W64) : Bool := p.2.toNat ≤ s.now.toNat
      let wake (s : State) (c : Nat) : State := syncClk (setCore s { getCore s c with icache := [] }) c
      .next (((t.unstarted.filter due).map Prod.fst).foldl wake
        (setTeam s { t with unstarted := t.unstarted.filter fun p => !due p }))

/-- RECORD_TEAM_ADMIT: a further team of a record node, while untaken records outnumber the teams that have not taken one
(R305). Which of the unused coordinates it has is a free value. -/
def execRecordTeamAdmit (launch : Nat) (s : State) : Res :=
  match getLaunch s launch with
  | none => .fault (.noSuchObject "launch")
  | some l =>
    match takesRecords s l with
    | none => .fault (.noSuchObject "record node")
    | some (g, i) =>
      let mine := s.teams.filter fun t => t.launch = l.id
      let untaken := (inputs g i).foldl (fun n e => n + e.untaken) 0
      let waiting := (mine.filter fun t => !t.took).length
      if !l.fetched || !ctxRuns s l.ctx || untaken ≤ waiting || l.blk.teams ≤ mine.length then .next s
      else
        let free := (List.range (mine.length + 1)).filter fun k => !mine.any fun t => teamIndex l.blk t = k
        let (n, s) := freeNat s
        match placeTeam s l (free.getD (n % free.length) 0) l.next with
        | some s => .next (owe s (.recordTeamAdmit launch))
        | none => .next s

/-! ## The end of a task (R285, R298, R303) -/

/-- Every team of a launch has been placed and has exited: of a record node, when its inputs are done. -/
def taskOver (s : State) (l : Launch) : Bool :=
  l.fetched && l.resident = 0 && (match takesRecords s l with
    | some (g, i) => inputsDone g i
    | none => decide (l.blk.teams ≤ l.next))

/-- The measured cost replaces the provisional one. -/
def settleCost (s : State) (l : Launch) (cost : Nat) : State :=
  let s := addDeficit s (getCtx s l.ctx).part l.tenant ((l.charged : Int) - cost)
  let s := setLaunch s { l with settled := true, waiting := none }
  match l.graph with
  | some (gn, i) =>
    (match getGraph s gn with
     | some g => (match g.nodes[i]? with
        | some n => setGraph s (setNode g i { n with st := .draining, lastCost := some cost })
        | none => s)
     | none => s)
  | none => s

/-- A child is DONE, and its parent's node may be done (R303). -/
def childGone (s : State) (l : Launch) : State :=
  let s := { s with launches := s.launches.filter fun k => k.id != l.id }
  match l.parent with
  | some (gn, i) => owe s (.nodeDone gn i)
  | none => s

/-- A child's work is over: 1 is added to its completion word, whose page is waited for, and the child is DONE (R303). -/
def childDone (s : State) (l : Launch) : State :=
  match l.completion with
  | none => childGone s l
  | some va =>
    match devPiece s l.ctx (atomicOf 8) true va 8 with
    | (s, .inr (host, pa)) =>
      let (s, old) := homeRead s none (getCtx s l.ctx).lease host pa 8
      childGone (devWrite s host pa (leBytes 8 ((leNat old + 1) % 2 ^ 64))) l
    | (s, .inl (.fault c va pa)) => childGone (logAway s l.ctx c va pa) l
    | (s, .inl _) => setLaunch s { l with settled := true, waiting := some va }

/-- TASK_COMPLETE: the deficit is corrected by what the task has cost when it is over; the launch is done when its teams are gone, operations, owed writes and all;
nothing of it while the context is SAVED (R285, R298). -/
def execTaskComplete (task : Nat) (cost : Nat) (s : State) : Res :=
  match getLaunch s task with
  | none => .fault (.noSuchObject "task")
  | some l =>
    if !taskOver s l || (!l.settled && cost != l.cost) then .fault (.noSuchObject "task that is over at that cost")
    else if ctxSaved s l.ctx then .next s
    else
      let s := if l.settled then s else settleCost s l cost
      if s.teams.any fun t => t.launch = l.id then .next s
      else match l.graph with
        | some (gn, i) => .next (owe s (.nodeDone gn i))
        | none => .next (ctxIdle (childDone s l) l.ctx)

end Sys2Proof.Machine
end

