-- ==== Sys2Proof/Machine/Texture.lean ====
section
/-! DEFINITION. Texturing and pixel shading, class 11 (R428, R437 to R443). -/

namespace Sys2Proof.Machine

/-! ## binary32 arithmetic with RNE, on bits (R440) -/

def f32Num (b : Nat) : Num := decodeNum kF32 b
def f32Of (x : Num) : Nat := roundTo kF32 x 0
/-- A NaN operand gives the default NaN here; no rule of this chapter lets a payload through. -/
def f32Op (h : Num → Num → Num) (a b : Nat) : Nat :=
  let x := f32Num a
  let y := f32Num b
  f32Of (if x.isNaN || y.isNaN then defaultNaN else h x y)
def f32Add (a b : Nat) : Nat := f32Op (fun x y => sumNum 0 [x, y]) a b
def f32Sub (a b : Nat) : Nat := f32Op (fun x y => sumNum 0 [x, y.negate]) a b
def f32Mul (a b : Nat) : Nat := f32Op mulNum a b
def f32Div (a b : Nat) : Nat := f32Op fdivNum a b
def f32Nat (n : Nat) : Nat := f32Of (Num.ofInt n)
def f32Int (n : Int) : Nat := f32Of (Num.ofInt n)
def f32Half : Nat := f32Of (.fin ⟨1, 2⟩)
def f32Zero : Nat := 0
def f32One : Nat := f32Nat 1
def f32Lt (a b : Nat) : Bool := numLt (f32Num a) (f32Num b)
def f32Finite (a : Nat) : Bool := !(f32Num a).isNaN && !(f32Num a).isInf
def f32Floor (a : Nat) : Int := (f32Num a).toQ.floor
/-- The length of a vector. -/
def f32Length (x y : Nat) : Nat := sfuBits .sqrt 5 false 0 (f32Add (f32Mul x x) (f32Mul y y))

/-! ## Reads of a lane -/

/-- n bytes that a lane loads at a virtual address, through the caches; `tile` of a tile reader (R361, R439). -/
def loadSpan (s : State) (v : Env) (tile : Bool) (va : W64) (n : Nat) : State × (RangeFault ⊕ List Byte) :=
  let a : Access := ⟨1, true, false, tile, false⟩
  match checkSpan s v a false va n with
  | (s, some x) => (s, .inl x)
  | (s, none) =>
    (cutPieces va.toNat 0 (n / 128 + 2) n).foldl (fun acc p =>
      match acc with
      | (s, .inr bs) =>
        let x := va + BitVec.ofNat 64 p.off
        match checkPage s v x a with
        | (s, .ok t) =>
          let r := readTarget (drainOwn s v) v t v.hint p.len
          (r.state, .inr (bs ++ r.bytes))
        | (s, .absent) => (s, .inl ⟨0x04, x, 0, true⟩)
        | (s, .fault c pa) => (s, .inl ⟨c, x, pa, false⟩)
      | y => y) (s, .inr [])

/-- A fault met by one lane: of its own (R150), or of a header, for the fragment (R185, R439). -/
inductive TexFault where
  | lane (x : RangeFault)
  | header (cause : BitVec 8) (va : W64)
  deriving DecidableEq, Repr

/-- A level: its address and header. -/
structure TexLevel where
  addr : W64
  hdr : W128
  deriving DecidableEq, Repr

/-- The header of a level, checked (R182 to R184, R437). -/
def texLevel (s : State) (v : Env) (addr : W64) : State × (TexFault ⊕ TexLevel) :=
  if addr.extractLsb' 0 4 != 0 then (s, .inl (.lane ⟨0x03, addr, 0, false⟩))
  else
    match loadSpan s v true addr 16 with
    | (s, .inl x) => (s, .inl (.lane x))
    | (s, .inr bs) =>
      let h := BitVec.ofNat 128 (leNat bs)
      let k := hKind h
      if !headerOk h then (s, .inl (.header 0x07 addr))
      else if !dataShapeOk h then (s, .inl (.header 0x08 addr))
      else if !(k = 1 || k = 2 || k = 0x10 || k = 0x11) || hSparse h != 0 || hScale h != 0 then (s, .inl (.header 0x09 addr))
      else (s, .inr ⟨addr, h⟩)

/-- The four channels of a texel's bits (R437). -/
def texChannels (kind bits : Nat) : List Nat :=
  match kind with
  | 0x10 => (List.range 4).map fun i => f32Of (Num.ofQ ⟨(nBits bits (8 * i) 8 : Nat), 255⟩)
  | 0x11 => (List.range 4).map fun i => f32Of (decodeNum kF16 (nBits bits (16 * i) 16))
  | 0x02 => [f32Of (decodeNum kF16 bits), f32Zero, f32Zero, f32One]
  | _ => [bits, f32Zero, f32Zero, f32One]

/-- The channels of texel (x, y) of a level. -/
def texFetch (s : State) (v : Env) (l : TexLevel) (x y : Nat) : State × (TexFault ⊕ List Nat) :=
  let w := kindWidth (hKind l.hdr)
  let bit := 128 * hDataoff l.hdr + elementBit (hLayout l.hdr) (hPitch l.hdr) w y x
  match loadSpan s v true (l.addr + BitVec.ofNat 64 (bit / 8)) (w / 8) with
  | (s, .inl x) => (s, .inl (.lane x))
  | (s, .inr bs) => (s, .inr (texChannels (hKind l.hdr) (leNat bs)))

/-- A texture descriptor (R437): the levels' addresses; none where NLEV or a byte listed 0 is not as the layout says. -/
def descriptorFrom (n : Nat) : Option (List W64) :=
  let k := nBits n 0 8
  if k = 0 || 15 < k || nBits n 8 56 != 0 then none else some ((List.range k).map fun i => nW64 n (64 + 64 * i))

/-- What a lane's descriptor reads as. -/
inductive Descriptor where
  | levels (l : List W64)
  | malformed
  | fault (x : TexFault)

def readDescriptor (s : State) (v : Env) (a : W64) : State × Descriptor :=
  if a.extractLsb' 0 4 != 0 then (s, .fault (.lane ⟨0x03, a, 0, false⟩))
  else
    match loadSpan s v false a 128 with
    | (s, .inl x) => (s, .fault (.lane x))
    | (s, .inr bs) =>
      match descriptorFrom (leNat bs) with
      | some l => (s, .levels l)
      | none => (s, .malformed)

/-! ## A word of class 11 that writes four registers -/

/-- What one lane gives: its registers, or its fault. -/
abbrev TexLane := State → Nat → State × (TexFault ⊕ List Nat)

structure TexSweep where
  s : State
  faults : List LaneFault
  header : Option (BitVec 8 × W64)
  out : List (Nat × List Nat)
  deriving DecidableEq, Repr

def texStep (h : TexLane) (x : TexSweep) (L : Nat) : TexSweep :=
  match h x.s L with
  | (s, .inr r) => { x with s := s, out := x.out ++ [(L, r)] }
  | (s, .inl (.lane f)) => { x with s := s, faults := x.faults ++ [⟨L, f.cause, f.va, f.pa⟩] }
  | (s, .inl (.header c a)) => { x with s := s, header := x.header.or (some (c, a)) }

/-- A header fault is the whole fragment's and nothing is written (R185, R439); else partial completion (R150). -/
def texWord (s : State) (F : Frag) (f : Fields) (h : TexLane) : Act :=
  let act := activeOf F f
  let v := hintedEnv s F f
  let x := (lanesOf act).foldl (texStep h) ⟨s, [], none, []⟩
  match x.header with
  | some (c, a) => shapeTrap x.s act c a
  | none =>
    let put (g : Group) (p : Nat × List Nat) : Group :=
      p.2.zipIdx.foldl (fun g q => setV g (f.d.toNat + q.2) p.1 (BitVec.ofNat 32 q.1)) g
    conclude v.core v.ctx (updGroup x.s F.g.id fun g => x.out.foldl put g) x.faults

/-- Four free values: the result of a malformed descriptor, which the spec does not state (log entry 10). -/
def freeTexel (s : State) : State × (TexFault ⊕ List Nat) :=
  let (n, s) := freeNat s
  (s, .inr ((List.range 4).map fun i => nBits n (32 * i) 32))

/-! ## TEX1 (R440, R441) -/

/-- An index wrapped, or clamped (R440). -/
def texIndex (clamp : Bool) (size : Nat) (i : Int) : Nat :=
  if clamp then (if i < 0 then 0 else min i.toNat (size - 1)) else (i % (size : Int)).toNat

/-- A weighted texel of the footprint. -/
structure Tap where
  level : TexLevel
  x : Nat
  y : Nat
  weight : Nat
  deriving DecidableEq, Repr

/-- A coordinate that is finite; a NaN or an infinity reads as 0 (R440 step 3). -/
def finiteCoord (b : Nat) : Nat := if f32Finite b then b else 0

/-- The four texels of a level around (u, v), each weight times the tap's (R440 step 3). -/
def bilinear (l : TexLevel) (clamp : Bool) (u v weight : Nat) : List Tap :=
  let s := f32Sub (f32Mul (finiteCoord u) (f32Nat (hCols l.hdr))) f32Half
  let t := f32Sub (f32Mul (finiteCoord v) (f32Nat (hRows l.hdr))) f32Half
  let i := f32Floor s
  let j := f32Floor t
  let fx := f32Sub s (f32Int i)
  let fy := f32Sub t (f32Int j)
  let gx := f32Sub f32One fx
  let gy := f32Sub f32One fy
  let tap (di dj : Int) (w : Nat) : Tap :=
    ⟨l, texIndex clamp (hCols l.hdr) (i + di), texIndex clamp (hRows l.hdr) (j + dj), f32Mul weight w⟩
  [tap 0 0 (f32Mul gx gy), tap 1 0 (f32Mul fx gy), tap 0 1 (f32Mul gx fy), tap 1 1 (f32Mul fx fy)]

/-- Headers of levels, in order. -/
def texLevels (s : State) (v : Env) (ls : List W64) : State × (TexFault ⊕ List TexLevel) :=
  ls.foldl (fun acc a =>
    match acc with
    | (s, .inr xs) =>
      match texLevel s v a with
      | (s, .inr l) => (s, .inr (xs ++ [l]))
      | (s, .inl x) => (s, .inl x)
    | y => y) (s, .inr [])

/-- The levels that λ touches, with their weights (R440 step 2). -/
def lodLevels (nlev : Nat) (rho : Nat) : List (Nat × Nat) :=
  let raw := f32Num (sfuBits .log2 5 false 0 rho)
  let lam : Q := match raw with
    | .fin q => if q.n < 0 then ⟨0, 1⟩ else if Q.lt (Q.ofInt (nlev - 1 : Nat)) q then Q.ofInt (nlev - 1 : Nat) else q
    | .inf false => Q.ofInt (nlev - 1 : Nat)
    | _ => ⟨0, 1⟩
  let n := lam.floor.toNat
  let frac := f32Of (Num.ofQ (lam.sub (Q.ofInt n)))
  if n + 1 < nlev then [(n, f32Sub f32One frac), (n + 1, frac)] else [(n, f32Sub f32One frac)]

/-- (u, v) of a lane; a NaN or an infinity reads as 0 (R440). -/
def texCoord (s : State) (g : Group) (f : Fields) (L : Nat) : Nat × Nat :=
  (finiteCoord (bitsB s g f 5 L), finiteCoord (bitsC s g f 5 L))

/-- A derivative: the neighbour's (u, v) minus the lane's; (0, 0) for one outside Active(F) (R440 step 1). -/
def texDelta (s : State) (g : Group) (f : Fields) (act : Mask) (L M : Nat) : Nat × Nat :=
  if !act.getLsbD M then (0, 0)
  else
    let a := texCoord s g f L
    let b := texCoord s g f M
    (f32Sub b.1 a.1, f32Sub b.2 a.2)

/-- The anisotropic count (R440 step 2). -/
def anisoCount (big small : Nat) : Nat :=
  if (f32Num big).isZero then 1
  else if (f32Num small).isZero then 16
  else
    match f32Num (f32Div big small) with
    | .fin q => min 16 (-(q.neg.floor)).toNat
    | _ => 16

/-- The footprint of a lane in order (R440). -/
def footprint (s : State) (v : Env) (F : Frag) (f : Fields) (act : Mask) (ls : List W64) (L : Nat) :
    State × (TexFault ⊕ List Tap) :=
  let clamp := f.mod.getLsbD 2
  let (u, w) := texCoord s F.g f L
  match texLevels s v (ls.take 1) with
  | (s, .inl x) => (s, .inl x)
  | (s, .inr l0s) =>
    match l0s with
    | [] => (s, .inr [])
    | l0 :: _ =>
      let scale (d : Nat × Nat) : Nat × Nat := (f32Mul d.1 (f32Nat (hCols l0.hdr)), f32Mul d.2 (f32Nat (hRows l0.hdr)))
      let dx := texDelta s F.g f act L (Nat.xor L 1)
      let dy := texDelta s F.g f act L (Nat.xor L 2)
      let len (d : Nat × Nat) : Nat := f32Length (scale d).1 (scale d).2
      let rx := len dx
      let ry := len dy
      let big := if f32Lt rx ry then ry else rx
      let small := if f32Lt rx ry then rx else ry
      let major := if f32Lt rx ry then dy else dx
      let trilinear (s : State) (u w rho weight : Nat) : State × (TexFault ⊕ List Tap) :=
        let lods := lodLevels ls.length rho
        match texLevels s v (lods.filterMap fun p => ls[p.1]?) with
        | (s, .inl x) => (s, .inl x)
        | (s, .inr xs) => (s, .inr ((xs.zip lods).flatMap fun p => bilinear p.1 clamp u w (f32Mul weight p.2.2)))
      match (f.mod.extractLsb' 0 2).toNat with
      | 0 => (s, .inr (bilinear l0 clamp u w f32One))
      | 1 => trilinear s u w big f32One
      | _ =>
        let n := anisoCount big small
        let rho := f32Div big (f32Nat n)
        let part := f32Div f32One (f32Nat n)
        (List.range n).foldl (fun acc i =>
          match acc with
          | (s, .inr taps) =>
            let off := f32Sub (f32Div (f32Add (f32Nat i) f32Half) (f32Nat n)) f32Half
            match trilinear s (f32Add u (f32Mul off major.1)) (f32Add w (f32Mul off major.2)) rho part with
            | (s, .inr more) => (s, .inr (taps ++ more))
            | (s, .inl x) => (s, .inl x)
          | y => y) (s, .inr [])

/-- ⌊w × 65536⌋ (R440 step 4). -/
def quantised (w : Nat) : Nat := (((f32Num w).toQ.mul (Q.ofInt 65536)).floor).toNat

/-- The texel that r picks: the least j with q0 + … + qj > r, the last taking what is left (R440, R441). None where a weight
before it is not finite: the rule gives no texel there (log entry 92). -/
def pickTap : List Tap → Nat → Nat → Option Tap
  | [], _, _ => none
  | [t], _, _ => if f32Finite t.weight then some t else none
  | t :: r, at_, x =>
    if !f32Finite t.weight then none
    else if x < at_ + quantised t.weight then some t else pickTap r (at_ + quantised t.weight) x

/-- TEX1 (R441). -/
def execTex1 (f : Fields) (s : State) : Res :=
  issue (.tex1 f) (fun s0 F =>
    let act := activeOf F f
    let v := hintedEnv s0 F f
    let frame := BitVec.ofNat 32 (((launchOf s0 F.g).map Launch.frame).getD 0)
    let key := hash32 (BitVec.ofNat 32 (f.mod.extractLsb' 4 4).toNat) (F.g.seed.extractLsb' 0 32)
    texWord s0 F f fun s L =>
      match readDescriptor s v (getS F.g f.a.toNat) with
      | (s, .fault x) => (s, .inl x)
      | (s, .malformed) => freeTexel s
      | (s, .levels ls) =>
        match footprint s v F f act ls L with
        | (s, .inl x) => (s, .inl x)
        | (s, .inr taps) =>
          let h := hash32 (hash32 (getV F.g f.e.toNat L) frame) key
          match pickTap taps 0 (h.extractLsb' 16 16).toNat with
          | some t => texFetch s v t.level t.x t.y
          | none => freeTexel s) s

/-! ## TEXF and TEXQ (R442) -/

/-- The header of the level that a lane names, the highest where it names more (R442). -/
def namedLevel (s : State) (v : Env) (a : W64) (n : Nat) : State × (TexFault ⊕ Option (TexLevel × Nat)) :=
  match readDescriptor s v a with
  | (s, .fault x) => (s, .inl x)
  | (s, .malformed) => (s, .inr none)
  | (s, .levels ls) =>
    match ls[min n (ls.length - 1)]? with
    | none => (s, .inr none)
    | some addr =>
      match texLevel s v addr with
      | (s, .inl x) => (s, .inl x)
      | (s, .inr l) => (s, .inr (some (l, ls.length)))

def execTexf (f : Fields) (s : State) : Res :=
  issue (.texf f) (fun s0 F =>
    let v := hintedEnv s0 F f
    texWord s0 F f fun s L =>
      match namedLevel s v (getS F.g f.a.toNat) (getV F.g f.e.toNat L).toNat with
      | (s, .inl x) => (s, .inl x)
      | (s, .inr none) => freeTexel s
      | (s, .inr (some (l, _))) =>
        let index (size x : Nat) : Nat := texIndex (f.mod.getLsbD 2) size x
        texFetch s v l (index (hCols l.hdr) (bitsB s0 F.g f 0 L)) (index (hRows l.hdr) (bitsC s0 F.g f 0 L))) s

def execTexq (f : Fields) (s : State) : Res :=
  issue (.texq f) (fun s0 F =>
    let v := hintedEnv s0 F f
    texWord s0 F f fun s L =>
      match namedLevel s v (getS F.g f.a.toNat) (bitsB s0 F.g f 0 L) with
      | (s, .inl x) => (s, .inl x)
      | (s, .inr none) => freeTexel s
      | (s, .inr (some (l, n))) => (s, .inr [hCols l.hdr, hRows l.hdr, n, hKind l.hdr])) s

/-! ## ATTR, DISCARD, DEPTHW (R428, R443) -/

/-- A load of n bytes by a lane of class 11, aligned. -/
def pixelLoad (s : State) (v : Env) (va : W64) (n : Nat) : State × (TexFault ⊕ Nat) :=
  match checkLane s v va (loadOf n) with
  | (s, .ok (.mem host pa d)) =>
    let r := readTarget (drainOwn s v) v (.mem host pa d) v.hint n
    (r.state, .inr (leNat r.bytes))
  | (s, .ok _) => (s, .inl (.lane ⟨0x05, va, 0, false⟩))
  | (s, .absent) => (s, .inl (.lane ⟨0x04, va, 0, true⟩))
  | (s, .fault c pa) => (s, .inl (.lane ⟨c, va, pa, false⟩))

/-- Loads in order, all or the first fault. -/
def pixelLoads (s : State) (v : Env) (ps : List (W64 × Nat)) : State × (TexFault ⊕ List Nat) :=
  ps.foldl (fun acc p =>
    match acc with
    | (s, .inr xs) =>
      match pixelLoad s v p.1 p.2 with
      | (s, .inr x) => (s, .inr (xs ++ [x]))
      | (s, .inl x) => (s, .inl x)
    | y => y) (s, .inr [])

/-- a0 + b1 (a1 − a0) + b2 (a2 − a0), exact with one rounding; NaN or an invalid sum gives the default NaN (R443). -/
def attrValue (a0 a1 a2 b1 b2 : Nat) : Nat :=
  let xs := [a0, a1, a2, b1, b2].map f32Num
  if xs.any Num.isNaN then f32Of defaultNaN
  else
    let n := f32Num
    let d1 := sumNum 0 [n a1, (n a0).negate]
    let d2 := sumNum 0 [n a2, (n a0).negate]
    let nanOr (x y : Num) : Num := if x.isNaN || y.isNaN then defaultNaN else mulNum x y
    let t := [n a0, nanOr (n b1) d1, nanOr (n b2) d2]
    f32Of (if t.any Num.isNaN then defaultNaN else sumNum 0 t)

/-- ATTR (R443). -/
def execAttr (f : Fields) (s : State) : Res :=
  issue (.attr f) (fun s0 F =>
    let v := hintedEnv s0 F f
    texWord s0 F f fun s L =>
      let a := addr64 F.g f.selA f.a L
      let p := (bitsC s0 F.g f 0 L) % 4
      let off (n : Nat) : W64 := a + BitVec.ofNat 64 n
      if f.mod.getLsbD 0 then
        match pixelLoad s v (off (16 + 24 + 4 * p)) 4 with
        | (s, .inr z) => (s, .inr [z])
        | (s, .inl x) => (s, .inl x)
      else
        match pixelLoads s v [(off 32, 8), (off (56 + 8 * p), 4), (off (60 + 8 * p), 4)] with
        | (s, .inr [attra, b1, b2]) =>
          let base : W64 := BitVec.ofNat 64 (attra + 16 * bitsB s0 F.g f 0 L)
          match pixelLoads s v ((List.range 3).map fun i => (base + BitVec.ofNat 64 (4 * i), 4)) with
          | (s, .inr [a0, a1, a2]) => (s, .inr [attrValue a0 a1 a2 b1 b2])
          | (s, .inr _) => (s, .inr [])
          | (s, .inl x) => (s, .inl x)
        | (s, .inr _) => (s, .inr [])
        | (s, .inl x) => (s, .inl x)) s

/-- A group of a pixel node whose launch block has DEPTHF = 1 (R428). -/
def depthFinal (s : State) (g : Group) : Bool :=
  match launchOf s g, recordNode s g with
  | some l, some (gr, n) =>
    l.blk.depthf && (match (inEdge gr n 0).bind fun i => gr.edges[i]? with
      | some e => (gr.nodes[e.src]?).any fun x => x.kind = 2 && x.unit = 0
      | none => false)
  | _, _ => false

/-- A lane's update of a colour record: Z where given, and a bit of FLAGS, every place checked first (R443). -/
def colourLane (F : Frag) (f : Fields) (v : Env) (z : Nat → Option Nat) (bit : Nat) (w : Sweep) (L : Nat) : Sweep :=
  let a := addr64 F.g f.selA f.a L
  let zva := a + 20
  let fva := a + 40
  let fail (s : State) (va : W64) (c : Checked) : Sweep := match c with
    | .fault x pa => w.fault s L x va pa
    | .absent => w.fault s L 0x04 va 0
    | .ok _ => w.fault s L 0x05 va 0
  let put (s : State) : Sweep :=
    match checkLane s v fva (atomicOf 4) with
    | (s, .ok (.mem host pa d)) =>
      let t := Target.mem host pa d
      let r := readTarget (drainOwn s v) v t v.hint 4
      { w with s := writeTarget r.state v 1 t (leBytes 4 (Nat.lor (leNat r.bytes) (2 ^ bit))) }
    | (s, c) => fail s fva c
  match z L with
  | none => put w.s
  | some x =>
    match checkLane w.s v zva (plainWrite 4) with
    | (s, .ok (.mem host pa d)) =>
      match checkLane s v fva (atomicOf 4) with
      | (s, .ok (.mem _ _ _)) => put (writeTarget (drainOwn s v) v 1 (.mem host pa d) (leBytes 4 x))
      | (s, c) => fail s fva c
    | (s, c) => fail s zva c

def colourWord (s : State) (F : Frag) (f : Fields) (z : Nat → Option Nat) (bit : Nat) : Act :=
  let act := activeOf F f
  if act = 0 then .done s
  else if depthFinal s F.g then .trap s 0x11 0 act
  else
    let v := hintedEnv s F f
    let w := sweep s act (colourLane F f v z bit)
    conclude v.core v.ctx w.s w.faults

/-- DISCARD (R443). -/
def execDiscard (f : Fields) (s : State) : Res :=
  issue (.discard f) (fun s F => colourWord s F f (fun _ => none) 0) s

/-- The depth that DEPTHW writes (R443). -/
def depthValue (b : Nat) : Nat :=
  match f32Num b with
  | .nan _ _ => f32One
  | x => if numLt x (Num.ofInt 0) || x.isZero then 0 else if numLt (Num.ofInt 1) x then f32One else b

/-- DEPTHW (R443). -/
def execDepthw (f : Fields) (s : State) : Res :=
  issue (.depthw f) (fun s F => colourWord s F f (fun L => some (depthValue (bitsB s F.g f 5 L))) 1) s

end Sys2Proof.Machine
end

