-- ==== Sys2Proof/Machine/Traversal.lean ====
section
/-! DEFINITION. The traversal unit and TRACE (R430 to R436). -/

namespace Sys2Proof.Machine

/-! ## Vectors of exact values -/

structure Vec3 where
  x : Q
  y : Q
  z : Q
  deriving DecidableEq, Repr

def Vec3.sub (a b : Vec3) : Vec3 := ⟨a.x.sub b.x, a.y.sub b.y, a.z.sub b.z⟩
def Vec3.dot (a b : Vec3) : Q := ((a.x.mul b.x).add (a.y.mul b.y)).add (a.z.mul b.z)
def Vec3.cross (a b : Vec3) : Vec3 :=
  ⟨(a.y.mul b.z).sub (a.z.mul b.y), (a.z.mul b.x).sub (a.x.mul b.z), (a.x.mul b.y).sub (a.y.mul b.x)⟩

/-- Three binary32 at a bit offset; none unless all are finite. -/
def vecAt (n lo : Nat) : Option Vec3 :=
  let c (i : Nat) := f32Num (nBits n (lo + 32 * i) 32)
  if [c 0, c 1, c 2].all fun v => !v.isNaN && !v.isInf then some ⟨(c 0).toQ, (c 1).toQ, (c 2).toQ⟩ else none

/-! ## Rays and nodes (R430, R433) -/

structure Ray where
  bits : Nat
  orig : Option Vec3
  dir : Option Vec3
  tmin : Num
  tmax : Num
  root : W64
  cull : Bool
  any : Bool
  user : Nat
  deriving DecidableEq, Repr

/-- A ray record's 48 bytes. -/
def rayFrom (n : Nat) : Ray :=
  { bits := n % 2 ^ 384, orig := vecAt n 0, dir := vecAt n 128, tmin := f32Num (nBits n 96 32), tmax := f32Num (nBits n 224 32)
    root := nW64 n 256, cull := n.testBit 320, any := n.testBit 321, user := nBits n 352 32 }

/-- A child of a box node: its type, its index and its 72 box bits. -/
structure BvhChild where
  type : Nat
  index : Nat
  box : Nat
  deriving DecidableEq, Repr

def bvhChild (n i : Nat) : BvhChild :=
  let r := nBits n (8 * 88 + 32 * i) 32
  ⟨nBits r 30 2, nBits r 0 30, nBits n (8 * 16 + 72 * i) 72⟩
def bvhBoxBad (n : Nat) : Bool :=
  nBits n 120 8 != 0 || nBits n 960 64 != 0 || (List.range 8).any fun i => (bvhChild n i).type = 3
def bvhLeafCount (n : Nat) : Nat := nBits n 960 8
def bvhLeafBad (n : Nat) : Bool := bvhLeafCount n = 0 || 3 < bvhLeafCount n || nBits n 968 56 != 0

/-! ## The box test (R431) -/

/-- A corner's coordinate on one axis: O + k × 2^EXP rounded down or up. -/
def boxCorner (n axis k rnd : Nat) : Num :=
  let o := f32Num (nBits n (32 * axis) 32)
  let e : Int := decodeInt (.int true 8) (nBits n (96 + 8 * axis) 8)
  if o.isNaN || o.isInf then o else decodeNum kF32 (roundTo kF32 (Num.ofQ (o.toQ.add ((Q.ofInt k).mul (Q.dyadic 1 e)))) rnd)

/-- An interval of distances; none for an end that is open. -/
structure Span where
  lo : Option Q
  hi : Option Q
  empty : Bool
  deriving DecidableEq, Repr

def Span.meet (a b : Span) : Span :=
  let pick (h : Q → Q → Bool) (x y : Option Q) : Option Q := match x, y with
    | some p, some q => if h p q then some p else some q
    | none, y => y
    | x, none => x
  ⟨pick (fun p q => q.le p) a.lo b.lo, pick Q.le a.hi b.hi, a.empty || b.empty⟩
def Span.some? (a : Span) : Bool :=
  !a.empty && (match a.lo, a.hi with
    | some x, some y => x.le y
    | _, _ => true)

/-- An end of an interval; infinite ones are open, NaN closes it. -/
def numEnd (x : Num) : Option Q × Bool :=
  match x with
  | .nan _ _ => (none, true)
  | .inf _ => (none, false)
  | y => (some y.toQ, false)

/-- A distance rounded once to binary32, down or up; none for one that is open (R431; log entry 11). -/
def distance (rnd : Nat) (q : Q) : Option Q :=
  match decodeNum kF32 (roundTo kF32 (Num.ofQ q) rnd) with
  | .inf _ | .nan _ _ => none
  | y => some y.toQ

/-- The distances at which a ray lies between two coordinates of an axis, the entry rounded down and the exit up. -/
def slab (o d : Q) (lo hi : Num) : Span :=
  let (l, bad1) := numEnd lo
  let (h, bad2) := numEnd hi
  let at_ (rnd : Nat) (c : Option Q) : Option Q := c.bind fun c => distance rnd ((c.sub o).div d)
  if bad1 || bad2 then ⟨none, none, true⟩
  else if d.isZero then
    ⟨none, none, !(((l.map fun c => c.le o).getD true) && ((h.map fun c => o.le c).getD true))⟩
  else if d.isNeg then ⟨at_ 3 h, at_ 2 l, false⟩
  else ⟨at_ 3 l, at_ 2 h, false⟩

/-- The slab test of a child's box (R431). -/
def boxHit (r : Ray) (n : Nat) (c : BvhChild) : Bool :=
  match r.orig, r.dir with
  | some o, some d =>
    let lo (i : Nat) := boxCorner n i (nBits c.box (12 * i) 12) 3
    let hi (i : Nat) := boxCorner n i (nBits c.box (36 + 12 * i) 12 + 1) 2
    let (a, bad1) := numEnd r.tmin
    let (b, bad2) := numEnd r.tmax
    let t : Span := ⟨a, b, bad1 || bad2 || r.tmin = .inf false || r.tmax = .inf true⟩
    (((t.meet (slab o.x d.x (lo 0) (hi 0))).meet (slab o.y d.y (lo 1) (hi 1))).meet (slab o.z d.z (lo 2) (hi 2))).some?
  | _, _ => false

/-! ## The triangle test (R432) -/

/-- A hit: T, U, V as binary32 bits, and PRIM. -/
structure RayHit where
  t : Nat
  u : Nat
  v : Nat
  prim : Nat
  deriving DecidableEq, Repr

/-- A reported value: the device's own where it is within 2⁻²¹ relative of the exact one, else the nearest (R432). -/
def reported (which key : Nat) (exact : Q) : Nat :=
  let c := (Config.traceValue which key).toNat
  match f32Num c with
  | .fin q => if (q.sub exact).abs.le (exact.abs.mul (Q.dyadic 1 (-21))) then c else f32Of (Num.ofQ exact)
  | _ => f32Of (Num.ofQ exact)

/-- A value rounded once to binary32; none where it overflows. -/
def near32 (q : Q) : Option Q :=
  match f32Num (f32Of (Num.ofQ q)) with
  | .nan _ _ | .inf _ => none
  | y => some y.toQ

def Vec3.at_ (v : Vec3) (k : Nat) : Q := match k % 3 with
  | 0 => v.x
  | 1 => v.y
  | _ => v.z

/-- The frame in which a ray runs along +z: the axes that become x, y and z, and the shears of x and y (R432; log entry 88). -/
structure RayFrame where
  kx : Nat
  ky : Nat
  kz : Nat
  sx : Q
  sy : Q
  deriving DecidableEq, Repr

/-- z is the axis of the largest component; the others keep their order, changed where that component is negative. -/
def rayFrame (d : Vec3) : Option RayFrame :=
  let kz := if d.y.abs.lt d.x.abs then (if d.z.abs.lt d.x.abs then 0 else 2) else if d.z.abs.lt d.y.abs then 1 else 2
  let z := d.at_ kz
  let (kx, ky) := if z.isNeg then (kz + 2, kz + 1) else (kz + 1, kz + 2)
  if z.isZero then none
  else match near32 ((d.at_ kx).div z), near32 ((d.at_ ky).div z) with
    | some sx, some sy => some ⟨kx, ky, kz, sx, sy⟩
    | _, _ => none

/-- A point in the frame, each step rounded to binary32. -/
def flatten (f : RayFrame) (o v : Vec3) : Option (Q × Q) := do
  let a := v.sub o
  let z ← near32 (a.at_ f.kz)
  let shear (k : Nat) (h : Q) : Option Q := do near32 ((← near32 (a.at_ k)).sub (← near32 (h.mul z)))
  return (← shear f.kx f.sx, ← shear f.ky f.sy)

/-- An edge function in binary32; one that comes out 0 is evaluated again exactly (R432). -/
def edgeFunction (p q : Q × Q) : Option Q := do
  let e ← near32 ((← near32 (p.1.mul q.2)).sub (← near32 (p.2.mul q.1)))
  return if e.isZero then (p.1.mul q.2).sub (p.2.mul q.1) else e

/-- The three edge functions of a triangle in a ray's frame, the one opposite vertex 0 first. -/
def edgeFunctions (o d v0 v1 v2 : Vec3) : Option (List Q) := do
  let f ← rayFrame d
  let a ← flatten f o v0
  let b ← flatten f o v1
  let c ← flatten f o v2
  return [← edgeFunction c b, ← edgeFunction a c, ← edgeFunction b a]

/-- Triangle i of a leaf (R432): its edge functions decide the hit; T, U and V are within their bound of the exact values, U and V
being the weights of vertices 1 and 2 (log entry 88). -/
def triangleHit (r : Ray) (n i : Nat) : Option RayHit :=
  match r.orig, r.dir, vecAt n (288 * i), vecAt n (288 * i + 96), vecAt n (288 * i + 192) with
  | some o, some d, some v0, some v1, some v2 =>
    let a := v0.sub o
    let b := v1.sub o
    let c := v2.sub o
    let w0 := d.dot (c.cross b)
    let w1 := d.dot (a.cross c)
    let w2 := d.dot (b.cross a)
    let det := (w0.add w1).add w2
    let es := (edgeFunctions o d v0 v1 v2).getD []
    let pos := es.all fun w => !w.isNeg
    let neg := es.all fun w => w.isNeg || w.isZero
    if es.all Q.isZero || !(pos || neg) || (r.cull && pos = Config.backFacePositive) || det.isZero then none
    else
      let along := ((w0.mul (a.dot d)).add (w1.mul (b.dot d))).add (w2.mul (c.dot d))
      let t := along.div (det.mul (d.dot d))
      let key := r.bits + nBits n (288 * i) 288 * 2 ^ 384
      let tb := reported 0 key t
      let tn := f32Num tb
      if r.tmin.isNaN || r.tmax.isNaN || numLt tn r.tmin || numLt r.tmax tn then none
      else some ⟨tb, reported 1 key (w1.div det), reported 2 key (w2.div det), nBits n (864 + 32 * i) 32⟩
  | _, _, _, _, _ => none

/-! ## Traversal (R431 to R433) -/

/-- What a traversal comes to: hits, a malformed hierarchy, or what stopped it. -/
inductive Traversal where
  | hits (l : List RayHit)
  | malformed
  | absent (va : W64)
  /-- the hierarchy has no end within the steps given -/
  | endless

/-- The node at an index, read whole at dev scope. -/
def bvhNode (s : State) (v : Env) (root : W64) (index : Nat) : State × (Halt ⊕ Nat) :=
  match sideRead s v false root (128 * index) 128 with
  | (s, .inr bs) => (s, .inr (leNat bs))
  | (s, .inl h) => (s, .inl h)

/-- A fault on a node gives STATUS 4 (R433); poison and violations are logged all the same, a TRACE's with the core that has issued it
(R259, R469, R473). -/
def logHierarchy (s : State) (ctx : Nat) (core : Option Nat) (c : BitVec 8) (va : W64) (pa : Nat) : State :=
  if c = 0x14 || c = 0x15 then logBoth s ctx c core va pa else s

/-- Visit nodes of a stack: (leaf, index); `core` is the one that the logs name. -/
def traverseFrom (v : Env) (core : Option Nat) (r : Ray) : Nat → State → List (Bool × Nat) → List RayHit → State × Traversal
  | 0, s, todo, hits => (s, if todo = [] then .hits hits else .endless)
  | fuel + 1, s, todo, hits =>
    match todo with
    | [] => (s, .hits hits)
    | (leaf, i) :: rest =>
      match bvhNode s v r.root i with
      | (s, .inl (.absent va)) => (s, .absent va)
      | (s, .inl (.fault c va pa)) => (logHierarchy s v.ctx core c va pa, .malformed)
      | (s, .inr n) =>
        if leaf then
          if bvhLeafBad n then (s, .malformed)
          else traverseFrom v core r fuel s rest (hits ++ (List.range (bvhLeafCount n)).filterMap (triangleHit r n))
        else if bvhBoxBad n then (s, .malformed)
        else
          let cs := ((List.range 8).map (bvhChild n)).filter fun c => c.type != 0 && boxHit r n c
          traverseFrom v core r fuel s (cs.map (fun c => (c.type == 2, c.index)) ++ rest) hits

/-- The result among hits: least T, then lower PRIM; with FLAGS[1] any of them, a free choice (R432). -/
def chooseHit (s : State) (r : Ray) (hits : List RayHit) : State × Option RayHit :=
  let best := hits.foldl (fun b h => match b with
    | some x => if f32Lt h.t x.t || (!f32Lt x.t h.t && h.prim < x.prim) then some h else some x
    | none => some h) none
  if r.any && hits != [] then
    let (n, s) := freeNat s
    (s, (hits[n % hits.length]?).or best)
  else (s, best)

/-- STATUS and the first 16 bytes of a hit record (R433). -/
structure TraceResult where
  status : Nat
  hit : RayHit
  deriving DecidableEq, Repr

def noHit : RayHit := ⟨0, 0, 0, 0⟩

/-- Traverse a ray to its result, or to what stops it: a page not present, or a hierarchy without end. -/
def traverse (s : State) (v : Env) (core : Option Nat) (r : Ray) : State × (Option W64 ⊕ TraceResult) :=
  if r.root.extractLsb' 0 7 != 0 then (s, .inr ⟨4, noHit⟩)
  else
    match traverseFrom v core r (2 ^ 31) s [(false, 0)] [] with
    | (s, .malformed) => (s, .inr ⟨4, noHit⟩)
    | (s, .absent va) => (s, .inl (some va))
    | (s, .endless) => (s, .inl none)
    | (s, .hits l) =>
      match chooseHit s r l with
      | (s, some h) => (s, .inr ⟨1, h⟩)
      | (s, none) => (s, .inr ⟨2, noHit⟩)

/-- The 16 bytes of T, U, V, PRIM. -/
def RayHit.bytes (h : RayHit) : List Byte := leBytes 4 h.t ++ leBytes 4 h.u ++ leBytes 4 h.v ++ leBytes 4 h.prim

/-! ## TRACE (R434, R435) -/

/-- One lane of TRACE. -/
def traceLane (F : Frag) (f : Fields) (v : Env) (c : Command) (x : Issue) (L : Nat) : Issue :=
  let ray := addr64 F.g f.selA f.a L
  let slot := getS F.g f.b.toNat + BitVec.ofNat 64 (32 * L)
  let rs := lockRangeOf false ray 48
  let rd := lockRangeOf false slot 32
  let checks := [fun s => if ray.extractLsb' 0 4 != 0 then (s, some ⟨0x03, ray, 0, false⟩) else (s, none),
    fun s => checkSpan s v byteRead false ray 48, selfOverlap rs rd slot, fun s => checkSpan s v byteWrite false slot 32]
    ++ targetChecks v c false
  match firstFault x.s checks with
  | (s, some y) => x.fault s L y
  | (s, none) =>
    let o := { blankOp F v c .trace L with
      dst := slot, src := ray, len := 32, value := getS F.g f.b.toNat, srcRanges := [rs], dstRanges := [rd] }
    { x with s := s, ops := x.ops ++ [o] }

/-- TRACE (R435). -/
def execTrace (f : Fields) (s : State) : Res :=
  issue (.trace f) (fun s F =>
    let act := activeOf F f
    let v := envOf s F.g
    let c := commandOf F.g f
    let base := getS F.g f.b.toNat
    let bad := (c.targetBad).or (if base.extractLsb' 0 3 != 0 then some ⟨0x03, some base⟩ else none)
    match (if act = 0 then none else bad) with
    | some y => commandTrap s act y
    | none =>
      let x := (lanesOf act).foldl (traceLane F f v c) ⟨s, [], 0, []⟩
      issueOps s F v act x (32 * x.ops.length)) s

/-- The ray of a TRACE operation. -/
def traceRay (s : State) (v : Env) (o : AsyncOp) : State × (Halt ⊕ Ray) :=
  match sideRead s v false o.src 0 48 with
  | (s, .inr bs) => (s, .inr (rayFrom (leNat bs)))
  | (s, .inl h) => (s, .inl h)

def haltOp (s : State) (o : AsyncOp) : Halt → State
  | .absent va => setOp s { o with waiting := some va }
  | .fault c va pa => engineFault s o c va pa

/-- Writes of one operation in order, the first that stops it. -/
def opWrites (s : State) (v : Env) (o : AsyncOp) (ws : List (Nat × List Byte)) : State × Option Halt :=
  ws.foldl (fun acc w =>
    match acc with
    | (s, none) => sideWrite s v o.scope false o.dst w.1 w.2
    | y => y) (s, none)

/-- The movement of TRACE, its ray's address known: T, U, V, PRIM, then STATUS (R435). -/
def traceOp (s : State) (o : AsyncOp) : State :=
  let v := opEnv s o
  match traceRay s v o with
  | (s, .inl h) => haltOp s o h
  | (s, .inr r) =>
    match traverse s v (some o.core) r with
    | (s, .inl (some va)) => setOp s { o with waiting := some va }
    | (s, .inl none) => s
    | (s, .inr x) =>
      match opWrites s v o [(0, x.hit.bytes.take 8), (8, x.hit.bytes.drop 8), (16, leBytes 4 x.status)] with
      | (s, some h) => haltOp s o h
      | (s, none) =>
        let o := { o with moved := true, whole := true, waiting := none }
        completeBatch (setOp s o) o

/-- The movement of TRACE. -/
def moveTrace (s : State) (o : AsyncOp) : State :=
  match learnRay s o with
  | (s, .inl h) => haltOp s o h
  | (s, .inr p) => traceOp (if o.pos = 1 then setOp s p else s) p

end Sys2Proof.Machine
end

