-- ==== Sys2Proof/Machine/Render.lean ====
section
/-! DEFINITION. Fixed-function units: the rasteriser, the blender, the traversal unit and the Solder node (R419, R422 to
R429, R433). -/

namespace Sys2Proof.Machine

/-! ## Records in and out (R422) -/

/-- The header of an output record: KEY and FRAME of its cause, its LEN (R422). -/
def outHeader (cause len edge seq : Nat) (stale : Bool) : Nat :=
  recHeader (nBits cause 48 32 * 2 ^ 48 + len * 2 ^ 112) edge (nBits cause 16 32) seq stale

/-- The first record that a unit still has to write goes to output port 0; with no edge there, or when nothing takes it, it
goes nowhere (log entry 15). -/
def emitOne (s : State) (g : Graph) (i : Nat) (n : Node) (h : Nat) (payload : List Byte) (rest : List (Nat × List Byte)) : State :=
  let drop (s : State) : State := updNode s g.num i fun n => { n with outbox := rest, waiting := none }
  match (outEdge g i 0).bind fun k => (g.edges[k]?).map fun e => (k, e) with
  | none => drop s
  | some (k, e) =>
    if e.full then (if consumerLive g e then s else drop s)
    else match storeRecord s g.ctx e (outHeader h payload.length e.edgeId e.head n.stale) payload with
      | (s, .absent va) => waitNode s g.num i va
      | (s, .fault c va pa) => drop (logAway s g.ctx c va pa)
      | (s, .ok _) =>
        let s := drop s
        match getGraph s g.num with
        | none => s
        | some g => recordArrived (setGraph s (setEdge g k { e with head := e.head + 1 })) g.num k e

/-- Write what a unit has to write, while there is room. -/
def emitAll (gn i : Nat) : Nat → State → State
  | 0, s => s
  | fuel + 1, s =>
    match getGraph s gn with
    | none => s
    | some g =>
      match g.nodes[i]? with
      | none => s
      | some n =>
        match n.outbox with
        | [] => s
        | (h, p) :: rest => let s' := emitOne s g i n h p rest; if s' = s then s else emitAll gn i fuel s'

/-- What a unit makes of a record. -/
inductive Worked where
  /-- the payloads of its output records, in order -/
  | outs (l : List (List Byte))
  /-- it waits for a page -/
  | wait (va : W64)
  /-- it is skipped: a fault, logged -/
  | fault (cause : BitVec 8) (va : W64) (pa : Nat)
  /-- no result is reached -/
  | never
  deriving DecidableEq, Repr

/-- A fixed-function unit: its number, its record's size and the check of its bytes that must be 0, the reading of its
configuration at the start of a run, and what it does with a record's payload. -/
structure Unit_ where
  unit : Nat
  size : Nat
  bad : Nat → Bool
  start : State → Graph → Node → State × (DevRead ⊕ Nat)
  work : State → Graph → Nat → Nat → Nat → State × Worked

/-- A taken record is done with: its slot is free, and what it causes is to be written. -/
def recordDone (s : State) (gn i k : Nat) (h : Nat) (outs : List (List Byte)) : State :=
  match getGraph s gn with
  | none => s
  | some g =>
    match g.edges[k]?, g.nodes[i]? with
    | some e, some n =>
      let e := { e with taken := e.taken + 1 }
      let n := { n with outbox := n.outbox ++ outs.map fun p => (h, p), waiting := none }
      wakeRecords (setGraph s (setNode (setEdge g k (e.free (e.taken - 1))) i n)) gn
    | _, _ => s

/-- The unit takes its next record, if there is one. -/
def takeRecord (u : Unit_) (s : State) (g : Graph) (i : Nat) (cfg : Option Nat) : State :=
  match (inEdge g i 0).bind fun k => (g.edges[k]?).map fun e => (k, e) with
  | none => s
  | some (k, e) =>
    if e.untaken = 0 then s
    else match devRead s g.ctx false (e.slotVa e.taken) 256 with
      | (s, .absent va) => waitNode s g.num i va
      | (s, .fault c va pa) => recordDone (logAway s g.ctx c va pa) g.num i k 0 []
      | (s, .ok bs) =>
        let h := leNat (bs.take 16)
        let n := leNat ((bs.drop 16).take u.size)
        if recLen h < u.size || u.bad n then recordDone (logContext s g.ctx 0x17 none 0 0) g.num i k h []
        else match cfg with
          | none => recordDone s g.num i k h []
          | some c =>
            match u.work s g i c n with
            | (s, .outs l) => recordDone s g.num i k h l
            | (s, .wait va) => waitNode s g.num i va
            | (s, .fault c va pa) => recordDone (logAway s g.ctx c va pa) g.num i k h []
            | (s, .never) => s

/-- Every input is done and every record written: the node is draining (R298). -/
def oweDrain (s : State) (gn i : Nat) : State :=
  match getGraph s gn with
  | none => s
  | some g =>
    let g := drainUnits g
    let s := setGraph s g
    if (g.nodes[i]?).any fun n => n.st = .draining && n.outbox = [] then owe s (.nodeDone gn i) else s

/-- A fixed-function node that has not ended (R298). -/
def Node.atWork (n : Node) : Bool := n.st = .running || n.st = .draining

/-- One action of a unit: its configuration first, then what it has to write, then its next record. -/
def unitStep (u : Unit_) (gn i : Nat) (s : State) : Res :=
  match getGraph s gn with
  | none => .fault (.noSuchObject "graph")
  | some g =>
    match g.nodes[i]? with
    | none => .fault (.noSuchObject "node")
    | some n =>
      if n.kind != 2 || n.unit != u.unit || !n.atWork then .fault (.noSuchObject "unit at work")
      else match n.config with
        | none =>
          (match u.start s g n with
           | (s, .inl (.absent va)) => .next (waitNode s gn i va)
           | (s, .inl (.fault c va pa)) => .next (updNode (logAway s g.ctx c va pa) gn i fun n => { n with config := some none, waiting := none })
           | (s, .inl (.ok _)) => .next s
           | (s, .inr c) => .next (updNode s gn i fun n => { n with config := some (some c), waiting := none }))
        | some cfg =>
          if n.outbox != [] then .next (oweDrain (emitAll gn i (n.outbox.length + 1) s) gn i)
          else .next (oweDrain (takeRecord u s g i cfg) gn i)

/-- A 64-byte configuration block at LBOFF. -/
def readConfig (s : State) (g : Graph) (n : Node) : State × (DevRead ⊕ Nat) :=
  match devRead s g.ctx false (g.image + BitVec.ofNat 64 n.lboff) 64 with
  | (s, .ok bs) => (s, .inr (leNat bs))
  | (s, x) => (s, .inl x)
/-- A unit without one. -/
def noConfig (s : State) (_ : Graph) (_ : Node) : State × (DevRead ⊕ Nat) := (s, .inr 0)

/-- Check that bytes may be written, and write nothing. -/
def devWritable (s : State) (ctx : Nat) (tile : Bool) (va : W64) (n : Nat) : State × Option Worked :=
  match devPiece s ctx ⟨1, false, true, tile, false⟩ false va n with
  | (s, .inr _) => (s, none)
  | (s, .inl (.absent va)) => (s, some (.wait va))
  | (s, .inl (.fault c va pa)) => (s, some (.fault c va pa))
  | (s, .inl (.ok _)) => (s, none)

/-- Reads in order of ranges of a context, all or what stops them. -/
def devReads (s : State) (ctx : Nat) (tile : Bool) (rs : List (W64 × Nat)) : State × (Worked ⊕ List (List Byte)) :=
  rs.foldl (fun acc r =>
    match acc with
    | (s, .inr l) =>
      (match devRead s ctx tile r.1 r.2 with
       | (s, .ok bs) => (s, .inr (l ++ [bs]))
       | (s, .absent va) => (s, .inl (.wait va))
       | (s, .fault c va pa) => (s, .inl (.fault c va pa)))
    | x => x) (s, .inr [])

/-- Writes in order, each checked before the first is made. A page that is waited for leaves all of them for later; at any
other fault those before it are made and remain (R422). -/
def devWrites (s : State) (ctx : Nat) (ws : List (Bool × W64 × List Byte)) : State × Option Worked :=
  let (s, n, stop) := ws.foldl (fun acc w =>
    match acc with
    | (s, n, none) =>
      (match devWritable s ctx w.1 w.2.1 w.2.2.length with
       | (s, none) => (s, n + 1, none)
       | (s, some x) => (s, n, some x))
    | x => x) (s, 0, (none : Option Worked))
  match stop with
  | some (.wait va) => (s, some (.wait va))
  | x => ((ws.take n).foldl (fun s w => (devStore s ctx w.1 w.2.1 w.2.2).1) s, x)

/-! ## The rasteriser (R424 to R427) -/

/-- A vertex: X and Y in multiples of 2⁻⁸, Z, Q. -/
structure Vertex where
  x : Int
  y : Int
  z : Q
  q : Q
  deriving DecidableEq, Repr

/-- X or Y rounded to a multiple of 2⁻⁸. -/
def snap (q : Q) : Int :=
  let m : Int := roundMag 0 q.isNeg (q.abs.mul (Q.ofInt 256))
  if q.isNeg then -m else m

/-- Vertex i of a triangle record; none with a NaN or an infinity, Q ≤ 0, or a coordinate out of range (R425). -/
def vertexAt (n i : Nat) : Option Vertex :=
  let v (k : Nat) := f32Num (nBits n (128 * i + 32 * k) 32)
  if [v 0, v 1, v 2, v 3].any fun x => x.isNaN || x.isInf then none
  else
    let x := snap (v 0).toQ
    let y := snap (v 1).toQ
    let q := (v 3).toQ
    if q.n ≤ 0 || 16384 * 256 ≤ x.natAbs || 16384 * 256 ≤ y.natAbs then none else some ⟨x, y, (v 2).toQ, q⟩

/-- The edge function of a to b at a point. -/
def edgeFn (a b : Vertex) (px py : Int) : Int := (b.x - a.x) * (py - a.y) - (b.y - a.y) * (px - a.x)

/-- A point is on the inner side of an edge, or on it with an outward normal that points left or up. -/
def edgeIn (positive : Bool) (a b : Vertex) (px py : Int) : Bool :=
  let e := if positive then edgeFn a b px py else -(edgeFn a b px py)
  let nx := if positive then b.y - a.y else a.y - b.y
  let ny := if positive then a.x - b.x else b.x - a.x
  decide (0 < e) || (e = 0 && (decide (nx < 0) || (nx = 0 && decide (ny < 0))))

/-- The configuration's fields (R424). -/
def rHiz (c : Nat) : W64 := nW64 c 0
def rWidth (c : Nat) : Nat := nBits c 64 32
def rHeight (c : Nat) : Nat := nBits c 96 32
def rCull (c : Nat) : Nat := nBits c 128 8
def rDfunc (c : Nat) : Nat := nBits c 136 8

/-- A triangle to be drawn: its vertices and its area. -/
structure Tri where
  a : Vertex
  b : Vertex
  c : Vertex
  area : Int
  deriving DecidableEq, Repr

def triangleOf (cfg n : Nat) : Option Tri :=
  match vertexAt n 0, vertexAt n 1, vertexAt n 2 with
  | some a, some b, some c =>
    let area := edgeFn a b c.x c.y
    if area = 0 || (rCull cfg = 1 && decide (area < 0)) || (rCull cfg = 2 && decide (0 < area)) then none
    else some ⟨a, b, c, area⟩
  | _, _, _ => none

/-- The barycentrics of a pixel's centre. -/
def Tri.lambda (t : Tri) (x y : Nat) : Q × Q × Q :=
  let px : Int := 256 * x + 128
  let py : Int := 256 * y + 128
  let d := Q.ofInt t.area
  ((Q.ofInt (edgeFn t.b t.c px py)).div d, (Q.ofInt (edgeFn t.c t.a px py)).div d, (Q.ofInt (edgeFn t.a t.b px py)).div d)
/-- Z of a pixel, binary32. -/
def Tri.depth (t : Tri) (x y : Nat) : Nat :=
  let (l0, l1, l2) := t.lambda x y
  f32Of (Num.ofQ (((l0.mul t.a.z).add (l1.mul t.b.z)).add (l2.mul t.c.z)))
/-- A pixel is covered. -/
def Tri.covers (t : Tri) (cfg x y : Nat) : Bool :=
  let px : Int := 256 * x + 128
  let py : Int := 256 * y + 128
  let up : Bool := decide (0 < t.area)
  let z := f32Num (t.depth x y)
  x < rWidth cfg && y < rHeight cfg && edgeIn up t.a t.b px py && edgeIn up t.b t.c px py && edgeIn up t.c t.a px py
    && !numLt z (Num.ofInt 0) && !numLt (Num.ofInt 1) z
/-- B1 and B2 of a pixel; where their denominator is 0 they are the free values u and v. -/
def Tri.bary (t : Tri) (x y u v : Nat) : Nat × Nat :=
  let (l0, l1, l2) := t.lambda x y
  let d := ((l0.mul t.a.q).add (l1.mul t.b.q)).add (l2.mul t.c.q)
  if d.isZero then (u % 2 ^ 32, v % 2 ^ 32)
  else (f32Of (Num.ofQ ((l1.mul t.b.q).div d)), f32Of (Num.ofQ ((l2.mul t.c.q).div d)))

/-- The numbers n with lo ≤ n < hi. -/
def between (lo hi : Nat) : List Nat := (List.range (hi - lo)).map fun k => lo + k
/-- Pixels that a triangle's bounds reach, on one axis, cut at a limit. -/
def Tri.reach (p q r : Int) (limit : Nat) : Nat × Nat :=
  ((min p (min q r) / 256).toNat, min limit ((max p (max q r) / 256) + 1).toNat)
/-- The even coordinates of quads, and the covered mask of one. -/
def Tri.quads (t : Tri) (cfg : Nat) : List (Nat × Nat × Nat) :=
  let (x0, x1) := Tri.reach t.a.x t.b.x t.c.x (rWidth cfg)
  let (y0, y1) := Tri.reach t.a.y t.b.y t.c.y (rHeight cfg)
  ((between (y0 / 2) ((y1 + 1) / 2)).flatMap fun qy => (between (x0 / 2) ((x1 + 1) / 2)).map fun qx =>
    (2 * qx, 2 * qy, (List.range 4).foldl (fun m p => if t.covers cfg (2 * qx + p % 2) (2 * qy + p / 2) then m + 2 ^ p else m) 0)).filter
      fun q => q.2.2 != 0

/-- A quad record; free holds the free values of its pixels. -/
def quadBytes (t : Tri) (n free : Nat) (q : Nat × Nat × Nat) : List Byte :=
  let pixel (p : Nat) : Nat × Nat := (q.1 + p % 2, q.2.1 + p / 2)
  leBytes 2 q.1 ++ leBytes 2 q.2.1 ++ leBytes 4 q.2.2 ++ leBytes 4 (nBits n 384 32) ++ leBytes 4 0 ++ leBytes 8 (nBits n 448 64)
    ++ ((List.range 4).flatMap fun p => leBytes 4 (t.depth (pixel p).1 (pixel p).2))
    ++ (List.range 4).flatMap fun p =>
        let b := t.bary (pixel p).1 (pixel p).2 (free / 2 ^ (64 * p)) (free / 2 ^ (64 * p + 32))
        leBytes 4 b.1 ++ leBytes 4 b.2

/-- The address of the entry of block (bx, by) of an array for a width (R427). -/
def hizAt (base : W64) (width bx by_ : Nat) : W64 := base + BitVec.ofNat 64 (2 * (by_ * ceilDiv width 8 + bx))
/-- The blocks of quads, each once. -/
def blocksOf (qs : List (Nat × Nat × Nat)) : List (Nat × Nat) :=
  qs.foldl (fun l q => if l.contains (q.1 / 8, q.2.1 / 8) then l else l ++ [(q.1 / 8, q.2.1 / 8)]) []
/-- All 64 pixels of a block are covered. -/
def Tri.fills (t : Tri) (cfg : Nat) (b : Nat × Nat) : Bool :=
  (List.range 64).all fun k => t.covers cfg (8 * b.1 + k % 8) (8 * b.2 + k / 8)
def f16Num (bits : Nat) : Num := decodeNum kF16 bits
/-- A depth as a binary16 upper bound. -/
def upper16 (z : Num) : Nat := roundTo kF16 z 2
/-- Whether an entry culls a triangle's quads. -/
def hizCulls (cfg : Nat) (zmin : Num) (entry : Nat) : Bool :=
  let e := f16Num entry
  if zmin.isNaN || e.isNaN then false
  else if rDfunc cfg = 0 then !numLt zmin e else if rDfunc cfg = 1 then numLt e zmin else false

/-- DEPTHF of the pixel node on the rasteriser's output port 0 (R427, R428). -/
def earlyDepth (s : State) (g : Graph) (i : Nat) : Bool :=
  match (outEdge g i 0).bind fun k => g.edges[k]? with
  | none => false
  | some e =>
    match g.nodes[e.dst]? with
    | none => false
    | some m =>
      if m.kind != 1 || e.iport != 0 then false
      else match s.launches.find? fun l => l.graph = some (g.num, e.dst) with
        | some l => l.blk.depthf
        | none => match readBlock s g.ctx (g.image + BitVec.ofNat 64 m.lboff) with
          | (_, .ok blk) => blk.depthf
          | _ => false

/-- A triangle: tested against the array and drawn, then the early update (R425 to R427). -/
def rasterise (s : State) (g : Graph) (i cfg n : Nat) : State × Worked :=
  match triangleOf cfg n with
  | none => (s, .outs [])
  | some t =>
    let qs := t.quads cfg
    let zs := [t.a.z, t.b.z, t.c.z]
    let zmin := zs.foldl (fun m z => if z.lt m then z else m) t.a.z
    let zmax := zs.foldl (fun m z => if m.lt z then z else m) t.a.z
    let blocks := if rHiz cfg = 0 || rDfunc cfg = 2 then [] else blocksOf qs
    let at_ (b : Nat × Nat) : W64 := hizAt (rHiz cfg) (rWidth cfg) b.1 b.2
    let early : Bool := earlyDepth s g i
    match devReads s g.ctx false (blocks.map fun b => (at_ b, 2)) with
    | (s, .inl x) => (s, x)
    | (s, .inr entries) =>
      let entry (b : Nat × Nat) : Nat := leNat (entries.getD (blocks.idxOf b) [])
      let culled (b : Nat × Nat) : Bool := blocks.contains b && hizCulls cfg (Num.ofQ zmin) (entry b)
      let bound := upper16 (Num.ofQ zmax)
      let lower (b : Nat × Nat) : Bool := numLt (f16Num bound) (f16Num (entry b))
      let updates := if early then blocks.filter fun b => t.fills cfg b && lower b else []
      match devWrites s g.ctx (updates.map fun b => (false, at_ b, leBytes 2 bound)) with
      | (s, some x) => (s, x)
      | (s, none) =>
        let (f, s) := freeNat s
        (s, .outs ((qs.filter fun q => !culled (q.1 / 8, q.2.1 / 8)).zipIdx.map fun q => quadBytes t n (f / 2 ^ (256 * q.2)) q.1))

def rasteriser : Unit_ :=
  { unit := 0, size := 64, bad := fun n => nBits n 416 32 != 0, start := readConfig
    work := rasterise }

/-- RASTERISE_TRIANGLE (R425). -/
def execRasteriseTriangle (graph node : Nat) (s : State) : Res := unitStep rasteriser graph node s

/-! ## The blender (R429) -/

def bTarget (c : Nat) : W64 := nW64 c 0
def bDepth (c : Nat) : W64 := nW64 c 64
def bHiz (c : Nat) : W64 := nW64 c 128
def bDfunc (c : Nat) : Nat := nBits c 192 8
def bBlend (c : Nat) : Nat := nBits c 200 8
def bZwrite (c : Nat) : Bool := nBits c 208 8 = 1
/-- The headers read at the start of the run, kept above the block. -/
def bTargetHdr (c : Nat) : W128 := BitVec.ofNat 128 (nBits c 512 128)
def bDepthHdr (c : Nat) : W128 := BitVec.ofNat 128 (nBits c 640 128)

/-- The checks of a tile of the blender: alignment, R182 to R184. -/
def blendTileBad (va : W64) (h : W128) (kinds : List Nat) : Option (BitVec 8) :=
  if va.toNat % 16 != 0 then some 0x03
  else if !headerOk h then some 0x07
  else if !dataShapeOk h then some 0x08
  else if !kinds.contains (hKind h) || hSparse h != 0 || hScale h != 0 then some 0x09
  else none

/-- The configuration with its tiles' headers, checked. -/
def blendStart (s : State) (g : Graph) (n : Node) : State × (DevRead ⊕ Nat) :=
  match readConfig s g n with
  | (s, .inl x) => (s, .inl x)
  | (s, .inr c) =>
    match devRead s g.ctx true (bTarget c) 16 with
    | (s, .ok tb) =>
      let th := BitVec.ofNat 128 (leNat tb)
      (match blendTileBad (bTarget c) th [0x10, 0x11, 0x01] with
       | some x => (s, .inl (.fault x (bTarget c) 0))
       | none =>
         if bDepth c = 0 then (s, .inr (c + th.toNat * 2 ^ 512))
         else match devRead s g.ctx true (bDepth c) 16 with
           | (s, .ok db) =>
             let dh := BitVec.ofNat 128 (leNat db)
             (match (blendTileBad (bDepth c) dh [0x01]).or (if hRows dh = hRows th && hCols dh = hCols th then none else some 0x08) with
              | some x => (s, .inl (.fault x (bDepth c) 0))
              | none => (s, .inr (c + th.toNat * 2 ^ 512 + dh.toNat * 2 ^ 640)))
           | (s, x) => (s, .inl x))
    | (s, x) => (s, .inl x)

/-- Where an element of a dense tile lies. -/
def elementVa (va : W64) (h : W128) (x y : Nat) : W64 :=
  va + BitVec.ofNat 64 ((128 * hDataoff h + elementBit (hLayout h) (hPitch h) (kindWidth (hKind h)) y x) / 8)

/-- One binary32 operation, RNE. -/
def f32Round (x : Num) : Num := decodeNum kF32 (roundTo kF32 x 0)
def bAdd (a b : Num) : Num := f32Round (faddNum 0 a b)
def bMul (a b : Num) : Num := f32Round (fmulNum a b)

/-- The channels of a target's element. -/
def targetChannels (kind bits : Nat) : List Num :=
  match kind with
  | 0x10 => (List.range 4).map fun i => f32Round (Num.ofQ ((Q.ofInt (nBits bits (8 * i) 8)).div (Q.ofInt 255)))
  | 0x11 => (List.range 4).map fun i => f16Num (nBits bits (16 * i) 16)
  | _ => [f32Num bits]
/-- A channel as the target holds it. -/
def channelOut (kind : Nat) (c : Num) : Nat :=
  match kind with
  | 0x10 =>
    if c.isNaN then 0
    else
      let c := if numLt c (Num.ofInt 0) then Num.ofInt 0 else if numLt (Num.ofInt 1) c then Num.ofInt 1 else c
      roundTo (.int false 8) (mulNum c (Num.ofInt 255)) 0
  | 0x11 => roundTo kF16 c 0
  | _ => f32Of c
/-- The blended channels. -/
def blendChannels (blend : Nat) (src dst : List Num) : List Num :=
  let sa := src.getD 3 (Num.ofInt 0)
  let rest := f32Round (fsubNum 0 (Num.ofInt 1) sa)
  dst.zipIdx.map fun p =>
    let x := src.getD p.2 (Num.ofInt 0)
    match blend with
    | 0 => x
    | 2 => bAdd x p.1
    | _ => if p.2 = 3 then bAdd sa (bMul p.1 rest) else bAdd (bMul x sa) (bMul p.1 rest)
def packChannels (kind : Nat) (cs : List Num) : Nat :=
  let w := kindWidth kind / cs.length
  (cs.zipIdx.map fun p => channelOut kind p.1 * 2 ^ (w * p.2)).foldl (· + ·) 0

/-- The depth test. -/
def depthPass (dfunc : Nat) (z d : Num) : Bool :=
  dfunc = 2 || (!z.isNaN && !d.isNaN && (if dfunc = 0 then numLt z d else !numLt d z))

/-- The elements of the depth block of a pixel, inside the tile. -/
def depthBlock (h : W128) (x y : Nat) : List (Nat × Nat) :=
  ((List.range 64).map fun k => (x / 8 * 8 + k % 8, y / 8 * 8 + k / 8)).filter fun p => insideTile h p.1 p.2

/-- The greatest depth of a block, as its entry's bound; a free value where one of the depths is a NaN (log entry 93). -/
def blockBound (s : State) (ds : List Num) : State × Nat :=
  if ds.any Num.isNaN then let (n, s) := freeNat s; (s, n % 2 ^ 16)
  else (s, upper16 (ds.foldl (fun m d => if numLt m d then d else m) (ds.headD (Num.ofInt 0))))

/-- What depth and HIZ receive once a record has passed, and what stops the rest. -/
def depthWrites (s : State) (g : Graph) (c x y z : Nat) : State × List (Bool × W64 × List Byte) × Option Worked :=
  if bDepth c = 0 || !bZwrite c then (s, [], none)
  else
    let h := bDepthHdr c
    let own : Bool × W64 × List Byte := (true, elementVa (bDepth c) h x y, leBytes 4 z)
    if bHiz c = 0 then (s, [own], none)
    else
      let others := (depthBlock h x y).filter fun p => p != (x, y)
      match devReads s g.ctx true (others.map fun p => (elementVa (bDepth c) h p.1 p.2, 4)) with
      | (s, .inl e) => (s, [own], some e)
      | (s, .inr l) =>
        let (s, top) := blockBound s (f32Num z :: l.map fun bs => f32Num (leNat bs))
        (s, [own, (false, hizAt (bHiz c) (hCols h) (x / 8) (y / 8), leBytes 2 top)], none)

/-- A colour record. It reads D where a test compares it, and the target where a blend takes it. -/
def blend (s : State) (g : Graph) (_ c n : Nat) : State × Worked :=
  let x := nBits n 0 16
  let y := nBits n 16 16
  let z := nBits n 32 32
  let th := bTargetHdr c
  if n.testBit 192 || !insideTile th x y then (s, .outs [])
  else
    let kind := hKind th
    let at_ := elementVa (bTarget c) th x y
    let old : List (W64 × Nat) := if bBlend c = 0 then [] else [(at_, kindWidth kind / 8)]
    let tested : Bool := bDepth c != 0 && bDfunc c != 2
    let depth : List (W64 × Nat) := if tested then [(elementVa (bDepth c) (bDepthHdr c) x y, 4)] else []
    match devReads s g.ctx true (depth ++ old) with
    | (s, .inl e) => (s, e)
    | (s, .inr l) =>
      if tested && !depthPass (bDfunc c) (f32Num z) (f32Num (leNat (l.headD []))) then (s, .outs [])
      else
        let src := (List.range 4).map fun i => f32Num (nBits n (64 + 32 * i) 32)
        let out := packChannels kind (blendChannels (bBlend c) src (targetChannels kind (leNat ((l.drop depth.length).headD []))))
        match depthWrites s g c x y z with
        | (s, _, some (.wait va)) => (s, .wait va)
        | (s, ws, stop) =>
          match devWrites s g.ctx ([(true, at_, leBytes (kindWidth kind / 8) out)] ++ ws) with
          | (s, some e) => (s, e)
          | (s, none) => (s, stop.getD (.outs []))

def blender : Unit_ :=
  { unit := 2, size := 32, bad := fun n => nBits n 194 30 != 0 || nBits n 224 32 != 0, start := blendStart
    work := blend }

/-- BLEND_RECORD (R429). -/
def execBlendRecord (graph node : Nat) (s : State) : Res := unitStep blender graph node s

/-- At DONE, the blender's headers are written again with their CHECK (R429). -/
def blendEnd (s : State) (g : Graph) (c : Nat) : State × Option Worked :=
  let one (va : W64) (h : W128) : Bool × W64 × List Byte := (true, va, leBytes 16 (withCheck h).toNat)
  devWrites s g.ctx ([one (bTarget c) (bTargetHdr c)] ++ if bDepth c = 0 then [] else [one (bDepth c) (bDepthHdr c)])

/-! ## The traversal unit and the Solder node (R419, R433) -/

/-- A unit's accesses, made in its node's context on behalf of no lane. -/
def nodeEnv (s : State) (g : Graph) : Env :=
  let p := getPart s g.part
  ⟨0, 4 * (partQuads p).headD 0, g.ctx, 0, p, (getCtx s g.ctx).lease, 0⟩

/-- A ray record. -/
def traceRecord (s : State) (g : Graph) (_ _ n : Nat) : State × Worked :=
  let r := rayFrom n
  match traverse (syncClk s (nodeEnv s g).core) (nodeEnv s g) none r with
  | (s, .inl (some va)) => (s, .wait va)
  | (s, .inl none) => (s, .never)
  | (s, .inr x) => (s, .outs [x.hit.bytes ++ leBytes 4 x.status ++ leBytes 4 r.user ++ leBytes 8 0])

def traversalUnit : Unit_ :=
  { unit := 1, size := 48, bad := fun n => nBits n 322 30 != 0, start := noConfig
    work := traceRecord }

/-- TRAVERSE_RAY (R433). -/
def execTraverseRay (graph node : Nat) (s : State) : Res := unitStep traversalUnit graph node s

/-- A header that a Solder record names. -/
def solderHandle (s : State) (ctx : Nat) (va : W64) : State × (Worked ⊕ Handle) :=
  if va.toNat % 16 != 0 then (s, .inl (.fault 0x03 va 0))
  else match guideHandle s ctx va with
    | (s, .inr h) => (s, .inr h)
    | (s, .inl (.absent a)) => (s, .inl (.wait a))
    | (s, .inl (.fault c a pa)) => (s, .inl (.fault c a pa))
    | (s, .inl (.ok _)) => (s, .inl .never)

/-- A Solder record: the fill of its block, without audits (R419). -/
def solderRecord (s : State) (g : Graph) (_ _ n : Nat) : State × Worked :=
  match solderHandle (syncClk s (nodeEnv s g).core) g.ctx (nW64 n 0) with
  | (s, .inl x) => (s, x)
  | (s, .inr img) =>
    let fill (s : State) (gd : Option Handle) : State × Worked :=
      match rconCheck img gd with
      | some (c, va) => (s, .fault c va 0)
      | none =>
        let code := nBits n 192 8
        match fillBlock s (nodeEnv s g) 3 ⟨img, gd, blockPoints (nBits n 128 32) (nBits n 160 32) code (nBits n 200 8) 0 0 0, code⟩ false with
        | (s, .inl (.absent va)) => (s, .wait va)
        | (s, .inl (.fault c va pa)) => (s, .fault c va pa)
        | (s, .inr _) => (s, .outs [])
    if nW64 n 64 = 0 then fill s none
    else match solderHandle s g.ctx (nW64 n 64) with
      | (s, .inl x) => (s, x)
      | (s, .inr gd) => fill s (some gd)

def solderUnit : Unit_ :=
  { unit := 3, size := 32
    bad := fun n => 7 < nBits n 192 8 || 15 < nBits n 200 8 || nBits n 128 3 != 0 || nBits n 160 3 != 0 || nBits n 208 48 != 0
    start := noConfig, work := solderRecord }

/-- SOLDER_RECORD (R419). -/
def execSolderRecord (graph node : Nat) (s : State) : Res := unitStep solderUnit graph node s

end Sys2Proof.Machine
end

