-- ==== Sys2Proof/Machine/Nodes.lean ====
section
/-! DEFINITION. The ends of nodes and of runs (R298 to R301, R415, R429). -/

namespace Sys2Proof.Machine

/-- A node's children that are not DONE (R303). -/
def nodeChildren (s : State) (gn i : Nat) : Bool := s.launches.any fun l => l.parent = some (gn, i)

/-- A kernel or record node's launch is over: the final update of its coverage code, and DONE (R298, R415). -/
def finishLaunch (s : State) (gn i : Nat) (l : Launch) : State :=
  let s := updateCoverage s l
  completeNode { s with launches := s.launches.filter fun k => k.id != l.id } gn i fun _ => false

/-- A unit's node is DONE, the blender's headers first (R298, R429). -/
def finishUnit (s : State) (g : Graph) (i : Nat) (n : Node) : State :=
  let done (s : State) : State := completeNode s g.num i fun _ => false
  match n.unit, n.config with
  | 2, some (some c) =>
    (match blendEnd s g c with
     | (s, none) => done s
     | (s, some (.wait va)) => waitNode s g.num i va
     | (s, some (.fault c va pa)) => done (logAway s g.ctx c va pa)
     | (s, some _) => done s)
  | _, _ => done s

/-- A unit that reads a configuration has read it. -/
def unitReady (n : Node) : Bool := n.config.isSome || 4 ≤ n.unit

/-- NODE_DONE: a node whose work is over completes, a loop whose body is done evaluates again, but while the context is SAVED (R298 to
R300). -/
def execNodeDone (graph node : Nat) (s : State) : Res :=
  match getGraph s graph with
  | none => .fault (.noSuchObject "graph")
  | some g =>
    match g.nodes[node]? with
    | none => .fault (.noSuchObject "node")
    | some n =>
      if ctxSaved s g.ctx then .next s
      else match n.kind with
      | 2 =>
        if n.st != .draining || n.outbox != [] then .fault (.noSuchObject "node that is over")
        else if !unitReady n then .next s
        else .next (finishUnit s g node n)
      | 4 =>
        if n.st = .running && (nodesWhere g fun x j => bodyOf n j && x.st != .done) = [] then .next (loopNode s g node n)
        else .fault (.noSuchObject "node that is over")
      | _ =>
        match s.launches.find? fun l => l.graph = some (graph, node) with
        | none => .fault (.noSuchObject "launch of a node")
        | some l =>
          if !l.settled || (s.teams.any fun t => t.launch = l.id) then .fault (.noSuchObject "node that is over")
          else if nodeChildren s graph node then .next s
          else .next (finishLaunch s graph node l)

/-- A cut move whose run E has ended on this side (R389). -/
def markMoveEnd (s : State) (g : Graph) : State :=
  match getCut s g.num with
  | some c =>
    (match c.move with
     | some m =>
       if m.accepted && m.eframe ≤ g.frame then
         owe (Sys2Proof.Machine.setCut s { c with move := some { m with ended := true } }) (.cutMoveEnd g.part)
       else s
     | none => s)
  | none => s

/-- RUN_END: every node goes to IDLE, the run is counted, and a held run starts (R298, R301). It comes after the last packets
of the run's remote edges, which close there only then (R451). -/
def execRunEnd (graph : Nat) (s : State) : Res :=
  match getGraph s graph with
  | none => .fault (.noSuchObject "graph")
  | some g =>
    if !g.run || !g.nodes.all Node.ended then .fault (.noSuchObject "run that is over")
    else if ctxSaved s g.ctx || unsentEdges s g != [] then .next s
    else
      let g := { g with run := false, donec := g.donec + 1, nodes := g.nodes.map fun (n : Node) => { n with st := .idle } }
      let s := runEnded (markMoveEnd (setGraph s g) g) graph
      .next (ctxIdle (startPending s graph) g.ctx)

end Sys2Proof.Machine
end

