-- ==== Sys2Proof/Machine/Brass.lean ====
section
/-! DEFINITION. Remote edges: records encoded and sent, packets received and recovered, the stale store, and the close of a
frame (R378 to R385, R451). -/

namespace Sys2Proof.Machine

/-! ## Records on the wire (R380) -/

def recKey (h : Nat) : Nat := nBits h 48 32
def recSeq (h : Nat) : Nat := nBits h 80 16
def recFrame (h : Nat) : Nat := nBits h 16 32
/-- The header of a record of bytes. -/
def recHead (r : List Byte) : Nat := leNat (r.take 16)
/-- A header with some of its fields replaced. -/
def withBits (h lo n x : Nat) : Nat := h - nBits h lo n * 2 ^ lo + x % 2 ^ n * 2 ^ lo

/-- Unit u of a payload, padded with zeros. -/
def payloadUnit (p : List Byte) (u : Nat) : Nat := leNat ((p.drop (8 * u)).take 8)
/-- A delta record against the same key's payload of the frame before. -/
def deltaRecord (h : Nat) (p old : List Byte) : List Byte :=
  let us := (List.range (ceilDiv p.length 8)).filter fun u => payloadUnit p u != payloadUnit old u
  leBytes 16 (h + 2 ^ 111) ++ leBytes 4 (us.foldl (fun m u => m + 2 ^ u) 0)
    ++ us.flatMap fun u => leBytes 8 (Nat.xor (payloadUnit p u) (payloadUnit old u))
def fullRecord (h : Nat) (p : List Byte) : List Byte := leBytes 16 h ++ p

/-- A record as it stands in a packet: its header without the delta bit, and the mask and units of a delta, or the payload. -/
structure WireRecord where
  hdr : Nat
  delta : Option Nat
  bytes : List Byte
  deriving DecidableEq, Repr

/-- The records of a body. -/
def wireRecords : Nat → List Byte → List WireRecord
  | 0, _ => []
  | fuel + 1, bs =>
    if bs.length < 16 then []
    else
      let h := recHead bs
      if h.testBit 111 then
        let m := leNat ((bs.drop 16).take 4)
        let n := 8 * ((List.range 32).filter m.testBit).length
        ⟨h - 2 ^ 111, some m, (bs.drop 20).take n⟩ :: wireRecords fuel (bs.drop (20 + n))
      else ⟨h, none, (bs.drop 16).take (recLen h)⟩ :: wireRecords fuel (bs.drop (16 + recLen h))
def packetRecords (p : EdgePacket) : List WireRecord := wireRecords p.body.length p.body

/-- The payload of a delta against an older one. -/
def undelta (h mask : Nat) (units old : List Byte) : List Byte :=
  let set := (List.range 32).filter mask.testBit
  let unit (u : Nat) : Nat :=
    if mask.testBit u then Nat.xor (payloadUnit old u) (payloadUnit units (set.idxOf u)) else payloadUnit old u
  ((List.range (ceilDiv (recLen h) 8)).flatMap fun u => leBytes 8 (unit u)).take (recLen h)

/-! ## Sending (R380, R451) -/

/-- How one record is sent, and whether in full. DESIGN CHOICE, log entry 117: a delta that alone is longer than a body may be (R378,
R380), which its 4 mask bytes can make it, is sent in full. -/
def encodeRecord (r : RemoteEdge) (frame : Nat) (rec_ : List Byte) : List Byte × Bool :=
  let h := recHead rec_
  let old := if r.sentFrame + 1 = frame then (r.sent.find? fun x => x.1 = recKey h).map Prod.snd else none
  let whole := (pKeyint r.param != 0 && frame % pKeyint r.param = 0) || r.miss.contains (recKey h)
  match old with
  | some o =>
    let d := deltaRecord h (rec_.drop 16) o
    if whole || pPmax r.param < d.length then (fullRecord h (rec_.drop 16), true) else (d, false)
  | none => (fullRecord h (rec_.drop 16), true)

def sumLengths (p : List (List Byte)) : Nat := p.foldl (fun n r => n + r.length) 0
/-- Encoded records in packets of at most `limit` bytes; a record never spans two. -/
def packRecords (limit : Nat) (rs : List (List Byte)) : List (List (List Byte)) :=
  rs.foldl (fun ps r =>
    match ps.getLast? with
    | some p => if sumLengths p + r.length ≤ limit then ps.dropLast ++ [p ++ [r]] else ps ++ [[r]]
    | none => [[r]]) []

/-- A list in parts of k, in order. -/
def chunks {α : Type} (k : Nat) : Nat → List α → List (List α)
  | 0, _ => []
  | fuel + 1, l => match l with
    | [] => []
    | _ => l.take k :: chunks k fuel (l.drop k)

/-- Byte-wise XOR, the shorter list padded with zeros. -/
def xorBytes : List Byte → List Byte → List Byte
  | [], b => b
  | a, [] => a
  | x :: a, y :: b => (x ^^^ y) :: xorBytes a b

/-- The body of the PARITY packet of a group's bodies: their XOR, then 16 lengths, little-endian (DESIGN CHOICE, log entry 18). -/
def parityBody (bodies : List (List Byte)) : List Byte :=
  bodies.foldl xorBytes [] ++ (List.range 16).flatMap fun i => leBytes 2 ((bodies.getD i []).length)

/-- The packets of one group, each with its type. -/
def groupPackets (blank : EdgePacket) (k group : Nat) (lastGroup : Bool) (ps : List (List (List Byte))) : List (Nat × EdgePacket) :=
  let fl (last : Bool) : BitVec 8 := (if last then 1 else 0) + (if ps.length < k then 2 else 0)
  let head (i : Nat) : EdgePacket := { blank with group := group, idx := i, k := ps.length }
  (ps.zipIdx.map fun p => (tData, { head p.2 with
    nrec := p.1.length, seq0 := ((p.1.head?).map fun r => recSeq (recHead r)).getD 0
    fl := fl (lastGroup && p.2 + 1 = ps.length), body := p.1.flatMap id }))
  ++ [(tParity, { head ps.length with fl := fl false, body := parityBody (ps.map fun p => p.flatMap id) })]

/-- The last record carries CLOSE. -/
def closeLast (rs : List (List Byte)) : List (List Byte) :=
  match rs.getLast? with
  | some r => rs.dropLast ++ [leBytes 16 (withBits (recHead r) 99 1 1) ++ r.drop 16]
  | none => []

/-- The frame's records are encoded and put onto the wire, and the edge closes here (R380, R451). -/
def sendFrame (s : State) (g : Graph) (i : Nat) (e : Edge) (r : RemoteEdge) : State :=
  let rs := closeLast r.taken
  let enc := rs.map fun x => encodeRecord r g.frame x
  let packed := packRecords (pPmax r.param) (enc.map Prod.fst)
  let groups := chunks (pK r.param) (packed.length + 1) (if packed = [] then [[]] else packed)
  let blank := { blankPacket (getLink s (pPort r.param)) g.num g.frame [] with edge := e.edgeId }
  let out := groups.zipIdx.flatMap fun x => groupPackets blank (pK r.param) x.2 (x.2 + 1 = groups.length) x.1
  let s := out.foldl (fun s p => transmit s (pPort r.param) (pPeer r.param) p.1 p.2) s
  let full := ((rs.zip enc).filter fun x => x.2.2).map fun x => recKey (recHead x.1)
  let s := setRemote s { r with
    taken := [], sentFrame := g.frame, sent := rs.reverse.map fun x => (recKey (recHead x), x.drop 16)
    miss := r.miss.filter fun k => !full.contains k }
  match getGraph s g.num with
  | some g => afterNodes s (setEdge g i { e with closed := true })
  | none => s

/-- The encoder takes what stands in the ring. -/
def drainRing (gn i : Nat) : Nat → State → State
  | 0, s => s
  | fuel + 1, s =>
    match getGraph s gn, (getGraph s gn).bind fun g => g.edges[i]?, getRemote s gn i with
    | some g, some e, some r =>
      if e.untaken = 0 then s
      else
        let next (s : State) (taken : List (List Byte)) : State :=
          let e := { e with taken := e.taken + 1 }
          drainRing gn i fuel (wakeRecords (setRemote (setGraph s (setEdge g i (e.free (e.taken - 1)))) { r with taken := r.taken ++ taken }) gn)
        match bareRead s g.ctx false (e.slotVa e.taken) 256 with
        | (s, .ok bs) => next s [bs.take (16 + recLen (recHead bs))]
        | (s, .absent _) => s
        | (s, .fault c va pa) => next (logAway s g.ctx c va pa) []
    | _, _, _ => s

/-- A Brass encoder or decoder node of a graph takes what stands in a local input ring, and releases it (log entry 14). -/
def passRecords (gn i : Nat) : Nat → State → State
  | 0, s => s
  | fuel + 1, s =>
    match getGraph s gn, (getGraph s gn).bind fun g => g.edges[i]? with
    | some g, some e =>
      if e.untaken = 0 then s
      else
        let e := { e with taken := e.taken + 1 }
        passRecords gn i fuel (wakeRecords (setGraph s (setEdge g i (e.free (e.taken - 1)))) gn)
    | _, _ => s
/-- Such a node at work, as the consumer of a local edge. -/
def brassNode (g : Graph) (e : Edge) : Bool :=
  e.isRec && !e.away && (g.nodes[e.dst]?).any fun n => n.kind = 2 && 4 ≤ n.unit && n.st = .running

/-- BRASS_ENCODE: the encoder takes records, and when the producer is DONE for the run it sends the frame (R380, R451). -/
def execBrassEncode (graph edge frame : Nat) (s : State) : Res :=
  match getGraph s graph with
  | none => .fault (.noSuchObject "graph")
  | some g =>
    match g.edges[edge]? with
    | none => .fault (.noSuchObject "edge")
    | some e =>
      if brassNode g e && e.untaken != 0 then .next (passRecords graph edge e.untaken s)
      else if !e.away || e.closed || g.frame != frame || !g.run || !(g.nodes[e.src]?).any Node.owned then
        .fault (.noSuchObject "edge to encode")
      else
        let s := drainRing graph edge (e.untaken + 1) s
        match getGraph s graph, (getGraph s graph).bind fun g => g.edges[edge]?, getRemote s graph edge with
        | some g, some e, some r =>
          if e.untaken = 0 && producerOver g e then .next (sendFrame s g edge e r) else .next s
        | _, _, _ => .next s

/-! ## The stale store (R382) -/

/-- A slot of the stale store. -/
structure StaleSlot where
  newer : List Byte
  older : List Byte
  key : Nat
  hasNewer : Bool
  hasOlder : Bool
  count : Nat
  late : Bool
  deriving DecidableEq, Repr

def slotVa (r : RemoteEdge) (key : Nat) : W64 := pStale r.param + BitVec.ofNat 64 (1024 * (key % pSlots r.param))
def slotFrom (bs : List Byte) : StaleSlot :=
  let n := leNat (bs.drop 512)
  { newer := bs.take 256, older := (bs.drop 256).take 256, key := nBits n 0 32, hasNewer := n.testBit 32, hasOlder := n.testBit 33
    count := nBits n 40 8, late := n.testBit 48 }
def StaleSlot.empty (key : Nat) : StaleSlot := ⟨[], [], key, false, false, 0, false⟩
/-- The slot of a key; empty where another key holds it or it cannot be read. -/
def readSlot (s : State) (ctx : Nat) (r : RemoteEdge) (key : Nat) : State × StaleSlot :=
  match spaceRead s (some ctx) (slotVa r key) 519 with
  | (s, some bs) => let x := slotFrom bs; (s, if x.key = key then x else StaleSlot.empty key)
  | (s, none) => (s, StaleSlot.empty key)
def slotRecord (r : List Byte) : List Byte := (r ++ List.replicate (256 - r.length) 0).take 256
def writeSlot (s : State) (ctx : Nat) (r : RemoteEdge) (x : StaleSlot) : State :=
  let bit (b : Bool) (k : Nat) : Nat := if b then k else 0
  spaceWrite s (some ctx) (slotVa r x.key)
    (slotRecord x.newer ++ slotRecord x.older ++ leBytes 4 x.key ++ leBytes 1 (bit x.hasNewer 1 + bit x.hasOlder 2) ++ leBytes 1 x.count
      ++ leBytes 1 (bit x.late 1) ++ List.replicate 505 0)

/-- A record delivered becomes the newer one; a substitute counts, a received record starts the count again (R382 to R384). -/
def StaleSlot.deliver (x : StaleSlot) (rec_ : List Byte) (sub : Bool) : StaleSlot :=
  { x with
    newer := rec_, older := if x.hasNewer then x.newer else x.older, hasNewer := true, hasOlder := x.hasNewer || x.hasOlder
    count := if sub then min 255 (x.count + 1) else 0, late := false }

/-- A record that came after its frame closed (R384). -/
def StaleSlot.refresh (x : StaleSlot) (rec_ : List Byte) : StaleSlot :=
  let f := recFrame (recHead rec_)
  let nf := recFrame (recHead x.newer)
  let of_ := recFrame (recHead x.older)
  if !x.hasNewer || nf < f then
    { x with newer := rec_, older := if x.hasNewer then x.newer else x.older, hasNewer := true, hasOlder := x.hasNewer || x.hasOlder, late := true }
  else if f = nf then { x with newer := rec_, late := true }
  else if !x.hasOlder || of_ ≤ f then { x with older := rec_, hasOlder := true, late := true }
  else x

/-- The payload that a delta of frame f stands on: the key's record of frame f − 1, received or recovered (R381). -/
def deltaBase (r : RemoteEdge) (x : StaleSlot) (f : Nat) : Option (List Byte) :=
  let at_ (has : Bool) (b : List Byte) : Bool := has && recFrame (recHead b) + 1 = f
  if !r.rcvd.contains (x.key, f - 1) then none
  else if at_ x.hasNewer x.newer then some (x.newer.drop 16)
  else if at_ x.hasOlder x.older then some (x.older.drop 16)
  else none

/-- A record of a packet decoded, in full; none for a delta whose base is missing. -/
def decodeRecord (s : State) (ctx : Nat) (r : RemoteEdge) (f : Nat) (w : WireRecord) : State × Option (List Byte) :=
  match w.delta with
  | none => (s, some (leBytes 16 w.hdr ++ w.bytes))
  | some m =>
    let (s, x) := readSlot s ctx r (recKey w.hdr)
    (s, (deltaBase r x f).map fun old => leBytes 16 w.hdr ++ undelta w.hdr m w.bytes old)

/-! ## Substitutes (R383) -/

/-- Payload field u of the predicted record: 2a − b, rounded once. -/
def predictedField (a b : Nat) : Nat :=
  roundTo kF32 (propagate [f32Num a, f32Num b] (sumNum 0 [mulNum (Num.ofInt 2) (f32Num a), (f32Num b).negate])) 0
def predictedPayload (mask len : Nat) (a b : List Byte) : List Byte :=
  (List.range (ceilDiv len 4)).flatMap (fun u =>
    let x := (a.drop (4 * u)).take 4
    if mask.testBit u && 4 * u + 4 ≤ len then leBytes 4 (predictedField (leNat x) (leNat ((b.drop (4 * u)).take 4))) else x) |>.take len

/-- The substitute of a key for frame f with a SEQ; none when the key leaves the expected set. -/
def substitute (r : RemoteEdge) (x : StaleSlot) (f : Nat) : Option (List Byte) :=
  if pRule r.param = 2 || !x.hasNewer || pMaxsub r.param ≤ x.count then none
  else
    let h := recHead x.newer
    let pred : Bool := pRule r.param = 0 && x.hasOlder
    let flags := (if pred then 1 else 2) + (if x.late then 4 else 0)
    let h := withBits (withBits (withBits (withBits h 96 4 flags) 80 16 0) 48 32 x.key) 16 32 f
    let a := (x.newer.drop 16).take (recLen h)
    some (leBytes 16 h ++ if pred then predictedPayload (pPmask r.param) (recLen h) a ((x.older.drop 16).take 240) else a)

/-! ## Packets received (R381, R383) -/

def RxFrame.blank (f : Nat) : RxFrame := ⟨f, none, false, [], [], []⟩
def getFrame (r : RemoteEdge) (f : Nat) : RxFrame := (r.frames.find? fun x => x.frame = f).getD (RxFrame.blank f)
def setFrame (r : RemoteEdge) (x : RxFrame) : RemoteEdge := { r with frames := (r.frames.filter fun y => y.frame != x.frame) ++ [x] }

/-- The packets of a group that have come. -/
def RxFrame.group (x : RxFrame) (g : Nat) : List EdgePacket := (x.data ++ x.late).filter fun p => p.group = g
/-- The size of a group, from any packet of it. -/
def RxFrame.groupSize (x : RxFrame) (g : Nat) : Option Nat := ((x.data ++ x.late ++ x.parity).find? fun p => p.group = g).map EdgePacket.k
def EdgePacket.isLast (p : EdgePacket) : Bool := p.fl.getLsbD 0
def RxFrame.last (x : RxFrame) : Option EdgePacket := x.data.find? EdgePacket.isLast

/-- A DATA packet joins its frame, open or closing. -/
def RxFrame.add (x : RxFrame) (isLate : Bool) (p : EdgePacket) : RxFrame :=
  if isLate then { x with late := x.late ++ [p] } else { x with data := x.data ++ [p] }
/-- A packet joins its frame, a copy of one that has come not. -/
def RxFrame.join (x : RxFrame) (isLate parity : Bool) (p : EdgePacket) : RxFrame :=
  if parity then (if x.parity.any fun q => q.group = p.group then x else { x with parity := x.parity ++ [p] })
  else if (x.group p.group).any fun q => q.idx = p.idx then x
  else x.add isLate p

/-- The one missing packet of a group, from its PARITY packet (R381). Its records say whether it is the frame's last. -/
def recovered (x : RxFrame) (par : EdgePacket) : Option EdgePacket :=
  let have_ := x.group par.group
  match (List.range par.k).filter fun i => !have_.any fun p => p.idx = i with
  | [i] =>
    let n := par.body.length - 32
    let len := leNat (((par.body.drop n).drop (2 * i)).take 2)
    let body := ((have_.map EdgePacket.body).foldl xorBytes (par.body.take n)).take len
    let ws := wireRecords len body
    let last : Bool := match ws.getLast? with
      | some w => w.hdr.testBit 99
      | none => true
    some { par with
      idx := i, nrec := ws.length, seq0 := ((ws.head?).map fun w => recSeq w.hdr).getD 0, fl := if last then par.fl ||| 1 else par.fl
      body := body }
  | _ => none

/-- Recover what can be, FIXED counting each (R376, R381). -/
def recoverFrame (s : State) (port : Nat) (isLate : Bool) (x : RxFrame) : State × RxFrame :=
  x.parity.foldl (fun acc par =>
    match recovered acc.2 par with
    | some p =>
      let l := getLink acc.1 port
      (setLink acc.1 { l with fixed := l.fixed + 1 }, acc.2.add isLate p)
    | none => acc) (s, x)

/-- Every group has all its packets, and the last is among them. -/
def RxFrame.complete (x : RxFrame) : Bool :=
  match x.last with
  | none => false
  | some p => (List.range (p.group + 1)).all fun g => match x.groupSize g with
    | some k => (List.range k).all fun i => (x.group g).any fun q => q.idx = i
    | none => false

/-- A frame is to be closed: complete, or its deadline reached. -/
def closeDue (s : State) (r : RemoteEdge) (x : RxFrame) : Bool :=
  !x.closed && (match x.start with
    | some t => x.complete || decide (nsCounts (pDl r.param) ≤ (s.now - t).toNat)
    | none => false)

/-- A remote edge by the EDGEID of a packet. -/
def edgeOf (s : State) (p : EdgePacket) : Option (Graph × Nat × RemoteEdge) :=
  match getGraph s p.graph with
  | none => none
  | some g =>
    match (List.range g.edges.length).find? fun i => (g.edges[i]?).any fun e => e.isRec && e.remote && e.edgeId = p.edge with
    | none => none
    | some i => (getRemote s p.graph i).map fun r => (g, i, r)

/-- Keys that could not be decoded are asked for, with the next CACK to the peer (R381). -/
def sendMiss (s : State) (g : Graph) (i : Nat) (r : RemoteEdge) (f : Nat) (keys : List Nat) : State :=
  match keys, g.edges[i]? with
  | [], _ => s
  | _, some e =>
    let l := getLink s (pPort r.param)
    let p := { blankPacket l g.num f (keys.flatMap fun k => leBytes 4 k) with edge := e.edgeId }
    let x := getPair l (pPeer r.param)
    setLink s (setPair l { x with misses := x.misses ++ [p] })
  | _, none => s

/-- A packet of a frame that is closed: each record refreshes its slot (R383, R384). -/
def latePacket (s : State) (g : Graph) (i : Nat) (r : RemoteEdge) (p : EdgePacket) : State :=
  let (s, miss) := (packetRecords p).foldl (fun (acc : State × List Nat) w =>
    match decodeRecord acc.1 g.ctx r p.frame w with
    | (s, some rec_) => (owe s (.lateRecord g.num i rec_), acc.2)
    | (s, none) => (s, acc.2 ++ [recKey w.hdr])) (s, [])
  sendMiss s g i r p.frame miss

/-- A packet of a frame that is closed, or at its close, joins what has come of it: its records are late, and so are those of a
packet that is recovered then (R381, R384). -/
def closedPacket (s : State) (g : Graph) (i : Nat) (r : RemoteEdge) (parity : Bool) (p : EdgePacket) : State :=
  let x := (getFrame r p.frame).join true parity p
  let s := if parity then s else latePacket s g i r p
  let (s, y) := recoverFrame s (pPort r.param) true x
  let s := match getRemote s g.num i with
    | some r => setRemote s (setFrame r y)
    | none => s
  (y.late.drop x.late.length).foldl (fun s q => latePacket s g i r q) s

/-- A DATA or PARITY packet. -/
def edgePacket (s : State) (parity : Bool) (p : EdgePacket) : State :=
  match edgeOf s p with
  | none => s
  | some (g, i, r) =>
    let x := getFrame r p.frame
    if x.closed then closedPacket s g i r parity p
    else if closeDue s r x then closedPacket (owe s (.frameClose g.num i p.frame)) g i r parity p
    else
      let (s, x) := recoverFrame s (pPort r.param) false (x.join false parity p)
      let s := setRemote s (setFrame r x)
      if closeDue s r x then owe s (.frameClose g.num i p.frame) else s

/-! ## The loss rate of a port (R375, R378) -/

/-- The share of lost packets of the last 256 closed frames is above LOSSMAX. -/
def Link.lossy (l : Link) : Bool :=
  let data := l.losses.foldl (fun n x => n + x.1) 0
  let lost := l.losses.foldl (fun n x => n + x.2) 0
  decide (l.lossmax.toNat * data < lost * 2 ^ 16)
/-- A control message of the port has been resent RETRY times. -/
def Link.resentOften (l : Link) : Bool := l.pairs.any fun p => p.unacked.any fun u => u.ptype != tLdata && l.retry.toNat < u.sends

/-- The partition that holds a lane group of a port (R253, R376). -/
def portPart (s : State) (port : Nat) : Nat :=
  ((s.parts.find? fun p => p.v && (p.elanes.getLsbD (2 * port) || p.elanes.getLsbD (2 * port + 1))).map Partition.pid).getD 0

/-- A port is DEGRADED: a log entry, whose cause the spec does not state (log entry 16). -/
def degrade (s : State) (l : Link) : State :=
  let (c, s) := freeNat s
  setLink (logPartition s (portPart s l.port) 0 (BitVec.ofNat 8 c) none 0 0) { l with st := .degraded, cleanFrames := 0 }

/-- A frame of the port has closed with so many packets, and so many lost (R375). -/
def frameLoss (s : State) (port data lost : Nat) : State :=
  let l := getLink s port
  let l := { l with losses := (l.losses ++ [(data, lost)]).drop (l.losses.length + 1 - 256), lostpk := l.lostpk + BitVec.ofNat 32 lost }
  let l := { l with cleanFrames := if l.lossy then 0 else l.cleanFrames + 1 }
  if (l.st = .upLossy || l.st = .upLossless) && l.lossy then degrade s l
  else if l.st = .degraded && 256 ≤ l.cleanFrames then setLink s { l with st := if l.modeUp then .upLossy else .upLossless }
  else setLink s l

/-! ## Frame close (R383) -/

/-- A record to deliver: its SEQ, its bytes, and whether it is a substitute. -/
structure Delivery where
  seq : Nat
  bytes : List Byte
  sub : Bool
  deriving DecidableEq, Repr

def insertDelivery (d : Delivery) : List Delivery → List Delivery
  | [] => [d]
  | x :: r => if d.seq < x.seq then d :: x :: r else x :: insertDelivery d r

/-- The records received in a frame, decoded; keys not decoded. -/
def receivedRecords (s : State) (ctx : Nat) (r : RemoteEdge) (x : RxFrame) : State × List Delivery × List Nat :=
  (x.data.flatMap packetRecords).foldl (fun (acc : State × List Delivery × List Nat) w =>
    match decodeRecord acc.1 ctx r x.frame w with
    | (s, some rec_) => (s, insertDelivery ⟨recSeq w.hdr, rec_, false⟩ acc.2.1, acc.2.2)
    | (s, none) => (s, acc.2.1, acc.2.2 ++ [recKey w.hdr])) (s, [], [])

/-- The SEQ of the last record of the frame, where its last packet has come. -/
def lastSeq (x : RxFrame) : Option Nat :=
  x.last.bind fun p => ((packetRecords p).getLast?).map fun w => recSeq w.hdr

/-- The expected keys that were not received, sorted by their SEQ in f − 1. -/
def expectedKeys (r : RemoteEdge) (f : Nat) (got : List Delivery) : List Nat :=
  let here (k : Nat) : Bool := got.any fun d => recKey (recHead d.bytes) = k
  let ks := if r.prevFrame + 1 = f then r.prev.filter fun x => !here x.1 else []
  (ks.foldl (fun l x => insertDelivery ⟨x.2, leBytes 4 x.1, false⟩ l) []).map fun d => leNat d.bytes

/-- Substitutes take the gaps in ascending SEQ, and then the next SEQ values. -/
def fillGaps (s : State) (ctx : Nat) (r : RemoteEdge) (f : Nat) (keys gaps : List Nat) (top : Nat) (got : List Delivery) : State × List Delivery :=
  match keys with
  | [] => (s, got)
  | k :: rest =>
    let (s, x) := readSlot s ctx r k
    match substitute r x f with
    | none => fillGaps s ctx r f rest gaps top got
    | some b =>
      let seq := gaps.headD top
      let b := leBytes 16 (withBits (recHead b) 80 16 seq) ++ b.drop 16
      fillGaps s ctx r f rest gaps.tail (if gaps = [] then top + 1 else top) (insertDelivery ⟨seq, b, true⟩ got)

/-- What a frame delivers, in SEQ order, and the keys not decoded. -/
def frameDeliveries (s : State) (ctx : Nat) (r : RemoteEdge) (x : RxFrame) : State × List Delivery × List Nat :=
  let (s, got, miss) := receivedRecords s ctx r x
  let seqs := got.map Delivery.seq
  let end_ := max ((lastSeq x).map (· + 1) |>.getD 0) ((seqs.getLast?).map (· + 1) |>.getD 0)
  let lo := if x.last.isSome then 0 else seqs.headD end_
  let gaps := (between lo end_).filter fun n => !seqs.contains n
  let (s, got) := fillGaps s ctx r x.frame (expectedKeys r x.frame got) gaps end_ got
  (s, got, miss)

/-- CLOSE on the last delivered record, and on no other. -/
def markClose (ds : List Delivery) : List Delivery :=
  ds.zipIdx.map fun p =>
    let b := p.1.bytes
    { p.1 with bytes := leBytes 16 (withBits (recHead b) 99 1 (if p.2 + 1 = ds.length then 1 else 0)) ++ b.drop 16 }

/-- Each delivered record enters its key's slot. -/
def storeDelivered (s : State) (ctx : Nat) (r : RemoteEdge) (ds : List Delivery) : State :=
  ds.foldl (fun s d =>
    let (s, x) := readSlot s ctx r (recKey (recHead d.bytes))
    writeSlot s ctx r (x.deliver d.bytes d.sub)) s

/-- The packets lost in a frame that closes; where nothing of it has come, one is known to be missing (log entry 17). -/
def framePackets (r : RemoteEdge) (x : RxFrame) : Nat × Nat :=
  match (x.data ++ x.parity).foldl (fun n p => max n (p.group + 1)) 0 with
  | 0 => (1, 1)
  | n =>
    let sizes := (List.range n).map fun g => (x.groupSize g).getD (pK r.param)
    let all := sizes.foldl (· + ·) 0
    (all, all - x.data.length)

/-- The frame is closed and what it delivers is fixed (R383). -/
def closeFrame (s : State) (g : Graph) (i : Nat) (r : RemoteEdge) (x : RxFrame) : State :=
  let (data, lost) := framePackets r x
  let (s, ds, miss) := frameDeliveries (frameLoss s (pPort r.param) data lost) g.ctx r x
  let ds := markClose ds
  let s := storeDelivered s g.ctx r ds
  let key (d : Delivery) : Nat := recKey (recHead d.bytes)
  let r := setFrame r { x with closed := true }
  let s := setRemote s { r with
    delivering := some (x.frame, ds.map Delivery.bytes), prevFrame := x.frame, prev := ds.map fun d => (key d, d.seq)
    rcvd := r.rcvd ++ (ds.filter fun d => !d.sub).map fun d => (key d, x.frame) }
  sendMiss s g i r x.frame miss

/-- Deliver what there is room for; then the edge closes (R383, R451). -/
def deliverFrame (gn i : Nat) : Nat → State → State
  | 0, s => s
  | fuel + 1, s =>
    match getGraph s gn, (getGraph s gn).bind fun g => g.edges[i]?, getRemote s gn i with
    | some g, some e, some r =>
      (match r.delivering with
       | none => s
       | some (f, todo) =>
         let isOver (s : State) : State := setRemote s { r with delivering := none }
         if !g.run || g.frame != f || !e.away then isOver s
         else match todo with
           | [] => afterNodes (isOver s) (setEdge g i { e with closed := true })
           | b :: rest =>
             let next (s : State) : State := setRemote s { r with delivering := some (f, rest) }
             if e.full then (if (g.nodes[e.dst]?).any Node.ended then deliverFrame gn i fuel (next s) else s)
             else match bareStore s g.ctx false (e.slotVa e.head) b with
               | (s, .absent _) => s
               | (s, .fault c va pa) => deliverFrame gn i fuel (next (logAway s g.ctx c va pa))
               | (s, .ok _) => deliverFrame gn i fuel (recordArrived (setGraph (next s) (setEdge g i { e with head := e.head + 1 })) gn i e))
    | _, _, _ => s

/-- FRAME_CLOSE: a frame that is complete, or whose deadline has come, is closed and delivered (R383). -/
def execFrameClose (graph edge frame : Nat) (s : State) : Res :=
  match getGraph s graph, getRemote s graph edge with
  | some g, some r =>
    let go (s : State) : Res :=
      let n := match (getRemote s graph edge).bind RemoteEdge.delivering with
        | some x => x.2.length + 2
        | none => 1
      .next (deliverFrame graph edge n s)
    if (r.delivering.map Prod.fst) = some frame then go s
    else
      let x := getFrame r frame
      if closeDue s r x then go (closeFrame s g edge r x) else .fault (.noSuchObject "frame to close")
  | _, _ => .fault (.noSuchObject "remote edge")

/-- LATE_RECORD (R384): after the close of its frame, for which it waits (R383). -/
def execLateRecord (graph edge : Nat) (slot : List Byte) (s : State) : Res :=
  match getGraph s graph, getRemote s graph edge with
  | some g, some r =>
    let h := recHead slot
    let (s, x) := readSlot s g.ctx r (recKey h)
    let x' := x.refresh slot
    if closeDue s r (getFrame r (recFrame h)) then .next (owe s (.lateRecord graph edge slot))
    else if x' = x then .next s
    else .next (writeSlot (setRemote s { r with rcvd := r.rcvd ++ [(recKey h, recFrame h)] }) g.ctx r x')
  | _, _ => .fault (.noSuchObject "remote edge")

/-! ## DATA, PARITY (R380, R381) -/

/-- A packet that a port takes in: an up port drops one whose frame is addressed elsewhere (R377); one with an extension header,
a bad checksum or another port, which it counts (R376); and one with another VER (DEDUCED, log entry 79) or a nonzero byte that
R378 does not list. -/
def takesIn (s : State) (port : Nat) (p : EdgePacket) (act : State → State) : State :=
  let l := getLink s port
  if !l.st.up || !frameTaken l p.dst then s
  else if !p.plain then setLink s { l with lostpk := l.lostpk + 1 }
  else if p.ver != 1 || p.spare != 0 then s
  else act s

/-- DATA (R380, R383). -/
def execData (port : Nat) (pkt : EdgePacket) (s : State) : Res := .next (takesIn s port pkt fun s => edgePacket s false pkt)
/-- PARITY (R381). -/
def execParity (port : Nat) (pkt : EdgePacket) (s : State) : Res := .next (takesIn s port pkt fun s => edgePacket s true pkt)

end Sys2Proof.Machine
end

