-- ==== Sys2Proof/Machine/CutMoves.lean ====
section
/-! DEFINITION. Moving a cut: SET_CUT, the control messages that a move and a run's start travel in, and the end of a move
(R386 to R389, R452, R453, R475). The layout of their bodies is the model's (log entry 18). -/

namespace Sys2Proof.Machine

/-! ## The cut map (R387, R453, R475) -/

/-- The edges whose bit is set. -/
def cutBits (bitmap nedge : Nat) : List Nat := (List.range nedge).filter bitmap.testBit
/-- An entry of the state table, not its end, that meets R475. -/
def entryOk (nodes n : Nat) : Bool :=
  nBits n 16 8 != 0 && nBits n 16 8 ≤ 64 && (nBits n 24 8 = 1 || nBits n 24 8 = 2) && nBits n 32 32 = 0
    && nBits n 64 64 % 8 = 0 && nBits n 0 16 < nodes
/-- The state table, up to its end; none where an entry fails or the end is missing. -/
def stateTable (nodes : Nat) : Nat → List Byte → Option (List StateEntry)
  | 0, _ => none
  | fuel + 1, bs =>
    let n := leNat (bs.take 16)
    if bs.length < 16 then none
    else if nBits n 0 16 = 0xFFFF then some []
    else
      let e : StateEntry := ⟨nBits n 0 16, nBits n 16 8, nBits n 24 8, nW64 n 64⟩
      if !entryOk nodes n then none
      else (stateTable nodes fuel (bs.drop 16)).map fun l => e :: l
def cutWords (nedge : Nat) : Nat := 8 * ceilDiv nedge 64

/-- A cut and its state table in bytes, the table with its end. -/
def cutBody (bits : List Nat) (nedge : Nat) (table : List StateEntry) : List Byte :=
  leBytes (cutWords nedge) (bits.foldl (fun m b => m + 2 ^ b) 0)
    ++ (table.flatMap fun e => leBytes 2 e.node ++ leBytes 1 e.nt ++ leBytes 1 e.srule ++ leBytes 4 0 ++ leBytes 8 e.tlist.toNat)
    ++ leBytes 16 0xFFFF
/-- A cut map read from bytes, for a graph. -/
def cutMap (g : Graph) (bs : List Byte) : Option (List Nat × List StateEntry) :=
  let n := g.edges.length
  (stateTable g.nodes.length (bs.length / 16 + 1) (bs.drop (cutWords n))).map fun t => (cutBits (leNat (bs.take (cutWords n))) n, t)

/-- The bytes of a state table, up to its end or to the first entry that fails. -/
def readEntries (s : State) (ctx nodes : Nat) (va : W64) : Nat → List Byte
  | 0 => []
  | fuel + 1 =>
    match (spaceRead s (some ctx) va 16).2 with
    | none => []
    | some e => if entryOk nodes (leNat e) then e ++ readEntries s ctx nodes (va + 16) fuel else e
/-- The bytes of a cut map of a context: the bitmap, then the table, of as many entries as an address space holds. -/
def readCutMap (s : State) (g : Graph) (va : W64) : Option (List Nat × List StateEntry) :=
  let n := cutWords g.edges.length
  match (spaceRead s (some g.ctx) va n).2 with
  | some b => cutMap g (b ++ readEntries s g.ctx g.nodes.length (va + BitVec.ofNat 64 n) (2 ^ 60))
  | none => none

/-! ## The move (R389) -/

/-- The ports of a graph's remote edges. -/
def cutPorts (s : State) (gn : Nat) : List Nat := (s.remotes.filter fun r => r.graph = gn).map fun r => pPort r.param
/-- Ports enter CUT-MOVING (R375). -/
def portsMoving (s : State) (gn : Nat) : State :=
  { s with links := s.links.map fun (l : Link) => if (cutPorts s gn).contains l.port && l.st = .upLossy then { l with st := .cutMoving } else l }
/-- And leave it: DEGRADED where the degrade test holds. -/
def portsMoved (s : State) (gn : Nat) : State :=
  (s.links.filter fun l => (cutPorts s gn).contains l.port && l.st = .cutMoving).foldl (fun s l =>
    if l.lossy || l.resentOften then setLink s { l with st := .degraded, cleanFrames := 0 } else setLink s { l with st := .upLossy }) s

/-- A move ends on this side: the near side's register, the ports, and a run that was held; state that has still to come is
kept, for stale-state mode and for its own arrival (R388, R389; log entry 34). -/
def finishMove (s : State) (c : Cut) (result : Nat) (late : Option Move) : State :=
  let late := late.toList.filter fun m => !m.incoming.all Incoming.written
  let s := Sys2Proof.Machine.setCut s { c with move := none, late := late ++ c.late, busy := false }
  let s := match getGraph s c.graph with
    | some g =>
      let p := getPart s g.part
      if c.near && p.cutBusy && p.cutGraph.toNat = c.graph then setPart s { p with cutResult := result, cutBusy := false } else s
    | none => s
  startPending (portsMoved s c.graph) c.graph

/-- The move of a graph is over on this side: its run E has ended, every STATE-XFER it sent is acknowledged, and every one it
received is written (R389). -/
def moveOver (m : Move) : Bool := m.accepted && m.ended && m.owed = [] && m.incoming.all fun i => i.held.isNone

/-- A tile's pieces: its header, then its bytes. -/
def tilePieces (s : State) (ctx : Nat) (va : W64) : State × List (W64 × List Byte) :=
  match spaceRead s (some ctx) va 16 with
  | (s, none) => (s, [])
  | (s, some hb) =>
    let h := BitVec.ofNat 128 (leNat hb)
    if !headerOk h then (logContext s ctx 0x07 none va 0, [(va, hb)])
    else
      (tileRuns h false everyRow).foldl (fun (acc : State × List (W64 × List Byte)) r =>
        let at_ := va + BitVec.ofNat 64 (r.bit / 8)
        match spaceRead acc.1 (some ctx) at_ (ceilDiv (r.bit % 8 + r.len) 8) with
        | (s, some bs) => (s, acc.2 ++ [(at_, bs)])
        | (s, none) => (s, acc.2)) (s, [(va, hb)])

/-- Send a moved node's STATE-XFER: the headed tiles of its TLIST. -/
def sendState (s : State) (g : Graph) (m : Move) (n : Nat) : State :=
  match m.table.find? fun e => e.node = n with
  | none => s
  | some e =>
    let (s, ps) := (tileList s g.ctx e).foldl (fun (acc : State × List (W64 × List Byte)) va =>
      let (s, l) := tilePieces acc.1 g.ctx va
      (s, acc.2 ++ l)) (s, [])
    let body := leBytes 8 n ++ ps.flatMap fun p => leBytes 8 p.1.toNat ++ leBytes 8 p.2.length ++ p.2
    sendOn s (statePort s g m) tStateXfer g.num m.eframe body

/-- A moved node is DONE in run E − 1, which may have ended. -/
def readyToMove (g : Graph) (m : Move) (n : Nat) : Bool :=
  decide (m.eframe ≤ g.frame) || (g.frame + 1 = m.eframe && (!g.run || (g.nodes[n]?).any fun x => x.st = .done))

/-- Send the state of every node that is ready to move and has not been sent. -/
def sendMoved (s : State) (gn : Nat) : State :=
  match getGraph s gn, getCut s gn with
  | some g, some c =>
    (match c.move with
     | none => s
     | some m =>
       let now := m.owed.filter fun n => !m.sent.contains n && readyToMove g m n
       if !m.accepted || now = [] then s
       else now.foldl (fun s n => sendState s g m n) (Sys2Proof.Machine.setCut s { c with move := some { m with sent := m.sent ++ now } }))
  | _, _ => s

/-- The move has been accepted: the new cut stands from E, and what is to be sent and received is known. -/
def acceptMove (s : State) (g : Graph) (c : Cut) (m : Move) : State :=
  let old := c.edgesAt (m.eframe - 1)
  let mine (bits : List Nat) (n : Nat) : Bool := nearNode g bits n = c.near
  let moved := (m.table.map StateEntry.node).filter fun n => nearNode g old n != nearNode g m.edges n
  let m := { m with
    accepted := true, owed := moved.filter (mine old), incoming := (moved.filter (mine m.edges)).map fun n => ⟨n, false, none, false⟩ }
  sendMoved (Sys2Proof.Machine.setCut s { c with
    cuts := (m.eframe, m.edges) :: c.cuts, move := some m, late := c.late.filter fun x => x.eframe != m.eframe }) g.num

def Move.proposed (e : Nat) (edges : List Nat) (table : List StateEntry) : Move :=
  { eframe := e, edges, table, accepted := false, owed := [], sent := [], incoming := [], early := [], ended := false }

/-! ## SET_CUT (R282, R387, R388) -/

def setCutForm (page q : Nat) : PacketForm :=
  { event := .setCut page q, listed := [(8, 2), (12, 4), (16, 8), (24, 2)], bar := false
    check := fun s x n =>
      let busy := fails 0 (getPart s (getCtx s (dCtx x.copy)).part).cutBusy
      let bad (g : Graph) : List BadField :=
        fails 16 (match readCutMap s g (pkW n 16) with
          | some m => !cutValid g m.1
          | none => true) (pkW n 16)
      match getGraph s (pk n 8 2) with
      | none => busy ++ fails 8 true
      | some g =>
        if g.edges = [] then busy ++ fails 8 (g.ctx != dCtx x.copy) ++ fails 24 true
        else
          busy ++ fails 8 (g.ctx != dCtx x.copy || !((getCut s g.num).any Cut.near)) ++ bad g
            ++ fails 24 (pk n 24 2 = 0 || pk n 24 2 != g.edges.length)
    held := neverHeld
    effect := fun s _ _ n =>
      match getGraph s (pk n 8 2), getCut s (pk n 8 2) with
      | some g, some c =>
        (match readCutMap s g (pkW n 16) with
         | some (bits, table) =>
           let e := pk n 12 4
           let s := setPart s { getPart s g.part with
             cutEframe := BitVec.ofNat 32 e, cutGraph := BitVec.ofNat 16 g.num, cutResult := 0, cutBusy := true }
           let s := Sys2Proof.Machine.setCut s { c with move := some (Move.proposed e bits table), busy := true }
           sendOn (portsMoving s g.num) (controlPort s g) tCutPropose g.num e (cutBody bits g.edges.length table)
         | none => s)
      | _, _ => s }

/-- SET_CUT (R282). -/
def execSetCut (page q : Nat) (s : State) : Res := runPacket page q (setCutForm page q) s

/-! ## What a control message does (R386, R389) -/

/-- FRAME acts at the far side as a store of 0 to the trigger register (R386). -/
def actFrame (s : State) (p : EdgePacket) : State :=
  match getCut s p.graph with
  | some c => if c.near then s else triggerStore s p.graph 0
  | none => s

/-- CUT-PROPOSE: the far side checks and answers. -/
def actPropose (s : State) (p : EdgePacket) : State :=
  match getGraph s p.graph, getCut s p.graph with
  | some g, some c =>
    let answer (s : State) (t : Nat) : State := sendOn s (controlPort s g) t g.num p.frame []
    (match cutMap g p.body with
     | some (bits, table) =>
       if c.near || c.busy || p.frame ≤ g.frame + 1 || !cutValid g bits then answer s tCutReject
       else answer (acceptMove (portsMoving s g.num) g { c with busy := true } (Move.proposed p.frame bits table)) tCutAccept
     | none => answer s tCutReject)
  | _, _ => s

/-- Write a STATE-XFER that an accepted move expects, hold it, or leave it. -/
def takeXfer (s : State) (g : Graph) (p : EdgePacket) : State :=
  match getCut s g.num with
  | none => s
  | some c =>
    match c.awaited.find? fun m => m.eframe = p.frame with
    | none => s
    | some m =>
      match m.incoming.find? fun i => i.node = xferNode p with
      | none => s
      | some i =>
        let put (s : State) (i : Incoming) : State :=
          match getCut s g.num with
          | some c => Sys2Proof.Machine.setCut s (c.change m.eframe fun m => m.setIncoming i)
          | none => s
        if i.written then s
        else if i.decided then put s { i with held := some p }
        else owe (put (writeXfer s g m p) { i with written := true }) (.cutMoveEnd g.part)

/-- CUT-ACCEPT and CUT-REJECT: the near side goes on, or the move is refused. -/
def actAnswer (s : State) (accept : Bool) (p : EdgePacket) : State :=
  match getGraph s p.graph, getCut s p.graph with
  | some g, some c =>
    (match c.move with
     | some m =>
       if !c.near || !c.busy || m.accepted || m.eframe != p.frame then s
       else if !accept then finishMove s c 2 none
       else
         let s := acceptMove s g c { m with early := [] }
         startPending (m.early.foldl (fun s x => takeXfer s g x) s) g.num
     | none => s)
  | _, _ => s

/-- STATE-XFER: of an accepted move it is taken; before the answer to its move it is kept (R389). -/
def actXfer (s : State) (p : EdgePacket) : State :=
  match getGraph s p.graph, getCut s p.graph with
  | some g, some c =>
    if c.awaited.any fun m => m.eframe = p.frame then takeXfer s g p
    else match c.move with
      | some m =>
        if m.accepted then s else Sys2Proof.Machine.setCut s { c with move := some { m with early := m.early ++ [p] } }
      | none => s
  | _, _ => s

/-- STATE-ACK: the STATE-XFER of its node has been written. -/
def actAck (s : State) (p : EdgePacket) : State :=
  let mine (u : Unacked) : Bool :=
    u.ptype = tStateXfer && u.pkt.graph = p.graph && u.pkt.frame = p.frame && xferNode u.pkt = xferNode p
  let clear (x : Pair) : Pair := { x with unacked := x.unacked.filter fun u => !mine u }
  let s := { s with links := s.links.map fun (l : Link) => { l with pairs := l.pairs.map clear } }
  match getGraph s p.graph, getCut s p.graph with
  | some g, some c =>
    (match c.move with
     | some m =>
       if m.eframe != p.frame then s
       else owe (Sys2Proof.Machine.setCut s { c with move := some { m with owed := m.owed.filter fun n => n != xferNode p } }) (.cutMoveEnd g.part)
     | none => s)
  | _, _ => s

/-- REF-MISS: keys to be sent in full (R380). -/
def actMiss (s : State) (p : EdgePacket) : State :=
  match edgeOf s p with
  | some (_, _, r) =>
    setRemote s { r with miss := r.miss ++ (List.range (p.body.length / 4)).map fun k => leNat ((p.body.drop (4 * k)).take 4) }
  | none => s

def actControl (s : State) (ptype : Nat) (p : EdgePacket) : State :=
  if ptype = tFrame then actFrame s p
  else if ptype = tCutPropose then actPropose s p
  else if ptype = tCutAccept then actAnswer s true p
  else if ptype = tCutReject then actAnswer s false p
  else if ptype = tStateXfer then actXfer s p
  else if ptype = tStateAck then actAck s p
  else if ptype = tRefMiss then actMiss s p
  else s

/-! ## Control messages received (R385) -/

/-- Act on the messages whose turn has come, in CSEQ order. -/
def actInOrder (port : Nat) (peer : W128) : Nat → State → State
  | 0, s => s
  | fuel + 1, s =>
    let x := getPair (getLink s port) peer
    match x.early.find? fun e => BitVec.ofNat 32 e.2.cseq = x.ctlSeen with
    | none => s
    | some e =>
      let x := { x with ctlSeen := x.ctlSeen + 1, early := x.early.filter fun y => y.2.cseq != e.2.cseq }
      actInOrder port peer fuel (actControl (setLink s (setPair (getLink s port) x)) e.1 e.2)

/-- A CACK of every message acted on goes out, and the REF-MISS messages that wait for one go with it (R381, R385). -/
def acknowledge (s : State) (port : Nat) (peer : W128) : State :=
  let l := getLink s port
  let y := getPair l peer
  let s := transmit (setLink s (setPair l { y with misses := [] })) port peer tCack { blankPacket l 0 0 [] with cseq := y.ctlSeen.toNat }
  y.misses.foldl (fun s p => sendControl s port peer tRefMiss p) s

/-- A control message: a duplicate is dropped; it is acted on in its turn, and acknowledged (R385). -/
def receiveControl (port ptype : Nat) (pkt : EdgePacket) (s : State) : State :=
  takesIn s port pkt fun s =>
    let x := getPair (getLink s port) pkt.src
    let ahead := (BitVec.ofNat 32 pkt.cseq - x.ctlSeen).toNat
    let new : Bool := decide (ahead < 2 ^ 31) && !x.early.any fun e => e.2.cseq = pkt.cseq
    let x := if new then { x with early := x.early ++ [(ptype, pkt)] } else x
    acknowledge (actInOrder port pkt.src (x.early.length + 1) (setLink s (setPair (getLink s port) x))) port pkt.src

/-- FRAME (R386). -/
def execFrame (port : Nat) (pkt : EdgePacket) (s : State) : Res := .next (receiveControl port tFrame pkt s)
/-- CUT-PROPOSE (R389). -/
def execCutPropose (port : Nat) (pkt : EdgePacket) (s : State) : Res := .next (receiveControl port tCutPropose pkt s)
/-- CUT-ACCEPT (R389). -/
def execCutAccept (port : Nat) (pkt : EdgePacket) (s : State) : Res := .next (receiveControl port tCutAccept pkt s)
/-- CUT-REJECT (R389). -/
def execCutReject (port : Nat) (pkt : EdgePacket) (s : State) : Res := .next (receiveControl port tCutReject pkt s)
/-- STATE-XFER (R389). -/
def execStateXfer (port : Nat) (pkt : EdgePacket) (s : State) : Res := .next (receiveControl port tStateXfer pkt s)
/-- STATE-ACK (R389). -/
def execStateAck (port : Nat) (pkt : EdgePacket) (s : State) : Res := .next (receiveControl port tStateAck pkt s)
/-- REF-MISS (R381). -/
def execRefMiss (port : Nat) (pkt : EdgePacket) (s : State) : Res := .next (receiveControl port tRefMiss pkt s)

/-! ## The end of a move (R389) -/

/-- A graph's move, looked at: state that is ready goes out, and a move that is over ends. -/
def lookAtMove (s : State) (gn : Nat) : State :=
  let s := sendMoved s gn
  match getCut s gn with
  | some c =>
    (match c.move with
     | some m => if c.busy && moveOver m then finishMove s c 1 (some m) else s
     | none => s)
  | none => s

/-- CUT_MOVE_END: the moves of a partition's graphs (R388, R389). -/
def execCutMoveEnd (part : Nat) (s : State) : Res :=
  let mine := s.cuts.filter fun c => c.move.isSome && (getGraph s c.graph).any fun g => g.part = part
  if mine = [] then .fault (.noSuchObject "cut move")
  else .next (mine.foldl (fun s c => lookAtMove s c.graph) s)

/-- A port has failed: moves over it end with a link error; what was accepted stands, without the state not yet written
(R375, R389). -/
def failMoves (s : State) (port : Nat) : State :=
  (s.cuts.filter fun c => c.busy && (cutPorts s c.graph).contains port).foldl (fun s c =>
    match c.move with
    | some m => finishMove s c 3 (if m.accepted then some { m with owed := [] } else none)
    | none => s) s

end Sys2Proof.Machine
end

