-- ==== Sys2Proof/Machine/Ports.lean ====
section
/-! DEFINITION. Link ports: their states, resends, neighbours, acknowledgements, remote windows, and the movement of every
asynchronous operation (R375 to R377, R385, R392, R394, R399). -/

namespace Sys2Proof.Machine

/-! ## LINK_CTL (R375, R376) -/

/-- LINK_CTL's fields written. -/
def writeLinkCtl (l : Link) (v : W64) : Link :=
  { l with
    lossmax := v.extractLsb' 48 16, retry := v.extractLsb' 40 8, rto := v.extractLsb' 16 24, mtu := v.extractLsb' 2 14
    mode := v.getLsbD 1, en := v.getLsbD 0 }

/-- Lossless copies of a port in flight fail: their action is performed with the failure value (R385, R399). -/
def failCopies (s : State) (port : Nat) : State :=
  (s.ops.filter fun o => o.window.any fun w => w / 64 = port).foldl (fun s o =>
    match getOp s o.id with
    | some o => let o := { o with pos := o.len, moved := true, failed := true, waiting := none }; completeBatch (setOp s o) o
    | none => s) s

/-- What has come of the open frames of a port's edges is given up: every record of them is substituted (R375, R383). -/
def dropFrames (s : State) (port : Nat) : State :=
  let lose (x : RxFrame) : RxFrame := if x.closed then x else { x with data := [], parity := [] }
  { s with remotes := s.remotes.map fun r => if pPort r.param = port then { r with frames := r.frames.map lose } else r }

/-- A port leaves its up states: lossless messages go, open frames lose their packets, control messages start their sends again when it is up, and cut moves
over it end (R375, R385, R389). -/
def portDown (s : State) (port : Nat) (st : LinkSt) : State :=
  let l := getLink s port
  let keep (u : Unacked) : Option Unacked := if u.ptype = tLdata then none else some { u with sends := 0 }
  let l := { l with
    st := st, unresolved := [], lostpk := l.lostpk + BitVec.ofNat 32 l.unresolved.length
    pairs := l.pairs.map fun (p : Pair) => { p with unacked := p.unacked.filterMap keep, earlyData := [] } }
  failMoves (failCopies (dropFrames (setLink s l) port) port) port

/-- LINK_ENABLE: LINK_CTL written with EN = 1; a port that is DOWN trains (R375). -/
def execLinkEnable (port : Nat) (value : W64) (s : State) : Res :=
  let l := getLink s port
  if 4 ≤ port || !value.getLsbD 0 then .fault (.noSuchObject "enable of a port")
  else
    let rise := !l.en
    let l := writeLinkCtl l value
    let tell : List Sent := if l.nhV then [] else [ndFrom port allNodesMac (.advertise l.ip6 (Config.mac port))]
    let l := if rise then { l with modeUp := l.mode, wire := l.wire ++ tell } else l
    .next (setLink s (if l.st = .down then { l with st := .training, since := s.now } else l))

/-- LINK_DISABLE: LINK_CTL written with EN = 0: any state ends in DOWN (R375). -/
def execLinkDisable (port : Nat) (value : W64) (s : State) : Res :=
  if 4 ≤ port || value.getLsbD 0 then .fault (.noSuchObject "disable of a port")
  else .next (portDown (setLink s (writeLinkCtl (getLink s port) value)) port .down)

/-- PCS_LINK_UP (R375). -/
def execPcsLinkUp (port : Nat) (s : State) : Res :=
  let l := getLink s port
  if l.st != .training then .next s
  else if l.modeUp then .next (setLink s { l with st := .upLossy, since := s.now })
  else .next (setLink s { l with
    st := .upLossless, since := s.now
    pairs := l.pairs.map fun (p : Pair) => { p with dataNext := 0, dataSeen := 0, earlyData := [] } })

/-- PCS_LINK_LOSS (R375). -/
def execPcsLinkLoss (port : Nat) (s : State) : Res :=
  if (getLink s port).st.up then .next (portDown s port .error) else .next s

/-- Two seconds of the time base. -/
def trainingLimit : Nat := nsCounts 2000000000
/-- TRAINING_TIMEOUT (R375). -/
def execTrainingTimeout (port : Nat) (s : State) : Res :=
  let l := getLink s port
  if l.st != .training || (s.now - l.since).toNat < trainingLimit then .fault (.noSuchObject "port in training so long")
  else .next (logPartition (setLink s { l with st := .error }) (portPart s port) 0 0x17 none 0 0)

/-! ## Resends (R375, R385) -/

/-- The resend timeout in counts. -/
def Link.rtoCounts (l : Link) : Nat := nsCounts (max 1 l.rto.toNat)
/-- A message is due to be sent again. -/
def resendDue (s : State) (l : Link) (u : Unacked) : Bool := decide (l.rtoCounts ≤ (s.now - u.sentAt).toNat)
/-- Unacknowledged after 4 × RETRY sends; a STATE-XFER that a CACK has covered waits for its STATE-ACK without end. -/
def resendOver (l : Link) (u : Unacked) : Bool := !u.covered && decide (4 * l.retry.toNat ≤ u.sends)

/-- Send one message again. -/
def resendOne (port : Nat) (s : State) (x : W128 × Unacked) : State :=
  let l := getLink s port
  let again (u : Unacked) : Unacked :=
    if u.ptype = x.2.ptype && u.pkt.cseq = x.2.pkt.cseq then { u with sends := u.sends + 1, sentAt := s.now } else u
  let p := getPair l x.1
  transmit (setLink s (setPair { l with cleanFrames := 0 } { p with unacked := p.unacked.map again })) port x.1 x.2.ptype x.2.pkt

/-- CONTROL_RESEND: every message of the port whose timeout has passed is sent again; too many sends end the link, and many
degrade it (R375, R385). -/
def execControlResend (port : Nat) (s : State) : Res :=
  let l := getLink s port
  let due := l.pairs.flatMap fun p => (p.unacked.filter (resendDue s l)).map fun u => (p.peer, u)
  if !l.st.up || due = [] then .fault (.noSuchObject "message to resend")
  else if due.any fun x => resendOver l x.2 then .next (portDown s port .error)
  else
    let s := due.foldl (resendOne port) s
    let l := getLink s port
    if (l.st = .upLossy || l.st = .upLossless) && l.resentOften then .next (degrade s l) else .next s

/-- CACK: every control message before it is acknowledged (R385). -/
def execCack (port : Nat) (pkt : EdgePacket) (s : State) : Res :=
  .next (takesIn s port pkt fun s =>
    let l := getLink s port
    let p := getPair l pkt.src
    let before (u : Unacked) : Bool :=
      u.ptype != tLdata && decide (1 ≤ (BitVec.ofNat 32 pkt.cseq - BitVec.ofNat 32 u.pkt.cseq).toNat)
        && decide ((BitVec.ofNat 32 pkt.cseq - BitVec.ofNat 32 u.pkt.cseq).toNat < 2 ^ 31)
    let keep (u : Unacked) : Option Unacked :=
      if !before u then some u else if u.ptype = tStateXfer then some { u with covered := true } else none
    setLink s (setPair l { p with unacked := p.unacked.filterMap keep }))

/-! ## Neighbours (R377) -/

/-- Counts in 30 s. -/
def neighborLife : Nat := nsCounts 30000000000

/-- An entry confirmed, the oldest given up where there are 256. -/
def confirmNeighbor (l : Link) (n : Neighbor) : Link :=
  let rest := l.neighbors.filter fun x => x.ip != n.ip
  { l with neighbors := (if 256 ≤ rest.length then rest.drop (rest.length - 255) else rest) ++ [n] }

/-- NEIGHBOR_SOLICITATION: a solicitation for IP6 is answered; an advertisement resolves or confirms a peer (R377). -/
def execNeighborSolicitation (port : Nat) (nd : NdFrame) (s : State) : Res :=
  let l := getLink s port
  if !l.st.up || l.nhV || !frameTaken l nd.dst then .next s
  else match nd.msg with
    | .solicit t =>
      if t = l.ip6 then .next (setLink s { l with wire := l.wire ++ [ndFrom port nd.src (.advertise l.ip6 (Config.mac port))] })
      else .next s
    | .advertise t mac =>
      let (now, later) := l.unresolved.partition fun u => u.peer = t
      if now = [] && !l.neighbors.any fun n => n.ip = t then .next s
      else
        let l := confirmNeighbor { l with unresolved := later } ⟨t, mac, s.now⟩
        .next (now.foldl (fun s u => transmit s port u.peer u.ptype u.pkt) (setLink s l))

/-- NEIGHBOR_CACHE_EXPIRY: 30 s after the last confirmation (R377). -/
def execNeighborCacheExpiry (port : Nat) (ip : W128) (s : State) : Res :=
  let l := getLink s port
  match l.neighbors.find? fun n => n.ip = ip with
  | none => .fault (.noSuchObject "neighbour")
  | some n =>
    if (s.now - n.confirmed).toNat < neighborLife then .next s
    else .next (setLink s { l with neighbors := l.neighbors.filter fun x => x.ip != ip })

/-- NEIGHBOR_RESOLUTION_TIMEOUT: packets that have waited RTO for an answer are lost (R377). -/
def execNeighborResolutionTimeout (port : Nat) (ip : W128) (s : State) : Res :=
  let l := getLink s port
  let (gone, rest) := l.unresolved.partition fun u => u.peer = ip && decide (l.rtoCounts ≤ (s.now - u.since).toNat)
  if gone = [] then .fault (.noSuchObject "unresolved peer")
  else .next (setLink s { l with unresolved := rest, lostpk := l.lostpk + BitVec.ofNat 32 gone.length })

/-! ## Remote windows (R385, R399) -/

/-- The data bytes of one LDATA packet: the body holds 8 bytes of offset first. -/
def ldataChunk (l : Link) : Nat := l.mtu.toNat - 88

/-- Send one LDATA packet of an operation. -/
def sendData (s : State) (port : Nat) (peer : W128) (window offset : Nat) (bs : List Byte) (op : Nat) : State :=
  let l := getLink s port
  let x := getPair l peer
  let p := { blankPacket l 0 0 (beBytes 8 offset ++ bs) with edge := window, cseq := x.dataNext.toNat }
  let x := { x with dataNext := x.dataNext + 1, unacked := x.unacked ++ [⟨tLdata, p, 1, s.now, false, op⟩] }
  transmit (setLink s (setPair l x)) port peer tLdata p

/-- No packet of an operation waits for its LACK. -/
def allAcked (s : State) (op : Nat) : Bool :=
  s.links.all fun l => l.pairs.all fun p => p.unacked.all fun u => !(u.ptype = tLdata && u.op = op)

/-- The bytes of a window CPY go out, packet by packet. -/
def sendBytes (w : Window) (o : AsyncOp) : Nat → State → Nat → State
  | 0, s, _ => s
  | fuel + 1, s, pos =>
    if o.len ≤ pos then setOp s { o with pos := o.len, waiting := none }
    else
      let n := min (ldataChunk (getLink s (w.idx / 64))) (o.len - pos)
      match sideRead s (opEnv s o) o.srcShare o.src pos n with
      | (s, .inl (.absent va)) => setOp s { o with pos := pos, waiting := some va }
      | (s, .inl (.fault c va pa)) => engineFault s o c va pa
      | (s, .inr bs) =>
        sendBytes w o fuel (sendData s (w.idx / 64) w.peer w.idx ((o.dst.extractLsb' 0 40).toNat + pos) bs o.id) (pos + max 1 n)

/-- The movement of a CPY to a remote window: sent while the port is up, it fails where the port is DOWN or in ERROR, and it
has moved when the LACK of its last packet has come (R385, R399). -/
def moveWindow (s : State) (o : AsyncOp) (w : Nat) : State :=
  let fail (s : State) : State :=
    let o := { o with pos := o.len, moved := true, failed := true, waiting := none }
    completeBatch (setOp s o) o
  match s.windows.find? fun x => x.idx = w with
  | none => fail s
  | some x =>
    let l := getLink s (w / 64)
    if o.pos < o.len then
      if l.st.up then sendBytes x o (o.len + 1) s o.pos else if l.st = .training then s else fail s
    else if allAcked s o.id then
      let o := { o with moved := true, whole := true, waiting := none }
      completeBatch (setOp s o) o
    else s

/-- The inbound window of the number a packet names, where it may be written (R399; log entries 29 and 85). -/
def inboundFor (s : State) (p : EdgePacket) : Option (Window × Nat) :=
  let off := leNat (p.body.take 8).reverse
  let len := p.body.length - 8
  match s.windows.find? fun w => w.idx = p.edge with
  | some w =>
    if w.v && w.dir = 1 && w.peer = p.src && off + len ≤ 4096 * w.npages
        && mappedRange s w.ctx writeAcc (w.base + BitVec.ofNat 64 off) len then some (w, off) else none
  | none => none

/-- The poison or violation that the translation of a packet's bytes meets in its window's context. -/
def inboundItem (s : State) (p : EdgePacket) : Option (Nat × LogItem) :=
  (s.windows.find? fun w => w.idx = p.edge && w.v && w.dir = 1 && w.peer = p.src).bind fun w =>
    let off := leNat (p.body.take 8).reverse
    let len := p.body.length - 8
    if off + len ≤ 4096 * w.npages then (rangeItem s w.ctx writeAcc (w.base + BitVec.ofNat 64 off) len).map fun i => (w.ctx, i) else none

/-- The bytes of an LDATA packet are written, or refused and logged; then its LACK goes out. -/
def takeData (s : State) (port : Nat) (p : EdgePacket) (again : Bool) : State :=
  let status (b : Byte) (s : State) : State :=
    transmit s port p.src tLack { blankPacket (getLink s port) 0 0 [b] with edge := p.edge, cseq := p.cseq }
  match inboundFor s p with
  | some (w, off) =>
    status 0 (if again then s else spaceWrite s (some w.ctx) (w.base + BitVec.ofNat 64 off) (p.body.drop 8))
  | none =>
    let s := if again then s else match inboundItem s p with
      | some (ctx, i) => logItem s (some ctx) 0 i
      | none => s
    status 1 (if again then s else logPartition s (portPart s port) 0 0x15 none 0 0)

/-- Take the LDATA packets whose turn has come. -/
def takeInOrder (port : Nat) (peer : W128) : Nat → State → State
  | 0, s => s
  | fuel + 1, s =>
    let x := getPair (getLink s port) peer
    match x.earlyData.find? fun p => BitVec.ofNat 32 p.cseq = x.dataSeen with
    | none => s
    | some p =>
      let x := { x with dataSeen := x.dataSeen + 1, earlyData := x.earlyData.filter fun q => q.cseq != p.cseq }
      takeInOrder port peer fuel (takeData (setLink s (setPair (getLink s port) x)) port p false)

/-- LDATA: written in sequence order; a packet taken before is acknowledged again (R385, R399). -/
def execLdata (port : Nat) (pkt : EdgePacket) (s : State) : Res :=
  .next (takesIn s port pkt fun s =>
    let x := getPair (getLink s port) pkt.src
    if 2 ^ 31 ≤ (BitVec.ofNat 32 pkt.cseq - x.dataSeen).toNat then takeData s port pkt true
    else
      let x := if x.earlyData.any fun p => p.cseq = pkt.cseq then x else { x with earlyData := x.earlyData ++ [pkt] }
      takeInOrder port pkt.src (x.earlyData.length + 1) (setLink s (setPair (getLink s port) x)))

/-- LACK: a packet has been written or refused; the operation is over when its last one has been answered (R399). -/
def execLack (port : Nat) (pkt : EdgePacket) (s : State) : Res :=
  .next (takesIn s port pkt fun s =>
    let l := getLink s port
    let p := getPair l pkt.src
    match p.unacked.find? fun u => u.ptype = tLdata && u.pkt.cseq = pkt.cseq with
    | none => s
    | some u =>
      let rest := p.unacked.filter fun v => !(v.ptype = tLdata && v.pkt.cseq = pkt.cseq)
      let s := setLink s (setPair l { p with unacked := rest })
      match getOp s u.op with
      | none => s
      | some o =>
        let s := setOp s { o with failed := o.failed || pkt.body.take 1 != [0] }
        if allAcked s u.op then owe s (.asyncOpComplete u.op) else s)

/-! ## The movement of an operation (R392, R394) -/

/-- A ray that a forced save of its group abandons goes no further (R261, R436). -/
def rayAbandoned (s : State) (o : AsyncOp) : Bool := (getGroup s o.gid).any Group.stopping

/-- ASYNC_OP_COMPLETE: an engine moves what it can of one operation, and performs the completion action of its instruction
when every operation of it has moved (R392, R394). -/
def execAsyncOpComplete (op : Nat) (s : State) : Res :=
  match getOp s op with
  | none => .fault (.noSuchObject "operation")
  | some o =>
    if o.moved && o.kind != .rcon then .next (completeBatch (setOp s { o with waiting := none }) { o with waiting := none })
    else match o.kind, o.window with
    | .cpy, some w => .next (moveWindow s o w)
    | .cpyt, _ => .next (moveCpyt s o)
    | .rcon, _ => .next (moveRcon s o)
    | .trace, _ => .next (if rayAbandoned s o then s else moveTrace s o)
    | _, _ => .next (moveBytes s o)

end Sys2Proof.Machine
end

