-- ==== Sys2Proof/Machine/Saves.lean ====
section
/-! DEFINITION. Bronze's part of a save and a restore: forced saves, the end of a save, and the admission of saved teams
(R257, R260 to R268, R351, R436). -/

namespace Sys2Proof.Machine

/-! ## Records of a context (R262, R264) -/

/-- The address of a group's record. -/
def recordVa (s : State) (g : Group) : W64 :=
  let r := ((launchOf s g).map fun l => l.blk.recsz).getD 0
  (getCtx s (ctxOf s g)).save + BitVec.ofNat 64 (g.recordIndex * 4096 * r)

/-- The V, S, P and Z sections of a group. -/
def vSection (g : Group) (vregs : Nat) : List Byte :=
  (List.range vregs).flatMap fun r => (List.range 32).flatMap fun L => leBytes 4 (getV g r L).toNat
def sSection (g : Group) (sregs : Nat) : List Byte := (List.range sregs).flatMap fun r => leBytes 8 (getS g r).toNat
def pSection (g : Group) : List Byte := (List.range 32).flatMap fun L => leBytes 4 (predBits g L)
def zSection (g : Group) (ztiles : Nat) : List Byte :=
  (List.range ztiles).flatMap fun t => leBytes 16 (getZHeader g t).toNat
    ++ (List.range 32).flatMap fun i => (List.range 32).flatMap fun n => leBytes 4 (getZ g t i n).toNat
/-- The B and X sections of a team. -/
def bSection (s : State) (t : Team) : List Byte :=
  (List.range 16).flatMap fun b => leBytes 8 (barWord (getBarrier s t b)) ++ leBytes 8 0
def xSection (s : State) (t : Team) : List Byte :=
  (List.range t.cores.length).flatMap fun p => readBytes t.scratch (shareKey p 0) (shareSize s t.id)

/-! ## What a forced save keeps of a group (R261, R266, R351) -/

/-- The replay of a wait (R266): a deferred LDF, a parked WAITA or WAITS, with the lanes still owed their word; of an LDF, those
of its lanes that have yet to raise a fault too. -/
def waitReplay (x : Side) : Option (Nat × Mask) :=
  match x.st with
  | .park (.ldf _ fault) => some (2, x.only ||| (fault.map HeldFault.replay).getD 0)
  | .park (.waita _) => some (3, x.only)
  | .park (.waits _) => some (4, x.only)
  | _ => none

/-- The resume states and replays so far, and the state as arrivals are withdrawn. -/
structure Stopped where
  s : State
  kept : List KeptSide
  replays : List Replay

/-- One side: a fragment's wait becomes one replay record. DESIGN CHOICE, log entry 122: a trap that is held while a handler runs has no
place in a record (R261, R265), so its lanes resume at the word that raised it and raise it again. -/
def stopSide (g : Group) (acc : Stopped) (x : Side) : Stopped :=
  match waitReplay x with
  | some (t, on) =>
    let mine := g.sides.filter x.sameWait
    let owed := on &&& mine.foldl (fun m y => m ||| y.lanes) 0
    let one : List Replay := if mine.head? = some x && owed != 0 then [⟨t, owed, x.pc, 0⟩] else []
    { acc with kept := acc.kept ++ [keepSide g x x.lanes (x.pc + 16)], replays := acc.replays ++ one }
  | none =>
    if x.st = .gateSave then acc
    else match barrierWait acc.s g x with
      | (s, some stay) => { acc with s := s, kept := acc.kept ++ keepSplit g x stay }
      | (s, none) => { acc with s := s, kept := acc.kept ++ keepSplit g x (x.only ||| (x.held.map HeldFault.replay).getD 0) }

/-- The rays of a batch of TRACE that are still in the unit are abandoned: STATUS 3, zeros before it and RAY in each slot, and one
completion action for what is finished; then one replay for the rest. A page that is not present is waited for, and nothing is given
before it has come; another fault ends the team (R394, R433, R436). -/
def abandonTrace (s : State) (batch : Nat) : State × Option (List Replay) :=
  let mine := s.ops.filter fun o => o.batch = batch
  let left := mine.filter fun o => !o.moved
  let stopped (s : State) (o : AsyncOp) : Halt → State × Option (List Replay)
    | .absent _ => (s, none)
    | .fault c va pa => (engineFault s o c va pa, some [])
  match left with
  | [] => (s, some [])
  | o :: _ =>
    let done := mine.filter AsyncOp.moved
    let slot (o : AsyncOp) : List (Nat × List Byte) :=
      [(0, leBytes 8 0), (8, leBytes 8 0), (16, leBytes 4 3)] ++ if o.pos = 1 then [] else [(24, leBytes 8 o.src.toNat)]
    let wrote := left.foldl (fun (acc : State × Option (AsyncOp × Halt)) o =>
      match acc with
      | (s, none) =>
        let (s, r) := opWrites s (opEnv s o) o (slot o)
        (s, r.map fun h => (o, h))
      | x => x) (s, none)
    match wrote with
    | (s, some (o, h)) => stopped s o h
    | (s, none) =>
      let act := if done = [] then (s, none)
        else completionAction s (opEnv s o) { o with bytes := 32 * done.length } (maskOf (done.map AsyncOp.lane)) false
      match act with
      | (s, some h) => stopped s o h
      | (s, none) =>
        let gone := done.map AsyncOp.id
        ({ s with ops := s.ops.filter fun x => !gone.contains x.id },
          some [⟨1, maskOf (left.map AsyncOp.lane), o.pc, o.value.toNat + o.target.toNat * 2 ^ 64⟩])

/-- The batches of a group's operations of a kind. -/
def batchesOf (s : State) (gid : Nat) (trace : Bool) : List Nat :=
  (s.ops.filter fun o => o.gid = gid && (o.kind = .trace) = trace).foldl
    (fun l o => if l.contains o.batch then l else l ++ [o.batch]) []

/-- An operation that a forced save drains: any but a ray still in the unit, and a TRACE all of whose rays are finished with the
rest (R261, R436). -/
def drainsOp (s : State) (o : AsyncOp) : Bool := o.kind != .trace || s.ops.all fun x => x.batch != o.batch || x.moved

/-- Finish what engines and matrix unit still do for a group. -/
def drainEngines (s : State) (gid : Nat) : State :=
  let run (s : State) (r : Res) : State := match r with
    | .next s' => s'
    | _ => s
  let mma (s : State) (m : MmaOp) : State := run s (match m.fault with
    | some x => execTileFetchFault m.id x.cause x.va s
    | none => execMmaComplete m.id s)
  let s := (s.mmas.filter fun m => m.gid = gid).foldl mma s
  let s := (s.ops.filter fun o => o.gid = gid && drainsOp s o).foldl (fun s o => run s (execAsyncOpComplete o.id s)) s
  (s.gsigs.filter fun x => x.gid = gid).foldl (fun s x => run s (execGsigWrite x.id s)) s
/-- A group's operations are done, all but its rays. -/
def drained (s : State) (gid : Nat) : Bool :=
  !s.ops.any (fun o => o.gid = gid && drainsOp s o) && !s.gsigs.any (fun x => x.gid = gid) && !s.mmas.any (fun m => m.gid = gid)

/-- The fault that an answered LDF still owes is entered before a forced save (R261). -/
def enterAnswered (s : State) (g : Group) : State :=
  match g.sides.findSome? fun x => x.answeredFault.map fun h => (x, h) with
  | some (x, h) => raiseAnswered s g x h
  | none => s

/-- The trap of a timer whose time has come is entered before a forced save where a fragment can take it; else the record's sr.cmp
makes it fire after the restore (R261; DESIGN CHOICE, log entry 74). -/
def enterTimer (s : State) (g : Group) : State :=
  let g := fireTimer s g
  if !g.timerDue then setGroup s g
  else match (if g.tm then none else g.sides.find? fun x => x.st = .running && x.ph.isNone && !x.noGuard) with
    | some k => timerTrap s g k ((g.sides.filter fun x => k.sameFragment x).foldl (fun m x => m ||| x.lanes) 0)
    | none =>
      match (if g.tm then none else g.sides.find? Side.waitsOnLine) with
      | some x => timerTrapParked s g x
      | none => setGroup s { g with cmp := s.now }

/-- Every batch of a group's rays is abandoned: its replays, once every write of them has been performed. -/
def abandonTraces (s : State) (gid : Nat) : State × Option (List Replay) :=
  (batchesOf s gid true).foldl (fun (acc : State × Option (List Replay)) b =>
    let (s, r) := abandonTrace acc.1 b
    (s, acc.2.bind fun l => r.map (l ++ ·))) (s, some [])

/-- Every section of a group's record written with KIND 1, and the group released; its rays are left to the replays given (R261). -/
def writeForced (s : State) (gid : Nat) (traces : List Replay) : State :=
  let s := { s with ops := s.ops.filter fun o => !(o.gid = gid && o.kind = .trace) }
  let s := ((getGroup s gid).map (enterAnswered s)).getD s
  let s := ((getGroup s gid).map (enterTimer s)).getD s
  match getGroup s gid with
  | none => s
  | some g =>
    let ctx := ctxOf s g
    let x := g.sides.foldl (stopSide g) ⟨s, g.gateKept, []⟩
    let s := x.s
    let replays := traces ++ x.replays ++ splitReplays x.kept
    let h := { headerOf s g 0 1 0x10 replays.length with kind := 1, cause := 0x10 }
    let a := recordVa s g
    let put (s : State) (off : Nat) (bs : List Byte) : State :=
      if off = 0 then s else spaceWrite s (some ctx) (a + BitVec.ofNat 64 off) bs
    let l := h.layout
    let s := spaceWrite s (some ctx) a (leBytes 64 h.bits)
    let s := put (put (put s l.v (vSection g h.vregs)) l.s (sSection g h.sregs)) l.p (pSection g)
    let s := put s l.f (fSection g (fun i => sliceRecord x.kept i (g.regions.getD i 0)) g.cause)
    let s := put (put (put s l.h (hSection g)) l.z (zSection g h.ztiles)) l.a (replays.flatMap fun r => leBytes 32 r.bits)
    let s := logContext (drainGroup s g) ctx 0x10 (some g.core) 0 0
    let s := { s with
      waits := s.waits.filter fun w => w.gid != gid, deferred := s.deferred.filter fun d => d.gid != gid
      loads := s.loads.filter fun y => y.gid != gid }
    let halted (x : Side) : Side := { x with st := .gateHalt, only := allLanes, noGuard := false, ph := none, limit := 0, held := none }
    let s := wakeLocked (barSettle (updGroup s gid fun g => { g with
      st := .saved, placed := false, sides := g.sides.map halted, handles := [], ztiles := [], zheaders := [], gateKept := []
      saving := false, stopping := false, timerDue := false, tm := false }) g.team)
    measureTeam s g.team

/-- A group is force-saved: it stops, and is written once its operations are done and its rays abandoned (R261, R436). -/
def forceSave (s : State) (gid : Nat) : State :=
  let s := drainEngines (updGroup s gid fun g => { g with stopping := true }) gid
  match abandonTraces s gid with
  | (s, some traces) => if drained s gid then writeForced s gid traces else s
  | (s, none) => s

/-- Lanes still in a team's bins are drawn into free slots and saved at once (R338). -/
def saveBins (team : Nat) : Nat → State → State
  | 0, s => s
  | fuel + 1, s =>
    match s.bins.find? fun b => b.team = team && (freeSlot s b).isSome with
    | none => s
    | some b =>
      match freeSlot s b, (getTeam s team).bind fun t => getLaunch s t.launch with
      | some old, some l =>
        let id := s.nextId
        saveBins team fuel (writeForced (drawGroup s b old l) id [])
      | _, _ => s

/-- Groups of a team that have not entered their save routine. -/
def notSaving (s : State) (team : Nat) : List Group :=
  s.groups.filter fun g => g.team = team && !g.saving && g.st != .saved && g.st != .exited

/-- The countdown of a team has run out (R260). -/
def preemptDue (s : State) (t : Team) : Bool :=
  (getCtx s t.ctx).st = .preempting && (match t.preqAt with
    | some at_ => decide (((getLaunch s t.launch).map fun l => l.blk.deadline).getD 0 ≤ (coreNow s (t.cores.headD 0) - at_).toNat)
    | none => false)
    && (notSaving s t.id != [] || s.bins.any fun b => b.team = t.id)

/-- PREEMPT_DEADLINE_EXPIRY: every group of the team that has not entered its save routine is force-saved (R260, R261). -/
def execPreemptDeadlineExpiry (team : Nat) (s : State) : Res :=
  match getTeam s team with
  | none => .fault (.noSuchObject "team")
  | some t =>
    if !preemptDue s t then .fault (.noSuchObject "team past its deadline")
    else
      let s := (notSaving s team).foldl (fun s g => forceSave s g.id) s
      let s := if notSaving s team = [] then saveBins team (s.bins.foldl (fun n b => n + b.lanes.length) 0) s else s
      .next (owe s (.contextSaved t.ctx))

/-- A group that runs its save routine past its limit. -/
def overrun (s : State) (t : Team) : Option Group :=
  s.groups.find? fun g => g.team = t.id && g.saving && g.st != .saved && g.st != .exited && decide (g.saveDue.toNat ≤ (coreNow s g.core).toNat)

/-- SAVE_OVERRUN: the team is terminated, and the context is FAULTED (R260). -/
def execSaveOverrun (team : Nat) (s : State) : Res :=
  match getTeam s team with
  | none => .fault (.noSuchObject "team")
  | some t =>
    match overrun s t with
    | none => .fault (.noSuchObject "group past its limit")
    | some g => .next (fatalContext s t.ctx 0x10 (some g.core) 0)

/-! ## The end of a save (R257, R267) -/

/-- A fixed-function node of the context has records of its own that it can still write: they are finished first (R422); one
that nothing can take any more, or whose page is not there, stays owed past the save (log entry 94). -/
def unitsOwe (s : State) (ctx : Nat) : Bool :=
  s.graphs.any fun g => g.ctx = ctx && g.run && g.nodes.zipIdx.any fun p =>
    p.1.kind = 2 && p.1.outbox != [] && pageReady s ctx p.1.waiting
      && ((outEdge g p.2 0).bind fun k => g.edges[k]?).all fun e => !e.full || !consumerLive g e

/-- Everything of a context has halted, exited or been saved, and every write has been performed. -/
def saveOver (s : State) (ctx : Nat) : Bool :=
  let mine (tid : Nat) : Bool := s.teams.any fun t => t.id = tid && t.ctx = ctx
  residentGroups s ctx = [] && !s.bins.any (fun b => mine b.team) && !s.ops.any (fun o => o.ctx = ctx)
    && !s.gsigs.any (fun x => mine x.team) && !unitsOwe s ctx

/-- Bytes of a context's record, 0 where they cannot be read. -/
def recordNat (s : State) (ctx : Nat) (va : W64) (n : Nat) : State × Nat :=
  match spaceRead s (some ctx) va n with
  | (s, some bs) => (s, leNat bs)
  | (s, none) => (s, 0)

/-- The header of a saved group's record. -/
def savedHeader (s : State) (ctx : Nat) (g : Group) : State × RecordHeader :=
  let (s, n) := recordNat s ctx (recordVa s g) 64
  (s, headerFrom n)

/-- The record of a team's leader has room for the B and X sections. Where it was written while an earlier group of the team was
still resident, which has exited since, its H, Z and A sections move to the places that they have in a leader's record (R263,
R264, R460; DESIGN CHOICE, log entry 102). -/
def seatLeader (s : State) (ctx : Nat) (t : Team) (g : Group) : State :=
  let a := recordVa s g
  let (s, h) := savedHeader s ctx g
  if !h.ok || h.layout.b != 0 then s
  else
    let l := layoutOf h.vregs h.sregs h.ztiles (t.cores.length * shareSize s t.id) h.nreplay true
    let parts : List (Nat × Nat × Nat) := [(h.layout.h, l.h, 1024), (h.layout.z, l.z, 4112 * h.ztiles), (h.layout.a, l.a, 32 * h.nreplay)]
    let (s, moves) := (parts.filter fun p => p.1 != 0).foldl (fun (acc : State × List (Nat × List Byte)) p =>
      let (s, n) := recordNat acc.1 ctx (a + BitVec.ofNat 64 p.1) p.2.2
      (s, acc.2 ++ [(p.2.1, leBytes p.2.2 n)])) (s, [])
    let s := moves.foldl (fun s m => spaceWrite s (some ctx) (a + BitVec.ofNat 64 m.1) m.2) s
    spaceWrite s (some ctx) a (leBytes 64 ({ h with layout := l } : RecordHeader).bits)

/-- Bronze's sections of a team, written into its leader's record; then the shares are scrubbed (R264, R267). -/
def saveTeam (s : State) (ctx : Nat) (t : Team) : State :=
  match (leaderOf s t.id).bind (getGroup s) with
  | none => s
  | some g =>
    let (vr, sr, zt) := budgetsOf s g
    let l := layoutOf vr sr zt (t.cores.length * shareSize s t.id) 0 true
    let a := recordVa s g
    let s := seatLeader s ctx t g
    let s := spaceWrite s (some ctx) (a + BitVec.ofNat 64 l.b) (bSection s t)
    let s := if l.x = 0 then s else spaceWrite s (some ctx) (a + BitVec.ofNat 64 l.x) (xSection s t)
    setTeam s { t with cores := [], scratch := [], preqAt := none, unstarted := [] }

/-- CONTEXT_SAVED (R257, R267). -/
def execContextSaved (ctx : Nat) (s : State) : Res :=
  let c := getCtx s ctx
  if c.st != .preempting then .fault (.noSuchObject "context in pre-emption")
  else if !saveOver s ctx then .next s
  else
    let saved := s.teams.filter fun t => t.ctx = ctx && s.groups.any fun g => g.team = t.id && g.st = .saved
    let s := saved.foldl (fun s t => saveTeam s ctx t) s
    let s := (s.launches.filter fun l => l.ctx = ctx).foldl (fun s l => setLaunch s (measure s l)) s
    let mine (tid : Nat) : Bool := saved.any fun t => t.id = tid
    let s := setCtx s { getCtx s ctx with
      st := .saved, savedTeams := saved.map Team.id, savedGroups := s.groups.filter fun g => mine g.team,
      savedHeld := s.held.filter fun h => mine h.1, heldPreempt := false }
    .next (settleCtxOps s ctx false)

/-! ## Restore (R257, R268) -/

/-- A team barrier from its word; NEED is recomputed in mode 0 (R342, R351). -/
def barrierFrom (live n : Nat) : TeamBarrier :=
  let mode := n.testBit 1
  { expect := nBits n 48 16, arrived := nBits n 32 16, need := if mode then nBits n 16 16 else live, state := nBits n 2 2, mode
    phase := n.testBit 0, apart := [] }

/-- A saved group on its new core: converged at RESTPC, every register 0; one whose record has KIND = 1 issues nothing until the
hardware has reloaded it (R268). -/
def readmit (s : State) (l : Launch) (t : Team) (g : Group) (h : RecordHeader) : State :=
  let core := t.cores.getD g.peer 0
  let n := freshGroup s l g.team g.id g.index g.role g.peer core (lowestSlot s core) g.launched h.restpc
  setGroup s { n with savearea := recordVa s g, recordIndex := g.recordIndex, drawn := g.drawn, restoring := true, stopping := h.kind = 1 }

/-- A z tile from its bytes. -/
def zFrom (g : Group) (t n : Nat) : Group :=
  let g := setZHeader g t (BitVec.ofNat 128 (nBits n 0 128))
  (List.range 1024).foldl (fun g k => setZ g t (k / 32) (k % 32) (BitVec.ofNat 32 (nBits n (128 + 32 * k) 32))) g

/-- The record of a group does not fit it (R270). -/
def misfit (s : State) (g : Group) (h : RecordHeader) : Bool :=
  let (vr, sr, zt) := budgetsOf s g
  !h.ok || h.span != spanOf s g.team || h.role != g.role || vr < h.vregs || sr < h.sregs || zt < h.ztiles || h.launched != g.launched

/-- What Bronze reads of a context's records: everything, or the first that stops it. -/
def recordStop (s : State) (ctx : Nat) (spans : List (W64 × Nat)) : State × DevRead :=
  spans.foldl (fun acc p => match acc with
    | (s, .ok _) => devRead s ctx false p.1 p.2
    | x => x) (s, .ok [])

/-- A poison, a violation or a permission fault of such a read goes to the logs and is a fatal fault of the context, as one of an
engine is (R257, R394, R469; DEDUCED, log entry 116). -/
def recordFault (s : State) (ctx : Nat) (cause : BitVec 8) (va : W64) (pa : Nat) : State := launchFault s ctx cause va pa

/-- The sections of a record that the hardware reloads. -/
def reloadSpans (a : W64) (h : RecordHeader) : List (W64 × Nat) :=
  let l := h.layout
  let parts : List (Nat × Nat) := [(l.v, 128 * h.vregs), (l.s, 8 * h.sregs), (l.p, 128), (l.f, fBytes), (l.h, 1024), (l.z, 4112 * h.ztiles),
    (l.a, 32 * h.nreplay)]
  (parts.filter fun p => p.1 != 0).map fun p => (a + BitVec.ofNat 64 p.1, p.2)

/-- Every section of a record put into its group, and `crest.go` performed (R268). -/
def loadForced (s : State) (ctx : Nat) (g : Group) (h : RecordHeader) (replays : List Replay) : State :=
  let a := recordVa s g
  let at_ (off : Nat) : W64 := a + BitVec.ofNat 64 off
  let (s, vs) := recordNat s ctx (at_ h.layout.v) (128 * h.vregs)
  let (s, ss) := recordNat s ctx (at_ h.layout.s) (8 * h.sregs)
  let (s, ps) := recordNat s ctx (at_ h.layout.p) 128
  let (s, zs) := recordNat s ctx (at_ h.layout.z) (4112 * h.ztiles)
  let s := updGroup s g.id fun g =>
    let g := (List.range (32 * h.vregs)).foldl (fun g k => setV g (k / 32) (k % 32) (BitVec.ofNat 32 (unitOf vs 4 k))) g
    let g := (List.range h.sregs).foldl (fun g k => setS g k (BitVec.ofNat 64 (unitOf ss 8 k))) g
    let g := (List.range 32).foldl (fun g L => movpSet g L (unitOf ps 4 L) 0x7FFF) g
    (List.range h.ztiles).foldl (fun g t => zFrom g t (unitOf zs 4112 t)) g
  match getGroup s g.id with
  | some g => restoreFrom s (envOf s g) g.id a h replays
  | none => s

/-- A record with KIND = 1 is reloaded by the hardware, which performs `crest.go` itself (R268); one that does not fit is a capacity
mismatch (R270). A page that is not present is waited for (DEDUCED, log entry 116), and so are the range-lock entries of its
replays (R217). -/
def reloadForced (s : State) (ctx gid : Nat) : State :=
  match getGroup s gid with
  | none => s
  | some g =>
    let a := recordVa s g
    match devRead s ctx false a 64 with
    | (s, .absent _) => s
    | (s, .fault c va pa) => recordFault s ctx c va pa
    | (s, .ok bs) =>
      let h := headerFrom (leNat bs)
      if misfit s g h then abortRestore (logContext s ctx 0x12 (some g.core) a 0) ctx
      else match recordStop s ctx (reloadSpans a h) with
        | (s, .absent _) => s
        | (s, .fault c va pa) => recordFault s ctx c va pa
        | (s, .ok _) =>
          let (s, rs) := recordReplays s (envOf s g) a h
          if traceRoom s g.core rs then loadForced s ctx g h rs else s

/-- A saved team on the cores given to it, with its shares and its barriers back (R268, R351). -/
def readmitTeam (s : State) (ctx : Nat) (l : Launch) (t : Team) (cores : List Nat) : State :=
  let t := { t with cores := cores, unstarted := cores.map fun c => (c, s.now) }
  let s := setLaunch (setTeam s t) (occupy s l cores)
  let gs := s.groups.filter fun g => g.team = t.id && g.st = .saved
  let (s, hs) := gs.foldl (fun (acc : State × List (Group × RecordHeader)) g =>
    let (s, h) := savedHeader acc.1 ctx g
    (s, acc.2 ++ [(g, h)])) (s, [])
  let s := hs.foldl (fun s p => readmit s l t p.1 p.2) s
  let s := match hs.find? fun p => p.2.layout.b != 0 with
    | none => s
    | some p =>
      let a := recordVa s p.1
      let x := (layoutOf p.2.vregs p.2.sregs p.2.ztiles (cores.length * shareSize s t.id) 0 true).x
      let (s, bs) := recordNat s ctx (a + BitVec.ofNat 64 p.2.layout.b) 256
      let (s, xs) := if x = 0 then (s, none) else spaceRead s (some ctx) (a + BitVec.ofNat 64 x) (cores.length * shareSize s t.id)
      let all := hs.foldl (fun n q => n + countLanes q.2.live) 0
      let n := shareSize s t.id
      let scratch := match xs with
        | some bytes => (List.range cores.length).foldl (fun m k => writeBytes m (shareKey k 0) ((bytes.drop (n * k)).take n)) []
        | none => []
      setTeam s { t with
        scratch := scratch
        barriers := (List.range 16).map fun b => (b, barrierFrom all (unitOf bs 16 b)) }
  owe s (.coreStart t.id)

/-- The saved teams admitted at once, each on a quad with its span free (R257, R268), wherever there is room for all of them.
DESIGN CHOICE, log entry 103: the room tested is the launch's (R292, R310), and then that of the groups that come back, drawn ones
included (R16). -/
def readmitAll (ctx : Nat) : List Nat → State → Option State
  | [], s => some s
  | tid :: rest, s =>
    match getTeam s tid, (getTeam s tid).bind fun t => getLaunch s t.launch with
    | some t, some l =>
      let p := getPart s (getCtx s ctx).part
      (allPlaces s p l.blk).findSome? fun x =>
        let s := readmitTeam (setPart s x.2) ctx l t x.1
        if x.1.all (coreFits s) then readmitAll ctx rest s else none
    | _, _ => readmitAll ctx rest s

/-- A readmitted group that the hardware has still to reload. -/
def toReload (g : Group) : Bool := g.restoring && g.stopping

/-- Every record of KIND = 1 is reloaded, while the restore goes on. -/
def reloadAll (s : State) (ctx : Nat) : State :=
  (s.groups.filter fun g => ctxOf s g = ctx && toReload g).foldl
    (fun s g => if (getCtx s ctx).st = .restoring then reloadForced s ctx g.id else s) s

/-- What Bronze reads of a saved group's record to admit its team: the header, and the B and X sections of a leader's. -/
def admitSpans (s : State) (ctx : Nat) (g : Group) : State × DevRead :=
  let a := recordVa s g
  match devRead s ctx false a 64 with
  | (s, .ok bs) =>
    let h := headerFrom (leNat bs)
    let n := h.span * shareSize s g.team
    let x := (layoutOf h.vregs h.sregs h.ztiles n 0 true).x
    let parts : List (Nat × Nat) := if !h.ok || h.layout.b = 0 then [] else [(h.layout.b, 256), (x, n)]
    recordStop s ctx ((parts.filter fun p => p.1 != 0).map fun p => (a + BitVec.ofNat 64 p.1, p.2))
  | x => x

/-- The records of every saved group of a context, as far as their admission reads them. -/
def admitReads (s : State) (ctx : Nat) : State × DevRead :=
  (s.groups.filter fun g => ctxOf s g = ctx && g.st = .saved).foldl (fun acc g => match acc with
    | (s, .ok _) => admitSpans s ctx g
    | x => x) (s, .ok [])

/-- RESTORE_ADMIT: a held restore, taken when there is room for every saved team (R257); then the records of KIND = 1 are reloaded, at
once or, where one has to wait, as soon as it can be. A page of the records that is not present is waited for (DEDUCED, log entry
116). -/
def execRestoreAdmit (ctx : Nat) (s : State) : Res :=
  let c := getCtx s ctx
  let go (s : State) : Res := .next (groupRestored (reloadAll s ctx) ctx)
  let begun (s : State) : State := setCtx s { getCtx s ctx with st := .restoring, heldRestore := false }
  if c.st = .restoring && s.groups.any (fun g => ctxOf s g = ctx && toReload g) then go s
  else if c.st != .saved || !c.heldRestore then .fault (.noSuchObject "held restore")
  else match readmitAll ctx c.savedTeams s with
    | none => .next s
    | some _ =>
      match admitReads s ctx with
      | (s, .absent _) => .next s
      | (s, .fault cause va pa) => .next (recordFault (begun s) ctx cause va pa)
      | (s, .ok _) => ((readmitAll ctx c.savedTeams s).map fun s => go (begun s)).getD (.next s)

end Sys2Proof.Machine
end

