-- ==== Sys2Proof/Machine/Contexts.lean ====
section
/-! DEFINITION. Management packets: partitions, pages, the events of a context, and the words that a page's owner sets
(R211, R219, R253 to R258, R283 to R285, R309, R338, R472). -/

namespace Sys2Proof.Machine

/-! ## Reach (R283) -/

/-- A page reaches every partition, or its own. -/
def reachesPart (s : State) (page part : Nat) : Bool := pagePriv s page = 2 || pagePart s page = part
/-- The partition named at byte 9 exists and is within reach. -/
def partBad (s : State) (x : Queue) (n : Nat) : List BadField :=
  let p := pk n 9 1
  fails 9 (7 < p || !(getPart s p).v || !reachesPart s x.page p)
/-- The context named at bytes 10 and 11 is within reach. -/
def ctxBad (s : State) (x : Queue) (n : Nat) : List BadField :=
  let c := pk n 10 2
  fails 10 (4095 < c || !reachesPart s x.page (getCtx s c).part)

/-! ## PART_CREATE (R253, R254, R284, R472) -/

/-- A resource mask for partition `pid` that is empty, or of which another partition holds a bit, be it in its scrub (R254). -/
def maskBad {w : Nat} (s : State) (pid : Nat) (m : BitVec w) (of_ : Partition → BitVec w) : Bool :=
  m = 0 || s.parts.any fun p => p.pid != pid && (p.v || p.scrubbing) && of_ p &&& m != 0

/-- A homing-table entry that a partition with these quarter-dies may have (R211, R284). -/
def homingOk (qdies : BitVec 16) (e : W64) : Bool :=
  e.extractLsb' 8 56 = 0 && e.extractLsb' 0 4 = 0
    && (!e.getLsbD 7 || qdies.extractLsb' (4 * (e.extractLsb' 4 2).toNat) 4 != 0)

/-- The homing table at a module physical address (R211). -/
def homingTable (s : State) (pa : Nat) : List W64 := (List.range 1024).map fun i => BitVec.ofNat 64 (readNat s.mem (pa + 8 * i) 8)
/-- The first poisoned line of the table, as the logs name it (R259, R469; log entry 110). -/
def tablePoison (s : State) (pa : Nat) : Option LogItem :=
  ((List.range 64).find? fun i => s.poison.contains (lineOf (pa + 128 * i))).map fun i => ⟨0x14, 0, pa + 128 * i⟩
/-- The homing that a table lays down. -/
def homesFrom (table : List W64) : SMap 64 := table.zipIdx.foldl (fun m e => sset m e.2 e.1) []

/-- A partition built: its descriptor, its homing in force, its error log cleared (R284, R472). -/
def buildPartition (s : State) (pid : Nat) (mode : Bool) (fesched elanes : BitVec 8) (qdies : BitVec 16) (elog homing : W64) : State :=
  let p := { Partition.reset pid with
    v := true, orderMode := mode, qdies := qdies, elanes := elanes, fesched := fesched, homing := homing, elog := elog
    homes := homesFrom (homingTable s homing.toNat) }
  devWrite (setPart s p) false elog.toNat (List.replicate 4096 0)

/-- A partition that is still in its scrub can be created anew once the scrub ends: the packet waits (R254; log entry 111). -/
def partCreateForm (page q : Nat) : PacketForm :=
  { event := .partCreate page q, listed := [(8, 1), (9, 1), (10, 1), (11, 1), (12, 2), (16, 8), (24, 8)], bar := false
    check := fun s _ n =>
      let pid := pk n 8 1
      let p := getPart s pid
      let q := BitVec.ofNat 16 (pk n 12 2)
      let place (at_ len : Nat) : Bool := pk n at_ 8 % 4096 = 0 && pk n at_ 8 + len ≤ moduleSize
      let poisoned := if place 24 8192 then tablePoison s (pk n 24 8) else none
      fails 8 (7 < pid || p.v) ++ fails 9 (1 < pk n 9 1)
        ++ fails 10 (maskBad s pid (BitVec.ofNat 8 (pk n 10 1)) Partition.fesched)
        ++ fails 11 (maskBad s pid (BitVec.ofNat 8 (pk n 11 1)) Partition.elanes)
        ++ fails 12 (maskBad s pid q Partition.qdies) ++ fails 16 (!place 16 4096) (pkW n 16)
        ++ fails 24 (!place 24 8192 || poisoned.isSome || !(homingTable s (pk n 24 8)).all (homingOk q)) (pkW n 24) poisoned
    held := fun s _ n => (getPart s (pk n 8 1)).scrubbing
    effect := fun s _ _ n =>
      buildPartition s (pk n 8 1) (pk n 9 1 = 1) (BitVec.ofNat 8 (pk n 10 1)) (BitVec.ofNat 8 (pk n 11 1))
        (BitVec.ofNat 16 (pk n 12 2)) (pkW n 16) (pkW n 24) }

/-- PART_CREATE (R284). -/
def execPartCreate (page q : Nat) (s : State) : Res := runPacket page q (partCreateForm page q) s

/-! ## PART_DESTROY (R254, R284) -/

/-- Nothing of a partition is in use: its contexts are FREE and the queues of its pages UNMAPPED. -/
def partIdle (s : State) (pid : Nat) : Bool :=
  s.ctxs.all (fun c => c.part != pid || c.st = .free) && s.queues.all fun x => pagePart s x.page != pid || x.st = .unmapped

/-- V is cleared, the scrub begins, and the pages belong to no partition. -/
def destroyPartition (s : State) (x : Queue) (pid : Nat) : State :=
  let s := setPart s { getPart s pid with v := false, scrubbing := true }
  let s := { s with pages := s.pages.map fun (v : VcpPage) => if v.part = pid then { v with part := 8 } else v }
  owe (startPacket s x (.scrub pid)) (.partitionScrubDone pid)

def partDestroyForm (page q : Nat) : PacketForm :=
  { event := .partDestroy page q, listed := [(8, 1)], bar := false
    check := fun s _ n => fails 8 (7 < pk n 8 1 || !(getPart s (pk n 8 1)).v || !partIdle s (pk n 8 1))
    held := neverHeld, effect := fun s x _ n => destroyPartition s x (pk n 8 1) }

/-- PART_DESTROY (R284). -/
def execPartDestroy (page q : Nat) (s : State) : Res := runPacket page q (partDestroyForm page q) s

/-- PARTITION_SCRUB_DONE: copies, translations and homing of the partition are gone, and its PART_DESTROY completes (R254,
R284). -/
def execPartitionScrubDone (part : Nat) (s : State) : Res :=
  let p := getPart s part
  if !p.scrubbing then .fault (.noSuchObject "partition in its scrub")
  else
    let scrub (k : Core) : Core := if coreIn p k.id then { k with l1 := [], icache := [], grpStores := [] } else k
    let s := { s with
      cores := s.cores.map scrub
      rdc := s.rdc.filter fun e => (homeDie p (128 * e.2.line)).isNone
      tlb := s.tlb.filter fun t => t.part != part, walkCache := s.walkCache.filter fun c => c.part != part
      misses := s.misses.filter fun m => m.part != part }
    let s := setPart s (Partition.reset part)
    .next (s.queues.foldl (fun s x => completePackets s (getQueue s x.page x.q) fun d => d = .scrub part) s)

/-! ## VCP_ASSIGN (R284, R285) -/

def vcpAssignForm (page q : Nat) : PacketForm :=
  { event := .vcpAssign page q, listed := [(8, 1), (9, 1), (10, 1), (11, 1), (16, 8)], bar := false
    check := fun s x n =>
      let v := pk n 8 1
      let used := s.queues.any fun y => y.page = v && y.st != .unmapped
      fails 8 (63 < v || v = x.page || used) ++ fails 9 (7 < pk n 9 1 || !(getPart s (pk n 9 1)).v) ++ fails 10 (15 < pk n 10 1)
        ++ fails 11 (2 < pk n 11 1)
    held := neverHeld
    effect := fun s _ _ n =>
      let part := pk n 9 1
      let tenant := pk n 10 1
      let s := match getPage s (pk n 8 1) with
        | some v => setPage s { v with part := part, tenant := tenant, priv := pk n 11 1 }
        | none => s
      let p := getPart s part
      setPart s { p with quantum := sset p.quantum tenant (pkW n 16) } }

/-- VCP_ASSIGN (R284). -/
def execVcpAssign (page q : Nat) (s : State) : Res := runPacket page q (vcpAssignForm page q) s

/-! ## CTX_OP (R255 to R258, R284) -/

/-- The bytes that each OP reads; the others of the packet must be 0. -/
def ctxOpListed (op : Nat) : List (Nat × Nat) :=
  if op = 0 then [(8, 1), (9, 1), (16, 8), (24, 8)] else [(8, 1), (10, 2), (24, 8)]

/-- What an event of R257 may do to a context: whether it is taken in its state. -/
structure CtxEvent where
  allowed : State → Context → Bool
  effect : State → Queue → Nat → W64 → State

/-- A CTX_OP of an OP other than create. -/
def ctxOpForm (event : Instr) (op : Nat) (e : CtxEvent) : PacketForm :=
  { event := event, listed := ctxOpListed op, bar := false
    check := fun s x n =>
      let c := pk n 10 2
      let reach := ctxBad s x n
      fails 8 (reach = [] && !e.allowed s (getCtx s c)) ++ reach ++ rangeBad s x 24 writeAcc (pkW n 24) 8 8
    held := neverHeld, effect := fun s x _ n => e.effect s x (pk n 10 2) (pkW n 24) }

/-- RESULT of an event that has ended. -/
def writeResult (s : State) (x : Queue) (va : W64) (c : Context) : State := spaceWrite s (x.space s) va (ctxResult c 0)

/-- The lowest FREE context number. -/
def lowestFree (s : State) : Option Nat := (List.range 4096).find? fun c => (getCtx s c).st = .free

/-- A context's descriptor at its creation, from the image (R255, R284). -/
def createdCtx (num part n : Nat) : Context :=
  { Context.blank num with
    st := .created, part := part, asid := BitVec.ofNat 16 (nBits n 32 16), lease := nBits n 51 13, ptroot := nW64 n 320,
    save := nW64 n 384, elog := nW64 n 448 }

def ctxCreateForm (page q : Nat) : PacketForm :=
  { event := .ctxCreate page q, listed := ctxOpListed 0, bar := false
    check := fun s x n =>
      fails 8 (pk n 8 1 != 0 || (lowestFree s).isNone) ++ partBad s x n ++ rangeBad s x 16 readAcc (pkW n 16) 1 64
        ++ rangeBad s x 24 writeAcc (pkW n 24) 8 8
    held := neverHeld
    effect := fun s x i n =>
      match spaceRead s (x.space s) (pkW n 16) 64, lowestFree s with
      | (s, some bs), some num =>
        let c := { createdCtx num (pk n 9 1) (leNat bs) with portShare := (getCtx s num).portShare }
        writeResult (setCtx s c) x (pkW n 24) c
      | (s, _), _ => packetError s x i 16 (pkW n 16) }

/-- CTX_CREATE (R257, R284). -/
def execCtxCreate (page q : Nat) (s : State) : Res := runPacket page q (ctxCreateForm page q) s

/-- An ASID that another context of the partition is bound with: from bind until its scrub is done (R256, R257). -/
def asidTaken (s : State) (c : Context) : Bool :=
  s.ctxs.any fun d => d.num != c.num && d.part = c.part && d.asid = c.asid && d.st != .free && d.st != .created

/-- R256 of a context to bind. -/
def bindable (s : State) (c : Context) : Bool :=
  c.st = .created && 16 ≤ c.lease && c.lease ≤ 4096 && c.elog.toNat % 4096 = 0 && c.save.toNat % 4096 = 0 && !asidTaken s c

/-- The context's error log zeroed, where its page is mapped. -/
def clearLog (s : State) (c : Context) : State :=
  if c.elog = 0 then s
  else match walk s (getPart s c.part) c.root c.elog with
    | .leaf level _ e =>
      let lg := levelLog2 level
      devWrite s (pteMtype e = 2) (pteFrame e / 2 ^ lg * 2 ^ lg + c.elog.toNat % 2 ^ lg) (List.replicate 4096 0)
    | _ => s

def bindEvent : CtxEvent :=
  { allowed := bindable
    effect := fun s x num va =>
      let c := { getCtx s num with st := .bound, root := (getCtx s num).ptroot, logSeq := 0 }
      writeResult (clearLog (setCtx s c) c) x va c }

/-- CTX_BIND (R256, R257). -/
def execCtxBind (page q : Nat) (s : State) : Res := runPacket page q (ctxOpForm (.ctxBind page q) 1 bindEvent) s

/-- A team that a destroy terminates, with its log entry, whose cause the spec does not state (R336; log entry 81). -/
def destroyTeam (s : State) (t : Team) : State :=
  let (c, s) := freeNat s
  dropTeam (logContext s t.ctx (BitVec.ofNat 8 c) t.cores.head? 0 0) t.id

/-- A context that a destroy finds: every team is terminated with no save, and its launches and graphs go with it. -/
def dropContext (s : State) (num : Nat) : State :=
  let s := (s.teams.filter fun t => t.ctx = num).foldl destroyTeam s
  let s := { s with launches := s.launches.filter fun l => l.ctx != num }
  let mine (gn : Nat) : Bool := s.graphs.any fun g => g.num = gn && g.ctx = num
  let s := (s.cuts.filter fun c => c.busy && mine c.graph).foldl (fun s c =>
    let (r, s) := freeNat s
    finishMove s c (r % 4) none) s
  { s with
    launches := s.launches.filter fun l => l.ctx != num
    graphs := s.graphs.filter fun g => g.ctx != num
    remotes := s.remotes.filter fun r => !mine r.graph
    cuts := s.cuts.filter fun c => !mine c.graph }

/-- Destroy: DESTROYED, its queues UNMAPPED, and the scrub owed (R257, R258, R277). -/
def destroyContext (s : State) (num : Nat) : State :=
  let c := { getCtx s num with st := .destroyed, heldRestore := false, heldPreempt := false, savedTeams := [], savedGroups := [], savedHeld := [] }
  owe (queuesDestroyed (settleCtxOps (setCtx (dropContext s num) c) num false) num) (.contextScrubDone num)

def destroyEvent : CtxEvent :=
  { allowed := fun _ c => c.st != .free && c.st != .restoring && c.st != .destroyed
    effect := fun s x num va =>
      destroyContext (writeResult s x va { getCtx s num with st := .destroyed }) num }

/-- CTX_DESTROY (R257, R258). -/
def execCtxDestroy (page q : Nat) (s : State) : Res := runPacket page q (ctxOpForm (.ctxDestroy page q) 2 destroyEvent) s

/-- A pre-empt request: of a context being restored it is held (R257, R258). -/
def preemptEvent : CtxEvent :=
  { allowed := fun _ c => c.st = .running || c.st = .restoring
    effect := fun s x num va =>
      let s := startPacket s x (.ctxOp num 3 va)
      let c := getCtx s num
      if c.st = .running then startPreempt s num else setCtx s { c with heldPreempt := true } }

/-- CTX_PREEMPT (R257, R260). -/
def execCtxPreempt (page q : Nat) (s : State) : Res := runPacket page q (ctxOpForm (.ctxPreempt page q) 3 preemptEvent) s

/-- A restore request, held until there is room (R257, R268). -/
def restoreEvent : CtxEvent :=
  { allowed := fun _ c => c.st = .saved
    effect := fun s x num va =>
      let s := startPacket s x (.ctxOp num 4 va)
      owe (setCtx s { getCtx s num with heldRestore := true }) (.restoreAdmit num) }

/-- CTX_RESTORE (R257, R268). -/
def execCtxRestore (page q : Nat) (s : State) : Res := runPacket page q (ctxOpForm (.ctxRestore page q) 4 restoreEvent) s

def resetEvent : CtxEvent :=
  { allowed := fun _ c => c.st = .faulted
    effect := fun s x num va =>
      let c := { getCtx s num with st := .bound, heldRestore := false, heldPreempt := false, savedTeams := [], savedGroups := [], savedHeld := [] }
      writeResult (setCtx s c) x va c }

/-- CTX_RESET (R257). -/
def execCtxReset (page q : Nat) (s : State) : Res := runPacket page q (ctxOpForm (.ctxReset page q) 5 resetEvent) s

/-- CONTEXT_SCRUB_DONE: the ASID's translations are gone, the error log is zero, and the context is FREE (R257). -/
def execContextScrubDone (ctx : Nat) (s : State) : Res :=
  let c := getCtx s ctx
  if c.st != .destroyed then .fault (.noSuchObject "destroyed context")
  else
    let mine (part : Nat) (asid : BitVec 16) : Bool := part = c.part && asid = c.asid
    let s := { clearLog s c with
      tlb := s.tlb.filter fun t => !mine t.part t.asid, walkCache := s.walkCache.filter fun w => !mine w.part w.asid
      misses := s.misses.filter fun m => !mine m.part m.asid, ports := s.ports.filter fun p => p.ctx != ctx }
    .next (setCtx s (Context.blank ctx))

/-! ## SET_WORD (R284) -/

/-- A SET_WORD of a selector: its check, beyond the partition's byte, and its effect on partition, index and value. -/
def setWordForm (event : Instr) (sel : Nat) (check : State → Queue → Nat → List BadField)
    (effect : State → Nat → Nat → W64 → State) : PacketForm :=
  { event := event, listed := [(8, 1), (9, 1), (10, 2), (16, 8)], bar := false
    check := fun s x n => fails 8 (pk n 8 1 != sel) ++ partBad s x n ++ check s x n
    held := neverHeld, effect := fun s _ _ n => effect s (pk n 9 1) (pk n 10 2) (pkW n 16) }

/-- The index of a word that has none is 0. -/
def noIndex (n : Nat) : List BadField := fails 10 (pk n 10 2 != 0)

/-- The word of a context of the partition, be the context FREE or not (R219; log entry 111). DESIGN CHOICE,
log entry 126: a PID that is not the context's PART fails at FIELD 10. -/
def setPortShareForm (page q : Nat) : PacketForm :=
  setWordForm (.setPortShare page q) 0 (fun s _ n =>
      let c := getCtx s (pk n 10 2)
      let v := pkW n 16
      fails 10 (4095 < pk n 10 2 || c.part != pk n 9 1)
        ++ fails 16 (v.extractLsb' 48 16 != 0 || v.extractLsb' 1 15 != 0 || 2048 < (v.extractLsb' 16 16).toNat))
    fun s _ num v => setCtx s { getCtx s num with portShare := v }

/-- SET_PORT_SHARE (R219). -/
def execSetPortShare (page q : Nat) (s : State) : Res := runPacket page q (setPortShareForm page q) s

def setPlacerForm (page q : Nat) : PacketForm :=
  setWordForm (.setPlacer page q) 1 (fun _ _ n => noIndex n ++ fails 16 (pk n 20 4 != 0))
    fun s p _ v => setPart s { getPart s p with placer := v }

/-- SET_PLACER (R309). -/
def execSetPlacer (page q : Nat) (s : State) : Res := runPacket page q (setPlacerForm page q) s

def setGroupSchedulerForm (page q : Nat) : PacketForm :=
  setWordForm (.setGroupScheduler page q) 2 (fun _ _ n => noIndex n ++ fails 16 (pk n 18 6 != 0))
    fun s p _ v => setPart s { getPart s p with age := v.extractLsb' 0 16 }

/-- SET_GROUP_SCHEDULER: AGE (R338). -/
def execSetGroupScheduler (page q : Nat) (s : State) : Res := runPacket page q (setGroupSchedulerForm page q) s

def setTenantQuantumForm (page q : Nat) : PacketForm :=
  setWordForm (.setTenantQuantum page q) 3 (fun _ _ n => fails 10 (15 < pk n 10 2))
    fun s p t v => setPart s { getPart s p with quantum := sset (getPart s p).quantum t v }

/-- SET_TENANT_QUANTUM (R285). -/
def execSetTenantQuantum (page q : Nat) (s : State) : Res := runPacket page q (setTenantQuantumForm page q) s

/-- Leaves of a table at a level, below a base (R360, R361). -/
def leavesFrom (s : State) (hit : Nat → Bool) : Nat → Nat → Bool
  | 0, _ => false
  | level + 1, base =>
    (List.range 512).any fun i =>
      let e := BitVec.ofNat 64 (readNat s.mem (base + 8 * i) 8)
      pteBit e 0 && !pteMalformed level e
        && (if pteBit e 3 then pteMtype e ≤ 1 && hit (pteFrame e) else leavesFrom s hit level (pteFrame e))

/-- Some context of the partition maps a VALID page of a 1 GiB region (R211). -/
def regionMapped (s : State) (part region : Nat) : Bool :=
  s.ctxs.any fun c =>
    c.part = part && c.st != .free && c.st != .created && leavesFrom s (fun pa => pa / 2 ^ 30 = region) 5 c.root.toNat

/-- The homing in force, and the table in memory, while no page of the region is VALID (R211, R472). -/
def setHomingEntryForm (page q : Nat) : PacketForm :=
  setWordForm (.setHomingEntry page q) 4 (fun s _ n =>
      fails 10 (1023 < pk n 10 2 || regionMapped s (pk n 9 1) (pk n 10 2))
        ++ fails 16 (!homingOk (getPart s (pk n 9 1)).qdies (pkW n 16)))
    fun s pid k v =>
      let p := getPart s pid
      devWrite (setPart s { p with homes := sset p.homes k v }) false (p.homing.toNat + 8 * k) (leBytes 8 v.toNat)

/-- SET_HOMING_ENTRY (R284). -/
def execSetHomingEntry (page q : Nat) (s : State) : Res := runPacket page q (setHomingEntryForm page q) s

end Sys2Proof.Machine
end

