-- ==== Sys2Proof/Machine/Control.lean ====
section
/-! DEFINITION. Control flow, class 0 (R101 to R111) and the split of a fragment (R319). -/

namespace Sys2Proof.Machine

/-- Add lanes to the entry of their target, a new target last. -/
def addTarget (pc : W64) (L : Nat) : List (W64 × Mask) → List (W64 × Mask)
  | [] => [(pc, laneBit L)]
  | (p, m) :: r => if p = pc then (p, m ||| laneBit L) :: r else (p, m) :: addTarget pc L r

/-- Insert a target in ascending order. -/
def insertTarget (t : W64 × Mask) : List (W64 × Mask) → List (W64 × Mask)
  | [] => [t]
  | u :: r => if t.1.toNat < u.1.toNat then t :: u :: r else u :: insertTarget t r

/-- The targets of a side's lanes in the order in which they run and pend (R319): the lanes that took the branch first,
or, with `low`, ascending targets. -/
def sideTargets (x : Side) (taken : Mask) (low : Bool) (tgt : Nat → W64) : List (W64 × Mask) :=
  let ls := lanesOf (x.lanes &&& taken) ++ lanesOf (x.lanes &&& ~~~taken)
  let ts := ls.foldl (fun l L => addTarget (tgt L) L l) []
  if low then ts.foldl (fun l t => insertTarget t l) [] else ts

/-- A side that splits: its first target runs, the others pend (R319). -/
def splitSide (x : Side) (ts : List (W64 × Mask)) : List Side :=
  match ts with
  | [] => []
  | t :: r =>
    { x.goto t.1 with lanes := t.2 } :: r.map fun u => { x.goto u.1 with lanes := u.2, st := .pending }

/-- The lanes of F go to their NextPC: the taken ones to `tgt`, the others to PC + 16 (R101, R319). -/
def branch (g : Group) (k : Side) (taken : Mask) (low : Bool) (tgt : Nat → W64) : Group :=
  let next (L : Nat) := if taken.getLsbD L then tgt L else k.pc + 16
  { g with sides := g.sides.flatMap fun x =>
      if k.sameFragment x then splitSide x (sideTargets x taken low next) else [x] }

/-- PC + 16 × offset (R101). -/
def branchTarget (F : Frag) (f : Fields) : W64 := F.key.pc + 16 * offsetOf f

/-- The lowest active lane whose target is not a multiple of 16 (R38). -/
def misaligned (lanes : Mask) (tgt : Nat → W64) : Option Nat := (lanesOf lanes).find? fun L => (tgt L).extractLsb' 0 4 != 0

/-- NOP (R103). -/
def execNop (f : Fields) (s : State) : Res := issue (.nop f) (fun s _ => .done s) s

/-- BRA (R104). -/
def execBra (f : Fields) (s : State) : Res :=
  issue (.bra f) (fun s F => .placed (setGroup s (branch F.g F.key (activeOf F f) false fun _ => branchTarget F f))) s

/-- BRX and RET (R105). DESIGN CHOICE, log entry 98: a misaligned target gives sr.eaddr the target of the lowest active
lane whose target is misaligned, and sr.replay every active lane. -/
def registerBranch (s : State) (F : Frag) (f : Fields) : Act :=
  let act := activeOf F f
  let tgt := addr64 F.g f.selA f.a
  match misaligned act tgt with
  | some L => .trap s 0x03 (tgt L) act
  | none => .placed (setGroup s (branch F.g F.key act true tgt))

def execBrx (f : Fields) (s : State) : Res := issue (.brx f) (fun s F => registerBranch s F f) s
def execRet (f : Fields) (s : State) : Res := issue (.ret f) (fun s F => registerBranch s F f) s

/-- The return address in D: a vector pair, or a scalar by DSEL (R106). -/
def link (F : Frag) (f : Fields) (act : Mask) : Group :=
  let ret := (F.key.pc + 16).toNat
  writeD F.g (f.mod.getLsbD 0) f.d.toNat true act fun _ => ret

/-- CALL (R106). -/
def execCall (f : Fields) (s : State) : Res :=
  issue (.call f) (fun s F =>
    let act := activeOf F f
    .placed (setGroup s (branch (link F f act) F.key act false fun _ => branchTarget F f))) s

/-- CALLX: A is read before D is written (R106). -/
def execCallx (f : Fields) (s : State) : Res :=
  issue (.callx f) (fun s F =>
    let act := activeOf F f
    let tgt := addr64 F.g f.selA f.a
    match misaligned act tgt with
    | some L => .trap s 0x03 (tgt L) act
    | none => .placed (setGroup s (branch (link F f act) F.key act true tgt))) s

/-- EXIT (R107). -/
def execExit (f : Fields) (s : State) : Res :=
  issue (.exit_ f) (fun s F => .placed (endLanes (advance s F.g.id F.key) F.g.id (activeOf F f))) s

/-- YIELD: another ready group of the scheduler issues before this one again (R108). -/
def execYield (f : Fields) (s : State) : Res :=
  issue (.yield f) (fun s F =>
    if activeOf F f = 0 then .done s else .done (setGroup s { F.g with yielded := true })) s

/-- BRK (R109). -/
def execBrk (f : Fields) (s : State) : Res :=
  issue (.brk f) (fun s F =>
    let act := activeOf F f
    if act = 0 then .done s else plainTrap s 0x16 act) s

/-- LOOP (R110). -/
def execLoop (f : Fields) (s : State) : Res :=
  issue (.loop f) (fun s F =>
    let act := activeOf F f
    if act = 0 then .done s
    else
      let n := getS F.g f.d.toNat - 1
      let g := setS F.g f.d.toNat n
      if n = 0 then .done (setGroup s g)
      else .placed (setGroup s (branch g F.key act false fun _ => branchTarget F f))) s

end Sys2Proof.Machine
end

