-- ==== Sys2Proof/Machine/CrossLane.lean ====
section
/-! DEFINITION. Cross-lane instructions, class 4 (R136 to R145), and the fused softmax sequence (R134, R135). Only lanes of
Active(F) are read. -/

namespace Sys2Proof.Machine

/-- The source lane of SHFL: OPS 0 idx, 1 up, 2 down, 3 xor (R139). -/
def shflSource (mode L b : Nat) : Int :=
  match mode with
  | 0 => b
  | 1 => (L : Int) - b
  | 2 => L + b
  | _ => Nat.xor L b

/-- The source lane, when it names a lane of Active(F) (R136). -/
def sourceLane (act : Mask) (src : Int) : Option Nat :=
  if 0 ≤ src ∧ src ≤ 31 ∧ act.getLsbD src.toNat then some src.toNat else none

/-- The fill operand: C with FILL (MOD[11]), else 0 (R136). -/
def fillValue (s : State) (g : Group) (f : Fields) (L : Nat) : Nat := if f.ds then bitsC s g f f.ty L else 0

/-- SHFL (R139). -/
def execShfl (f : Fields) (s : State) : Res :=
  issue (.shfl f) (fun s F =>
    let act := activeOf F f
    let src (L : Nat) := sourceLane act (shflSource f.ops L (bitsB s F.g f 2 L))
    let g := writeLanes F.g f.d.toNat (wide f.ty) act fun L =>
      match src L with
      | some m => regBits s F.g f.selA f.a f.ty m
      | none => fillValue s F.g f L
    .done (setGroup s (writePred g f.e.toNat act fun L => (src L).isSome))) s

/-- BCAST: OPS[9] writes a scalar, OPS[10] reads the lowest lane and writes no predicate (R140). -/
def execBcast (f : Fields) (s : State) : Res :=
  issue (.bcast f) (fun s F =>
    let act := activeOf F f
    let first := f.ops ≥ 2
    let src := if first then some (lowestLane act) else sourceLane act (bitsB s F.g f 2 (lowestLane act))
    let x (L : Nat) :=
      match src with
      | some m => regBits s F.g f.selA f.a f.ty m
      | none => fillValue s F.g f L
    let g :=
      if f.ops % 2 = 1 then writeScalar F.g f.d.toNat (wide f.ty) act (x (highestLane act))
      else writeLanes F.g f.d.toNat (wide f.ty) act x
    .done (setGroup s (if first then g else writePred g f.e.toNat act fun _ => src.isSome))) s

/-- VOTE: OPS 0 all, 1 any, 2 eq, 3 ballot (R141). -/
def execVote (f : Fields) (s : State) : Res :=
  issue (.vote f) (fun s F =>
    let act := activeOf F f
    let m := predLanes F.g f.a.toNat &&& act
    let t := match f.ops with
      | 0 => m = act
      | 1 => m != 0
      | _ => m = 0 || m = act
    .done (setGroup s (
      if f.ops = 3 then writeD F.g f.ds f.d.toNat false act fun _ => m.toNat
      else writePred F.g f.d.toNat act fun _ => t))) s

/-! ## REDUCE and SCAN (R142, R143) -/

/-- One result of REDUCE over terms, or the identity where there are none: E 0 add, 1 min, 2 max, 3 and, 4 or, 5 xor. -/
def reduceBits (op ty rnd : Nat) (xs : List Nat) : Nat :=
  let k := tyKind ty
  let w := k.width
  let nums := xs.map (decodeNum k)
  let ints := xs.map (decodeInt k)
  let fold (o : Num → Num → Num) (none_ : Num) := match nums with
    | [] => none_
    | x :: r => r.foldl o x
  let ifold (o : Int → Int → Int) (none_ : Int) := match ints with
    | [] => none_
    | x :: r => r.foldl o x
  match k, op with
  | .ieee _ _, 0 => roundTo k (propagate nums (reduceSum rnd nums)) rnd
  | .ieee _ _, 1 => roundTo k (fold fminNum (.inf false)) 0
  | .ieee _ _, 2 => roundTo k (fold fmaxNum (.inf true)) 0
  | .int _ _, 0 => intBits w (ints.foldl (· + ·) 0)
  | .int g _, 1 => intBits w (ifold (fun a b => if a ≤ b then a else b) (intMax g w))
  | .int g _, 2 => intBits w (ifold (fun a b => if b ≤ a then a else b) (intMin g w))
  | _, 3 => xs.foldl Nat.land (2 ^ w - 1)
  | _, 4 => xs.foldl Nat.lor 0
  | _, _ => xs.foldl Nat.xor 0

/-- A of a lane, cut to the TYPE's width (R64). -/
def termAt (s : State) (g : Group) (f : Fields) (L : Nat) : Nat :=
  regBits s g f.selA f.a f.ty L % 2 ^ (tyKind f.ty).width

def reduceBody (s : State) (F : Frag) (f : Fields) : Act :=
  let act := activeOf F f
  let x := reduceBits f.e.toNat f.ty f.rnd ((lanesOf act).map (termAt s F.g f))
  .done (setGroup s (writeD F.g f.ds f.d.toNat (wide f.ty) act fun _ => x))

def execReduce (f : Fields) (s : State) : Res := issue (.reduce f) (fun s F => reduceBody s F f) s

/-- The terms of every lane of a chain, in lane order: `acc` are those since the last restart, latest first. -/
def scanTerms (restart : Nat → Bool) (excl : Bool) (x : Nat → Nat) : List Nat → List Nat → List (Nat × List Nat)
  | _, [] => []
  | acc, L :: r =>
    let acc := if restart L then [] else acc
    (L, (if excl then acc else x L :: acc).reverse) :: scanTerms restart excl x (x L :: acc) r

/-- SCAN: OPS[9] excl, OPS[10] seg with the segment-start predicate C (R143). -/
def execScan (f : Fields) (s : State) : Res :=
  issue (.scan f) (fun s F =>
    let act := activeOf F f
    let restart (L : Nat) := f.ops ≥ 2 && getP F.g f.c.toNat L
    let terms := scanTerms restart (f.ops % 2 = 1) (termAt s F.g f) [] (lanesOf act)
    .done (setGroup s (writeLanes F.g f.d.toNat (wide f.ty) act fun L =>
      reduceBits f.e.toNat f.ty f.rnd (((terms.find? fun t => t.1 = L).map Prod.snd).getD [])))) s

/-- MATCH (R144). -/
def execMatch (f : Fields) (s : State) : Res :=
  issue (.match_ f) (fun s F =>
    let act := activeOf F f
    let a := regBits s F.g f.selA f.a f.ty
    .done (setGroup s (writeLanes F.g f.d.toNat false act fun L => (lanesWhere act fun n => a n = a L).toNat))) s

/-- COMPACT: the selected lanes' values in the first lanes, the others' D unchanged (R145). -/
def execCompact (f : Fields) (s : State) : Res :=
  issue (.compact f) (fun s F =>
    let act := activeOf F f
    let t := lanesOf act
    let q := t.filter fun L => getP F.g f.c.toNat L
    let dst := t.take q.length
    let from_ (L : Nat) := q.getD (t.idxOf L) 0
    let g := writeLanes F.g f.d.toNat (wide f.ty) (maskOf dst) fun L => regBits s F.g f.selA f.a f.ty (from_ L)
    .done (setGroup s (writePred g f.e.toNat act fun L => dst.contains L))) s

/-! ## The fused softmax sequence (R134, R135) -/

/-- The next word of a fused sequence, its fragment's group as the words before left it. -/
def thenWord (a : Act) (F : Frag) (body : State → Frag → Act) : Act :=
  match a with
  | .done s =>
    match getGroup s F.g.id with
    | some g => body s { F with g := g }
    | none => .done s
  | a => a

/-- FUSED_SOFTMAX: W1 to W4 as one instruction; every lane of F goes to PC + 64, and a fault leaves all four destinations as
they were (R135). -/
def execFusedSoftmax (w1 w2 w3 w4 : Fields) (s : State) : Res :=
  issue (.fusedSoftmax w1 w2 w3 w4) (fun s F =>
    let a := reduceBody s F w1
    let a := thenWord a F fun s F => fsubBody s F w2
    let a := thenWord a F fun s F => sfuWord .exp2 s F w3
    let a := thenWord a F fun s F => reduceBody s F w4
    match a with
    | .done s =>
      match getGroup s F.g.id with
      | some g => .placed (setGroup s (mapFrag g F.key fun x => x.goto (x.pc + 64)))
      | none => .done s
    | .trap s cause eaddr replay => .trap (setGroup s F.g) cause eaddr replay
    | .placed s => .placed s) s

end Sys2Proof.Machine
end

