-- ==== Sys2Proof/Machine/Queues.lean ====
section
/-! DEFINITION. Notifies and VCP_ERR: how a queue is mapped, receives a TAIL, is drained, and is re-armed (R272 to R278). -/

namespace Sys2Proof.Machine

/-! ## The check of a descriptor (R276) -/

/-- Offsets of the failing fields of a descriptor of a page. -/
def descriptorBad (s : State) (page : Nat) (d : BitVec 512) : List BadField :=
  let sp := spaceOf s page d
  let usable : Bool := match sp with
    | none => true
    | some c => (getCtx s c).part = pagePart s page && ctxRuns s c
  let range (at_ : Nat) (acc : PageAcc) (va : W64) (align len : Nat) : List BadField :=
    fails at_ (va.toNat % align != 0 || (usable && !spaceOk s sp acc va len)) va
      (if usable then sp.bind fun c => rangeItem s c acc va len else none)
  fails 0 (d.extractLsb' 1 7 != 0) ++ fails 1 (dLog2n d < 4 || 16 < dLog2n d || d.extractLsb' 13 2 != 0)
    ++ fails 2 (d.extractLsb' 16 240 != 0) ++ fails 32 (!usable) ++ fails 33 (d.extractLsb' 268 20 != 0)
    ++ (if dEva d = 0 then [] else range 40 writeAcc (dEva d) 32 32)
    ++ (if dHeadwb d = 0 then [] else range 48 writeAcc (dHeadwb d) 8 8)
    ++ range 56 readAcc (dRing d) 4096 (64 * 2 ^ min 16 (dLog2n d))

/-! ## Capability faults of a notify (R273, R276, R281) -/

/-- States in which a capability fault leads to ERROR (R277). -/
def QueueSt.faults : QueueSt → Bool
  | .mapped | .active | .waiting | .swapped => true
  | .unmapped | .error | .drained => false

/-- Event 1 of a notify; head and shadow stay. -/
def notifyFault (s : State) (x : Queue) (pkt : W32) (field : Nat) (addr : W64) : State :=
  let s := postEvent s x 1 pkt field addr 0
  if x.st.faults then
    oweSwap (spaceIdle (setQueue (unwait s x) { x with st := .error, await := none, ready := false, faultAt := none }) (x.space s))
  else s

/-- Event 1 of a descriptor that fails as its queue leaves UNMAPPED or DRAINED: the record goes to the descriptor's own EVA, where
that may be used (R275, R279). -/
def descriptorFault (s : State) (x : Queue) (b : BadField) : State :=
  let bad := descriptorBad s x.page x.desc
  let d : BitVec 512 := if bad.any fun f => f.at_ = 32 || f.at_ = 40 then 0 else x.desc
  let y := { x with copy := d }
  postEvent (logField s { x with copy := x.desc } b) y 1 0xFFFFFFFF b.at_ b.addr 0

/-! ## TAIL (R273, R277) -/

/-- TAIL is accepted: the window lies within the ring and takes nothing back. -/
def tailOk (x : Queue) (tail : W32) : Bool :=
  (tail - x.head).toNat ≤ 2 ^ dLog2n x.copy && (x.shadow - x.head).toNat ≤ (tail - x.head).toNat

/-- A MAPPED queue with packets takes a slot, or waits in SWAPPED as ready (R277, R278). -/
def activate (s : State) (x : Queue) : State :=
  if slotFree s then advanceQueue (setQueue s { x with st := .active }) x.page x.q
  else oweSwap (setQueue s { x with st := .swapped, ready := true, readySince := s.now })

def takeTail (s : State) (x : Queue) (tail : W32) : State :=
  if !tailOk x tail then notifyFault s x tail 0x3F 0
  else
    let y := { x with shadow := tail }
    let s := setQueue s y
    if y.st = .mapped && y.shadow != y.head then activate s y
    else if y.st = .active then oweNext s y.page y.q
    else s

/-! ## Draining (R277) -/

/-- A drain: packets not yet started are discarded, a wait ends, and the queue is DRAINED when every started packet has
completed. -/
def drainQueue (s : State) (x : Queue) (unmap : Bool) : State :=
  let y := { x with head := x.shadow, await := none, ready := false, draining := true, unmapping := x.unmapping || unmap }
  advanceQueue (setQueue (unwait s x) y) x.page x.q

/-! ## VCP_NOTIFY (R273, R277) -/

/-- The queue leaves UNMAPPED or DRAINED with a copy of its descriptor. -/
def mapQueue (x : Queue) : Queue := { Queue.blank x.page x.q with desc := x.desc, copy := x.desc, st := .mapped }

/-- The descriptor a notify is checked by: the page's before the queue is mapped, the copy after (R276). -/
def notifyQueue (s : State) (x : Queue) (tail : W32) : State :=
  let v := dValid x.desc
  let fresh : Bool := x.st = .unmapped || (x.st = .drained && !dDrain x.desc)
  if fresh && v then
    match firstBad (descriptorBad s x.page x.desc) with
    | some b => descriptorFault s x b
    | none => takeTail (setQueue s (mapQueue x)) (mapQueue x) tail
  else if x.st = .unmapped then s
  else if x.st = .drained then (if v then s else setQueue s { x with st := .unmapped })
  else if !v || dDrain x.desc then drainQueue s x (!v)
  else match firstBad (descriptorBad s x.page x.copy) with
    | some b => notifyFault (logField s x b) x 0xFFFFFFFF b.at_ b.addr
    | none => takeTail s x tail

/-- VCP_NOTIFY: ignored while EN = 0, and for a queue that does not exist (R273). -/
def execVcpNotify (page : Nat) (value : W64) (s : State) : Res :=
  match getPage s page with
  | none => .fault (.noSuchObject "VCP page")
  | some p =>
    let q := (value.extractLsb' 32 6).toNat
    if !p.en || 60 ≤ q then .next s else .next (notifyQueue s (getQueue s page q) (value.extractLsb' 0 32))

/-! ## VCP_ERR (R275, R277) -/

/-- A queue in ERROR is re-armed: MAPPED, past the packet that failed; its context must be able to run. -/
def rearm (s : State) (x : Queue) : State :=
  let runs : Bool := match x.space s with
    | none => true
    | some c => ctxRuns s c
  if x.st = .error && runs then
    setQueue s { x with st := .mapped, head := (x.faultAt.map (· + 1)).getD x.head, faultAt := none }
  else s

/-- VCP_ERR_CLEAR: a write with V = 1 clears the event held and re-arms its queue (R275). -/
def execVcpErrClear (page : Nat) (value : W64) (s : State) : Res :=
  match getPage s page with
  | none => .fault (.noSuchObject "VCP page")
  | some p =>
    if value.getLsbD 0 && p.err.getLsbD 0 then
      .next (rearm (setPage s { p with err := 0 }) (getQueue s page (p.err.extractLsb' 26 6).toNat))
    else .next s

end Sys2Proof.Machine
end

