-- ==== Sys2Proof/Machine/Device.lean ====
section
/-! DEFINITION. The module as a device: start-up and stops, the power controller, soft errors, the registers of BAR0, and the
host's accesses (R5, R6, R13, R272, R366, R372 to R376, R388, R399, R464 to R476). -/

namespace Sys2Proof.Machine

/-! ## Start-up (R13, R465, R476) -/

/-- What the outside keeps across a reset of the module: host memory and what it does next. -/
def outside (s : State) : State :=
  { State.reset with
    hostMem := s.hostMem, hostPoison := s.hostPoison, free := s.free, inputs := s.inputs, turns := s.turns, tick := s.tick }

/-- A stop: STAGE 15 and ERR; contexts and memory contents are lost, and the status word goes on answering (R466). -/
def stopModule (s : State) (err : BitVec 8) (die : BitVec 2) : State :=
  { outside s with
    stage := 15, err := err, errdie := die, cecnt := s.cecnt, tempmax := s.tempmax, dies := s.dies, overRuns := s.overRuns,
    now := s.now }

/-- MODULE_RESET: everything of the module is as at reset, and start-up begins (R465). -/
def execModuleReset (s : State) : Res := .next { outside s with stage := 1 }

/-- The physical cores that a die's fuses name are 512 good ones of its 528 (R13). -/
def goodBinding (die : Nat) : Bool :=
  let l := (List.range 512).map (Config.boundCore die)
  l.all (fun c => c < 528) && decide l.Nodup

/-- The binding tables (R13). -/
def bindingTables : SMap 16 :=
  (List.range 2048).foldl (fun m n => sset m n (BitVec.ofNat 16 (Config.boundCore (n / 512) (n % 512)))) []

/-- FUSE_LOAD: stage 1 (R13, R465). -/
def execFuseLoad (s : State) : Res :=
  if s.stage != 1 then .fault (.noSuchObject "stage 1")
  else match (List.range 4).find? fun d => !goodBinding d with
    | some d => .next (stopModule s 0x01 (BitVec.ofNat 2 d))
    | none => .next { s with stage := 2, binding := bindingTables }

/-- CHANNEL_TRAINING: stage 2, die after die (R465). -/
def execChannelTraining (die : Nat) (ok : Bool) (s : State) : Res :=
  if s.stage != 2 || die != s.trained.length then .fault (.noSuchObject "die to train")
  else if !ok then .next (stopModule s 0x02 (BitVec.ofNat 2 die))
  else
    let s := { s with trained := s.trained ++ [die] }
    .next (if s.trained.length = 4 then { s with stage := 3 } else s)

/-- MEMORY_ZERO: stage 3 (R465). -/
def execMemoryZero (s : State) : Res :=
  if s.stage != 3 then .fault (.noSuchObject "stage 3") else .next { s with stage := 4, mem := [], poison := [] }

/-- Partition 0 as start-up builds it: every quarter-die, Mode D (R476). -/
def partitionZero : Partition :=
  { Partition.reset 0 with
    v := true, qdies := 0xFFFF, elanes := 0xFF, fesched := 0xFF, homing := 0xBFFFFFC000, elog := 0xBFFFFFB000
    homes := (List.range 768).map fun k => (k, 0xC0) }

/-- Its homing table in memory. -/
def homingBytes : List Byte := (List.range 1024).flatMap fun k => leBytes 8 (if k < 768 then 0xC0 else 0)

/-- FIRMWARE_LOAD: stage 4 (R465, R476). -/
def execFirmwareLoad (ok : Bool) (s : State) : Res :=
  if s.stage != 4 then .fault (.noSuchObject "stage 4")
  else if !ok then .next (stopModule s 0x03 0)
  else
    let mem := writeBytes (writeBytes s.mem 0xBFFFFFC000 homingBytes) 0xBFFFFFB000 (List.replicate 4096 0)
    .next (setPart { s with stage := 5, mem := mem } partitionZero)

/-- MAC_ENABLE: stage 5; the ports have EN = 0, and the module is READY (R465). -/
def execMacEnable (s : State) : Res :=
  if s.stage != 5 then .fault (.noSuchObject "stage 5")
  else .next { s with stage := 6, links := s.links.map fun (l : Link) => { l with en := false } }

/-! ## Sensors and the power controller (R309, R467, R468) -/

/-- A core's reading as the controller takes it: of a failed sensor, the highest valid one of its quad; none where all four
have failed. -/
def heat (s : State) (core : Nat) : Option Nat :=
  let valid (c : Nat) : Option Nat := if (getCore s c).temp = 0xFF then none else some (getCore s c).temp.toNat
  match valid core with
  | some t => some t
  | none => (((List.range 4).map fun k => core / 4 * 4 + k).filterMap valid).foldl
      (fun best t => some (max t (best.getD 0))) none

def tripHeat (s : State) (core : Nat) : Bool := match heat s core with
  | some t => 110 ≤ t
  | none => false

/-- The cores' new readings (R309). -/
def takeReadings (readings : List (Nat × BitVec 8 × BitVec 8)) (s : State) : State :=
  readings.foldl (fun s r => setCore s { getCore s r.1 with temp := r.2.1, droop := r.2.2 }) s

/-- SENSOR_RESAMPLE: new readings; one at its limit trips the module at once (R309, R468). -/
def execSensorResample (readings : List (Nat × BitVec 8 × BitVec 8)) (s : State) : Res :=
  let s := takeReadings readings s
  .next (if s.cores.any fun c => tripHeat s c.id then stopModule s 0x04 0 else s)

/-- THERMAL_TRIP (R468). -/
def execThermalTrip (core : Nat) (s : State) : Res :=
  if tripHeat s core then .next (stopModule s 0x04 0) else .fault (.noSuchObject "core at 110 degrees")

/-- SUPPLY_FAULT (R466). -/
def execSupplyFault (s : State) : Res := .next (stopModule s 0x05 0)

/-- The readings of a die's cores as the controller takes them; cores not listed read 0. -/
def dieHeats (s : State) (die : Nat) : List Nat := (s.cores.filter fun c => dieOf c.id = die).filterMap fun c => heat s c.id
/-- A quad of the die whose four sensors have all failed. -/
def blindQuad (s : State) (die : Nat) : Bool := s.cores.any fun c => dieOf c.id = die && (heat s c.id).isNone

/-- A die's clock falls by 100 MHz; `settleDie` keeps it at 1.0 GHz or above. -/
def lower (l : List Nat) (d : Nat) : List Nat := l.modify d (· - 1)

/-- The die of highest power; among equals a free choice. -/
def hottestDie (power : List Nat) (pick : Nat) : Nat :=
  let top := power.foldl max 0
  let ds := (List.range 4).filter fun d => power.getD d 0 = top
  ds.getD (pick % max 1 ds.length) 0

/-- Whether each domain is over its budget: the dies, the SRAM layers, the memory, the X-die, the total (R20). -/
def overBudgets (p : PowerReading) : List Bool :=
  ((List.range 4).map fun d => decide (650 < p.dies.getD d 0))
    ++ [decide (200 < p.sram), decide (180 < p.memory), decide (120 < p.xdie), decide (3200 < p.total)]

/-- The clocks after steps 1 to 3, and after step 4 (R467). -/
def steppedClocks (s : State) (p : PowerReading) (pick : Nat) : List Nat :=
  let isOver := overBudgets p
  let c0 := s.dies.map DieState.clock
  let hot (d : Nat) : Bool := isOver.getD d false || (dieHeats s d).any fun t => 100 ≤ t
  let c1 := ((List.range 4).filter hot).foldl lower c0
  let c2 := if isOver.getD 4 false || isOver.getD 5 false || isOver.getD 6 false then (List.range 4).foldl lower c1 else c1
  if isOver.getD 7 false then lower c2 (hottestDie p.dies pick) else c2

/-- One die at the end of a period: its clock after the first three steps, not below 1.0 GHz, and step 4. A die that they lower
while it runs at 1.0 GHz counts as one whose clock fell (log entry 95). A die with a blind quad is held at 1.0 GHz; its clock
falls in the period that brings it there, and in later ones only if the steps lower it. -/
def settleDie (s : State) (fallen : List Nat) (x : DieState × Nat) : DieState :=
  let c := fallen.getD x.2 x.1.clock
  if blindQuad s x.2 then { x.1 with clock := 10, steady := if c < x.1.clock || 10 < x.1.clock then 0 else x.1.steady + 1 }
  else if c < x.1.clock then { x.1 with clock := max 10 c, steady := 0 }
  else if 3 ≤ x.1.steady && (dieHeats s x.2).all (fun t => t < 95) then
    { x.1 with clock := min 21 (c + 1), steady := x.1.steady + 1 }
  else { x.1 with clock := c, steady := x.1.steady + 1 }

/-- Consecutive periods in which a domain was over its budget with every die that it concerns at 1.0 GHz. -/
def overCounts (s : State) (p : PowerReading) : List Nat :=
  let low (d : Nat) : Bool := (s.dies.getD d ⟨21, 0, 0⟩).clock = 10
  let all : Bool := (List.range 4).all low
  (overBudgets p).zipIdx.map fun x => if x.1 && (if x.2 < 4 then low x.2 else all) then s.overRuns.getD x.2 0 + 1 else 0

/-- A period of the power controller (R467). -/
def powerSteps (power : PowerReading) (s : State) : State :=
  let (pick, s) := freeNat s
  let counts := overCounts s power
  let fallen := steppedClocks s power pick
  let hottest := ((List.range 4).flatMap (dieHeats s)).foldl max 0
  let s := { s with
    tempmax := BitVec.ofNat 8 hottest, dies := s.dies.zipIdx.map (settleDie s fallen), overRuns := counts }
  if counts.any fun n => 16 ≤ n then stopModule s 0x06 0 else s

/-- POWER_PERIOD (R467). -/
def execPowerPeriod (power : PowerReading) (s : State) : Res := .next (powerSteps power s)

/-- What the controller measures over a period: free values (R467; log entry 109). -/
def measuredPower (s : State) : State × PowerReading :=
  let (d0, s) := freeNat s
  let (d1, s) := freeNat s
  let (d2, s) := freeNat s
  let (d3, s) := freeNat s
  let (sram, s) := freeNat s
  let (memory, s) := freeNat s
  let (xdie, s) := freeNat s
  let (total, s) := freeNat s
  (s, { dies := [d0, d1, d2, d3], sram := sram, memory := memory, xdie := xdie, total := total })

/-- The module status word (R464). -/
def statusWord (s : State) : W64 :=
  let low := (s.dies.map DieState.clock).foldl min 21
  BitVec.ofNat 64 (s.stage.toNat + (if low < 21 then 2 ^ 4 else 0) + s.errdie.toNat * 2 ^ 12 + s.err.toNat * 2 ^ 16 + low * 2 ^ 32
    + s.tempmax.toNat * 2 ^ 40 + s.cecnt.toNat * 2 ^ 48)

/-- What a 4-byte read of the vendor-specific capability finds, at any stage; it changes nothing (R464). -/
def readCapability (s : State) (offset : Nat) : Nat :=
  match offset with
  | 0x0 => 0x1000B + Config.nextCapability.toNat * 2 ^ 20
  | 0x4 => 0x01000001
  | 0x8 => (statusWord s).toNat % 2 ^ 32
  | 0xC => (statusWord s).toNat / 2 ^ 32
  | _ => 0

/-! ## Soft errors (R469, R470) -/

/-- A line is poisoned, and no copy of what it held is left, in an L1 or an RDC: after a store that rewrites it whole, nothing reads
what stood there before the error (R470). -/
def poisonLine (s : State) (line : Nat) : State :=
  let other (c : Copy) : Bool := c.line != line
  { s with
    poison := if s.poison.contains line then s.poison else s.poison ++ [line]
    cores := s.cores.map fun (k : Core) => { k with l1 := k.l1.filter other }
    rdc := s.rdc.filter fun e => other e.2 }

/-- The partition whose homing holds a module address (R211). -/
def holder (s : State) (pa : Nat) : Option Nat := (s.parts.find? fun p => p.v && (homeDie p pa).isSome).map Partition.pid

/-- CORRECTED_SOFT_ERROR (R469). -/
def execCorrectedSoftError (s : State) : Res := .next { s with cecnt := if s.cecnt = 0xFFFF then 0xFFFF else s.cecnt + 1 }

/-- UNCORRECTABLE_ERROR: a line is poisoned, or a team ends with cause 0x14 in both logs (R259, R469). -/
def execUncorrectableError (site : ErrorSite) (s : State) : Res :=
  match site with
  | .line l => if moduleSize ≤ 128 * l then .fault (.noSuchAddress (128 * l)) else .next (poisonLine s l)
  | .team tid =>
    match getTeam s tid with
    | none => .fault (.noSuchObject "team")
    | some t =>
      let s := logPartition s (getCtx s t.ctx).part t.ctx 0x14 t.cores.head? 0 0
      .next (fatalContext s t.ctx 0x14 t.cores.head? 0)

/-- PATROL_SCRUB: an error found poisons the line and is logged; which context the entry names is a free value (R469). -/
def execPatrolScrub (line : Nat) (error : Bool) (s : State) : Res :=
  if moduleSize ≤ 128 * line then .fault (.noSuchAddress (128 * line))
  else if !error then .next s
  else
    let (n, s) := freeNat s
    .next (logPartition (poisonLine s line) ((holder s (128 * line)).getD 0) (n % 4096) 0x14 none 0 (128 * line))

/-! ## BAR0 (R5, R6, R272, R366, R372, R376, R377, R388, R399) -/

/-- The 8 bytes at an offset of a wider register written. -/
def setPart64 {w : Nat} (x : BitVec w) (k : Nat) (v : W64) : BitVec w :=
  BitVec.ofNat w (x.toNat % 2 ^ (64 * k) + v.toNat * 2 ^ (64 * k) + x.toNat / 2 ^ (64 * k + 64) * 2 ^ (64 * k + 64))

/-- A VCP page (R272, R274). A queue descriptor holds its RSVD bits as written (DESIGN CHOICE, log entry 84). -/
def writeVcp (s : State) (page off : Nat) (v : W64) : Res :=
  if off = 0 then execVcpNotify page v s
  else if off = 0x020 then execVcpErrClear page v s
  else if off = 0x008 then
    match getPage s page with
    | some p => .next (setPage s { p with en := v.getLsbD 0, qsel := (v.extractLsb' 8 6).toNat })
    | none => .next s
  else if 0x100 ≤ off then
    let x := getQueue s page ((off - 0x100) / 64)
    .next (setQueue s { x with desc := setPart64 x.desc ((off - 0x100) % 64 / 8) v })
  else .next s

/-- A translation page (R366). -/
def writeTranslation (s : State) (part off : Nat) (v : W64) : Res :=
  let p := getPart s part
  match off with
  | 0x000 => execTrPrqWrite part v s
  | 0x008 => .next (setPart s { p with prqHead := v.extractLsb' 0 32 })
  | 0x018 => .next (setPart s { p with invAddr := v &&& 0x01FFFFFFFFFFF000 })
  | 0x020 => .next (setPart s { p with invCtl := v &&& 0xFFFF30FFFFFFFFFF })
  | 0x028 => execTrInvGo part v s
  | 0x040 => .next (setPart s { p with invovf := p.invovf && !v.getLsbD 1, prqovf := p.prqovf && !v.getLsbD 0 })
  | _ => .next s

def Window.blank (idx : Nat) : Window := ⟨idx, 0, 0, 0, 0, 0, false⟩
def getWindow (s : State) (w : Nat) : Window := (findBy Window.idx w s.windows).getD (Window.blank w)
/-- One of the four words of a window entry (R399). -/
def writeWindow (x : Window) (k : Nat) (v : W64) : Window :=
  match k with
  | 0 => { x with
      npages := (v.extractLsb' 40 24).toNat, ctx := (v.extractLsb' 16 12).toNat, dir := (v.extractLsb' 1 1).toNat, v := v.getLsbD 0 }
  | 3 => { x with base := v }
  | _ => { x with peer := setPart64 x.peer (k - 1) v }

/-- A link page (R376, R377, R399). -/
def writeLink (s : State) (port off : Nat) (v : W64) : Res :=
  let l := getLink s port
  if off = 0 then (if v.getLsbD 0 then execLinkEnable port v s else execLinkDisable port v s)
  else if off = 0x008 || off = 0x010 then .next (setLink s { l with ip6 := setPart64 l.ip6 (off / 8 - 1) v })
  else if off = 0x028 then .next (setLink s { l with nhV := v.getLsbD 48, nhMac := v.extractLsb' 0 48 })
  else if 0x100 ≤ off && off < 0x900 then
    let w := 64 * port + (off - 0x100) / 32
    .next { s with windows := putBy Window.idx (writeWindow (getWindow s w) ((off - 0x100) % 32 / 8) v) s.windows }
  else .next s

/-- REGISTER_WRITE: an 8-byte write to BAR0. What no register takes, and every write before READY, is ignored. -/
def execRegisterWrite (offset : Nat) (value : W64) (s : State) : Res :=
  if s.stage != 6 || offset % 8 != 0 then .next s
  else if offset < 0x40000 then writeVcp s (offset / 0x1000) (offset % 0x1000) value
  else if offset < 0x48000 then writeTranslation s ((offset - 0x40000) / 0x1000) (offset % 0x1000) value
  else if 0x80000 ≤ offset && offset < 0x84000 then writeLink s ((offset - 0x80000) / 0x1000) (offset % 0x1000) value
  else .next s

/-! ## What a read of BAR0 finds; it changes nothing -/

/-- LINK_STATUS.STATE (R376). -/
def LinkSt.code : LinkSt → Nat
  | .down => 0 | .training => 1 | .upLossless => 2 | .upLossy => 3 | .cutMoving => 4 | .degraded => 5 | .error => 6

def readVcp (s : State) (page off : Nat) : Nat :=
  match getPage s page with
  | none => 0
  | some p =>
    let x := getQueue s page p.qsel
    match off with
    | 0x008 => (if p.en then 1 else 0) + x.st.code * 2 ^ 4 + p.qsel * 2 ^ 8 + p.priv * 2 ^ 14
    | 0x010 => x.head.toNat
    | 0x018 => x.shadow.toNat
    | 0x020 => p.err.toNat
    | _ =>
      if 0x100 ≤ off then (getQueue s page ((off - 0x100) / 64)).desc.toNat / 2 ^ (64 * ((off - 0x100) % 64 / 8)) % 2 ^ 64
      else 0

def readTranslation (p : Partition) (off : Nat) : Nat :=
  match off with
  | 0x000 => p.prqBase.toNat + p.prqLog2n * 2 ^ 8 + (if p.prqEn then 1 else 0)
  | 0x008 => p.prqHead.toNat
  | 0x010 => p.prqTail.toNat
  | 0x018 => p.invAddr.toNat
  | 0x020 => p.invCtl.toNat
  | 0x030 => p.invSeq.toNat
  | 0x038 => p.invDone.toNat
  | 0x040 => (if p.invovf then 2 else 0) + (if p.prqovf then 1 else 0)
  | _ => 0

def Window.bits (x : Window) : Nat :=
  (if x.v then 1 else 0) + x.dir * 2 + x.ctx * 2 ^ 16 + x.npages * 2 ^ 40 + x.peer.toNat * 2 ^ 64 + x.base.toNat * 2 ^ 192

def readLink (s : State) (port off : Nat) : Nat :=
  let l := getLink s port
  match off with
  | 0x000 => (if l.en then 1 else 0) + (if l.mode then 2 else 0) + l.mtu.toNat * 2 ^ 2 + l.rto.toNat * 2 ^ 16 + l.retry.toNat * 2 ^ 40
      + l.lossmax.toNat * 2 ^ 48
  | 0x008 => l.ip6.toNat % 2 ^ 64
  | 0x010 => l.ip6.toNat / 2 ^ 64
  | 0x018 => l.st.code + l.fixed.toNat * 2 ^ 16 + l.lostpk.toNat * 2 ^ 32
  | 0x020 => (Config.mac port).toNat
  | 0x028 => l.nhMac.toNat + (if l.nhV then 2 ^ 48 else 0)
  | _ =>
    if 0x100 ≤ off && off < 0x900 then
      (getWindow s (64 * port + (off - 0x100) / 32)).bits / 2 ^ (64 * ((off - 0x100) % 32 / 8)) % 2 ^ 64
    else 0

def readCutPage (p : Partition) (off : Nat) : Nat :=
  if off = 0 then (if p.cutBusy then 1 else 0) + p.cutResult * 2 + p.cutGraph.toNat * 2 ^ 16 + p.cutEframe.toNat * 2 ^ 32 else 0

/-- The 8 bytes that a read of BAR0 returns; 0 before READY and where no register stands. -/
def readRegister (s : State) (offset : Nat) : Nat :=
  if s.stage != 6 || offset % 8 != 0 then 0
  else if offset < 0x40000 then readVcp s (offset / 0x1000) (offset % 0x1000)
  else if offset < 0x48000 then readTranslation (getPart s ((offset - 0x40000) / 0x1000)) (offset % 0x1000)
  else if 0x80000 ≤ offset && offset < 0x84000 then readLink s ((offset - 0x80000) / 0x1000) (offset % 0x1000)
  else if 0x84000 ≤ offset && offset < 0x8C000 then readCutPage (getPart s ((offset - 0x84000) / 0x1000)) (offset % 0x1000)
  else 0

/-! ## The host over CXL.mem and CXL.cache (R237, R301, R373, R374, R474) -/

/-- An access is cut at line boundaries: address and length of each piece. -/
def hostPieces : Nat → Nat → Nat → List (Nat × Nat)
  | 0, _, _ => []
  | fuel + 1, pa, n =>
    if n = 0 then []
    else
      let k := min n (128 - pa % 128)
      (pa, k) :: hostPieces fuel (pa + k) (n - k)

/-- A trigger register's address. -/
def isTrigger (pa : Nat) : Bool := triggerBase ≤ pa && pa < triggerBase + 0x2000

/-- A read of one piece: the state after, the bytes, and whether they are marked poisoned. -/
def hostReadPiece (s : State) (pa n : Nat) : State × List Byte × Bool :=
  if s.stage != 6 then (s, List.replicate n 0xFF, true)
  else if isTrigger pa then (s, ((leBytes 8 (triggerLoad s (triggerGraph pa))).drop (pa % 8)).take n, false)
  else match (if pa < moduleSize then holder s pa else none) with
    | none => (logPartition s 0 0 0x15 none 0 pa, List.replicate n 0xFF, true)
    | some p =>
      let bad := s.poison.contains (lineOf pa)
      let (s, bs) := homeRead s none 64 false pa n
      (if bad then logPartition s p 0 0x14 none 0 (128 * lineOf pa) else s, bs, bad)

/-- What a host read returns: its bytes, and whether any are marked poisoned. -/
def hostRead (s : State) (pa n : Nat) : State × List Byte × Bool :=
  (hostPieces (n / 128 + 2) pa n).foldl (fun (acc : State × List Byte × Bool) p =>
    let (s, bs, bad) := hostReadPiece acc.1 p.1 p.2
    (s, acc.2.1 ++ bs, acc.2.2 || bad)) (s, [], false)

/-- HOST_CXL_MEM_READ (R374, R474). -/
def execHostCxlMemRead (pa len : Nat) (s : State) : Res := .next (hostRead s pa len).1

/-- A write of one piece. -/
def hostWritePiece (s : State) (pa : Nat) (bs : List Byte) : State :=
  if s.stage != 6 then s
  else if isTrigger pa then
    (if pa % 8 = 0 && bs.length = 8 then triggerStore s (triggerGraph pa) (BitVec.ofNat 64 (leNat bs)) else s)
  else match (if pa < moduleSize then holder s pa else none) with
    | none => logPartition s 0 0 0x15 none 0 pa
    | some _ => devWrite s false pa bs

/-- HOST_CXL_MEM_WRITE (R301, R374, R470). -/
def execHostCxlMemWrite (pa : Nat) (data : List Byte) (s : State) : Res :=
  .next ((hostPieces (data.length / 128 + 2) pa data.length).foldl
    (fun s p => hostWritePiece s p.1 ((data.drop (p.1 - pa)).take p.2)) s)

/-- HOST_SNOOP: the host takes a line to write it; the agent gives it up, and its waiters wake (R373). -/
def execHostSnoop (pa : Nat) (data : List Byte) (s : State) : Res :=
  let s := devWrite s true pa data
  let s := { s with hostLines := s.hostLines.filter fun l => !(lineOf pa ≤ l && 128 * l < pa + max 1 data.length) }
  .next (if s.waits.any fun w => w.host && w.line = lineOf pa then owe s (.waitaWake true (lineOf pa)) else s)

end Sys2Proof.Machine
end

