-- ==== Sys2Proof/Machine/Dispatch.lean ====
section
/-! DEFINITION. The meaning of every instruction, one arm each. -/

namespace Sys2Proof.Machine

def exec (i : Instr) (s : State) : Host.Outcome State Fault Refusal :=
  match i with
  | .nop f => Sys2Proof.Machine.execNop f s
  | .bra f => Sys2Proof.Machine.execBra f s
  | .brx f => Sys2Proof.Machine.execBrx f s
  | .call f => Sys2Proof.Machine.execCall f s
  | .callx f => Sys2Proof.Machine.execCallx f s
  | .ret f => Sys2Proof.Machine.execRet f s
  | .exit_ f => Sys2Proof.Machine.execExit f s
  | .yield f => Sys2Proof.Machine.execYield f s
  | .brk f => Sys2Proof.Machine.execBrk f s
  | .loop f => Sys2Proof.Machine.execLoop f s
  | .iadd f => Sys2Proof.Machine.execIadd f s
  | .isub f => Sys2Proof.Machine.execIsub f s
  | .imul f => Sys2Proof.Machine.execImul f s
  | .imulh f => Sys2Proof.Machine.execImulh f s
  | .imad f => Sys2Proof.Machine.execImad f s
  | .imin f => Sys2Proof.Machine.execImin f s
  | .imax f => Sys2Proof.Machine.execImax f s
  | .iabs f => Sys2Proof.Machine.execIabs f s
  | .ineg f => Sys2Proof.Machine.execIneg f s
  | .and_ f => Sys2Proof.Machine.execAnd f s
  | .or_ f => Sys2Proof.Machine.execOr f s
  | .xor_ f => Sys2Proof.Machine.execXor f s
  | .not_ f => Sys2Proof.Machine.execNot f s
  | .shl f => Sys2Proof.Machine.execShl f s
  | .shr f => Sys2Proof.Machine.execShr f s
  | .shra f => Sys2Proof.Machine.execShra f s
  | .rotl f => Sys2Proof.Machine.execRotl f s
  | .bfx f => Sys2Proof.Machine.execBfx f s
  | .bfi f => Sys2Proof.Machine.execBfi f s
  | .popc f => Sys2Proof.Machine.execPopc f s
  | .clz f => Sys2Proof.Machine.execClz f s
  | .brev f => Sys2Proof.Machine.execBrev f s
  | .icmp f => Sys2Proof.Machine.execIcmp f s
  | .sel f => Sys2Proof.Machine.execSel f s
  | .mov f => Sys2Proof.Machine.execMov f s
  | .lea f => Sys2Proof.Machine.execLea f s
  | .iaddc f => Sys2Proof.Machine.execIaddc f s
  | .plop f => Sys2Proof.Machine.execPlop f s
  | .movpGet f => Sys2Proof.Machine.execMovpGet f s
  | .movpSet f => Sys2Proof.Machine.execMovpSet f s
  | .hash f => Sys2Proof.Machine.execHash f s
  | .fadd f => Sys2Proof.Machine.execFadd f s
  | .fsub f => Sys2Proof.Machine.execFsub f s
  | .fmul f => Sys2Proof.Machine.execFmul f s
  | .ffma f => Sys2Proof.Machine.execFfma f s
  | .fmin f => Sys2Proof.Machine.execFmin f s
  | .fmax f => Sys2Proof.Machine.execFmax f s
  | .fcmp f => Sys2Proof.Machine.execFcmp f s
  | .fclass f => Sys2Proof.Machine.execFclass f s
  | .frnd f => Sys2Proof.Machine.execFrnd f s
  | .fscale f => Sys2Proof.Machine.execFscale f s
  | .fdot2 f => Sys2Proof.Machine.execFdot2 f s
  | .fmed3 f => Sys2Proof.Machine.execFmed3 f s
  | .cvt f => Sys2Proof.Machine.execCvt f s
  | .cvtn f => Sys2Proof.Machine.execCvtn f s
  | .cvtw f => Sys2Proof.Machine.execCvtw f s
  | .pack f => Sys2Proof.Machine.execPack f s
  | .unpack f => Sys2Proof.Machine.execUnpack f s
  | .shfl f => Sys2Proof.Machine.execShfl f s
  | .bcast f => Sys2Proof.Machine.execBcast f s
  | .vote f => Sys2Proof.Machine.execVote f s
  | .reduce f => Sys2Proof.Machine.execReduce f s
  | .scan f => Sys2Proof.Machine.execScan f s
  | .match_ f => Sys2Proof.Machine.execMatch f s
  | .compact f => Sys2Proof.Machine.execCompact f s
  | .rcp f => Sys2Proof.Machine.execRcp f s
  | .rsq f => Sys2Proof.Machine.execRsq f s
  | .sqrt f => Sys2Proof.Machine.execSqrt f s
  | .exp2 f => Sys2Proof.Machine.execExp2 f s
  | .log2 f => Sys2Proof.Machine.execLog2 f s
  | .sin f => Sys2Proof.Machine.execSin f s
  | .cos f => Sys2Proof.Machine.execCos f s
  | .tanh f => Sys2Proof.Machine.execTanh f s
  | .sigm f => Sys2Proof.Machine.execSigm f s
  | .fdiv f => Sys2Proof.Machine.execFdiv f s
  | .fusedSoftmax w1 w2 w3 w4 => Sys2Proof.Machine.execFusedSoftmax w1 w2 w3 w4 s
  | .pairWord x y => Sys2Proof.Machine.execPairWord x y s
  | .ld f => Sys2Proof.Machine.execLd f s
  | .st f => Sys2Proof.Machine.execSt f s
  | .lds f => Sys2Proof.Machine.execLds f s
  | .sts f => Sys2Proof.Machine.execSts f s
  | .ldp f => Sys2Proof.Machine.execLdp f s
  | .stp f => Sys2Proof.Machine.execStp f s
  | .ldc f => Sys2Proof.Machine.execLdc f s
  | .ldg f => Sys2Proof.Machine.execLdg f s
  | .pref f => Sys2Proof.Machine.execPref f s
  | .fence f => Sys2Proof.Machine.execFence f s
  | .cctl f => Sys2Proof.Machine.execCctl f s
  | .atom f => Sys2Proof.Machine.execAtom f s
  | .acas f => Sys2Proof.Machine.execAcas f s
  | .atoms f => Sys2Proof.Machine.execAtoms f s
  | .ldf f => Sys2Proof.Machine.execLdf f s
  | .stf f => Sys2Proof.Machine.execStf f s
  | .freset f => Sys2Proof.Machine.execFreset f s
  | .waita f => Sys2Proof.Machine.execWaita f s
  | .waits f => Sys2Proof.Machine.execWaits f s
  | .hset f => Sys2Proof.Machine.execHset f s
  | .hld f => Sys2Proof.Machine.execHld f s
  | .hst f => Sys2Proof.Machine.execHst f s
  | .hget f => Sys2Proof.Machine.execHget f s
  | .mma f => Sys2Proof.Machine.execMma f s
  | .zld f => Sys2Proof.Machine.execZld f s
  | .zst f => Sys2Proof.Machine.execZst f s
  | .zzero f => Sys2Proof.Machine.execZzero f s
  | .zmov f => Sys2Proof.Machine.execZmov f s
  | .zred f => Sys2Proof.Machine.execZred f s
  | .zscale f => Sys2Proof.Machine.execZscale f s
  | .qscale f => Sys2Proof.Machine.execQscale f s
  | .cpy f => Sys2Proof.Machine.execCpy f s
  | .cpyt f => Sys2Proof.Machine.execCpyt f s
  | .gthr f => Sys2Proof.Machine.execGthr f s
  | .sctr f => Sys2Proof.Machine.execSctr f s
  | .rcon f => Sys2Proof.Machine.execRcon f s
  | .trace f => Sys2Proof.Machine.execTrace f s
  | .adrain f => Sys2Proof.Machine.execAdrain f s
  | .aqry f => Sys2Proof.Machine.execAqry f s
  | .launch f => Sys2Proof.Machine.execLaunch f s
  | .rget f => Sys2Proof.Machine.execRget f s
  | .remit f => Sys2Proof.Machine.execRemit f s
  | .rdone f => Sys2Proof.Machine.execRdone f s
  | .gsig f => Sys2Proof.Machine.execGsig f s
  | .covqMe f => Sys2Proof.Machine.execCovqMe f s
  | .covqPt f => Sys2Proof.Machine.execCovqPt f s
  | .tex1 f => Sys2Proof.Machine.execTex1 f s
  | .texf f => Sys2Proof.Machine.execTexf f s
  | .texq f => Sys2Proof.Machine.execTexq f s
  | .discard f => Sys2Proof.Machine.execDiscard f s
  | .depthw f => Sys2Proof.Machine.execDepthw f s
  | .attr f => Sys2Proof.Machine.execAttr f s
  | .bar f => Sys2Proof.Machine.execBar f s
  | .binit f => Sys2Proof.Machine.execBinit f s
  | .bexp f => Sys2Proof.Machine.execBexp f s
  | .barv f => Sys2Proof.Machine.execBarv f s
  | .bwait f => Sys2Proof.Machine.execBwait f s
  | .jarm f => Sys2Proof.Machine.execJarm f s
  | .join f => Sys2Proof.Machine.execJoin f s
  | .jdrop f => Sys2Proof.Machine.execJdrop f s
  | .reform f => Sys2Proof.Machine.execReform f s
  | .bqry f => Sys2Proof.Machine.execBqry f s
  | .trap f => Sys2Proof.Machine.execTrap f s
  | .tret f => Sys2Proof.Machine.execTret f s
  | .region f => Sys2Proof.Machine.execRegion f s
  | .pyield f => Sys2Proof.Machine.execPyield f s
  | .timer f => Sys2Proof.Machine.execTimer f s
  | .srd f => Sys2Proof.Machine.execSrd f s
  | .swr f => Sys2Proof.Machine.execSwr f s
  | .csave f => Sys2Proof.Machine.execCsave f s
  | .crestChk f => Sys2Proof.Machine.execCrestChk f s
  | .crestGo f => Sys2Proof.Machine.execCrestGo f s
  | .halt f => Sys2Proof.Machine.execHalt f s
  | .dependenceResolved gid => Sys2Proof.Machine.execDependenceResolved gid s
  | .groupPromote gid => Sys2Proof.Machine.execGroupPromote gid s
  | .timerFire gid => Sys2Proof.Machine.execTimerFire gid s
  | .waitaWake host line => Sys2Proof.Machine.execWaitaWake host line s
  | .waitaPoll gid => Sys2Proof.Machine.execWaitaPoll gid s
  | .loadDataReturn load => Sys2Proof.Machine.execLoadDataReturn load s
  | .clockAdvance core => Sys2Proof.Machine.execClockAdvance core s
  | .clockRebase part base => Sys2Proof.Machine.execClockRebase part base s
  | .portPeriodBoundary part => Sys2Proof.Machine.execPortPeriodBoundary part s
  | .asyncOpComplete op => Sys2Proof.Machine.execAsyncOpComplete op s
  | .gsigWrite gsig => Sys2Proof.Machine.execGsigWrite gsig s
  | .tileFetchFault mma cause va => Sys2Proof.Machine.execTileFetchFault mma cause va s
  | .relaunchWalk team => Sys2Proof.Machine.execRelaunchWalk team s
  | .teamTerminate team cause => Sys2Proof.Machine.execTeamTerminate team cause s
  | .reformDraw core bin => Sys2Proof.Machine.execReformDraw core bin s
  | .pageWalk ctx die va acc => Sys2Proof.Machine.execPageWalk ctx die va acc s
  | .trPrqWrite part value => Sys2Proof.Machine.execTrPrqWrite part value s
  | .trInvGo part value => Sys2Proof.Machine.execTrInvGo part value s
  | .invalidationComplete part => Sys2Proof.Machine.execInvalidationComplete part s
  | .registerWrite offset value => Sys2Proof.Machine.execRegisterWrite offset value s
  | .vcpNotify page value => Sys2Proof.Machine.execVcpNotify page value s
  | .vcpErrClear page value => Sys2Proof.Machine.execVcpErrClear page value s
  | .queueSwap page q => Sys2Proof.Machine.execQueueSwap page q s
  | .queueWaitTimeout page q => Sys2Proof.Machine.execQueueWaitTimeout page q s
  | .queueWatchdog page q => Sys2Proof.Machine.execQueueWatchdog page q s
  | .waitSignalWake page q => Sys2Proof.Machine.execWaitSignalWake page q s
  | .loadGraph page q => Sys2Proof.Machine.execLoadGraph page q s
  | .trigger page q => Sys2Proof.Machine.execTrigger page q s
  | .signal page q => Sys2Proof.Machine.execSignal page q s
  | .waitSignal page q => Sys2Proof.Machine.execWaitSignal page q s
  | .copy page q => Sys2Proof.Machine.execCopy page q s
  | .copyPacketComplete copy => Sys2Proof.Machine.execCopyPacketComplete copy s
  | .setCut page q => Sys2Proof.Machine.execSetCut page q s
  | .query page q => Sys2Proof.Machine.execQuery page q s
  | .fencePacket page q => Sys2Proof.Machine.execFencePacket page q s
  | .partCreate page q => Sys2Proof.Machine.execPartCreate page q s
  | .partDestroy page q => Sys2Proof.Machine.execPartDestroy page q s
  | .vcpAssign page q => Sys2Proof.Machine.execVcpAssign page q s
  | .ctxCreate page q => Sys2Proof.Machine.execCtxCreate page q s
  | .ctxBind page q => Sys2Proof.Machine.execCtxBind page q s
  | .ctxDestroy page q => Sys2Proof.Machine.execCtxDestroy page q s
  | .ctxPreempt page q => Sys2Proof.Machine.execCtxPreempt page q s
  | .ctxRestore page q => Sys2Proof.Machine.execCtxRestore page q s
  | .ctxReset page q => Sys2Proof.Machine.execCtxReset page q s
  | .setPortShare page q => Sys2Proof.Machine.execSetPortShare page q s
  | .setPlacer page q => Sys2Proof.Machine.execSetPlacer page q s
  | .setGroupScheduler page q => Sys2Proof.Machine.execSetGroupScheduler page q s
  | .setTenantQuantum page q => Sys2Proof.Machine.execSetTenantQuantum page q s
  | .setHomingEntry page q => Sys2Proof.Machine.execSetHomingEntry page q s
  | .preemptDeadlineExpiry team => Sys2Proof.Machine.execPreemptDeadlineExpiry team s
  | .saveOverrun team => Sys2Proof.Machine.execSaveOverrun team s
  | .contextSaved ctx => Sys2Proof.Machine.execContextSaved ctx s
  | .restoreAdmit ctx => Sys2Proof.Machine.execRestoreAdmit ctx s
  | .contextScrubDone ctx => Sys2Proof.Machine.execContextScrubDone ctx s
  | .tenantRound part => Sys2Proof.Machine.execTenantRound part s
  | .taskComplete task cost => Sys2Proof.Machine.execTaskComplete task cost s
  | .triggerRunRequest graph value => Sys2Proof.Machine.execTriggerRunRequest graph value s
  | .triggerClearOvr graph => Sys2Proof.Machine.execTriggerClearOvr graph s
  | .launchArgsFetch launch => Sys2Proof.Machine.execLaunchArgsFetch launch s
  | .teamPlace part => Sys2Proof.Machine.execTeamPlace part s
  | .coreStart team => Sys2Proof.Machine.execCoreStart team s
  | .recordTeamAdmit launch => Sys2Proof.Machine.execRecordTeamAdmit launch s
  | .nodeDone graph node => Sys2Proof.Machine.execNodeDone graph node s
  | .runEnd graph => Sys2Proof.Machine.execRunEnd graph s
  | .coverageUpdate launch => Sys2Proof.Machine.execCoverageUpdate launch s
  | .rasteriseTriangle graph node => Sys2Proof.Machine.execRasteriseTriangle graph node s
  | .blendRecord graph node => Sys2Proof.Machine.execBlendRecord graph node s
  | .traverseRay graph node => Sys2Proof.Machine.execTraverseRay graph node s
  | .solderRecord graph node => Sys2Proof.Machine.execSolderRecord graph node s
  | .hostCxlMemRead pa len => Sys2Proof.Machine.execHostCxlMemRead pa len s
  | .hostCxlMemWrite pa data => Sys2Proof.Machine.execHostCxlMemWrite pa data s
  | .hostSnoop pa data => Sys2Proof.Machine.execHostSnoop pa data s
  | .linkEnable port value => Sys2Proof.Machine.execLinkEnable port value s
  | .linkDisable port value => Sys2Proof.Machine.execLinkDisable port value s
  | .pcsLinkUp port => Sys2Proof.Machine.execPcsLinkUp port s
  | .pcsLinkLoss port => Sys2Proof.Machine.execPcsLinkLoss port s
  | .trainingTimeout port => Sys2Proof.Machine.execTrainingTimeout port s
  | .controlResend port => Sys2Proof.Machine.execControlResend port s
  | .neighborSolicitation port nd => Sys2Proof.Machine.execNeighborSolicitation port nd s
  | .data port pkt => Sys2Proof.Machine.execData port pkt s
  | .parity port pkt => Sys2Proof.Machine.execParity port pkt s
  | .frame port pkt => Sys2Proof.Machine.execFrame port pkt s
  | .cutPropose port pkt => Sys2Proof.Machine.execCutPropose port pkt s
  | .cutAccept port pkt => Sys2Proof.Machine.execCutAccept port pkt s
  | .cutReject port pkt => Sys2Proof.Machine.execCutReject port pkt s
  | .stateXfer port pkt => Sys2Proof.Machine.execStateXfer port pkt s
  | .stateAck port pkt => Sys2Proof.Machine.execStateAck port pkt s
  | .refMiss port pkt => Sys2Proof.Machine.execRefMiss port pkt s
  | .cack port pkt => Sys2Proof.Machine.execCack port pkt s
  | .ldata port pkt => Sys2Proof.Machine.execLdata port pkt s
  | .lack port pkt => Sys2Proof.Machine.execLack port pkt s
  | .frameClose graph edge frame => Sys2Proof.Machine.execFrameClose graph edge frame s
  | .lateRecord graph edge slot => Sys2Proof.Machine.execLateRecord graph edge slot s
  | .brassEncode graph edge frame => Sys2Proof.Machine.execBrassEncode graph edge frame s
  | .cutMoveEnd part => Sys2Proof.Machine.execCutMoveEnd part s
  | .sensorResample readings => Sys2Proof.Machine.execSensorResample readings s
  | .powerPeriod power => Sys2Proof.Machine.execPowerPeriod power s
  | .thermalTrip core => Sys2Proof.Machine.execThermalTrip core s
  | .supplyFault => Sys2Proof.Machine.execSupplyFault s
  | .moduleReset => Sys2Proof.Machine.execModuleReset s
  | .fuseLoad => Sys2Proof.Machine.execFuseLoad s
  | .channelTraining die ok => Sys2Proof.Machine.execChannelTraining die ok s
  | .memoryZero => Sys2Proof.Machine.execMemoryZero s
  | .firmwareLoad ok => Sys2Proof.Machine.execFirmwareLoad ok s
  | .macEnable => Sys2Proof.Machine.execMacEnable s
  | .patrolScrub line error => Sys2Proof.Machine.execPatrolScrub line error s
  | .uncorrectableError site => Sys2Proof.Machine.execUncorrectableError site s
  | .illegalInstruction word => Sys2Proof.Machine.execIllegalInstruction word s
  | .instructionFetchFault cause => Sys2Proof.Machine.execInstructionFetchFault cause s
  | .waitsLimitExpiry gid => Sys2Proof.Machine.execWaitsLimitExpiry gid s
  | .mmaComplete mma => Sys2Proof.Machine.execMmaComplete mma s
  | .correctedSoftError => Sys2Proof.Machine.execCorrectedSoftError s
  | .partitionScrubDone part => Sys2Proof.Machine.execPartitionScrubDone part s
  | .neighborCacheExpiry port ip => Sys2Proof.Machine.execNeighborCacheExpiry port ip s
  | .neighborResolutionTimeout port ip => Sys2Proof.Machine.execNeighborResolutionTimeout port ip s

end Sys2Proof.Machine
end

