-- ==== Sys2Proof/Machine/Due.lean ====
section
/-! DEFINITION. What the device's units have to do in a state, beside the work already owed: timers and limits that have run
out, pages that have come, and objects that are ready (log entry 1). -/

namespace Sys2Proof.Machine

/-! ## Groups and teams -/

/-- A group's core has started its team (R311). -/
def coreStarted (s : State) (g : Group) : Bool := (getTeam s g.team).any fun t => !t.unstarted.any fun p => p.1 = g.core
def Group.hasRunning (g : Group) : Bool := g.sides.any fun x => x.st = .running

/-- Events of one group (R169, R170, R317). -/
def groupDue (s : State) (g : Group) : List Instr :=
  let set := activeSet s g.core g.slot
  let room : Bool := set.length < 8 || set.any (fun x => x.st = .blocked) || decide (1024 ≤ (coreNow s g.core - g.since).toNat)
  (if g.sides.any (limitPassed (coreNow s g.core)) then [.waitsLimitExpiry g.id] else [])
    ++ (if g.st = .pending && room then [.groupPromote g.id] else [])

/-- Events of one team (R260, R311, R471). -/
def teamDue (s : State) (t : Team) : List Instr :=
  (if t.unstarted.any fun p => p.2.toNat ≤ s.now.toNat then [.coreStart t.id] else [])
    ++ (if t.waiting.isSome && t.walkedAt.all (fun w => decide (65536 ≤ (s.now - w).toNat)) then [.relaunchWalk t.id] else [])
    ++ (if preemptDue s t then [.preemptDeadlineExpiry t.id] else []) ++ (if (overrun s t).isSome then [.saveOverrun t.id] else [])

def binDue (s : State) (b : Bin) : List Instr := if drawDue s b then [.reformDraw b.core b.num] else []

/-! ## Engines -/

/-- An operation that can move on (R394, R395, R399). -/
def opDue (s : State) (o : AsyncOp) : List Instr :=
  let port : Bool := match o.window with
    | some w => o.moved || (getLink s (w / 64)).st != .training && (o.pos < o.len || allAcked s o.id)
    | none => true
  if (!o.moved || o.waiting.isSome) && pageReady s o.ctx o.waiting && !rowHeld s o && port && !(o.kind = .trace && !o.moved && rayAbandoned s o) then [.asyncOpComplete o.id] else []

def gsigDue (s : State) (x : OwedGsig) : List Instr :=
  if (s.ops.any fun o => x.ops.contains o.id) || !pageReady s (gsigEnv s x).ctx x.waiting then [] else [.gsigWrite x.id]

/-! ## The front end -/

def unitEvent (gn i unit : Nat) : List Instr :=
  match unit with
  | 0 => [.rasteriseTriangle gn i]
  | 1 => [.traverseRay gn i]
  | 2 => [.blendRecord gn i]
  | 3 => [.solderRecord gn i]
  | _ => []

/-- A fixed-function unit at work (R422): its configuration, its output, its next record. -/
def unitDue (s : State) (g : Graph) (i : Nat) (n : Node) : List Instr :=
  let flush := (getCtx s g.ctx).st = .preempting
  let next := (inEdge g i 0).bind fun k => g.edges[k]?
  let record : Bool := ctxRuns s g.ctx && next.any fun e => e.untaken != 0
  if !(ctxRuns s g.ctx || flush) || !pageReady s g.ctx n.waiting then []
  else if n.outbox != [] || (ctxRuns s g.ctx && n.config.isNone) || record then unitEvent g.num i n.unit
  else []

/-- A node whose work is over (R298, R300, R303). -/
def nodeOver (s : State) (g : Graph) (i : Nat) (n : Node) : Bool :=
  match n.kind with
  | 2 => n.st = .draining && n.outbox = [] && unitReady n && pageReady s g.ctx n.waiting
  | 4 => n.st = .running && pageReady s g.ctx n.waiting && nodesWhere g (fun x j => bodyOf n j && x.st != .done) = []
  | _ => (s.launches.any fun l => l.graph = some (g.num, i) && l.settled && !s.teams.any fun t => t.launch = l.id) && !nodeChildren s g.num i

def graphDue (s : State) (g : Graph) : List Instr :=
  if !g.run || ctxSaved s g.ctx then []
  else
    (g.nodes.zipIdx.flatMap fun p =>
        (if p.1.kind = 2 && p.1.atWork then unitDue s g p.2 p.1 else [])
          ++ (if nodeOver s g p.2 p.1 then [.nodeDone g.num p.2] else []))
      ++ (g.edges.zipIdx.flatMap fun p => if brassNode g p.1 && p.1.untaken != 0 then [.brassEncode g.num p.2 g.frame] else [])
      ++ (if g.nodes.all Node.ended && unsentEdges s g = [] then [.runEnd g.num] else [])

def launchDue (s : State) (l : Launch) : List Instr :=
  let part := (getCtx s l.ctx).part
  (if l.dispatched && !l.fetched && pageReady s l.ctx l.waiting then [.launchArgsFetch l.id] else [])
    ++ (if placeable s part l then [.teamPlace part] else [])
    ++ (if taskOver s l && !ctxSaved s l.ctx && (!l.settled || (pageReady s l.ctx l.waiting && !s.teams.any fun t => t.launch = l.id)) then [.taskComplete l.id l.cost] else [])
    ++ (match takesRecords s l with
        | some (g, i) =>
          let waiting := (s.teams.filter fun t => t.launch = l.id && !t.took).length
          if l.fetched && ctxRuns s l.ctx && pageReady s l.ctx l.waiting && waiting < (inputs g i).foldl (fun n e => n + e.untaken) 0 then [.recordTeamAdmit l.id] else []
        | none => [])

/-! ## Contexts, partitions and queues -/

def ctxDue (s : State) (c : Context) : List Instr :=
  match c.st with
  | .preempting => if saveOver s c.num then [.contextSaved c.num] else []
  | .saved => if c.heldRestore then [.restoreAdmit c.num] else []
  | .restoring => if s.groups.any fun g => ctxOf s g = c.num && toReload g then [.restoreAdmit c.num] else []
  | .destroyed => [.contextScrubDone c.num]
  | _ => []

/-- Events of one partition. DESIGN CHOICE, log entry 121: the common base of a rebase that comes due is 2^46 (R216). -/
def partDue (s : State) (p : Partition) : List Instr :=
  (if p.scrubbing then [.partitionScrubDone p.pid] else []) ++ (if clockHigh s p then [.clockRebase p.pid (2 ^ 46)] else [])
    ++ (if s.teams.any (relaunchable s p.pid) then [.teamPlace p.pid] else [])
    ++ (if s.cuts.any fun c => c.busy && (getGraph s c.graph).any fun g => g.part = p.pid then [.cutMoveEnd p.pid] else [])

def queueDue (s : State) (x : Queue) : List Instr :=
  (if x.st = .waiting && decide (65536 ≤ (s.now - x.parkedSince).toNat) then [.queueWaitTimeout x.page x.q] else [])
    ++ (if watchdogDue s x then [.queueWatchdog x.page x.q] else [])
    ++ (if x.hasNext then
          (match (packetAt s x x.head).2 with
           | some n => (packetEvent (pagePriv s x.page) (x.space s).isNone x.page x.q n).toList
           | none => [])
        else [])

/-- The next swap of slots (R278). -/
def swapDue (s : State) : List Instr :=
  match firstReady s with
  | none => []
  | some r =>
    if slotFree s then [.queueSwap r.page r.q]
    else (longestWaiting s).toList.map fun w => .queueSwap w.page w.q

/-! ## Links -/

def linkDue (s : State) (l : Link) : List Instr :=
  (if l.st = .training && trainingLimit ≤ (s.now - l.since).toNat then [.trainingTimeout l.port] else [])
    ++ (if l.st.up && l.pairs.any (fun p => p.unacked.any (resendDue s l)) then [.controlResend l.port] else [])
    ++ ((l.neighbors.filter fun n => decide (neighborLife ≤ (s.now - n.confirmed).toNat)).map fun n => .neighborCacheExpiry l.port n.ip)
    ++ ((l.unresolved.filter fun u => decide (l.rtoCounts ≤ (s.now - u.since).toNat)).map fun u =>
        .neighborResolutionTimeout l.port u.peer)

def remoteDue (s : State) (r : RemoteEdge) : List Instr :=
  match getGraph s r.graph with
  | none => []
  | some g =>
    let frames := match r.delivering with
      | some (f, _) => [Instr.frameClose r.graph r.edge f]
      | none => (r.frames.filter (closeDue s r)).map fun x => .frameClose r.graph r.edge x.frame
    frames ++ match g.edges[r.edge]? with
      | some e =>
        if g.run && e.away && !e.closed && (g.nodes[e.src]?).any Node.owned && (e.untaken != 0 || producerOver g e) then
          [.brassEncode r.graph r.edge g.frame]
        else []
      | none => []

/-! ## Everything -/

/-- The stage of start-up that comes next (R465). -/
def startDue (s : State) : List Instr :=
  match s.stage.toNat with
  | 0 => [.moduleReset]
  | 1 => [.fuseLoad]
  | 2 => [.channelTraining s.trained.length (Config.channelsTrain s.trained.length)]
  | 3 => [.memoryZero]
  | 4 => [.firmwareLoad Config.firmwareGood]
  | 5 => [.macEnable]
  | _ => []

/-- What is due of a module that is READY. -/
def readyDue (s : State) : List Instr :=
  s.groups.flatMap (groupDue s) ++ s.teams.flatMap (teamDue s) ++ s.bins.flatMap (binDue s) ++ s.ops.flatMap (opDue s)
    ++ s.gsigs.flatMap (gsigDue s) ++ s.graphs.flatMap (graphDue s) ++ s.launches.flatMap (launchDue s) ++ s.ctxs.flatMap (ctxDue s)
    ++ s.parts.flatMap (partDue s) ++ s.queues.flatMap (queueDue s) ++ swapDue s ++ s.links.flatMap (linkDue s)
    ++ s.remotes.flatMap (remoteDue s)

def due (s : State) : List Instr := if s.stage = 6 then readyDue s else startDue s

/-- All that the device has to do: what is owed, then what is due besides. -/
def jobs (s : State) : List Instr := s.work ++ (due s).filter fun i => !s.work.contains i

/-! ## The passage of time (R213, R220, R285, R467) -/

/-- Periods of 1024 counts: every core with a resident group gains a tick, ports begin a period, and partitions with
something to dispatch make a round. Every fourth is a period of the power controller too (R467; log entry 109). -/
def periodBoundary (s : State) : State :=
  let s := { s with cores := s.cores.map fun (k : Core) => if resident s k.id then { k with clk := k.clk + 1 } else k }
  let s := (s.parts.filter fun p => s.ctxs.any (bucketed p.pid)).foldl (fun s p => owe s (.portPeriodBoundary p.pid)) s
  let round (p : Partition) : Bool := p.v && ((List.range 16).any fun t => readyTasks s p.pid t != [] || 0 < deficitOf p t)
  let s := (s.parts.filter round).foldl (fun s p => owe s (.tenantRound p.pid)) s
  if s.now.toNat % 4096 != 0 then s
  else
    let (s, power) := measuredPower s
    powerSteps power s

/-- The time base moves on, and lowered clocks fall behind it (R20, R323). -/
def countTime (s : State) (dt : Nat) : State :=
  { s with
    now := BitVec.ofNat 64 (s.now.toNat + dt)
    dies := s.dies.map fun (d : DieState) => { d with lag := d.lag + dt * (21 - d.clock) } }

/-- Time passes, at most to the next boundary of 1024 counts. -/
def passTime (s : State) (dt : Nat) : State :=
  let next := (s.now.toNat / 1024 + 1) * 1024
  if s.now.toNat + dt < next then countTime s dt
  else
    let s := countTime s (next - s.now.toNat)
    if s.stage = 6 then periodBoundary s else s

end Sys2Proof.Machine
end

