-- ==== Sys2Proof/Machine/Turns.lean ====
section
/-! DEFINITION. Turns: who acts next, how a fragment fetches and issues its next word, and what the outside brings (R62, R63,
R108, R134, R135, R313 to R320, R370, R465; log entry 1). -/

namespace Sys2Proof.Machine

/-! ## Groups that can issue (R108, R313, R314) -/

/-- A group on a started core with a running side, which no forced save has stopped (R261). -/
def Group.ready (s : State) (g : Group) : Bool :=
  (g.st = .active || g.st = .trapped || g.st = .pending) && g.hasRunning && !g.stopping && coreStarted s g

/-- A group that gives way to another ready group of its scheduler (R108). -/
def givesWay (s : State) (g : Group) : Bool :=
  g.yielded && s.groups.any fun o => o.id != g.id && o.core = g.core && o.slot % 4 = g.slot % 4 && o.ready s

def canIssue (s : State) (g : Group) : Bool :=
  s.stage = 6 && (g.st = .active || g.st = .trapped) && g.hasRunning && !g.stopping && coreStarted s g && !givesWay s g

/-- The fragments that can issue, each by its group and one of its slices. -/
def runnable (s : State) : List (Nat × Nat) :=
  (s.groups.filter (canIssue s)).flatMap fun g => (g.sides.filter fun x => x.st = .running).map fun x => (g.id, x.slice)

/-! ## Fetch and fusion (R63, R134, R288, R370) -/

/-- Whether a word of a kernel is marked in its branch-target bitmap; what cannot be fetched reads as marked (R288).
DESIGN CHOICE, log entry 119: so does a word outside the CODELEN words from CODE, for which the bitmap has no bit. -/
def markedTarget (s : State) (g : Group) (pc : W64) : State × Bool :=
  match launchOf s g with
  | none => (s, true)
  | some l =>
    let w := (pc - l.blk.code).toNat / 16
    if l.blk.btmap = 0 || l.blk.codelen ≤ w then (s, true)
    else match fetchWord s g (l.blk.btmap + BitVec.ofNat 64 (w / 128 * 16)) with
      | (s, .word m) => (s, m.getLsbD (w % 128))
      | (s, .fault _ _) => (s, true)

/-- A word of a possible fused sequence, after the first: not marked, and fetched. -/
def laterWord (s : State) (g : Group) (pc : W64) : State × Decoded :=
  match markedTarget s g pc with
  | (s, true) => (s, .reject .short)
  | (s, false) =>
    match fetchWord s g pc with
    | (s, .word w) => (s, decode w)
    | (s, .fault _ _) => (s, .reject .short)

/-- The instruction that a word begins: itself, or the sequence that it is fused with. Lanes that are owed a part of a word
only are issued that word. -/
def fusedWith (s : State) (F : Frag) (i : Instr) : State × Instr :=
  match i with
  | .reduce f =>
    if f.e != 2 || F.key.only != allLanes || F.key.noGuard then (s, i)
    else
      let (s, b) := laterWord s F.g (F.key.pc + 16)
      let (s, c) := laterWord s F.g (F.key.pc + 32)
      let (s, d) := laterWord s F.g (F.key.pc + 48)
      match fuse (.ok i) b c d with
      | some j => if overBudget s F.g j then (s, i) else (s, j)
      | none => (s, i)
  | _ => (s, i)

/-- The instruction or event that the fragment's next turn is. -/
def nextInstr (s : State) (F : Frag) : State × Instr :=
  match fetchWord s F.g F.key.pc with
  | (s, .fault cause _) => (s, .instructionFetchFault cause)
  | (s, .word w) =>
    match decode w with
    | .reject _ => (s, .illegalInstruction w)
    | .ok i => fusedWith s F i

/-! ## A fragment's turn -/

/-- The fragment is the issuing one; its group has given way, if it had to (R108). -/
def beginIssue (s : State) (gid slice : Nat) : State :=
  { s with groups := s.groups.map fun g => if g.id = gid then { g with yielded := false } else g, cur := some (gid, slice) }

/-- The word at a group's turn has only met a full table or an operand that is not there yet: it is still to issue. -/
def wordHeld (s : State) (gid slice : Nat) : Bool :=
  ((getGroup s gid).map Group.sides).getD [] |>.any fun x => x.slice = slice && match x.st with
    | .park (.load _) | .park (.mma _) | .park .rangeLock => true
    | _ => false

/-- An instruction that a group has issued frees the others of its scheduler that waited for one (R108): not a word still held,
nor a fetch that has faulted, which issues nothing (R370). -/
def freeYielders (s : State) (g : Group) (slice : Nat) (i : Instr) : State :=
  let issued : Bool := match i with
    | .instructionFetchFault _ => false
    | _ => !wordHeld s g.id slice
  if !issued then s
  else
    let near (o : Group) : Bool := o.id != g.id && o.core = g.core && o.slot % 4 = g.slot % 4
    { s with groups := s.groups.map fun o => if near o then { o with yielded := false } else o }

/-- The turn is over: no fragment is issuing. -/
def endIssue (s : State) : State := { s with cur := none }

/-- A due timer is taken before the next word, unless a handler runs; a fragment in the middle of a word, such as a BAR.m or an
LDF, takes it after that word (R328, R333). -/
def takesTimer (F : Frag) : Bool := F.g.timerDue && !F.g.tm && F.key.ph.isNone && !F.key.noGuard

/-- One turn of a fragment. -/
def issueTurn (s : State) (gid slice : Nat) : Res :=
  match fragAt s gid slice with
  | none => .next s
  | some F =>
    if !canIssue s F.g then .next s
    else if takesTimer F then .next (timerTrap s F.g F.key F.lanes)
    else
      let (s, i) := nextInstr (beginIssue s gid slice) F
      match exec i s with
      | .next s => .next (endIssue (freeYielders s F.g slice i))
      | r => r

/-! ## Turns of the device's units and of the outside -/

/-- A unit acts; where its object has gone there is nothing to do. -/
def act (i : Instr) (s : State) : Res :=
  match exec i s with
  | .fault (.noSuchObject _) => .next s
  | r => r

/-- The k-th job of the device. -/
def workTurn (s : State) (k : Nat) : Res :=
  match (jobs s)[k]? with
  | none => .next s
  | some i => act i { s with work := s.work.filter fun j => j != i }

/-- What the outside may do at any stage. -/
def startInput : Instr → Bool
  | .moduleReset | .fuseLoad | .channelTraining _ _ | .memoryZero | .firmwareLoad _ | .macEnable | .supplyFault
  | .correctedSoftError | .registerWrite _ _ | .hostCxlMemRead _ _ | .hostCxlMemWrite _ _ | .hostSnoop _ _ => true
  | _ => false

/-- What the host, the network and the environment bring to a module that is READY. -/
def readyInput : Instr → Bool
  | .trPrqWrite _ _ | .trInvGo _ _ | .vcpNotify _ _ | .vcpErrClear _ _ | .linkEnable _ _ | .linkDisable _ _ | .pcsLinkUp _
  | .pcsLinkLoss _ | .neighborSolicitation _ _ | .data _ _ | .parity _ _ | .frame _ _ | .cutPropose _ _ | .cutAccept _ _
  | .cutReject _ _ | .stateXfer _ _ | .stateAck _ _ | .refMiss _ _ | .cack _ _ | .ldata _ _ | .lack _ _ | .sensorResample _
  | .patrolScrub _ _ | .uncorrectableError _ => true
  | _ => false

/-- The next input, where the module's stage takes it. -/
def inputTurn (s : State) : Res :=
  match s.inputs with
  | [] => .next s
  | i :: rest =>
    let s := { s with inputs := rest }
    if (s.stage != 15 && startInput i) || (s.stage = 6 && readyInput i) || i = .moduleReset then act i s else .next s

/-- A core's clock gains a tick. -/
def clockTurn (s : State) (core : Nat) : State :=
  let k := getCore s core
  if resident s core then setCore s { k with clk := k.clk + 1 } else s

/-- A core's L0 and L1 TLB take a copy of an entry of the core's die, its L0 one of its L1 (R368). -/
def fillCore (s : State) (core k : Nat) : State :=
  let take (t : TlbEntry) (ps : List TlbPlace) : State :=
    { s with tlb := (ps.map fun p => { t with place := p }).foldl (putTlb t.asid t.page) s.tlb }
  match s.tlb[k]? with
  | some t =>
    if t.place = .die (dieOf core) then take t [.l0 core, .l1 core] else if t.place = .l1 core then take t [.l0 core] else s
  | none => s

/-- A turn of the module's own: a fragment, a unit, a copy that leaves a cache, a clock. -/
def ownTurn (s : State) : Who → Res
  | .fragment gid slice => issueTurn s gid slice
  | .work k => workTurn s k
  | .evictL1 core line => .next (evictLine s core line)
  | .evictRdc die line => .next { s with rdc := s.rdc.filter fun x => !(x.1 = die && x.2.line = line) }
  | .evictTlb k => .next { s with tlb := s.tlb.eraseIdx k }
  | .evictWalk k => .next { s with walkCache := s.walkCache.eraseIdx k }
  | .evictCode core key =>
    let k := getCore s core
    .next (setCore s { k with icache := k.icache.filter fun x => x.1 != key })
  | .fillTlb core k => .next (fillCore s core k)
  | .passTlb k => .next { s with tlb := s.tlb.modify k fun t => { t with passed := !t.passed } }
  | .drainStore core => .next (drainOne s core)
  | .clock core => .next (clockTurn s core)
  | .walk ctx die va acc => .next (owe (beginWalk s ctx die va) (.pageWalk ctx die va acc))
  | .input | .idle => .next s

/-- One turn. A module that has stopped does nothing of its own (R466). What a turn has brought into a full L1 makes room there
(R208). -/
def turn (s : State) (w : Who) : Res :=
  let s := if s.stage = 6 then fireTimers s else s
  match (if w = .input then inputTurn s else if s.stage = 15 then .next s else ownTurn s w) with
  | .next s => .next (if s.stage = 15 then s else boundCaches s)
  | r => r

/-! ## The turn that comes next (log entry 1) -/

/-- With nothing laid down, fragments, units and the outside take turns. -/
def freeTurn (s : State) : Turn :=
  let frags := runnable s
  let js := jobs s
  let n := s.tick / 3
  let frag : Option Who := (frags[n % max 1 frags.length]?).map fun p => .fragment p.1 p.2
  let work : Option Who := if js = [] then none else some (.work (n % js.length))
  let outside : Option Who := if s.inputs = [] then none else some .input
  let who := match s.tick % 3 with
    | 0 => frag.or (work.or outside)
    | 1 => work.or (outside.or frag)
    | _ => outside.or (frag.or work)
  match who with
  | some w => ⟨1, w⟩
  | none => ⟨1024, .idle⟩

/-- The turns laid down come first. -/
def takeTurn (s : State) : Turn × State :=
  match s.turns with
  | t :: rest => (t, { s with turns := rest })
  | [] => (freeTurn s, { s with tick := s.tick + 1 })

end Sys2Proof.Machine
end

