-- ==== Sys2Proof/Machine/Placing.lean ====
section
/-! DEFINITION. A module with one instruction placed: what the loading of a program, a queue's packets, a trigger and the
placer otherwise bring about (log entry 19). -/

namespace Sys2Proof.Machine

/-- Where the placed code lies, virtual and physical: one 1 GiB page maps both alike. -/
def placedCode : Nat := 0x4000
/-- Its branch-target bitmap, all zero. -/
def placedMap : Nat := 0x5000
/-- The trap handler's address. -/
def placedTrap : Nat := 0x6000

/-- The one role's budgets are the largest there are (R289). -/
def placedBlock : LaunchBlock :=
  { va := 0x7000, code := BitVec.ofNat 64 placedCode, codelen := 4, btmap := BitVec.ofNat 64 placedMap, const := 0x8000, args := 0,
    arglen := 0, span := 1, roles := [⟨BitVec.ofNat 64 placedCode, 1024, 256, 128, 1, 32⟩], gx := 1, gy := 1, gz := 1, scratch := 1024,
    recsz := 255, v0scale := 4, seed := 0, savepc := 0x9000, trapbase := BitVec.ofNat 64 placedTrap, deadline := 20000,
    relaunch := false, depthf := false, flush := false, coven := false, cov := 0 }

/-- Page tables of three levels at 0x1000, 0x2000 and 0x3000: the first GiB, readable, writable and executable. -/
def placedTables (m : Memory) : Memory :=
  writeBytes (writeBytes (writeBytes m 0x1000 (leBytes 8 0x2001)) 0x2000 (leBytes 8 0x3001)) 0x3000 (leBytes 8 0x379)

/-- The memory with the instruction's 64 bytes and a bitmap that marks no word. -/
def placedMemory (m : Memory) (nbits w : Nat) : Memory :=
  writeBytes (writeBytes (placedTables m) placedCode (leBytes 64 (w % 2 ^ nbits))) placedMap (leBytes 16 0)

/-- Partition 0 with the first GiB homed on die 0. -/
def placedPart (p : Partition) : Partition :=
  { p with v := true, qdies := p.qdies ||| 1, homes := sset p.homes 0 0x80, pendingInv := [] }

def placedCtx (c : Context) : Context := { c with st := .running, part := 0, root := 0x1000, ptroot := 0x1000 }

/-- The launch, its team and its group, numbered from an id. -/
def placedLaunch (id : Nat) : Launch := { newLaunch id 0 placedBlock 0 with dispatched := true, fetched := true, next := 1, resident := 1 }
def placedTeam (id launch : Nat) : Team := newTeam id (placedLaunch launch) 0 [0]

/-- The state with the instruction placed. -/
def placeWord (s : State) (nbits w : Nat) : State :=
  let id := s.nextId
  let l := placedLaunch id
  let core := getCore s 0
  let s := { s with
    stage := 6, mem := placedMemory s.mem nbits w, tlb := s.tlb.filter fun t => t.part != 0
    walkCache := s.walkCache.filter fun c => c.part != 0, misses := s.misses.filter fun m => m.part != 0
    poison := s.poison.filter fun l => 512 ≤ l, nextId := id + 3, turns := ⟨1, .fragment (id + 2) 0⟩ :: s.turns, cur := none }
  let s := setCtx (setPart s (placedPart (getPart s 0))) (placedCtx (getCtx s 0))
  let s := setLaunch (setTeam (setCore s { core with icache := [] }) (placedTeam (id + 1) id)) l
  let g := freshGroup s l (id + 1) (id + 2) 0 0 0 0 0 allLanes (BitVec.ofNat 64 placedCode)
  setGroup s { g with st := .active, placed := true }

end Sys2Proof.Machine
end

