-- ==== Sys2Proof/Machine/Step.lean ====
section
/-! DEFINITION. The step: time passes, and whoever's turn it is acts (log entry 1). -/

namespace Sys2Proof.Machine

/-- One step of the module. -/
def step (s : State) : Host.Outcome State Fault Refusal :=
  let t := takeTurn s
  turn (passTime t.2 t.1.dt) t.1.who

/-- The state with an instruction stored where the very next step fetches: a module that is READY, with a team of one group
resident whose turn it is (log entry 19). -/
def State.withFetchWord (s : State) (nbits w : Nat) : State := placeWord s nbits w

end Sys2Proof.Machine
end

