-- ==== Sys2Proof/Safety.lean ====
section
/-! DEFINITION. What counts as a safe run, one in which no step stops, and the terms that the claims are stated in. -/

namespace Sys2Proof.Machine

/-- `k` steps from `s` none of which faults or is refused. -/
def Safe : Nat → State → Prop
  | 0, _ => True
  | k + 1, s => ∃ t, step s = .next t ∧ Safe k t

/-- A property that a step keeps, whenever it answers a next state. -/
def KeptByStep (P : State → Prop) : Prop :=
  ∀ s t, P s → step s = .next t → P t

/-! ## A word that issues -/

/-- F issues the word i in s: the word is legal (R62), within the role's budgets (R54), and waits for no register and no tile
(R55, R188, R191). -/
structure Issues (s : State) (F : Frag) (i : Instr) : Prop where
  issuing : issuing s = some F
  legal : i.legal = true
  budget : overBudget s F.g i = false
  free : interlock s F.g i = none

/-- No trap of the group is about to end: it is not in trap mode, or lanes of its handler are live and not all of them wait at
TRET (R332). -/
def trapHeldOpen (g : Group) : Prop :=
  g.tm = false ∨ (tretGathered g = none ∧ liveLanes g &&& g.trapLanes ≠ 0)

/-- F has lanes, and no trap of its group is about to end. -/
def Frag.quiet (F : Frag) : Prop := F.lanes ≠ 0 ∧ trapHeldOpen F.g

/-- The sides of F's group once every lane of F has gone to PC + 16 (R101, R319). -/
def nextSides (F : Frag) : List Side :=
  normSides (F.g.sides.map fun x => if F.key.sameFragment x then x.goto (x.pc + 16) else x)

/-! ## What a word leaves in the registers -/

/-- The group `g'` is F's group but for D: in each active lane the value v(L), in one register or, with `w`, in an even pair
(R44); or, where DS = 1, the scalar register D once, from the lowest active lane, when a lane is active (R45, R49). -/
structure ValueResult (F : Frag) (f : Fields) (w : Bool) (v : Nat → Nat) (g' : Group) : Prop where
  rest : g' = { F.g with vregs := g'.vregs, sregs := g'.sregs }
  vector : ∀ r L, L < 32 → getV g' r L =
    if f.ds = false ∧ (activeOf F f).getLsbD L = true ∧ r = f.d.toNat then BitVec.ofNat 32 (v L)
    else if f.ds = false ∧ w = true ∧ (activeOf F f).getLsbD L = true ∧ r = f.d.toNat + 1 then BitVec.ofNat 32 (v L / 2 ^ 32)
    else getV F.g r L
  scalar : ∀ r, getS g' r =
    if f.ds = true ∧ activeOf F f ≠ 0 ∧ r = f.d.toNat then
      BitVec.ofNat 64 (if w then v (lowestLane (activeOf F f)) else v (lowestLane (activeOf F f)) % 2 ^ 32)
    else getS F.g r

/-- The group `g'` is F's group but for register d: v(L) in each lane of `act`, in one register or, with `w`, in an even pair
(R44); or, with `ds`, x once in the scalar register, where `act` has a lane (R49). -/
structure RegisterResult (F : Frag) (d : Nat) (ds w : Bool) (act : Mask) (v : Nat → W64) (x : W64) (g' : Group) : Prop where
  rest : g' = { F.g with vregs := g'.vregs, sregs := g'.sregs }
  vector : ∀ r L, L < 32 → getV g' r L =
    if ds = false ∧ act.getLsbD L = true ∧ r = d then (v L).extractLsb' 0 32
    else if ds = false ∧ w = true ∧ act.getLsbD L = true ∧ r = d + 1 then (v L).extractLsb' 32 32
    else getV F.g r L
  scalar : ∀ r, getS g' r = if ds = true ∧ act ≠ 0 ∧ r = d then x else getS F.g r

/-- The group `g'` is F's group but for predicate D of each active lane, a write to p15 being discarded (R46). -/
structure PredResult (F : Frag) (f : Fields) (d : Nat) (v : Nat → Bool) (g' : Group) : Prop where
  rest : g' = { F.g with preds := g'.preds }
  preds : ∀ n L, L < 32 → getP g' n L =
    if d ≠ 15 ∧ n = d ∧ (activeOf F f).getLsbD L = true then v L else getP F.g n L

/-- i completes with the value v in D: nothing else of the state changes but that every lane of F goes to PC + 16. -/
def ValueWord (i : Instr) (f : Fields) (w : Bool) (v : State → Frag → Nat → Nat) : Prop :=
  ∀ s F, Issues s F i → F.quiet →
    ∃ g', ValueResult F f w (v s F) g' ∧ exec i s = .next (setGroup s { g' with sides := nextSides F })

/-- i completes with the predicate v in D, and so on. -/
def PredWord (i : Instr) (f : Fields) (v : State → Frag → Nat → Bool) : Prop :=
  ∀ s F, Issues s F i → F.quiet →
    ∃ g', PredResult F f f.d.toNat (v s F) g' ∧ exec i s = .next (setGroup s { g' with sides := nextSides F })

/-- i completes with v in vector register D of each active lane (a pair with `w`), and with p in predicate `pd`. -/
def ValueAndPredWord (i : Instr) (f : Fields) (w : Bool) (pd : Nat) (v : State → Frag → Nat → Nat)
    (p : State → Frag → Nat → Bool) : Prop :=
  ∀ s F, Issues s F i → F.quiet →
    ∃ g', g' = { F.g with vregs := g'.vregs, preds := g'.preds } ∧
      (∀ r L, L < 32 → getV g' r L =
        if (activeOf F f).getLsbD L = true ∧ r = f.d.toNat then BitVec.ofNat 32 (v s F L)
        else if w = true ∧ (activeOf F f).getLsbD L = true ∧ r = f.d.toNat + 1 then BitVec.ofNat 32 (v s F L / 2 ^ 32)
        else getV F.g r L) ∧
      (∀ n L, L < 32 → getP g' n L =
        if pd ≠ 15 ∧ n = pd ∧ (activeOf F f).getLsbD L = true then p s F L else getP F.g n L) ∧
      exec i s = .next (setGroup s { g' with sides := nextSides F })

/-- i completes with v in vector register D of each active lane (a pair with `w`), and changes nothing else. -/
def LaneWord (i : Instr) (f : Fields) (w : Bool) (v : State → Frag → Nat → Nat) : Prop :=
  ∀ s F, Issues s F i → F.quiet →
    ∃ g', g' = { F.g with vregs := g'.vregs } ∧
      (∀ r L, L < 32 → getV g' r L =
        if (activeOf F f).getLsbD L = true ∧ r = f.d.toNat then BitVec.ofNat 32 (v s F L)
        else if w = true ∧ (activeOf F f).getLsbD L = true ∧ r = f.d.toNat + 1 then BitVec.ofNat 32 (v s F L / 2 ^ 32)
        else getV F.g r L) ∧
      exec i s = .next (setGroup s { g' with sides := nextSides F })

/-- Operand A, B and C of a word's TYPE in a lane, as bits (R40 to R45); `one` says that A is the only value source. -/
def srcA (f : Fields) (one : Bool) (s : State) (F : Frag) (L : Nat) : Nat := bitsA s F.g f one f.ty L
def srcB (f : Fields) (s : State) (F : Frag) (L : Nat) : Nat := bitsB s F.g f f.ty L
def srcC (f : Fields) (s : State) (F : Frag) (L : Nat) : Nat := bitsC s F.g f f.ty L
/-- B as one 32-bit operand, whatever the TYPE (R114, R115). -/
def countB (f : Fields) (s : State) (F : Frag) (L : Nat) : Nat := bitsB s F.g f 2 L

/-- Element j of a value of a TYPE, as the integer it stands for (R64, R82). -/
def intElement (ty b j : Nat) : Int :=
  let x : BitVec (elements ty).2 := BitVec.ofNat _ (b / 2 ^ ((elements ty).2 * j))
  match tyKind ty with
  | .int true _ => x.toInt
  | _ => x.toNat

/-- Every element of `x` is what `h` gives for the elements of the sources, wrapped, or with `sat` clamped to the kind's range
(R112); `x` has no bits above its elements. -/
def IntElements (ty : Nat) (sat : Bool) (h : List Int → Int) (srcs : List Nat) (x : Nat) : Prop :=
  x < 2 ^ ((elements ty).1 * (elements ty).2) ∧ ∀ j, j < (elements ty).1 →
    (x / 2 ^ ((elements ty).2 * j) % 2 ^ (elements ty).2 : Nat) =
      (let y := h (srcs.map fun b => intElement ty b j)
       (if sat then satInt (tyKind ty) y else y) % 2 ^ (elements ty).2 : Int)

/-- i completes with a value in D whose elements are what `h` gives for the elements of the sources (R112). -/
def IntWord (i : Instr) (f : Fields) (sat : Bool) (h : List Int → Int) (srcs : State → Frag → Nat → List Nat) : Prop :=
  ∀ s F, Issues s F i → F.quiet →
    ∃ v g', (∀ L, IntElements f.ty sat h (srcs s F L) (v L)) ∧ ValueResult F f (wide f.ty) v g' ∧
      exec i s = .next (setGroup s { g' with sides := nextSides F })

/-- B, or another operand, as a register of a given TYPE. -/
def srcOf (sel : BitVec 2) (r : BitVec 10) (ty : Nat) (s : State) (F : Frag) (L : Nat) : Nat := regBits s F.g sel r ty L

/-! ## Traps -/

/-- No handler of the group runs, no side waits at TRET, F has lanes, and there is a handler to enter (R328). -/
def Frag.calm (F : Frag) : Prop :=
  F.lanes ≠ 0 ∧ F.g.tm = false ∧ (∀ x ∈ F.g.sides, x.atTret = false) ∧ F.g.trapbase ≠ 0

/-- F's group, as `g` stands, after a trap of F has been taken (R328): the special registers, trap mode with the lanes of F,
what TRET gives back, and every lane of F at the trap base with counter 0, as a handler. -/
def trapGroup (F : Frag) (g : Group) (cause : BitVec 8) (eaddr : W64) (replay : Mask) : Group :=
  { g with
    cause := cause, epc := F.key.pc, eaddr := eaddr, replay := replay, tm := true, trapLanes := F.lanes,
    kept := (F.g.sides.filter fun x => F.key.sameFragment x).map fun x =>
      KeptSide.mk x.slice x.lanes x.pc x.ctr (F.g.regions.getD x.slice 0) x.ph
    rejoinTrap := Rejoin.clear, st := if F.g.st = .active then .trapped else F.g.st
    sides := normSides (F.g.sides.map fun x =>
      if F.key.sameFragment x then { x.goto F.g.trapbase with ctr := 0, handler := true } else x) }

/-- The state after a trap of F that has changed nothing else. -/
def afterTrap (s : State) (F : Frag) (cause : BitVec 8) (eaddr : W64) (replay : Mask) : State :=
  setGroup s (trapGroup F F.g cause eaddr replay)

/-- A fault that names no address: sr.eaddr receives a free value (log entry 2). -/
def afterPlainTrap (s : State) (F : Frag) (cause : BitVec 8) (replay : Mask) : State :=
  afterTrap { s with free := s.free + 1 } F cause (BitVec.ofNat 64 (Config.free s.free)) replay

/-- The lanes whose result a word computes: every active one, or for a scalar D the lowest (R45, R49). -/
def seenLanes (F : Frag) (f : Fields) : List Nat :=
  if f.ds then (lanesOf (activeOf F f)).take 1 else lanesOf (activeOf F f)

/-- i completes with the value v in D where no lane overflows; where one does, nothing is written and cause 0x0A traps
(R79). -/
def OverflowWord (i : Instr) (f : Fields) (w : Bool) (v : State → Frag → Nat → Option Nat) : Prop :=
  ∀ s F, Issues s F i →
    (F.quiet → (∀ L ∈ seenLanes F f, (v s F L).isSome) →
      ∃ g', ValueResult F f w (fun L => (v s F L).getD 0) g' ∧
        exec i s = .next (setGroup s { g' with sides := nextSides F }))
    ∧ (F.calm → (∃ L ∈ seenLanes F f, v s F L = none) →
      exec i s = .next (afterPlainTrap s F 0x0A (activeOf F f)))

/-! ## Memory -/

/-- t is s but for what accesses of lanes leave in the memory system: bytes, stamps and leases, copies, core clocks, poison
that whole lines written take away, tokens of slice ports, and wakes owed to waits (R169, R209, R212, R220, R470). -/
structure AccessFrame (s t : State) : Prop where
  rest : t = { s with
    cores := t.cores, mem := t.mem, hostMem := t.hostMem, poison := t.poison, hostPoison := t.hostPoison, ws := t.ws, le := t.le
    hostWs := t.hostWs, hostLe := t.hostLe, hostLines := t.hostLines, rdc := t.rdc, ports := t.ports, work := t.work }
  cores : ∀ c, { getCore t c with clk := 0, l1 := [] } = { getCore s c with clk := 0, l1 := [] }
  poison : ∀ l ∈ t.poison, l ∈ s.poison
  hostPoison : ∀ l ∈ t.hostPoison, l ∈ s.hostPoison
  work : ∀ i ∈ t.work, i ∈ s.work ∨ ∃ h l, i = .waitaWake h l

/-- A page that a TLB on the core's way holds (R368) takes an access at va, without a walk, to physical address pa of module or host memory, past L1
where `direct`. -/
structure OnPage (s : State) (v : Env) (va : W64) (a : Access) (host : Bool) (pa : Nat) (direct : Bool) : Prop where
  plain : triggerAt s v.ctx va a.n = none
  hit : ∃ t, (∀ mark : Bool, tlbFind s (some v.core) (dieOf v.core) (getPart s (getCtx s v.ctx).part) (getCtx s v.ctx).asid va
      { a.acc with write := a.acc.write && mark } = some t) ∧
    leafAnswer (getPart s (getCtx s v.ctx).part) t.leaf t.log2 va a.acc (fun _ => false)
      = .ok (if host then 2 else if direct then 1 else 0) pa
  direct : host = true → direct = false
  clean : a.read = true → poisonedLine s host pa = false

/-- The checks of R149 pass a lane's access so. -/
structure Mapped (s : State) (v : Env) (va : W64) (a : Access) (host : Bool) (pa : Nat) (direct : Bool) : Prop
    extends OnPage s v va a host pa direct where
  aligned : va.toNat % a.n = 0
  unlocked : lockConflict s v.core v.ctx v.team a.write none va.toNat a.n = false
  inLine : pa % 128 + a.n ≤ 128

/-- The checks of R149 stop a lane's access with cause c: before its page is looked up, or by what a TLB on the core's way holds of
it, without a walk. -/
def FaultsWith (s : State) (v : Env) (va : W64) (a : Access) (c : BitVec 8) : Prop :=
  if va.toNat % a.n ≠ 0 then c = 0x03
  else if lockConflict s v.core v.ctx v.team a.write none va.toNat a.n = true then c = 0x06
  else triggerAt s v.ctx va a.n = none ∧ ∃ t : TlbEntry,
    (∀ mark : Bool, tlbFind s (some v.core) (dieOf v.core) (getPart s (getCtx s v.ctx).part) (getCtx s v.ctx).asid va
      { a.acc with write := a.acc.write && mark } = some t) ∧
    match leafAnswer (getPart s (getCtx s v.ctx).part) t.leaf t.log2 va a.acc (fun pa => a.device && loadedFor s v.ctx pa) with
    | .fault k _ => c = k
    | .ok mt pa => mt ≠ 3 ∧ a.read = true ∧ poisonedLine s (mt = 2) pa = true ∧ c = 0x14
    | .absent => False

/-- Every copy of a module line that a core can read holds the memory's bytes. -/
def CurrentLine (s : State) (core line : Nat) : Prop :=
  (∀ x ∈ (getCore s core).l1, x.line = line → x.bytes = readBytes s.mem (128 * line) 128)
  ∧ ∀ p ∈ s.rdc, p.1 = dieOf core → p.2.line = line → p.2.bytes = readBytes s.mem (128 * line) 128

/-- n bytes at pa as a group's lanes read them: its own stores that wait in L1 laid over memory in their order (R214). -/
def groupView (s : State) (core gid pa n : Nat) : List Byte :=
  ((getCore s core).grpStores.filter fun x => x.gid = gid && x.overlaps pa n).foldl
    (fun bs x => overlay pa bs x.pa x.bytes) (readBytes s.mem pa n)

/-- The group `g'` is F's group but for vector registers d to d + ⌈n/4⌉ − 1 of each active lane, which hold v(L). -/
structure LaneLoads (F : Frag) (act : Mask) (d n : Nat) (v : Nat → Nat) (g' : Group) : Prop where
  rest : g' = { F.g with vregs := g'.vregs }
  vector : ∀ r L, L < 32 → getV g' r L =
    if act.getLsbD L = true ∧ d ≤ r ∧ r < d + max 1 (n / 4) then BitVec.ofNat 32 (v L / 2 ^ (32 * (r - d))) else getV F.g r L

/-- The group `g'` is F's group but for accumulator tile z: v(i, n) in its elements, and the header h (R188). -/
structure TileResult (F : Frag) (z : Nat) (v : Nat → Nat → W32) (h : W128) (g' : Group) : Prop where
  rest : g' = { F.g with ztiles := g'.ztiles, zheaders := g'.zheaders }
  cells : ∀ t i n, i < 32 → n < 32 → getZ g' t i n = if t = z then v i n else getZ F.g t i n
  headers : ∀ t, getZHeader g' t = if t = z then h else getZHeader F.g t

/-- i completes with what `h` gives for its active lanes, in lane order, in the vector registers from D, where no lane faults; a
header that fails its checks traps for the whole fragment, and no lane writes (R185, R439). -/
def TexWord (i : Instr) (f : Fields) (h : State → Frag → TexLane) : Prop :=
  ∀ s F, Issues s F i →
    let x := (lanesOf (activeOf F f)).foldl (texStep (h s F)) ⟨s, [], none, []⟩
    let put (g : Group) : Group := x.out.foldl (fun g p =>
      p.2.zipIdx.foldl (fun g q => setV g (f.d.toNat + q.2) p.1 (BitVec.ofNat 32 q.1)) g) g
    (x.header = none → x.faults = [] →
      exec i s = .next (settle (advance (updGroup x.s F.g.id put) F.g.id F.key) F.g.id))
    ∧ ∀ c a, x.header = some (c, a) → exec i s = .next (settle (raise x.s F.g.id F.key c a (activeOf F f)) F.g.id)

end Sys2Proof.Machine
end

