-- ==== Sys2Proof/Certificates/Slice0/Obligations.lean ====
section
/-! DEFINITION. The statements for the provers. -/

open Sys2Proof Sys2Proof.Machine

/-- R112, R113: IADD, ISUB, IMUL, IMULH, IMAD, IMIN, IMAX, IABS and INEG complete with the stated function of the decoded
sources in D, element by element, wrapped, or with `sat` clamped. -/
def Obligations.IntegerArithmetic : Prop := ∀ f : Fields,
  IntWord (.iadd f) f (f.ops = 1) (fun x => x.getD 0 0 + x.getD 1 0) (fun s F L => [srcA f false s F L, srcB f s F L])
  ∧ IntWord (.isub f) f (f.ops = 1) (fun x => x.getD 0 0 - x.getD 1 0) (fun s F L => [srcA f false s F L, srcB f s F L])
  ∧ IntWord (.imul f) f false (fun x => x.getD 0 0 * x.getD 1 0) (fun s F L => [srcA f false s F L, srcB f s F L])
  ∧ IntWord (.imulh f) f false (fun x => x.getD 0 0 * x.getD 1 0 / 2 ^ (if wide f.ty then 64 else 32))
      (fun s F L => [srcA f false s F L, srcB f s F L])
  ∧ IntWord (.imad f) f false (fun x => x.getD 0 0 * x.getD 1 0 + x.getD 2 0)
      (fun s F L => [srcA f false s F L, srcB f s F L, srcC f s F L])
  ∧ IntWord (.imin f) f false (fun x => min (x.getD 0 0) (x.getD 1 0)) (fun s F L => [srcA f false s F L, srcB f s F L])
  ∧ IntWord (.imax f) f false (fun x => max (x.getD 0 0) (x.getD 1 0)) (fun s F L => [srcA f false s F L, srcB f s F L])
  ∧ IntWord (.iabs f) f (f.ops = 1) (fun x => (x.headD 0).natAbs) (fun s F L => [srcA f true s F L])
  ∧ IntWord (.ineg f) f (f.ops = 1) (fun x => -x.headD 0) (fun s F L => [srcA f true s F L])

/-- R114, R115: the bitwise words, shifts, bit fields and bit counts complete with the stated value in D. R116 to R121:
comparison, selection, moves, LEA, the carry word, predicates and HASH. -/
def Obligations.IntegerBits : Prop :=
  (∀ f : Fields,
    let W := if wide f.ty then 64 else 32
    ValueWord (.and_ f) f (wide f.ty) (fun s F L => srcA f false s F L &&& srcB f s F L)
    ∧ ValueWord (.or_ f) f (wide f.ty) (fun s F L => srcA f false s F L ||| srcB f s F L)
    ∧ ValueWord (.xor_ f) f (wide f.ty) (fun s F L => srcA f false s F L ^^^ srcB f s F L)
    ∧ ValueWord (.not_ f) f (wide f.ty) (fun s F L => 2 ^ W - 1 - srcA f true s F L)
    ∧ ValueWord (.shl f) f (wide f.ty) (fun s F L =>
        if W ≤ countB f s F L then 0 else srcA f false s F L * 2 ^ countB f s F L % 2 ^ W)
    ∧ ValueWord (.shr f) f (wide f.ty) (fun s F L => if W ≤ countB f s F L then 0 else srcA f false s F L / 2 ^ countB f s F L)
    ∧ ValueWord (.shra f) f (wide f.ty) (fun s F L =>
        (((if srcA f false s F L < 2 ^ (W - 1) then (srcA f false s F L : Int) else srcA f false s F L - 2 ^ W)
          / 2 ^ (if W ≤ countB f s F L then W else countB f s F L)) % 2 ^ W).toNat)
    ∧ ValueWord (.rotl f) f (wide f.ty) (fun s F L =>
        (srcA f false s F L * 2 ^ (countB f s F L % W) + srcA f false s F L / 2 ^ (W - countB f s F L % W)) % 2 ^ W)
    ∧ ValueWord (.bfx f) f false (fun s F L =>
        bfx (f.ty = 1) (decodeInt (tyKind f.ty) (srcA f false s F L)) (countB f s F L))
    ∧ ValueWord (.bfi f) f false (fun s F L =>
        bfi (bitsA s F.g f false 0 L) (bitsB s F.g f 0 L) (bitsC s F.g f 0 L))
    ∧ ValueWord (.popc f) f false (fun s F L => ((List.range W).filter fun i => (srcA f true s F L).testBit i).length)
    ∧ ValueWord (.clz f) f false (fun s F L => if srcA f true s F L = 0 then W else W - 1 - Nat.log2 (srcA f true s F L))
    ∧ ValueWord (.brev f) f (wide f.ty) (fun s F L => (List.range W).foldl
        (fun x i => if (srcA f true s F L).testBit i then x + 2 ^ (W - 1 - i) else x) 0))
  ∧ (∀ f : Fields,
    PredWord (.icmp f) f (fun s F L => combine f.ops (getP F.g f.d.toNat L)
      (intCond f.e.toNat (decodeInt (tyKind f.ty) (srcA f false s F L)) (decodeInt (tyKind f.ty) (srcB f s F L))))
    ∧ ValueWord (.sel f) f (wide f.ty) (fun s F L => if getP F.g f.c.toNat L then srcA f false s F L else srcB f s F L)
    ∧ ValueWord (.mov f) f (wide f.ty) (fun s F L => srcA f true s F L)
    ∧ ValueWord (.lea f) f true (fun s F L =>
        (((srcOf f.selA f.a 4 s F L : Int) + decodeInt (tyKind f.ty) (srcB f s F L) * 2 ^ f.e.toNat) % 2 ^ 64).toNat)
    ∧ (let sum (s : State) (F : Frag) (L : Nat) : Nat :=
          srcA f false s F L + srcB f s F L + (if getP F.g f.c.toNat L then 1 else 0)
       let W := if wide f.ty then 64 else 32
       ValueAndPredWord (.iaddc f) f (wide f.ty) f.e.toNat (fun s F L => sum s F L % 2 ^ W) (fun s F L => 2 ^ W ≤ sum s F L))
    ∧ PredWord (.plop f) f (fun _ F L => f.e.toNat.testBit
        (4 * (getP F.g f.a.toNat L).toNat + 2 * (getP F.g f.b.toNat L).toNat + (getP F.g f.c.toNat L).toNat))
    ∧ ValueWord (.hash f) f false (fun s F L =>
        (hash32 (BitVec.ofNat 32 (bitsA s F.g f false 0 L)) (BitVec.ofNat 32 (bitsB s F.g f 0 L))).toNat))

/-- R120: MOVP.get gathers a lane's sixteen predicates; MOVP.set writes those of p0 to p14 that the mask B names, from A. -/
def Obligations.PredicateMoves : Prop := ∀ (f : Fields) (s : State) (F : Frag),
  (Issues s F (.movpGet f) → F.quiet → ∃ g', g' = { F.g with vregs := g'.vregs } ∧
    (∀ r L, L < 32 → getV g' r L = if (activeOf F f).getLsbD L = true ∧ r = f.d.toNat then
      BitVec.ofNat 32 ((List.range 16).foldl (fun x n => if getP F.g n L then x + 2 ^ n else x) 0) else getV F.g r L) ∧
    exec (.movpGet f) s = .next (setGroup s { g' with sides := nextSides F }))
  ∧ (Issues s F (.movpSet f) → F.quiet → ∃ g', g' = { F.g with preds := g'.preds } ∧
    (∀ n L, L < 32 → getP g' n L =
      if n < 15 ∧ (activeOf F f).getLsbD L = true ∧ (bitsB s F.g f 0 L).testBit n = true then
        (getV F.g f.a.toNat L).getLsbD n else getP F.g n L) ∧
    exec (.movpSet f) s = .next (setGroup s { g' with sides := nextSides F }))

/-- R123 to R128: the floating-point words complete with the value that R67 and the rounding of R76 and R77 give, sources and
results flushed where the launch says so (R66). -/
def Obligations.FloatingPoint : Prop := ∀ f : Fields,
  let two (h : Sys2Proof.Machine.Num → Sys2Proof.Machine.Num → Sys2Proof.Machine.Num) (s : State) (F : Frag) (L : Nat) : Nat :=
    fpMap (flushOf s F.g) f.ty f.rnd (fun x => h (x.getD 0 .nar) (x.getD 1 .nar)) [srcA f false s F L, srcB f s F L]
  let three (h : Sys2Proof.Machine.Num → Sys2Proof.Machine.Num → Sys2Proof.Machine.Num → Sys2Proof.Machine.Num) (s : State) (F : Frag) (L : Nat) : Nat :=
    fpMap (flushOf s F.g) f.ty f.rnd (fun x => h (x.getD 0 .nar) (x.getD 1 .nar) (x.getD 2 .nar))
      [srcA f false s F L, srcB f s F L, srcC f s F L]
  ValueWord (.fadd f) f false (two (faddNum f.rnd))
  ∧ ValueWord (.fsub f) f false (two (fsubNum f.rnd))
  ∧ ValueWord (.fmul f) f false (two fmulNum)
  ∧ ValueWord (.ffma f) f false (three (ffmaNum f.rnd))
  ∧ ValueWord (.fmin f) f false (two fminNum)
  ∧ ValueWord (.fmax f) f false (two fmaxNum)
  ∧ ValueWord (.fmed3 f) f false (three fmed3Num)
  ∧ PredWord (.fcmp f) f (fun s F L => combine f.ops (getP F.g f.d.toNat L)
      (fpCond f.e.toNat (fpSource s F.g f.ty (srcA f false s F L)) (fpSource s F.g f.ty (srcB f s F L))))
  ∧ ValueWord (.fclass f) f false (fun s F L =>
      fclassBits (tyKind f.ty) (element (flushOf s F.g) f.ty (srcA f true s F L) 0))
  ∧ ValueWord (.frnd f) f false (fun s F L =>
      fpMap (flushOf s F.g) f.ty f.rnd (fun x => frndNum f.rnd (x.headD .nar)) [srcA f true s F L])
  ∧ ValueWord (.fscale f) f false (fun s F L =>
      fpMap (flushOf s F.g) f.ty f.rnd (fun x => fscaleNum (x.headD .nar) (decodeInt kI32 (bitsB s F.g f 1 L)))
        [srcA f false s F L])
  ∧ ValueWord (.fdot2 f) f false (fun s F L =>
      let el (b j : Nat) := decodeNum (tyKind f.ty) (element (flushOf s F.g) f.ty b j)
      flushBits (flushOf s F.g) kF32 (roundTo kF32
        (fdot2Num f.rnd (el (srcA f false s F L) 0) (el (srcA f false s F L) 1) (el (srcB f s F L) 0) (el (srcB f s F L) 1)
          (fpSource s F.g 5 (bitsC s F.g f 5 L))) f.rnd))

/-- R79, R86 to R96: the conversions complete with the rounded value, or trap with cause 0x0A on an overflow under the trap
policy and write nothing. -/
def Obligations.Conversions : Prop := ∀ f : Fields,
  OverflowWord (.cvt f) f (wide f.ty) (fun s F L =>
    cvtBits (flushOf s F.g) (eLow4 f) f.ty f.rnd f.ovf (srcOf f.selA f.a (eLow4 f) s F L))
  ∧ OverflowWord (.cvtn f) f false (fun s F L =>
      (roundTo? (narrowKind f.ops) (fpSource s F.g f.ty (srcA f false s F L)) f.rnd (ovfPolicy f.ovf)).map fun code =>
        putSlot (if f.ds then (getS F.g f.d.toNat).toNat % 2 ^ 32 else (getV F.g f.d.toNat L).toNat)
          (slotWidth f.ops) (countB f s F L % (32 / slotWidth f.ops)) code)
  ∧ ValueWord (.cvtw f) f false (fun s F L => roundTo (tyKind f.ty) (decodeNum (narrowKind f.ops)
      (bitsA s F.g f false 2 L / 2 ^ (slotWidth f.ops * (countB f s F L % (32 / slotWidth f.ops))) % 2 ^ slotWidth f.ops)) 0)
  ∧ OverflowWord (.pack f) f false (fun s F L =>
      let st := packSource f.ty
      let one (b : Nat) := (roundTo? (tyKind f.ty) (decodeNum (tyKind st) (element (flushOf s F.g) st b 0)) f.rnd
        (ovfPolicy f.ovf)).map (flushBits (flushOf s F.g) (tyKind f.ty))
      joinElements (tyKind f.ty).width (([bitsA s F.g f false st L, bitsB s F.g f st L]
        ++ (if f.ty = 11 then [bitsC s F.g f st L, (getV F.g f.e.toNat L).toNat] else [])).map one))
  ∧ ValueWord (.unpack f) f false (fun s F L =>
      let x := element (flushOf s F.g) f.ty (srcA f false s F L) (countB f s F L % (elements f.ty).1)
      if f.ty = 8 ∨ f.ty = 9 then flushBits (flushOf s F.g) kF32 (roundTo kF32 (decodeNum (tyKind f.ty) x) 0)
      else destBits (tyKind f.ty) x)

/-- R129 to R132: the special functions complete, each active lane's D with the model's result for its operand, in which the
neighbour that a full-mode function gives is a free constant (log entry 50) and so is an lp value (log entry 51). -/
def Obligations.SpecialFunctions : Prop := ∀ f : Fields,
  let one (op : Sfu) (s : State) (F : Frag) (L : Nat) : Nat :=
    flushBits (flushOf s F.g) (tyKind f.ty)
      (sfuBits op f.ty (f.ops = 1) f.rnd (element (flushOf s F.g) f.ty (srcA f true s F L) 0))
  ValueWord (.rcp f) f false (one .rcp) ∧ ValueWord (.rsq f) f false (one .rsq) ∧ ValueWord (.sqrt f) f false (one .sqrt)
  ∧ ValueWord (.exp2 f) f false (one .exp2) ∧ ValueWord (.log2 f) f false (one .log2) ∧ ValueWord (.sin f) f false (one .sin)
  ∧ ValueWord (.cos f) f false (one .cos) ∧ ValueWord (.tanh f) f false (one .tanh) ∧ ValueWord (.sigm f) f false (one .sigm)
  ∧ ValueWord (.fdiv f) f false (fun s F L => flushBits (flushOf s F.g) (tyKind f.ty)
      (fdivBits f.ty (f.ops = 1) f.rnd (element (flushOf s F.g) f.ty (srcA f false s F L) 0)
        (element (flushOf s F.g) f.ty (srcB f s F L) 0)))

/-- R67, R130 to R132: what the special functions give, on the bits of f32 and f16. The special sources of R131, in both modes, and
NaN sources; the exact cases of R130; SQRT and FDIV of ordinary sources, rounded from the root and the quotient under RND; each other
one, in full mode, one of the two neighbours of the model's y (of some 200 bits), or ∞ beyond the largest finite; and in the lp mode a
value within R132's bound of y, or a zero of y's sign below the normal range, or ∞ where no finite value meets the bound; outside the
bound's domain it is the full-mode result. Which neighbour (log entry 50) and which lp value (log entry 51) it is are free constants. -/
def Obligations.SpecialFunctionValues : Prop := ∀ ty eb fb : Nat, (ty, eb, fb) ∈ [(5, 8, 23), (6, 5, 10)] →
  let kind := Kind.ieee eb fb
  let sign (s : Bool) : Nat := if s then 2 ^ (eb + fb) else 0
  let inf (s : Bool) : Nat := sign s + (2 ^ eb - 1) * 2 ^ fb
  let nan : Nat := (2 ^ eb - 1) * 2 ^ fb + 2 ^ (fb - 1)
  let pow (n : Int) : Nat := (n + 2 ^ (eb - 1) - 1).toNat * 2 ^ fb
  let top : Nat := (2 ^ (fb + 1) - 1) * 2 ^ (2 ^ (eb - 1) - 1 - fb)
  let near1 (x : Q) : Prop := (x.d : Int) ≤ 2 * x.n ∧ x.n ≤ 2 * x.d
  let within (op : Sfu) (x y v : Q) : Prop :=
    let err := (v.n * y.d - y.n * v.d).natAbs
    let relative (k : Nat) : Prop := err * 2 ^ k ≤ y.n.natAbs * v.d
    let absolute (k : Nat) : Prop := err * 2 ^ k ≤ y.d * v.d
    match op with
    | .rcp | .rsq | .sqrt | .exp2 => relative 11
    | .log2 => (near1 x → absolute 11) ∧ (¬ near1 x → relative 11)
    | .sin | .cos | .tanh => absolute 11
    | .sigm => absolute 12
    | .fdiv => relative 10
  (∀ (lp : Bool) (rnd : Nat) (s : Bool), ∀ x ∈ ([(.rcp, sign s, inf s), (.rcp, inf s, sign s),
      (.rsq, sign s, inf s), (.rsq, inf false, 0), (.rsq, inf true, nan), (.sqrt, sign s, sign s), (.sqrt, inf false, inf false),
      (.sqrt, inf true, nan), (.exp2, inf true, 0), (.exp2, inf false, inf false), (.log2, sign s, inf true), (.log2, pow 0, 0),
      (.log2, inf false, inf false), (.log2, inf true, nan), (.sin, inf s, nan), (.cos, inf s, nan), (.sin, sign s, sign s),
      (.tanh, inf s, sign s + pow 0), (.tanh, sign s, sign s), (.sigm, inf true, 0), (.sigm, inf false, pow 0),
      (.sigm, sign s, pow (-1))] : List (Sfu × Nat × Nat)), sfuBits x.1 ty lp rnd x.2.1 = x.2.2)
  ∧ (∀ (op : Sfu) (lp : Bool) (rnd bits : Nat), bits < 2 * sign true →
    (bits % sign true ≠ 0 → sign true < bits → bits ≤ inf true → op ∈ [Sfu.rsq, .sqrt, .log2] → sfuBits op ty lp rnd bits = nan)
    ∧ (inf false < bits % sign true → sfuBits op ty lp rnd bits = bits ||| 2 ^ (fb - 1)))
  ∧ (∀ (rnd : Nat) (n : Int), 2 - 2 ^ (eb - 1) ≤ n → n < 2 ^ (eb - 1) →
    (∀ bits q, decodeNum kind bits = .fin q → q.n = n * q.d → sfuBits .exp2 ty false rnd bits = pow n)
    ∧ sfuBits .log2 ty false rnd (pow n) = roundTo kind (Sys2Proof.Machine.Num.ofInt n) 0
    ∧ ∀ s, sfuBits .exp2 ty false rnd (sign s) = pow 0 ∧ sfuBits .cos ty false rnd (sign s) = pow 0)
  ∧ (∀ (op : Sfu) (rnd bits : Nat) (q : Q), decodeNum kind bits = .fin q → sfuSpecial op (.fin q) = none →
    let y := sfuValue op q
    (op = .sqrt → sfuBits op ty false rnd bits = roundTo kind (.fin (sqrtQ q)) rnd)
    ∧ (op ≠ .sqrt → ∃ up, sfuBits op ty false rnd bits = faithful eb fb y up)
    ∧ ∃ c, sfuBits op ty true rnd bits = (lpResult op eb fb q y c).getD (sfuBits op ty false rnd bits))
  ∧ (∀ (y : Q) (up : Bool), 0 < y.d →
    (top * y.d < y.n.natAbs → faithful eb fb y up = inf (decide (y.n < 0)))
    ∧ (y.n.natAbs ≤ top * y.d →
      faithful eb fb y up = roundTo kind (.fin y) 2 ∨ faithful eb fb y up = roundTo kind (.fin y) 3))
  ∧ (∀ q : Q, 0 < q.n → 0 < q.d → ∃ r : Nat,
    (sqrtQ q = ⟨r, 2 ^ 256⟩ ∧ (r * r * q.d : Int) = q.n * 2 ^ 512)
    ∨ (sqrtQ q = ⟨2 * r + 1, 2 ^ 257⟩ ∧ (r * r * q.d : Int) < q.n * 2 ^ 512 ∧ q.n * 2 ^ 512 < ((r + 1) * (r + 1) * q.d : Int)))
  ∧ (∀ (op : Sfu) (x y : Q) (c : Nat), 0 < y.d →
    (op ∈ [Sfu.sin, .cos] → x.d * 1024 < x.n.natAbs → lpResult op eb fb x y c = none)
    ∧ ((op ∈ [Sfu.sin, .cos] → x.n.natAbs ≤ 1024 * x.d) →
      (op ∈ [Sfu.sin, .cos, .tanh, .sigm] ∨ (op = .log2 ∧ near1 x) → y.n.natAbs ≤ y.d) →
      ∃ r v, lpResult op eb fb x y c = some r ∧ decodeNum kind r = v ∧
        ((v.isInf = false ∧ v.isNaN = false ∧ within op x y v.toQ)
        ∨ (v = .zero (decide (y.n < 0)) ∧ y.n.natAbs * 2 ^ (2 ^ (eb - 1) - 2) < y.d)
        ∨ (v = .inf (decide (y.n < 0)) ∧ top * y.d < y.n.natAbs ∧ ¬ within op x y ⟨if y.n < 0 then -top else top, 1⟩))))
  ∧ ∀ (rnd a b : Nat) (lp : Bool), a < 2 * sign true → b < 2 * sign true →
    let s : Bool := decide (sign true ≤ a) != decide (sign true ≤ b)
    let bad (x : Nat) : Prop := inf false < x % sign true
    let full := fdivBits ty false rnd a b
    (bad a → fdivBits ty lp rnd a b = a ||| 2 ^ (fb - 1)) ∧ (¬ bad a → bad b → fdivBits ty lp rnd a b = b ||| 2 ^ (fb - 1))
    ∧ (¬ bad a → ¬ bad b →
      (a % sign true = 0 ∧ b % sign true = 0 ∨ a % sign true = inf false ∧ b % sign true = inf false → fdivBits ty lp rnd a b = nan)
      ∧ (a % sign true ≠ 0 → b % sign true = 0 → fdivBits ty lp rnd a b = inf s)
      ∧ (a % sign true = inf false → b % sign true ≠ inf false → fdivBits ty lp rnd a b = inf s)
      ∧ (a % sign true ≠ inf false → b % sign true = inf false → fdivBits ty lp rnd a b = sign s)
      ∧ (a % sign true = 0 → b % sign true ≠ 0 → fdivBits ty lp rnd a b = sign s))
    ∧ ∀ p q, decodeNum kind a = .fin p → decodeNum kind b = .fin q → full = roundTo kind (.fin (p.div q)) rnd ∧
      let y := p.div q
      let normal : Prop := y.d ≤ y.n.natAbs * 2 ^ (2 ^ (eb - 1) - 2) ∧ full % sign true ≠ inf false
      (¬ normal → fdivBits ty true rnd a b = full)
      ∧ (normal → ∃ c, fdivBits ty true rnd a b = (lpResult .fdiv eb fb p y c).getD full)

/-- R136 to R145: the words that read other lanes of Active(F) complete with the stated values. R140: BCAST copies A of one lane of
Active(F) to every active lane, or to a scalar register, and says in predicate E whether that lane is active, but in the form that
takes the lowest lane. R145: COMPACT puts A of the k-th selected active lane into D of the k-th active lane, says in predicate E which
lanes received a value, and leaves D of the others. -/
def Obligations.CrossLane : Prop :=
  (∀ f : Fields,
  (let src (s : State) (F : Frag) (L : Nat) : Option Nat :=
      sourceLane (activeOf F f) (shflSource f.ops L (countB f s F L))
   ValueAndPredWord (.shfl f) f (wide f.ty) f.e.toNat
      (fun s F L => match src s F L with
        | some m => srcOf f.selA f.a f.ty s F m
        | none => if f.ds then srcC f s F L else 0)
      (fun s F L => (src s F L).isSome))
  ∧ (∀ s F, Issues s F (.vote f) → F.quiet →
      let m := predLanes F.g f.a.toNat &&& activeOf F f
      (f.ops = 3 → ∃ g', ValueResult F f false (fun _ => m.toNat) g' ∧
        exec (.vote f) s = .next (setGroup s { g' with sides := nextSides F }))
      ∧ (f.ops ≠ 3 → ∃ g', PredResult F f f.d.toNat (fun _ =>
          if f.ops = 0 then m = activeOf F f else if f.ops = 1 then m != 0 else m = 0 || m = activeOf F f) g' ∧
        exec (.vote f) s = .next (setGroup s { g' with sides := nextSides F })))
  ∧ ValueWord (.reduce f) f (wide f.ty) (fun s F _ =>
      reduceBits f.e.toNat f.ty f.rnd ((lanesOf (activeOf F f)).map (termAt s F.g f)))
  ∧ LaneWord (.scan f) f (wide f.ty) (fun s F L =>
      let terms := scanTerms (fun K => f.ops ≥ 2 && getP F.g f.c.toNat K) (f.ops % 2 = 1) (termAt s F.g f) []
        (lanesOf (activeOf F f))
      reduceBits f.e.toNat f.ty f.rnd (((terms.find? fun t => t.1 = L).map Prod.snd).getD []))
  ∧ LaneWord (.match_ f) f false (fun s F L =>
      (lanesWhere (activeOf F f) fun n => srcOf f.selA f.a f.ty s F n = srcOf f.selA f.a f.ty s F L).toNat))
  ∧ (∀ (f : Fields) (s : State) (F : Frag), Issues s F (.bcast f) → F.quiet →
    let act := activeOf F f
    let src : Option Nat := if f.ops ≥ 2 then some (lowestLane act) else sourceLane act (countB f s F (lowestLane act))
    let x (L : Nat) : Nat := match src with
      | some m => srcOf f.selA f.a f.ty s F m
      | none => if f.ds then srcC f s F L else 0
    ∃ g', g' = { F.g with vregs := g'.vregs, sregs := g'.sregs, preds := g'.preds } ∧
      (∀ r L, L < 32 → getV g' r L =
        if f.ops % 2 = 0 ∧ act.getLsbD L = true ∧ r = f.d.toNat then BitVec.ofNat 32 (x L)
        else if f.ops % 2 = 0 ∧ wide f.ty = true ∧ act.getLsbD L = true ∧ r = f.d.toNat + 1 then BitVec.ofNat 32 (x L / 2 ^ 32)
        else getV F.g r L) ∧
      (∀ r, getS g' r = if f.ops % 2 = 1 ∧ act ≠ 0 ∧ r = f.d.toNat then
        BitVec.ofNat 64 (if wide f.ty then x (highestLane act) else x (highestLane act) % 2 ^ 32) else getS F.g r) ∧
      (∀ n L, L < 32 → getP g' n L =
        if f.ops < 2 ∧ f.e.toNat ≠ 15 ∧ n = f.e.toNat ∧ act.getLsbD L = true then src.isSome else getP F.g n L) ∧
      exec (.bcast f) s = .next (setGroup s { g' with sides := nextSides F }))
  ∧ (∀ (f : Fields) (s : State) (F : Frag), Issues s F (.compact f) → F.quiet →
    let act := activeOf F f
    let all := lanesOf act
    let chosen := all.filter fun L => getP F.g f.c.toNat L
    ∃ g', g' = { F.g with vregs := g'.vregs, preds := g'.preds } ∧
      (∀ (k L : Nat), all[k]? = some L → ∀ r, getV g' r L =
        match chosen[k]? with
        | some m => if r = f.d.toNat then BitVec.ofNat 32 (srcOf f.selA f.a f.ty s F m)
            else if wide f.ty = true ∧ r = f.d.toNat + 1 then BitVec.ofNat 32 (srcOf f.selA f.a f.ty s F m / 2 ^ 32)
            else getV F.g r L
        | none => getV F.g r L) ∧
      (∀ r L, L < 32 → act.getLsbD L = false → getV g' r L = getV F.g r L) ∧
      (∀ (k L n : Nat), all[k]? = some L → getP g' n L =
        if f.e.toNat ≠ 15 ∧ n = f.e.toNat then decide (k < chosen.length) else getP F.g n L) ∧
      (∀ n L, L < 32 → act.getLsbD L = false → getP g' n L = getP F.g n L) ∧
      exec (.compact f) s = .next (setGroup s { g' with sides := nextSides F }))

/-- R135: the fused sequence writes what W1 to W4 write one after another, and every lane of F goes to PC + 64. R57 to R60: a
pair-form word writes both halves' values, each in the lanes of its own guard, from the registers as they were before it; an
overflow in either half traps and writes nothing. -/
def Obligations.FusedAndPaired : Prop :=
  (∀ (w1 w2 w3 w4 : Fields) (s : State) (F : Frag),
    Issues s F (.fusedSoftmax w1 w2 w3 w4) → F.quiet →
    let F' (g : Group) : Frag := { F with g := g }
    let red (f : Fields) (F : Frag) : Nat := reduceBits f.e.toNat f.ty f.rnd ((lanesOf (activeOf F f)).map (termAt s F.g f))
    ∃ g1 g2 g3 g4,
      ValueResult F w1 false (fun _ => red w1 F) g1
      ∧ ValueResult (F' g1) w2 false (fun L => fpMap (flushOf s g1) w2.ty w2.rnd
          (fun x => fsubNum w2.rnd (x.getD 0 .nar) (x.getD 1 .nar)) [srcA w2 false s (F' g1) L, srcB w2 s (F' g1) L]) g2
      ∧ ValueResult (F' g2) w3 false (fun L => flushBits (flushOf s g2) (tyKind w3.ty)
          (sfuBits .exp2 w3.ty (w3.ops = 1) w3.rnd (element (flushOf s g2) w3.ty (srcA w3 true s (F' g2) L) 0))) g3
      ∧ ValueResult (F' g3) w4 false (fun _ => red w4 (F' g3)) g4
      ∧ exec (.fusedSoftmax w1 w2 w3 w4) s = .next (setGroup s { g4 with
          sides := normSides (F.g.sides.map fun x => if F.key.sameFragment x then x.goto (x.pc + 64) else x) }))
  ∧ (∀ (x y : Half) (s : State) (F : Frag), Issues s F (.pairWord x y) →
    let good (h : Half) : Prop := ∀ L ∈ lanesOf (halfLanes F h), (halfAt s F h L).isSome
    (F.quiet → good x → good y → ∃ g', g' = { F.g with vregs := g'.vregs } ∧
      (∀ r L, L < 32 → getV g' r L =
        if (halfLanes F y).getLsbD L = true ∧ r = y.d.toNat then BitVec.ofNat 32 ((halfAt s F y L).getD 0)
        else if (halfLanes F x).getLsbD L = true ∧ r = x.d.toNat then BitVec.ofNat 32 ((halfAt s F x L).getD 0)
        else getV F.g r L) ∧
      exec (.pairWord x y) s = .next (setGroup s { g' with sides := nextSides F }))
    ∧ (F.calm → ¬ (good x ∧ good y) →
      exec (.pairWord x y) s = .next (afterPlainTrap s F 0x0A (halfLanes F x ||| halfLanes F y))))

/-- R103, R108, R158: NOP and PREF change nothing but the PC; YIELD makes the group give way where a lane is active. R101,
R104 to R106, R110: each word takes its active lanes to its target and the others to PC + 16; a call writes the return
address, LOOP its counter. R101, R319: the sides that a side of F splits into hold its lanes by their next PC, each PC once;
the first runs, the others pend: of BRA, CALL and LOOP the first is that of the lanes that took the branch, and with `low` their PCs
rise. -/
def Obligations.ControlFlow : Prop :=
  (∀ (f : Fields) (s : State) (F : Frag), F.quiet →
    (Issues s F (.nop f) → exec (.nop f) s = .next (setGroup s { F.g with sides := nextSides F }))
    ∧ (Issues s F (.pref f) → exec (.pref f) s = .next (setGroup s { F.g with sides := nextSides F }))
    ∧ (Issues s F (.yield f) → exec (.yield f) s = .next (setGroup s
        { F.g with yielded := F.g.yielded || activeOf F f != 0, sides := nextSides F })))
  ∧ (∀ (f : Fields) (s : State) (F : Frag), F.quiet →
    let act := activeOf F f
    let tgt := addr64 F.g f.selA f.a
    let ends (g : Group) (low : Bool) (to_ : Nat → W64) : Res :=
      .next (setGroup s { g with sides := normSides (branch F.g F.key act low to_).sides })
    let linked : Group → Prop := RegisterResult F f.d.toNat (f.mod.getLsbD 0) true act (fun _ => F.key.pc + 16) (F.key.pc + 16)
    (Issues s F (.bra f) → exec (.bra f) s = ends F.g false fun _ => branchTarget F f)
    ∧ (Issues s F (.call f) → ∃ g, linked g ∧ exec (.call f) s = ends g false fun _ => branchTarget F f)
    ∧ (Issues s F (.brx f) → misaligned act tgt = none → exec (.brx f) s = ends F.g true tgt)
    ∧ (Issues s F (.ret f) → misaligned act tgt = none → exec (.ret f) s = ends F.g true tgt)
    ∧ (Issues s F (.callx f) → misaligned act tgt = none → ∃ g, linked g ∧ exec (.callx f) s = ends g true tgt)
    ∧ (Issues s F (.loop f) → act ≠ 0 → ∃ g, g = { F.g with sregs := g.sregs } ∧
        (∀ r, getS g r = if r = f.d.toNat then getS F.g r - 1 else getS F.g r) ∧
        exec (.loop f) s = if getS F.g f.d.toNat = 1 then .next (setGroup s { g with sides := nextSides F })
          else ends g false fun _ => branchTarget F f)
    ∧ (Issues s F (.loop f) → act = 0 → exec (.loop f) s = .next (setGroup s { F.g with sides := nextSides F })))
  ∧ (∀ (x : Side) (taken : Mask) (low : Bool) (tgt : Nat → W64), x.lanes ≠ 0 →
    let l := splitSide x (sideTargets x taken low tgt)
    (∀ y ∈ l, y.slice = x.slice ∧ y.ctr = x.ctr ∧ y.lanes ≠ 0 ∧
      ∀ L, L < 32 → (y.lanes.getLsbD L = true ↔ x.lanes.getLsbD L = true ∧ tgt L = y.pc))
    ∧ (∀ L, L < 32 → x.lanes.getLsbD L = true → ∃ y ∈ l, y.pc = tgt L)
    ∧ (l.map Side.pc).Nodup
    ∧ (low = true → (l.map fun y => y.pc.toNat).Pairwise (· < ·))
    ∧ (∃ y r, l = y :: r ∧ y.st = x.st ∧ (∀ z ∈ r, z.st = .pending) ∧
      ∀ T, low = false → x.lanes &&& taken ≠ 0 → (∀ L, L < 32 → (x.lanes &&& taken).getLsbD L = true → tgt L = T) → y.pc = T))

/-- R107, R335: outside a save routine, and in trap mode, EXIT and HALT end the active lanes of F; the others go to PC + 16. Where no
barrier names the lanes that end, nothing else changes; where no lane of the group stays, its slot is free. R330, R343, R348: lanes
that end depart from every armed rejoin barrier that names them, in trap mode from the trap bank too, which completes once every lane
that it names has arrived or departed; NEED of every team barrier of mode 0 falls by their number, and where it falls to ARRIVED the
phase completes; a barrier of mode 1 takes no account of them. That lanes which a barrier does not count in its phase have no part in
its NEED is the model's reading (DEDUCED, log entry 72). R107: a handler whose last lane has ended leaves trap mode, and what the trap
kept is discarded. -/
def Obligations.EndOfLanes : Prop :=
  (∀ (f : Fields) (s : State) (F : Frag) (i : Instr), Issues s F i → activeOf F f ≠ 0 →
    (i = .exit_ f ∨ i = .halt f ∧ (F.g.saving = false ∨ F.g.tm = true ∧ F.key.handler = true)) →
    exec i s = .next (settle (endLanes (setGroup s { F.g with
      sides := F.g.sides.map fun x => if F.key.sameFragment x then x.goto (x.pc + 16) else x }) F.g.id (activeOf F f)) F.g.id))
  ∧ (∀ (s : State) (g : Group) (lanes : Mask), getGroup s g.id = some g → (∀ x ∈ g.sides, x.slice < 8) →
    let gone := liveLanes g &&& lanes
    let left (r : Rejoin) : Rejoin :=
      if r.state = 1 ∧ r.named &&& gone ≠ 0 then { r with
        arrived := r.arrived ||| (r.named &&& gone), state := if r.named &&& ~~~(r.arrived ||| (r.named &&& gone)) = 0 then 2 else 1 }
      else r
    let u := endLanes s g.id lanes
    ∃ g', getGroup u g.id = some g' ∧ liveLanes g' &&& gone = 0 ∧ g'.vregs = g.vregs ∧ g'.tm = g.tm ∧
      (∀ j, j < 8 → getRejoin g' j false = left (getRejoin g j false)) ∧
      (getRejoin g' 7 true = if g.tm = true then left (getRejoin g 7 true) else getRejoin g 7 true) ∧
      ∀ t b x, getTeam s g.team = some t → b < 16 → (t.barriers.find? fun p => p.1 = b) = some (b, x) →
        let need := x.need - countLanes (gone &&& ~~~x.uncounted g.id)
        ∃ t', getTeam u g.team = some t' ∧
          (x.mode = true → getBarrier u t' b = x) ∧
          (x.mode = false → x.arrived = 0 ∨ x.arrived < need → getBarrier u t' b = { x with need := need }) ∧
          (x.mode = false → 1 ≤ x.arrived → need ≤ x.arrived →
            (getBarrier u t' b).phase = !x.phase ∧ (getBarrier u t' b).arrived = 0))
  ∧ (∀ (s : State) (g : Group), getGroup s g.id = some g → g.tm = true → tretGathered g = none → liveLanes g &&& g.trapLanes = 0 →
    (∀ x ∈ g.sides, x.holdsTrap = false) →
    settleTrap s g.id = setGroup s { g with
      sides := g.sides.map fun x => { x with handler := false }, tm := false, trapLanes := 0, kept := [], rejoinTrap := Rejoin.clear
      st := if g.st = .trapped then .active else g.st })
  ∧ ∀ (f : Fields) (s : State) (F : Frag) (i : Instr),
  (i = .exit_ f ∨ i = .halt f) → Issues s F i → F.g.saving = false →
  F.g.tm = false → (∀ j, j < 8 → (getRejoin F.g j false).state ≠ 1) →
  (∀ t, getTeam s F.g.team = some t → t.barriers = []) →
  let act := activeOf F f
  (act ≠ 0 → act ≠ F.lanes → F.lanes ≠ 0 → (∀ x ∈ F.g.sides, F.key.sameFragment x = false → x.lanes &&& act = 0) →
    exec i s = .next (setGroup s { F.g with sides := normSides (F.g.sides.map fun x =>
      if F.key.sameFragment x then { x.goto (x.pc + 16) with lanes := x.lanes &&& ~~~act } else x) }))
  ∧ (act = liveLanes F.g → act ≠ 0 → F.g.st = .active →
    ∃ t, exec i s = .next t ∧ ∀ g, getGroup t F.g.id = some g → g.st = .exited ∧ g.sides = [] ∧ g.placed = false)

/-- R109, R331: a breakpoint and a trap are taken where a lane is active, and do nothing where none is. R54, R62, R185: an illegal
word traps with cause 0x01 before anything else, one over its role's budgets with 0x02; sr.replay names F's lanes, or the active ones
of a word of the tile class. R38: a register branch with a misaligned target in an active lane traps with cause 0x03 and takes no lane
anywhere; that sr.eaddr is then the target of the lowest such lane and sr.replay every active lane is the model's choice (DESIGN
CHOICE, log entry 98). R324: SWR of a misaligned address traps with cause 0x03, and of sr.savearea outside handlers and routines with
0x05. R328 to R330, R336: a trap of any word by a handler's fragment is a double fault, and fatal; one by another fragment while a
handler runs is held at its PC; and where there is no handler to enter, or the cause is never delivered to one, it ends the team and
its context. -/
def Obligations.TrapsTaken : Prop :=
  (∀ (f : Fields) (s : State) (F : Frag),
    (Issues s F (.trap f) → F.calm → activeOf F f ≠ 0 → exec (.trap f) s = .next (afterTrap s F 0x0F 0 (activeOf F f)))
    ∧ (Issues s F (.brk f) → F.calm → activeOf F f ≠ 0 → exec (.brk f) s = .next (afterPlainTrap s F 0x16 (activeOf F f)))
    ∧ (Issues s F (.trap f) → F.quiet → activeOf F f = 0 →
        exec (.trap f) s = .next (setGroup s { F.g with sides := nextSides F }))
    ∧ (Issues s F (.brk f) → F.quiet → activeOf F f = 0 →
        exec (.brk f) s = .next (setGroup s { F.g with sides := nextSides F })))
  ∧ (∀ (i : Instr) (body : State → Frag → Act) (s : State) (F : Frag),
    issuing s = some F → F.calm →
    let tile (op : Nat) : Prop := 0x200 ≤ op ∧ op ≤ 0x20B
    (∀ lanes, (∀ op f, i.opFields = some (op, f) → lanes = if tile op.toNat then activeOf F f else F.lanes) →
      (i.opFields = none → lanes = F.lanes) →
      (i.legal = false → issue i body s = .next (afterPlainTrap s F 0x01 lanes))
      ∧ (i.legal = true → overBudget s F.g i = true → issue i body s = .next (afterPlainTrap s F 0x02 lanes)))
    ∧ (∀ w why, decode w = .reject why → exec (.illegalInstruction w) s = .next (afterPlainTrap s F 0x01
        (if w.getLsbD 1 = false ∧ tile (opField w) then activeOf F (fieldsOf w) else F.lanes))))
  ∧ (∀ (i : Instr) (body : State → Frag → Act) (s u : State) (F : Frag) (cause : BitVec 8) (eaddr : W64) (replay : Mask),
    Issues s F i → body s F = .trap u cause eaddr replay → getGroup u F.g.id = some F.g →
    let fatal (c : BitVec 8) : Prop := issue i body s = .next (settle (fatalContext u (ctxOf u F.g) c (some F.g.core) eaddr) F.g.id)
    let never : Prop := cause = 0x0B ∨ cause = 0x0D ∨ cause = 0x13
    (never → fatal cause)
    ∧ (¬ never → F.g.tm = true → F.key.handler = true → fatal 0x13)
    ∧ (¬ never → F.g.tm = true → F.key.handler = false → issue i body s = .next (settle (setGroup u { F.g with
        sides := F.g.sides.map fun x => if F.key.sameFragment x then { x with st := .trapHeld cause eaddr replay } else x }) F.g.id))
    ∧ (¬ never → F.g.tm = false → F.g.trapbase = 0 → fatal cause)
    ∧ (¬ never → F.calm → issue i body s = .next (afterTrap u F cause eaddr replay)))
  ∧ (∀ (s : State) (n : Nat) (c : BitVec 8) (core : Option Nat) (eaddr : W64), let u := fatalContext s n c core eaddr
    (getCtx u n).st = .faulted ∧ (∀ t ∈ u.teams, t.ctx ≠ n) ∧ (∀ l ∈ u.launches, l.ctx ≠ n) ∧
    ∀ g ∈ u.groups, ∀ t ∈ s.teams, t.ctx = n → g.team ≠ t.id)
  ∧ (∀ (f : Fields) (s : State) (F : Frag), Issues s F (.trap f) → activeOf F f ≠ 0 → F.g.tm = true → F.key.handler = true →
    exec (.trap f) s = .next (settle (fatalContext s (ctxOf s F.g) 0x13 (some F.g.core) 0) F.g.id))
  ∧ (∀ (f : Fields) (s : State) (F : Frag) (L : Nat), F.calm →
    misaligned (activeOf F f) (addr64 F.g f.selA f.a) = some L →
    let trapped := Host.Outcome.next (afterTrap s F 0x03 (addr64 F.g f.selA f.a L) (activeOf F f))
    (Issues s F (.brx f) → exec (.brx f) s = trapped) ∧ (Issues s F (.ret f) → exec (.ret f) s = trapped)
    ∧ (Issues s F (.callx f) → exec (.callx f) s = trapped))
  ∧ (∀ (f : Fields) (s : State) (F : Frag), Issues s F (.swr f) → F.calm →
    let act := activeOf F f
    let v : W64 := BitVec.ofNat 64 (bitsB s F.g f 4 (lowestLane act))
    act ≠ 0 →
    (f.d.toNat = 25 → v.extractLsb' 0 4 ≠ 0 → exec (.swr f) s = .next (afterPlainTrap s F 0x03 act))
    ∧ (f.d.toNat = 26 → v.extractLsb' 0 12 ≠ 0 → exec (.swr f) s = .next (afterPlainTrap s F 0x03 act))
    ∧ (f.d.toNat = 26 → v.extractLsb' 0 12 = 0 → F.g.saving = false → F.g.restoring = false →
      exec (.swr f) s = .next (afterPlainTrap s F 0x05 act)))

/-- R332: TRET outside a handler is illegal; in one, its active lanes wait there, and when no other live lane of the trap is
missing the return is made. R332: what the return from a trap restores: trap mode ends; each slice goes on where the variant
and the cause say, with its counter and its region PC as they were kept. R38: where the place it would go on at is no multiple
of 16 the return is not made: that is a fault of the TRET, which lies in a handler, and so fatal (R328, R330). That the alignment is
checked once every lane has come, that the fault is at the TRET's own PC, and what becomes of lanes that met the trap's at the TRET, is
the model's reading (DEDUCED, log entry 73). -/
def Obligations.TrapReturn : Prop :=
  (∀ (f : Fields) (s : State) (F : Frag), Issues s F (.tret f) →
    ((F.g.tm && F.key.handler) = false → F.calm → exec (.tret f) s = .next (afterPlainTrap s F 0x01 F.lanes))
    ∧ (F.g.tm = true → F.key.handler = true → activeOf F f ≠ 0 →
      let v := (f.mod.extractLsb' 0 2).toNat
      let g := gather F.g F.key (activeOf F f) (.gateTret v)
      let g := { g with sides := normSides g.sides }
      exec (.tret f) s = .next (settle (setGroup s g) F.g.id) ∧
      (activeOf F f = F.lanes → liveLanes F.g &&& F.g.trapLanes &&& ~~~F.lanes = 0 → (∀ x ∈ F.g.sides, x.atTret = false) →
        tretGathered g = some v)))
  ∧ (∀ (g : Group) (v : Nat),
    let g' := trapReturn g v
    g'.tm = false ∧ g'.trapLanes = 0 ∧ g'.kept = [] ∧ g'.rejoinTrap = Rejoin.clear
    ∧ g' = { g with
        sides := g'.sides, regions := g'.regions, tm := false, trapLanes := 0, kept := [], rejoinTrap := Rejoin.clear
        st := if g.st = .trapped then .active else g.st }
    ∧ (∀ k, k < g.regions.length → (∀ x ∈ g.kept, x.slice ≠ k) → g'.regions[k]? = g.regions[k]?)
    ∧ (∀ x, g.kept = [x] → x.slice < 8 → (∀ y ∈ g.sides, y.atTret = true → y.slice = x.slice) →
        tretGathered g ≠ none → (∀ y ∈ g.sides, y.slice = x.slice → y.atTret = true) →
        (∀ y ∈ g.sides, y.atTret = true → y.lanes &&& ~~~x.lanes = 0) →
        (x.slice < g.regions.length → g'.regions[x.slice]? = some x.region) ∧
        ∃ y ∈ g'.sides, y.slice = x.slice ∧ y.st = .running ∧ y.handler = false ∧ y.ctr = x.ctr ∧
          y.pc = (if v = 2 then g.epc + 16 else if g.cause = 0x0E then g.epc
            else if g.cause = 0x0F ∨ g.cause = 0x16 then g.epc + 16 else if v = 1 then g.epc else x.region) ∧
          (v = 1 → y.ph = x.ph) ∧
          (v = 1 → g.cause ≠ 0x0E → g.cause ≠ 0x0F → g.cause ≠ 0x16 → y.only = g.replay &&& g.trapLanes)))
  ∧ (∀ (s : State) (g : Group) (v : Nat) (x : KeptSide), getGroup s g.id = some g → tretGathered g = some v → g.kept = [x] →
    (∀ y ∈ g.sides, y.atTret = true → y.slice = x.slice ∧ y.handler = true) →
    (resumption g v x).1.extractLsb' 0 4 ≠ 0 →
    settleTrap s g.id = fatalContext s (ctxOf s g) 0x13 (some g.core) (resumption g v x).1)

/-- R322 to R324, R327, R333: REGION, TIMER, SRD and SWR complete with what they write; and each special register reads as the table of
R322 gives it, a mask or a shorter register with its upper bits 0. -/
def Obligations.SpecialRegisters : Prop :=
  (∀ (s : State) (F : Frag) (L : Nat) (t : Team) (l : Launch),
    getTeam s F.g.team = some t → launchOf s F.g = some l →
    ∀ p ∈ ([(0, BitVec.ofNat 64 L), (1, BitVec.ofNat 64 F.g.index), (2, BitVec.ofNat 64 t.x), (3, BitVec.ofNat 64 t.y),
        (4, BitVec.ofNat 64 t.z), (5, BitVec.ofNat 64 l.blk.gx), (6, BitVec.ofNat 64 l.blk.gy), (7, BitVec.ofNat 64 l.blk.gz),
        (8, BitVec.ofNat 64 F.g.role), (9, BitVec.ofNat 64 t.cores.length), (10, BitVec.ofNat 64 F.g.peer),
        (11, (liveLanes F.g).setWidth 64), (12, F.g.launched.setWidth 64), (13, F.lanes.setWidth 64),
        (14, (liveLanes F.g &&& ~~~F.lanes).setWidth 64), (15, s.now), (16, F.g.cmp), (17, if F.g.preq = true then 1 else 0),
        (18, F.g.deadline), (20, F.g.rcount), (21, F.g.cause.setWidth 64), (22, F.g.epc), (23, F.g.eaddr),
        (24, F.g.replay.setWidth 64), (25, F.g.trapbase), (26, F.g.savearea), (27, BitVec.ofNat 64 t.cov.toNat), (28, F.g.seed),
        (29, BitVec.ofNat 64 (getCtx s t.ctx).num), (30, BitVec.ofNat 64 (getCtx s t.ctx).part), (31, BitVec.ofNat 64 l.frame)]
        : List (Nat × W64)), specialReg s F p.1 L = p.2)
  ∧ (∀ (s : State) (F : Frag) (L i : Nat) (r : W64), i < 8 → F.g.regions[i]? = some r → F.lanes &&& sliceMask i ≠ 0 →
    (∀ j, j < i → F.lanes &&& sliceMask j = 0) → specialReg s F 19 L = r)
  ∧ ∀ (f : Fields) (s : State) (F : Frag), F.quiet →
  let act := activeOf F f
  let v : W64 := BitVec.ofNat 64 (bitsB s F.g f 4 (lowestLane act))
  let ends (g : Group) : Res := .next (setGroup s { g with sides := nextSides F })
  (Issues s F (.region f) → exec (.region f) s = ends
    (if act = 0 ∨ F.g.tm = true ∧ F.key.handler = true then F.g else { F.g with
      rcount := F.g.rcount + 1
      regions := F.g.regions.zipIdx.map fun p => if F.lanes &&& sliceMask p.2 ≠ 0 then F.key.pc else p.1 }))
  ∧ (Issues s F (.timer f) → exec (.timer f) s = ends
    (if act = 0 then F.g else { F.g with cmp := if v = 0 then 0 else if f.mod.getLsbD 0 then s.now + v else v }))
  ∧ (Issues s F (.srd f) → ∃ g, RegisterResult F f.d.toNat f.ds (f.mod.getLsbD 0) act (specialReg s F f.a.toNat)
      (specialReg s F f.a.toNat (highestLane act)) g ∧ exec (.srd f) s = ends g)
  ∧ (Issues s F (.swr f) → f.d.toNat = 16 → exec (.swr f) s = ends
    (if act = 0 then F.g else { F.g with cmp := v }))
  ∧ (Issues s F (.swr f) → f.d.toNat = 25 → v.extractLsb' 0 4 = 0 →
    exec (.swr f) s = ends (if act = 0 then F.g else { F.g with trapbase := v }))
  ∧ (Issues s F (.swr f) → f.d.toNat = 26 → v.extractLsb' 0 12 = 0 →
    (F.g.tm = true ∧ F.key.handler = true ∨ F.g.saving = true ∨ F.g.restoring = true) →
    exec (.swr f) s = ends (if act = 0 then F.g else { F.g with savearea := v }))

/-- R147 to R150, R154, R157: LD and LDG of lanes whose addresses are mapped put the bytes there, the group's own waiting
stores laid over them, into D, where each such store that meets a lane's bytes covers them; memory and all other state but
copies, clocks, leases and tokens stay. R157: a lane of LDG whose page is not present gets its done predicate written 0, and raises
nothing. Before an access at team scope or wider the group's waiting stores go home (R214; that all of the group's do is the model's
choice, DEDUCED, log entry 60). A load to a scalar register extends to 32 bits and writes bits 63:32 as 0, which is the model's reading
(DEDUCED, log entry 100). -/
def Obligations.Loads : Prop := ∀ (f : Fields) (s : State) (F : Frag) (host direct : Nat → Bool) (pa : Nat → Nat),
  let v := envOf s F.g
  let n := sizeBytes f.size
  let act := activeOf F f
  let wide (lanes : List Nat) : Bool := !lanes.isEmpty && (f.scope != 0 || lanes.any host)
  let base (lanes : List Nat) : State := if wide lanes then drainOwn s v else s
  let value (lanes : List Nat) (L : Nat) : Nat := loadValue n f.opm8
    (if host L then readBytes s.hostMem (pa L) n else groupView (base lanes) F.g.core F.g.id (pa L) n)
  let ready (lanes : List Nat) : Prop :=
    (f.scope = 0 → lanes.all host = lanes.any host ∨ ∀ x ∈ (getCore s F.g.core).grpStores, x.gid ≠ F.g.id)
    ∧ ∀ L ∈ lanes, Mapped s v (memAddr F.g f L) (loadOf n) (host L) (pa L) (direct L)
    ∧ (host L = false → CurrentLine (base lanes) F.g.core (lineOf (pa L)) ∧ ∀ x ∈ (getCore (base lanes) F.g.core).grpStores,
        x.gid = F.g.id → x.overlaps (pa L) n = true → x.pa ≤ pa L ∧ pa L + n ≤ x.pa + x.bytes.length)
  let ends (i : Instr) (lanes : List Nat) (g' : Group) (vd sd : List Nat) : Prop := ∃ t,
    AccessFrame (setGroup (base lanes) { g' with sides := nextSides F }) t ∧ t.mem = (base lanes).mem ∧ t.hostMem = s.hostMem
      ∧ (exec i s = .next t ∨ exec i s = .next (inFlight t F.g.id vd sd))
  let all := lanesOf act
  let one := all.take 1
  F.quiet →
  (Issues s F (.ld f) → f.opm9 = false → ready all →
    ∃ g', LaneLoads F act f.d.toNat n (value all) g' ∧ ends (.ld f) all g' (from_ f.d.toNat (sizeRegs f.size)) [])
  ∧ (Issues s F (.ld f) → f.opm9 = true → ready one →
    ∃ g', g' = { F.g with sregs := g'.sregs } ∧ (∀ r, getS g' r =
      if act ≠ 0 ∧ r = f.d.toNat then BitVec.ofNat 64 (value one (lowestLane act)) else getS F.g r) ∧
      ends (.ld f) one g' [] [f.d.toNat])
  ∧ (Issues s F (.ldg f) → ready all →
    ∃ g1 g', LaneLoads F act f.d.toNat n (value all) g1 ∧ g' = { g1 with preds := g'.preds } ∧
      (∀ p L, L < 32 → getP g' p L = (getP F.g p L || (act.getLsbD L && p == f.c.toNat))) ∧
      ends (.ldg f) all g' (from_ f.d.toNat (sizeRegs f.size)) [])
  ∧ (∀ (L : Nat) (t : State), Issues s F (.ldg f) → L < 32 → act = laneBit L →
    checkLane s v (memAddr F.g f L) (loadOf n) = (t, .absent) → getGroup t F.g.id = some F.g →
    ∃ g', PredResult F f f.c.toNat (fun _ => false) g' ∧ exec (.ldg f) s = .next (setGroup t { g' with sides := nextSides F }))
  ∧ (∀ x : GrpStore, (getCore (drainOwn s v) F.g.core).grpStores.contains x =
      ((getCore s F.g.core).grpStores.contains x && x.gid != F.g.id))

/-- R155: LDS and LDP read the named peer's share of the team's scratchpad. R155: STS and STP write the named peer's share of
the team's scratchpad, in lane order, and no memory. R156: LDC reads the launch's argument block, per lane or once. The model's own:
before an access of LDS or LDP at a scope other than grp the group's waiting stores go home (DEDUCED, log entry 60), and what a load
to a scalar register puts into its upper bits (DEDUCED, log entry 100). -/
def Obligations.ShareAccesses : Prop :=
  (∀ (f : Fields) (s : State) (F : Frag) (own : Bool) (i : Instr) (tm : Team),
    (i = if own then .lds f else .ldp f) → Issues s F i → F.quiet → getTeam s F.g.team = some tm →
    let n := sizeBytes f.size
    let act := activeOf F f
    let off (L : Nat) : Nat := (memAddr F.g f L).toNat % 2 ^ 32
    (∀ L ∈ lanesOf act, off L % n = 0 ∧ peerOf F f own L < spanOf s F.g.team ∧ off L + n ≤ shareSize s F.g.team
      ∧ lockConflict s F.g.core (ctxOf s F.g) F.g.team false (some (peerOf F f own L)) (off L) n = false) →
    let base : State := if act ≠ 0 ∧ f.scope ≠ 0 then drainOwn s (envOf s F.g) else s
    ∃ g' t, LaneLoads F act f.d.toNat n
        (fun L => loadValue n f.opm8 (readBytes tm.scratch (shareKey (peerOf F f own L) (off L)) n)) g' ∧
      AccessFrame (setGroup base { g' with sides := nextSides F }) t ∧ t.mem = base.mem ∧ t.hostMem = s.hostMem ∧ exec i s = .next t)
  ∧ (∀ (f : Fields) (s : State) (F : Frag) (own : Bool) (i : Instr) (tm : Team),
    (i = if own then .sts f else .stp f) → Issues s F i → F.quiet → getTeam s F.g.team = some tm →
    (getCore s F.g.core).grpStores = [] →
    let n := sizeBytes f.size
    let lanes := lanesOf (activeOf F f)
    let off (L : Nat) : Nat := (memAddr F.g f L).toNat % 2 ^ 32
    (∀ L ∈ lanes, off L % n = 0 ∧ peerOf F f own L < spanOf s F.g.team ∧ off L + n ≤ shareSize s F.g.team
      ∧ lockConflict s F.g.core (ctxOf s F.g) F.g.team true (some (peerOf F f own L)) (off L) n = false) →
    ∃ t, exec i s = .next t ∧ AccessFrame (setTeam (setGroup s { F.g with sides := nextSides F }) { tm with
        scratch := lanes.foldl (fun m L => writeBytes m (shareKey (peerOf F f own L) (off L)) (storeData s F.g f n L)) tm.scratch }) t
      ∧ t.mem = s.mem ∧ t.hostMem = s.hostMem)
  ∧ (∀ (f : Fields) (s : State) (F : Frag) (l : Launch), Issues s F (.ldc f) → F.quiet →
    launchOf s F.g = some l →
    let n := sizeBytes f.size
    let act := activeOf F f
    let off (L : Nat) : Nat := countB f s F L
    let value (L : Nat) : Nat := loadValue n f.opm8 (readBytes l.argBlock (off L) n)
    let good (L : Nat) : Prop := off L % n = 0 ∧ off L + n ≤ l.blk.arglen
    (f.opm9 = false → (∀ L ∈ lanesOf act, good L) → ∃ g', LaneLoads F act f.d.toNat n value g' ∧
      exec (.ldc f) s = .next (setGroup s { g' with sides := nextSides F }))
    ∧ (f.opm9 = true → act ≠ 0 → good (lowestLane act) → ∃ g', g' = { F.g with sregs := g'.sregs } ∧
      (∀ r, getS g' r = if r = f.d.toNat then BitVec.ofNat 64 (value (lowestLane act)) else getS F.g r) ∧
      exec (.ldc f) s = .next (setGroup s { g' with sides := nextSides F })))

/-- R150, R151, R154: ST of lanes whose addresses are mapped writes each active lane's bytes in lane order, and no other byte
of memory. A grp-scope store of Mode S may remain in L1 (R214): in the model each waits in the core, where its HINT lets it and
its line is not poisoned, and marks the core's copy of its line by that HINT (DEDUCED, log entries 60 and 105). -/
def Obligations.Stores : Prop := ∀ (f : Fields) (s : State) (F : Frag) (host direct : Nat → Bool) (pa : Nat → Nat),
  Issues s F (.st f) → F.quiet →
  let v := envOf s F.g
  let n := sizeBytes f.size
  let lanes := lanesOf (activeOf F f)
  let data (L : Nat) : List Byte := storeData s F.g f n L
  let put (onHost : Bool) (m : Memory) (L : Nat) : Memory := if host L = onHost then writeBytes m (pa L) (data L) else m
  (∀ L ∈ lanes, Mapped s v (memAddr F.g f L) (storeOf n) (host L) (pa L) (direct L)) →
  (getCore s F.g.core).grpStores = [] →
  ((v.part.orderMode = false ∨ f.scope ≠ 0 ∨ f.hint.toNat = 3 ∨ ∀ L ∈ lanes, host L = true ∨ direct L = true) →
    ∃ t, exec (.st f) s = .next t ∧ AccessFrame (setGroup s { F.g with sides := nextSides F }) t
      ∧ t.mem = lanes.foldl (put false) s.mem ∧ t.hostMem = lanes.foldl (put true) s.hostMem
      ∧ (∀ a, (∀ L ∈ lanes, host L = false → a < pa L ∨ pa L + n ≤ a) → sget t.mem a = sget s.mem a)
      ∧ (∀ a, (∀ L ∈ lanes, host L = true → a < pa L ∨ pa L + n ≤ a) → sget t.hostMem a = sget s.hostMem a)
      ∧ (s.mem.wf = true → t.mem.wf = true))
  ∧ (v.part.orderMode = true → f.scope = 0 → f.hint.toNat ≠ 3 → lanes ≠ [] → (∀ L ∈ lanes, host L = false ∧ direct L = false) →
    (∀ L ∈ lanes, poisonedLine s false (pa L) = false) →
    let marked (x : Copy) : Copy :=
      if (f.hint.toNat = 1 ∨ f.hint.toNat = 2) ∧ ∃ L ∈ lanes, x.line = lineOf (pa L) then { x with hint := f.hint.toNat } else x
    let k := getCore s F.g.core
    exec (.st f) s = .next (setGroup (setCore s { k with
      l1 := k.l1.map marked, grpStores := lanes.map fun L => ⟨F.g.id, v.ctx, pa L, data L, f.hint.toNat⟩ })
      { F.g with sides := nextSides F }))

/-- R149, R150: lanes whose address is not a multiple of the size trap with cause 0x03; the lanes whose checks pass are done,
and sr.replay names the others. Here every active lane is misaligned: nothing is read, and nothing written. -/
def Obligations.MisalignedAccesses : Prop := ∀ (f : Fields) (s : State) (F : Frag) (i : Instr),
  i ∈ [Instr.ld f, .ldg f, .st f, .atom f, .acas f, .ldf f, .stf f, .freset f, .waita f] → (i = .ld f → f.opm9 = false) →
  Issues s F i → F.calm → activeOf F f ≠ 0 →
  let n := match i with | .ldf _ | .stf _ | .freset _ => 16 | _ => sizeBytes f.size
  (∀ L ∈ lanesOf (activeOf F f), (memAddr F.g f L).toNat % n ≠ 0) →
  exec i s = .next (afterTrap s F 0x03 (memAddr F.g f (lowestLane (activeOf F f))) (activeOf F f))

/-- R149: a lane's access is checked in the stated order, each check with its cause; R370: what a leaf says of an access. R150: of
the lanes of a vector LD, LDG, ST, ATOM or ACAS those whose checks pass are done, in lane order; the lowest of the others raises its
own cause, at its address, with sr.replay naming the others; a lane of a load that meets a partition violation writes 0xDEAD_0BAD into
every part of D, and other lanes at fault write nothing. A lane whose page is not present traps with cause 0x04. -/
def Obligations.LaneFaults : Prop :=
  (∀ (s : State) (v : Env) (va : W64) (a : Access),
    let r := checkLane s v va a
    let locked := lockConflict s v.core v.ctx v.team a.write none va.toNat a.n
    (va.toNat % a.n ≠ 0 → r = (s, .fault 0x03 0))
    ∧ (va.toNat % a.n = 0 → locked = true → r = (s, .fault 0x06 0))
    ∧ (va.toNat % a.n = 0 → locked = false → triggerAt s v.ctx va a.n = none → ∀ u x,
      translate s (some v.core) (dieOf v.core) v.ctx va a.acc true true (fun pa => a.device && loadedFor s v.ctx pa) = (u, x) →
      (x = .absent → r = (u, .absent)) ∧ (∀ c pa, x = .fault c pa → r = (u, .fault c pa))
      ∧ ∀ mt pa, x = .ok mt pa → mt ≠ 3 → r = (u,
        if a.read = true ∧ poisonedLine u (mt = 2) pa = true then .fault 0x14 pa else .ok (.mem (mt = 2) pa (mt = 1)))))
  ∧ (∀ (p : Partition) (e : W64) (lg : Nat) (va : W64) (acc : PageAcc) (devOk : Nat → Bool),
    let pa := pteFrame e / 2 ^ lg * 2 ^ lg + va.toNat % 2 ^ lg
    let may : Prop := (acc.read = true → e.getLsbD 4 = true) ∧ (acc.write = true → e.getLsbD 5 = true) ∧
      (acc.exec = true → e.getLsbD 6 = true) ∧ (e.getLsbD 7 = true → acc.tile = true)
    let homeless : Prop := pteMtype e ≤ 1 ∧ (moduleSize ≤ pa ∨ homeDie p pa = none)
    let x := leafAnswer p e lg va acc devOk
    (¬ may → x = .fault 0x05 0)
    ∧ (may → pteMtype e = 3 → devOk pa = false → x = .fault 0x05 0)
    ∧ (may → pteMtype e ≠ 3 → homeless → x = .fault 0x15 pa)
    ∧ (may → pteMtype e ≠ 3 → ¬ homeless → x = if e.getLsbD 63 = true then .fault 0x14 pa else .ok (pteMtype e) pa))
  ∧ (∀ (f : Fields) (s : State) (F : Frag) (host direct : Nat → Bool) (pa : Nat → Nat) (cause : Nat → Option (BitVec 8)) (first : Nat)
      (c : BitVec 8), F.calm → (getCore s F.g.core).grpStores = [] →
    let v := envOf s F.g
    let n := sizeBytes f.size
    let lanes := lanesOf (activeOf F f)
    let good := lanes.filter fun L => (cause L).isNone
    let bad := lanes.filter fun L => (cause L).isSome
    let va := memAddr F.g f
    let checked (a : Access) : Prop :=
      (∀ L ∈ good, Mapped s v (va L) a (host L) (pa L) (direct L)) ∧ ∀ L ∈ lanes, ∀ k, cause L = some k → FaultsWith s v (va L) a k
    let logged : Prop := c = 0x14 ∨ c = 0x15
    let traps (i : Instr) (g' : Group) (m h : Memory) : Prop := ∃ t, exec i s = .next t ∧
      getGroup t F.g.id = some (trapGroup F g' c (va first) (maskOf bad)) ∧ (¬ logged → t.mem = m ∧ t.hostMem = h)
    bad.head? = some first → cause first = some c →
    (∀ i, i = .ld f ∧ f.opm9 = false ∨ i = .ldg f → Issues s F i → checked (loadOf n) →
      (∀ L ∈ good, host L = false → CurrentLine s F.g.core (lineOf (pa L))) →
      ∃ g1 g', LaneLoads F (maskOf (lanes.filter fun L => cause L = none ∨ cause L = some 0x15)) f.d.toNat n (fun L =>
          if cause L = none then loadValue n f.opm8 (readBytes (if host L then s.hostMem else s.mem) (pa L) n)
          else 0xDEAD0BADDEAD0BADDEAD0BADDEAD0BAD) g1 ∧
        g' = { g1 with preds := g'.preds } ∧
        (∀ p L, L < 32 → getP g' p L = (getP F.g p L || (decide (i = .ldg f) && decide (L ∈ good) && p == f.c.toNat))) ∧
        traps i g' s.mem s.hostMem)
    ∧ (Issues s F (.st f) → checked (storeOf n) → v.part.orderMode = false ∨ f.scope ≠ 0 →
      let put (onHost : Bool) (m : Memory) (L : Nat) : Memory := if host L = onHost then writeBytes m (pa L) (storeData s F.g f n L) else m
      traps (.st f) F.g (good.foldl (put false) s.mem) (good.foldl (put true) s.hostMem))
    ∧ (∀ cas : Bool, let i : Instr := if cas then .acas f else .atom f
      Issues s F i → checked (atomicOf n) →
      let new (L old : Nat) : Nat :=
        if cas then
          if old = srcOf f.selC f.c (if n = 8 then 4 else 0) s F L then
            (if n = 8 then (getV64 F.g f.e.toNat L).toNat else (getV F.g f.e.toNat L).toNat) else old
        else atomNew (eLow4 f) (eTy f) old (srcOf f.selC f.c (eTy f) s F L)
      let one (x : Memory × Memory × (Nat → Nat)) (L : Nat) : Memory × Memory × (Nat → Nat) :=
        let old := readNat (if host L then x.2.1 else x.1) (pa L) n
        let bs := leBytes n (new L old)
        (if host L then x.1 else writeBytes x.1 (pa L) bs, if host L then writeBytes x.2.1 (pa L) bs else x.2.1,
          fun K => if K = L then old else x.2.2 K)
      let all := good.foldl one (s.mem, s.hostMem, fun _ => 0)
      ∃ g', LaneLoads F (maskOf good) f.d.toNat n all.2.2 g' ∧ traps i g' all.1 all.2.1))
  ∧ ∀ (f : Fields) (s t : State) (F : Frag) (L : Nat) (i : Instr) (a : Access), F.calm → L < 32 → activeOf F f = laneBit L → Issues s F i →
    let n := sizeBytes f.size
    (i, a) ∈ [(Instr.ld f, loadOf n), (.st f, storeOf n), (.atom f, atomicOf n), (.acas f, atomicOf n)] →
    checkLane s (envOf s F.g) (memAddr F.g f L) a = (t, .absent) → getGroup t F.g.id = some F.g →
    exec i s = .next (afterTrap t F 0x04 (memAddr F.g f L) (laneBit L))

/-- R159, R214: FENCE completes for every fragment: at team scope or wider every store of its group that waits in the core goes
home, and other stores wait on (which stores go home, and that at grp scope none does, is the model's choice, DEDUCED, log entry
60); where none of the group waits, memory stays. R160: CCTL completes for every fragment: of each
active lane's line, where its address is mapped, `ic` drops the copies in the core's instruction cache and `evict` the copy in
its L1, whose waiting stores go home first; an address that is not mapped does nothing. -/
def Obligations.FencesAndCaches : Prop :=
  (∀ (f : Fields) (s : State) (F : Frag), Issues s F (.fence f) → F.quiet →
    let drains : Prop := activeOf F f ≠ 0 ∧ f.scope ≠ 0
    let mine (x : GrpStore) : Bool := x.gid = F.g.id
    ∃ t, exec (.fence f) s = .next t
      ∧ getGroup t F.g.id = some { F.g with sides := nextSides F }
      ∧ (drains → (getCore t F.g.core).grpStores = (getCore s F.g.core).grpStores.filter (fun x => !mine x))
      ∧ (¬ drains → t = setGroup s { F.g with sides := nextSides F })
      ∧ ((∀ x ∈ (getCore s F.g.core).grpStores, mine x = false) → AccessFrame (setGroup s { F.g with sides := nextSides F }) t
          ∧ t.mem = s.mem ∧ t.hostMem = s.hostMem))
  ∧ (∀ (f : Fields) (s : State) (F : Frag), Issues s F (.cctl f) → F.quiet →
    let v := envOf s F.g
    let one (u : State) (L : Nat) : State :=
      match translate u (some v.core) (dieOf v.core) v.ctx (memAddr F.g f L) ⟨false, false, false, true⟩ false false fun _ => true with
      | (u, .ok mt pa) => cctlLine u v.core f.opm8 (mt = 2) pa
      | (u, _) => u
    let u := (lanesOf (activeOf F f)).foldl one s
    exec (.cctl f) s = .next (setGroup u { F.g with sides := nextSides F })
      ∧ getGroup u F.g.id = some F.g)
  ∧ (∀ (s : State) (core pa : Nat),
    let l := lineOf pa
    (∀ x ∈ (getCore s core).grpStores, lineOf x.pa = l → x.pa % 128 + x.bytes.length ≤ 128) →
    (getCore (cctlLine s core true false pa) core).l1 = (getCore s core).l1.filter (fun x => x.line != l)
    ∧ (getCore (cctlLine s core true false pa) core).grpStores = (getCore s core).grpStores.filter (fun x => lineOf x.pa != l)
    ∧ cctlLine s core true true pa = s
    ∧ cctlLine s core false false pa = setCore s { getCore s core with
        icache := (getCore s core).icache.filter fun x => lineOf x.1 != l })

/-- R151, R162, R163: the lanes of ATOM and ACAS read and write their addresses one after another in lane order; D of each
receives what it read, and no other byte changes. R151, R162: the lanes of ATOMS do so on the core's own share of the team's
scratchpad. -/
def Obligations.Atomics : Prop :=
  (∀ (f : Fields) (s : State) (F : Frag) (host direct : Nat → Bool) (pa : Nat → Nat) (cas : Bool),
    let i : Instr := if cas then .acas f else .atom f
    Issues s F i → F.quiet → (getCore s F.g.core).grpStores = [] →
    let n := sizeBytes f.size
    let act := activeOf F f
    let new (L old : Nat) : Nat :=
      if cas then
        if old = srcOf f.selC f.c (if n = 8 then 4 else 0) s F L then
          (if n = 8 then (getV64 F.g f.e.toNat L).toNat else (getV F.g f.e.toNat L).toNat) else old
      else atomNew (eLow4 f) (eTy f) old (srcOf f.selC f.c (eTy f) s F L)
    let one (x : Memory × Memory × (Nat → Nat)) (L : Nat) : Memory × Memory × (Nat → Nat) :=
      let old := readNat (if host L then x.2.1 else x.1) (pa L) n
      let bs := leBytes n (new L old)
      (if host L then x.1 else writeBytes x.1 (pa L) bs, if host L then writeBytes x.2.1 (pa L) bs else x.2.1,
        fun K => if K = L then old else x.2.2 K)
    let all := (lanesOf act).foldl one (s.mem, s.hostMem, fun _ => 0)
    (∀ L ∈ lanesOf act, Mapped s (envOf s F.g) (memAddr F.g f L) (atomicOf n) (host L) (pa L) (direct L)) →
    ∃ g' t, LaneLoads F act f.d.toNat n all.2.2 g' ∧ exec i s = .next t ∧
      AccessFrame (setGroup s { g' with sides := nextSides F }) t ∧ t.mem = all.1 ∧ t.hostMem = all.2.1 ∧
      (∀ a, (∀ L ∈ lanesOf act, host L = false → a < pa L ∨ pa L + n ≤ a) → sget t.mem a = sget s.mem a))
  ∧ (∀ (f : Fields) (s : State) (F : Frag) (tm : Team), Issues s F (.atoms f) → F.quiet →
    getTeam s F.g.team = some tm → (getCore s F.g.core).grpStores = [] →
    let n := sizeBytes f.size
    let act := activeOf F f
    let off (L : Nat) : Nat := (memAddr F.g f L).toNat % 2 ^ 32
    let one (x : Memory × (Nat → Nat)) (L : Nat) : Memory × (Nat → Nat) :=
      let k := shareKey F.g.peer (off L)
      let old := readNat x.1 k n
      (writeBytes x.1 k (leBytes n (atomNew (eLow4 f) (eTy f) old (srcOf f.selC f.c (eTy f) s F L))),
        fun K => if K = L then old else x.2 K)
    let all := (lanesOf act).foldl one (tm.scratch, fun _ => 0)
    (∀ L ∈ lanesOf act, off L % n = 0 ∧ F.g.peer < spanOf s F.g.team ∧ off L + n ≤ shareSize s F.g.team
      ∧ lockConflict s F.g.core (ctxOf s F.g) F.g.team true (some F.g.peer) (off L) n = false) →
    ∃ g' t, LaneLoads F act f.d.toNat n all.2 g' ∧ exec (.atoms f) s = .next t ∧
      AccessFrame (setTeam (setGroup s { g' with sides := nextSides F }) { tm with scratch := all.1 }) t ∧
      t.mem = s.mem ∧ t.hostMem = s.hostMem)

/-- R165: a lane of LDF whose cell is full takes its value and is ready; one whose cell is not full is not ready at once in
the non-blocking form; in the other form the fragment waits, each such lane's request held in its cell. R166: STF fills the
cells of its active lanes in lane order, FRESET empties them and keeps their values; no other byte changes. R166: a fill
answers every request held on its cell: the requests go, and the lane of one that is the only one of its group takes the
value into D, is ready, and waits no more. -/
def Obligations.Futures : Prop :=
  (∀ (f : Fields) (s : State) (F : Frag) (direct : Nat → Bool) (pa : Nat → Nat),
    Issues s F (.ldf f) → F.quiet → (getCore s F.g.core).grpStores = [] → F.key.held = none →
    let n := sizeBytes f.size
    let act := activeOf F f
    let cell (L : Nat) : Nat := readNat s.mem (pa L) 16
    let full (L : Nat) : Bool := (cell L).testBit 64
    (∀ L ∈ lanesOf act, Mapped s (envOf s F.g) (memAddr F.g f L) (plainRead 16) false (pa L) (direct L)) →
    ((∀ L ∈ lanesOf act, full L = true ∨ f.opm9 = true) →
      ∃ g1 g' t, LaneLoads F (lanesWhere act full) f.d.toNat n (fun L => cell L % 2 ^ (8 * n)) g1 ∧
        g' = { g1 with preds := g'.preds } ∧
        (∀ p L, L < 32 → getP g' p L =
          if p ≠ 15 ∧ p = f.c.toNat ∧ act.getLsbD L = true then full L else getP F.g p L) ∧
        exec (.ldf f) s = .next t ∧ AccessFrame (setGroup s { g' with sides := nextSides F }) t ∧ t.mem = s.mem)
    ∧ ((∀ L ∈ lanesOf act, full L = false) → f.opm9 = false → act ≠ 0 → s.deferred.length + 32 ≤ 1024 →
      ∃ t g, exec (.ldf f) s = .next t ∧ t.mem = s.mem ∧ getGroup t F.g.id = some g ∧ g.vregs = F.g.vregs ∧ g.preds = F.g.preds ∧
        t.deferred = s.deferred ++ (lanesOf act).map (fun L =>
          ⟨false, pa L, F.g.id, L, f.d.toNat, f.size = 3, f.c.toNat, memAddr F.g f L⟩) ∧
        ∀ x ∈ F.g.sides, F.key.sameFragment x = true → x.lanes ≠ 0 →
          ∃ y ∈ g.sides, y.lanes = x.lanes ∧ y.pc = x.pc ∧ y.only = act ∧ y.st = .park (.ldf false none)))
  ∧ (∀ (f : Fields) (s : State) (F : Frag) (direct : Nat → Bool) (pa : Nat → Nat),
    F.quiet → (getCore s F.g.core).grpStores = [] →
    let lanes := lanesOf (activeOf F f)
    (∀ L ∈ lanes, Mapped s (envOf s F.g) (memAddr F.g f L) (plainWrite 16) false (pa L) (direct L)) →
    (Issues s F (.stf f) → (∀ L ∈ lanes, ∀ d ∈ s.deferred, d.host = true ∨ d.pa ≠ pa L) →
      ∃ t, exec (.stf f) s = .next t ∧ AccessFrame (setGroup s { F.g with sides := nextSides F }) t ∧ t.hostMem = s.hostMem ∧
        t.mem = lanes.foldl (fun m L => writeBytes m (pa L)
          (leBytes 16 ((BitVec.ofNat 64 (leNat (storeData s F.g f (sizeBytes f.size) L))).toNat + 2 ^ 64))) s.mem)
    ∧ (Issues s F (.freset f) →
      ∃ t, exec (.freset f) s = .next t ∧ AccessFrame (setGroup s { F.g with sides := nextSides F }) t ∧ t.hostMem = s.hostMem ∧
        t.mem = lanes.foldl (fun m L => writeBytes m (pa L + 8) (leBytes 8 0)) s.mem))
  ∧ (∀ (s : State) (v : Env) (pa : Nat) (value : W64) (d : DeferredLdf) (g : Group),
    let t := fillCell s v false pa value
    t.deferred = s.deferred.filter (fun x => !(x.host = false && x.pa = pa))
    ∧ (s.deferred.filter (fun x => x.host = false && x.pa = pa) = [d] → getGroup s d.gid = some g → d.lane < 32 → ∃ g',
      getGroup t d.gid = some g' ∧ Instr.dependenceResolved d.gid ∈ t.work ∧ g'.sides = g.sides.map (answerSide d.lane) ∧
      (d.pred ≠ 15 → getP g' d.pred d.lane = true) ∧
      getV g' d.d d.lane = value.extractLsb' 0 32 ∧ (d.b64 = true → getV g' (d.d + 1) d.lane = value.extractLsb' 32 32)))

/-- R168, R169: WAITA writes what it read and goes on where the condition holds in every active lane; where it holds in none,
nothing is written and the fragment waits, each lane registered on its line. R170: WAITS reads for its lowest active lane,
and goes on with the value in S(D) where the condition holds or its limit, S(D) as the word began, has run out; else it waits
with the time it has left. That a wait which resumes withdraws its lanes' registrations and makes them anew, a limit in progress going
on, is the model's (DEDUCED, log entry 55). -/
def Obligations.Waits : Prop :=
  (∀ (f : Fields) (s : State) (F : Frag) (direct : Nat → Bool) (pa : Nat → Nat),
    Issues s F (.waita f) → F.quiet → (getCore s F.g.core).grpStores = [] →
    let n := sizeBytes f.size
    let act := activeOf F f
    let x (L : Nat) : Nat := readNat s.mem (pa L) n
    let holds (L : Nat) : Bool := waitCond f (x L) (srcOf f.selC f.c (eTy f) s F L)
    (∀ L ∈ lanesOf act, Mapped s (envOf s F.g) (memAddr F.g f L) (plainRead n) false (pa L) (direct L)) →
    ((∀ L ∈ lanesOf act, holds L = true) → ∃ g' t, LaneLoads F act f.d.toNat n x g' ∧ exec (.waita f) s = .next t ∧
      AccessFrame (unregister (setGroup s { g' with sides := nextSides F }) F.g.id act) t ∧ t.mem = s.mem)
    ∧ ((∀ L ∈ lanesOf act, holds L = false) → act ≠ 0 → s.waits.length + 32 ≤ 4096 →
      ∃ t g, exec (.waita f) s = .next t ∧ t.mem = s.mem ∧ getGroup t F.g.id = some g ∧ g.vregs = F.g.vregs ∧
        t.waits = (unregister s F.g.id act).waits ++ (lanesOf act).map (fun L => ⟨false, lineOf (pa L), F.g.id, L⟩) ∧
        ∀ y ∈ F.g.sides, F.key.sameFragment y = true → y.lanes ≠ 0 →
          ∃ z ∈ g.sides, z.lanes = y.lanes ∧ z.pc = y.pc ∧ z.only = act ∧ z.st = .park (.waita false)))
  ∧ (∀ (f : Fields) (s : State) (F : Frag) (direct : Bool) (pa : Nat),
    Issues s F (.waits f) → F.quiet → (getCore s F.g.core).grpStores = [] → activeOf F f ≠ 0 →
    let n := sizeBytes f.size
    let L := lowestLane (activeOf F f)
    let x := readNat s.mem pa n
    let holds := waitCond f x (srcOf f.selC f.c (eTy f) s F L)
    let now := (coreNow s F.g.core).toNat
    let lim := getS F.g f.d.toNat
    let due : Nat := if F.key.limit ≠ 0 then F.key.limit else if lim = 0 then noLimit else now + lim.toNat
    Mapped s (envOf s F.g) (memAddr F.g f L) (plainRead n) false pa direct →
    (holds = true ∨ due ≤ now →
      ∃ g' t, g' = { F.g with sregs := g'.sregs } ∧
        (∀ r, getS g' r = if r = f.d.toNat then BitVec.ofNat 64 x else getS F.g r) ∧ exec (.waits f) s = .next t ∧
        AccessFrame (unregister (setGroup s { g' with sides := nextSides F }) F.g.id (activeOf F f)) t ∧ t.mem = s.mem)
    ∧ (holds = false → now < due → s.waits.length < 4096 →
      ∃ t g, exec (.waits f) s = .next t ∧ t.mem = s.mem ∧ getGroup t F.g.id = some g ∧ g.sregs = F.g.sregs ∧
        t.waits = (unregister s F.g.id (activeOf F f)).waits ++ [⟨false, lineOf pa, F.g.id, L⟩] ∧
        ∀ y ∈ F.g.sides, F.key.sameFragment y = true → y.lanes ≠ 0 →
          ∃ z ∈ g.sides, z.lanes = y.lanes ∧ z.pc = y.pc ∧ z.limit = due ∧ z.st = .park (.waits false)))

/-- R343, R344: an arrival at a team barrier counts; when it is the last that the phase needs, the phase flips, ARRIVED goes
to 0 and NEED is loaded again, and the waiters of the old phase are released. R345, R355: BAR of a team barrier arrives once for each
active lane, in lane order, and each lane waits while the phase of its arrival has not completed: those lanes are the ones that have
arrived since the last completion; BARV of a mode-1 barrier does not wait, and says each arrival's phase in D; BWAIT waits while the
barrier's phase is that of the predicate C. R356, R358: BINIT of a team barrier sets its mode, EXPECT and NEED, and BQRY
reads a barrier's word, a rejoin barrier's lanes or its state into S(D). The model's own: at an arrival all of the group's waiting
stores go home, not the arriving lane's alone (DEDUCED, log entry 60); what BINIT.all keeps of lanes that its NEED does not count
(DEDUCED, log entry 72); and the clock step of a fragment that BWAIT lets pass (DEDUCED, log entry 7). -/
def Obligations.TeamBarriers : Prop :=
  (∀ (s : State) (t : Team) (b : Nat), getTeam s t.id = some t →
    (s.groups.map Group.id).Nodup →
    let x := getBarrier s t b
    let r := barArrive s t.id b
    r.1 = x.phase
    ∧ (x.arrived + 1 < x.need → ∃ t', getTeam r.2 t.id = some t' ∧
        getBarrier r.2 t' b = { x with arrived := x.arrived + 1, state := if x.state = 2 then 2 else 1 })
    ∧ (x.need ≤ x.arrived + 1 → ∃ t', getTeam r.2 t.id = some t' ∧ (getBarrier r.2 t' b).phase = !x.phase ∧
        (getBarrier r.2 t' b).arrived = 0 ∧ (getBarrier r.2 t' b).expect = x.expect ∧ (getBarrier r.2 t' b).mode = x.mode ∧
        (getBarrier r.2 t' b).need = (if x.mode = true then x.expect else teamLive s t.id) ∧
        ∀ g, getGroup s g.id = some g → g.team = t.id → waitsOnBar b g = true →
          ∃ g', getGroup r.2 g.id = some g' ∧ g'.sides = g.sides.map (releaseBar b x.phase))
    ∧ r.2.mem = s.mem ∧ (∀ n, n ≠ b → ∀ t', getTeam r.2 t.id = some t' →
        (t'.barriers.find? fun p => p.1 = n) = t.barriers.find? fun p => p.1 = n))
  ∧ (∀ (f : Fields) (s : State) (F : Frag), F.quiet → barM f = false →
    let act := activeOf F f
    let tid := F.g.team
    let b := f.e.toNat
    let one (x : State × List (Nat × Bool) × Mask) (L : Nat) : State × List (Nat × Bool) × Mask :=
      let r := barArrive x.1 tid b
      (r.2, x.2.1 ++ [(L, r.1)], if phaseOf r.2 tid b = r.1 then x.2.2 ||| laneBit L else 0)
    let x := (lanesOf act).foldl one (if act = 0 then s else drainOwn s (envOf s F.g), [], 0)
    let owed := x.2.2
    let now_ := phaseOf x.1 tid b
    let wait (i : Instr) (t : State) : Prop := exec i s = .next
      (if owed = 0 then settle (advance t F.g.id F.key) F.g.id
        else settle (parkFrag t F.g.id F.key owed (.bar b (if now_ then 0 else owed) (if now_ then owed else 0))) F.g.id)
    let marked : State := updGroup x.1 F.g.id fun g => x.2.1.foldl (fun g p => setP g f.d.toNat p.1 p.2) g
    let ph := phaseOf s tid b
    (Issues s F (.bar f) → wait (.bar f) x.1)
    ∧ (Issues s F (.barv f) → barMode s tid b = false → wait (.barv f) marked)
    ∧ (Issues s F (.barv f) → barMode s tid b = true →
        exec (.barv f) s = .next (settle (advance marked F.g.id F.key) F.g.id))
    ∧ (Issues s F (.bwait f) → (∀ L ∈ lanesOf (activeOf F f), getP F.g f.c.toNat L ≠ ph) →
        exec (.bwait f) s = .next (setGroup (syncClk s F.g.core) { F.g with sides := nextSides F }))
    ∧ (Issues s F (.bwait f) → activeOf F f ≠ 0 → (∀ L ∈ lanesOf (activeOf F f), getP F.g f.c.toNat L = ph) →
        exec (.bwait f) s = .next (settle (parkFrag s F.g.id F.key (activeOf F f) (.bwait f.e.toNat false)) F.g.id)))
  ∧ (∀ (f : Fields) (s : State) (F : Frag) (t : Team), F.quiet →
    getTeam s F.g.team = some t →
    let b := f.e.toNat
    let x := getBarrier s t b
    let act := activeOf F f
    let x' : TeamBarrier := if barVar f = 1 then { x with
        mode := false, need := teamLive s t.id - departedLive s x, apart := x.apart.map fun a => (a.1, a.2.2, a.2.2) }
      else { x with
        mode := true, expect := min (countB f s F (lowestLane act)) 65535, need := min (countB f s F (lowestLane act)) 65535 }
    let r := getRejoin F.g b (trapBank F b)
    let y : Nat := if barVar f = 0 then barWord x else if barVar f = 1 then r.named.toNat + r.arrived.toNat * 2 ^ 32 else r.state
    (Issues s F (.binit f) → barM f = false → act ≠ 0 → (x.arrived = 0 ∨ x.arrived < x'.need) →
      exec (.binit f) s = .next (setGroup (setBarrier s t b x') { F.g with sides := nextSides F }))
    ∧ (Issues s F (.bqry f) → ∃ g', g' = { F.g with sregs := g'.sregs } ∧
      (∀ n, getS g' n = if act ≠ 0 ∧ n = f.d.toNat then BitVec.ofNat 64 y else getS F.g n) ∧
      exec (.bqry f) s = .next (setGroup s { g' with sides := nextSides F })))

/-- R346: what an arrival, an expectation and a completion of bytes do to a memory barrier object: the fields change as
stated, and when ARRIVE and PEND are both 0 the phase flips and ARRIVE is EXPECT again. R354 to R356: the memory forms of
BINIT, BEXP and BARV write the active lanes' objects in lane order, and no other byte: BINIT the count in ARRIVE and EXPECT,
BEXP the expectation, BARV the arrival, whose phase D receives. R347, R355: BWAIT on memory objects goes on where the phase of every
active lane's object differs from that of the predicate C; BAR arrives at each object first, and goes on where every arrival flips its
object's phase. Where no lane may go on, the fragment waits, each lane registered on its object's line. That lanes which pass or wait
give up what they had registered before and register anew is the model's (DEDUCED, log entry 55). -/
def Obligations.BarrierObjects : Prop :=
  (∀ (o n : Nat),
    let same (a p : Nat) (o' : Nat) : Prop :=
      objExpect o' = objExpect o ∧
      if a = 0 ∧ p % 2 ^ 32 = 0 then objArrive o' = objExpect o ∧ objPend o' = 0 ∧ objPhase o' = !objPhase o
      else objArrive o' = a ∧ objPend o' = p % 2 ^ 32 ∧ objPhase o' = objPhase o
    same (objArrive o - 1) (objPend o) (objArrival o) ∧ same (objArrive o) (objPend o + n) (objExpectation n o)
    ∧ same (objArrive o) (objPend o + (2 ^ 32 - n % 2 ^ 32)) (objCompletion n o) ∧ objArrival o < 2 ^ 128)
  ∧ (∀ (f : Fields) (s : State) (F : Frag) (direct : Nat → Bool) (pa : Nat → Nat),
    F.quiet → barM f = true → f.opm9 = false → (getCore s F.g.core).grpStores = [] →
    let lanes := lanesOf (activeOf F f)
    let count (L : Nat) : Nat := if f.immForm then f.imm32.toNat else srcOf f.selC f.c 2 s F L
    let fold (h : Nat → Nat → Nat) : Memory := lanes.foldl (fun m L => writeBytes m (pa L) (leBytes 16 (h L (readNat m (pa L) 16)))) s.mem
    let ends (i : Instr) (g' : Group) (m : Memory) : Prop := ∃ t, exec i s = .next t ∧
      AccessFrame (setGroup s { g' with sides := nextSides F }) t ∧ t.mem = m ∧ t.hostMem = s.hostMem
    let mapped (a : Access) (imm : Bool) : Prop :=
      ∀ L ∈ lanes, Mapped s (envOf s F.g) (objAddr F.g f imm L) a false (pa L) (direct L)
    (Issues s F (.binit f) → ((envOf s F.g).part.orderMode = false ∨ f.scope ≠ 0 ∨ ∀ L ∈ lanes, direct L = true) →
      mapped (plainWrite 16) true →
      ends (.binit f) F.g (fold fun L _ => objWord (count L) (count L) 0 false))
    ∧ (Issues s F (.bexp f) → mapped (atomicOf 16) true → ends (.bexp f) F.g (fold fun L o => objExpectation (count L) o))
    ∧ (Issues s F (.barv f) → mapped (atomicOf 16) false → (∀ L ∈ lanes, ∀ K ∈ lanes, L ≠ K → pa L + 16 ≤ pa K ∨ pa K + 16 ≤ pa L) →
      ∃ g', g' = { F.g with preds := g'.preds } ∧
        (∀ n L, L < 32 → getP g' n L =
          if n ≠ 15 ∧ n = f.d.toNat ∧ (activeOf F f).getLsbD L = true then objPhase (readNat s.mem (pa L) 16) else getP F.g n L) ∧
        ends (.barv f) g' (fold fun _ o => objArrival o)))
  ∧ (∀ (f : Fields) (s : State) (F : Frag) (direct : Nat → Bool) (pa : Nat → Nat),
    F.quiet → barM f = true → f.opm9 = false → (getCore s F.g.core).grpStores = [] → F.key.ph = none → activeOf F f ≠ 0 →
    let lanes := lanesOf (activeOf F f)
    let obj (L : Nat) : Nat := readNat s.mem (pa L) 16
    let mapped (a : Access) : Prop := ∀ L ∈ lanes, Mapped s (envOf s F.g) (memAddr F.g f L) a false (pa L) (direct L)
    let arrived : Memory := lanes.foldl (fun m L => writeBytes m (pa L) (leBytes 16 (objArrival (readNat m (pa L) 16)))) s.mem
    let goes (i : Instr) (m : Memory) : Prop := ∃ t, exec i s = .next t ∧
      AccessFrame (unregister (setGroup s { F.g with sides := nextSides F }) F.g.id (activeOf F f)) t ∧ t.mem = m
    let waits (i : Instr) (m : Memory) : Prop := ∃ t g, exec i s = .next t ∧ t.mem = m ∧ getGroup t F.g.id = some g ∧
      g.vregs = F.g.vregs ∧ g.preds = F.g.preds ∧
      t.waits = (unregister s F.g.id (activeOf F f)).waits ++ lanes.map (fun L => ⟨false, lineOf (pa L), F.g.id, L⟩) ∧
      ∀ y ∈ F.g.sides, F.key.sameFragment y = true → y.lanes ≠ 0 →
        ∃ z ∈ g.sides, z.lanes = y.lanes ∧ z.pc = y.pc ∧ z.only = activeOf F f ∧ z.st = .park (.barObj false)
    (Issues s F (.bwait f) → mapped (plainRead 16) →
      ((∀ L ∈ lanes, objPhase (obj L) ≠ getP F.g f.c.toNat L) → goes (.bwait f) s.mem)
      ∧ ((∀ L ∈ lanes, objPhase (obj L) = getP F.g f.c.toNat L) → s.waits.length + 32 ≤ 4096 → waits (.bwait f) s.mem))
    ∧ (Issues s F (.bar f) → mapped (atomicOf 16) → mapped (plainRead 16) →
      (∀ L ∈ lanes, ∀ K ∈ lanes, L ≠ K → pa L + 16 ≤ pa K ∨ pa K + 16 ≤ pa L) →
      ((∀ L ∈ lanes, objPhase (objArrival (obj L)) ≠ objPhase (obj L)) → goes (.bar f) arrived)
      ∧ ((∀ L ∈ lanes, objPhase (objArrival (obj L)) = objPhase (obj L)) → s.waits.length + 32 ≤ 4096 → waits (.bar f) arrived)))

/-- R348, R349, R357: JARM arms a rejoin barrier for the active lanes or the mask B; the lanes it names that have ended count
as arrived. JOIN leaves the active named lanes waiting and counts them; JDROP takes the active lanes out, or with `clr`
clears the barrier. The lanes of F that do not wait go to PC + 16. R349: the completion test of a rejoin barrier passes
exactly when it is armed and every lane it names has arrived; then it is complete, and each waiting lane is at the word after
its JOIN, with the largest counter of the waiting lanes plus 1. -/
def Obligations.RejoinBarriers : Prop :=
  (∀ (f : Fields) (s : State) (F : Frag), F.lanes ≠ 0 → activeOf F f ≠ 0 →
    let act := activeOf F f
    let j := f.d.toNat
    let trap := trapBank F j
    let r := getRejoin F.g j trap
    let moved : Group := mapFrag F.g F.key fun x => x.goto (x.pc + 16)
    let ends (i : Instr) (g : Group) : Prop := exec i s = .next (settle (setGroup s g) F.g.id)
    let waiting := if r.state = 1 then act &&& r.named else 0
    (Issues s F (.jarm f) →
      let named := if barVar f = 1 then BitVec.ofNat 32 (countB f s F (lowestLane act)) else act
      let g0 := if r.state = 1 then abandon moved j trap else moved
      ends (.jarm f) (rejoinTest (setRejoin g0 j trap ⟨1, named, named &&& ~~~liveLanes g0⟩) j trap))
    ∧ (Issues s F (.join f) → waiting = 0 → F.quiet → exec (.join f) s = .next (setGroup s { F.g with sides := nextSides F }))
    ∧ (Issues s F (.join f) → waiting ≠ 0 → ends (.join f) (rejoinTest
        { setRejoin F.g j trap { r with arrived := r.arrived ||| waiting } with
          sides := F.g.sides.flatMap fun x => if F.key.sameFragment x then joinSide waiting j trap x else [x] } j trap))
    ∧ (Issues s F (.jdrop f) → ends (.jdrop f)
        (if barVar f = 1 then abandon (setRejoin moved j trap Rejoin.clear) j trap else rejoinDepart moved act j trap)))
  ∧ (∀ (g : Group) (j : Nat) (trap : Bool),
    let r := getRejoin g j trap
    let w := g.sides.filter fun x => x.st = .join j trap
    let g' := rejoinTest g j trap
    (¬ (r.state = 1 ∧ r.named &&& ~~~r.arrived = 0) → g' = g)
    ∧ (r.state = 1 → r.named &&& ~~~r.arrived = 0 → (∀ x ∈ g.sides, x.slice < 8) →
      getRejoin g' j trap = { r with state := 2 } ∧ (∀ y ∈ g'.sides, y.st ≠ .join j trap) ∧
      (∀ x ∈ w, ∃ y ∈ g'.sides, y.slice = x.slice ∧ y.pc = x.pc + 16 ∧ x.lanes &&& y.lanes = x.lanes ∧
        y.ctr = BitVec.ofNat 32 (w.foldl (fun m x => max m x.ctr.toNat) 0 + 1)) ∧
      (∀ x ∈ g.sides, x.st ≠ .join j trap → x ∈ g'.sides)))

/-- R338, R339: REFORM files active lanes in the core's bin of the target, each with its first registers and predicates, and
ends them in their group; active lanes for which no bin has room branch to the target. In a handler it only branches. R338,
R339: a draw that is due takes the oldest lanes of the bin, at most 32, into a new group at the bin's target, with the
registers that they carry; one that is not due changes nothing. That a filing takes the group's waiting stores home is the
model's choice (DEDUCED, log entry 60), and so is what room a draw waits for (drawRoom; DESIGN CHOICE, log entry 115). -/
def Obligations.Reform : Prop :=
  (∀ (f : Fields) (s : State) (F : Frag), Issues s F (.reform f) →
    let act := activeOf F f
    let target := F.key.pc + 16 * offsetOf f
    let branched (s : State) : State := setGroup s { F.g with sides := F.g.sides.flatMap (reformSide F.key act target) }
    let u := fixBarriers s F.g.team
    let r := if F.g.tm && F.key.handler then (s, 0) else fileLanes u F target f.mod.toNat act
    exec (.reform f) s = .next (settle (endLanes (branched (if r.2 = 0 then r.1 else drainGid r.1 F.g.core F.g.id)) F.g.id r.2) F.g.id)
    ∧ r.2 &&& ~~~act = 0
    ∧ ((F.g.tm && F.key.handler) = false → act ≠ 0 →
      ∀ b, findBin s F.g target = some b → b.lanes.length + countLanes act ≤ 64 → r.2 = act ∧
        ∃ b' ∈ r.1.bins, b'.core = F.g.core ∧ b'.team = F.g.team ∧ b'.role = F.g.role ∧ b'.target = target ∧
          b'.lanes = b.lanes ++ (lanesOf act).map (carriedOf u F.g f.mod.toNat)))
  ∧ (∀ (s : State) (b : Bin) (old : Group) (tm : Team) (l : Launch),
    s.bins.find? (fun x => x.core = b.core && x.num = b.num) = some b → freeSlot s b = some old →
    getTeam s b.team = some tm → getLaunch s tm.launch = some l →
    (drawDue s b = false → exec (.reformDraw b.core b.num) s = .next s)
    ∧ (drawDue s b = true → (∀ x ∈ s.groups, x.id ≠ s.nextId) → ∃ t g, exec (.reformDraw b.core b.num) s = .next t ∧
      getGroup t s.nextId = some g ∧ g.drawn = true ∧ g.team = b.team ∧ g.role = b.role ∧ g.core = b.core ∧ g.slot = old.slot ∧
      g.launched = maskOf (List.range (min 32 b.lanes.length)) ∧ (∀ x ∈ g.sides, x.pc = b.target ∧ x.ctr = 0) ∧
      (∀ L p, (b.lanes.take 32)[L]? = some p → ∀ r c, p.carried[r]? = some c → getV g r L = c) ∧ t.mem = s.mem))

/-- R263 to R266: a record's header, rejoin records, handles and replay records are read back as they are written. -/
def Obligations.RecordRoundTrip : Prop :=
  (∀ h : RecordHeader, h.kind < 2 ^ 8 → h.vregs < 2 ^ 11 → h.ztiles < 2 ^ 8 → h.sregs < 2 ^ 9 → h.span < 8 → h.role < 4 → h.peer < 4 →
    h.nreplay < 2 ^ 16 → h.layout.v < 2 ^ 32 → h.layout.s < 2 ^ 32 → h.layout.p < 2 ^ 32 → h.layout.f < 2 ^ 32 → h.layout.b < 2 ^ 32 →
    h.layout.h < 2 ^ 32 → h.layout.z < 2 ^ 32 → h.layout.a < 2 ^ 32 →
    h.bits < 2 ^ 512 ∧ headerFrom h.bits = { h with layout := { h.layout with x := 0 }, ok := true })
  ∧ (∀ r : Rejoin, r.state < 4 → rejoinFrom (rejoinBits r) = r)
  ∧ (∀ h : Handle, handleBits h < 2 ^ 256 ∧ handleFrom (handleBits h) = h)
  ∧ (∀ r : Replay, r.type < 256 → r.block < 2 ^ 128 → r.bits < 2 ^ 256 ∧ replayFrom r.bits = r)

/-- R334, R335, R351: PYIELD does nothing unless pre-emption is requested, outside handlers and save routines; then its
active lanes enter the save gate, with the lanes of the group that wait at a JOIN or a barrier. HALT in a save routine waits
for every live lane. R270: CSAVE of every live lane of a group that has passed PYIELD writes the header, the F and H sections
and the replay records at the record's address; a misaligned address traps with cause 0x03. R270: CREST.chk goes on where the
record fits the group; CREST.go then ends the lanes that the record does not hold and puts the group's divergence state,
handles and replays back; where the core's range-lock table has no room for the operations of its TRACE replays it waits (R217). A
misaligned address traps with cause 0x03. -/
def Obligations.SaveAndRestore : Prop :=
  (∀ (f : Fields) (s : State) (F : Frag),
    let act := activeOf F f
    let mine := F.g.sides.filter fun x => F.key.sameFragment x
    let kept := (mine.map fun x => keepSide F.g x (x.lanes &&& act) (x.pc + 16)).filter fun k => k.lanes != 0
    (Issues s F (.pyield f) → F.quiet → (act = 0 ∨ F.g.preq = false ∨ F.g.tm = true ∨ F.g.saving = true) →
      exec (.pyield f) s = .next (setGroup s { F.g with sides := nextSides F }))
    ∧ (Issues s F (.pyield f) → act ≠ 0 → F.g.preq = true → F.g.tm = false → F.g.saving = false →
      exec (.pyield f) s = .next (settle (gateWaiters (setGroup s
        { gather F.g F.key act .gateSave with gateKept := F.g.gateKept ++ kept }) F.g.id) F.g.id))
    ∧ (Issues s F (.halt f) → act ≠ 0 → F.g.saving = true → F.g.tm = false →
      exec (.halt f) s = .next (settle (setGroup s (gather F.g F.key act .gateHalt)) F.g.id)
      ∧ (act = liveLanes F.g → (∀ x ∈ F.g.sides, F.key.sameFragment x = true) →
        ∃ t g, exec (.halt f) s = .next t ∧ getGroup t F.g.id = some g ∧ g.st = .saved ∧ g.placed = false
          ∧ Instr.contextSaved (ctxOf s F.g) ∈ t.work)))
  ∧ (∀ (f : Fields) (s : State) (F : Frag), Issues s F (.csave f) → activeOf F f ≠ 0 →
    let v := envOf s F.g
    let a := getS F.g f.a.toNat
    let replays := splitReplays F.g.gateKept
    let h := headerOf s F.g (getS F.g f.b.toNat) 0 0 replays.length
    let at_ (off : Nat) : W64 := a + BitVec.ofNat 64 off
    let slices (i : Nat) : Nat := sliceRecord F.g.gateKept i (F.g.regions.getD i 0)
    (F.calm → a.extractLsb' 0 12 ≠ 0 → exec (.csave f) s = .next (afterTrap s F 0x03 a (activeOf F f)))
    ∧ (a.extractLsb' 0 12 = 0 → activeOf F f = liveLanes F.g → F.g.saving = true →
      ∀ u, checkExtents s v byteWrite (recordSpans a h.layout replays.length) = (u, none) →
      let t1 := writeSpan u v a (leBytes 64 h.bits)
      let t2 := writeSpan t1 v (at_ h.layout.f) (fSection F.g slices F.g.cause)
      let t3 := writeSpan t2 v (at_ h.layout.h) (hSection F.g)
      let t4 := if replays = [] then t3 else writeSpan t3 v (at_ h.layout.a) (replays.flatMap fun r => leBytes 32 r.bits)
      exec (.csave f) s = .next (settle (advance t4 F.g.id F.key) F.g.id)))
  ∧ (∀ (f : Fields) (s : State) (F : Frag) (h : RecordHeader), activeOf F f ≠ 0 →
    let v := envOf s F.g
    let a := getS F.g f.a.toNat
    (F.calm → a.extractLsb' 0 12 ≠ 0 →
      (Issues s F (.crestChk f) → exec (.crestChk f) s = .next (afterTrap s F 0x03 a (activeOf F f)))
      ∧ (Issues s F (.crestGo f) → exec (.crestGo f) s = .next (afterTrap s F 0x03 a (activeOf F f))))
    ∧ (∀ u, testHeader s F (activeOf F f) a = .fits u h →
      (Issues s F (.crestChk f) → exec (.crestChk f) s = .next (settle (advance u F.g.id F.key) F.g.id))
      ∧ (Issues s F (.crestGo f) →
        ∀ u', checkExtents u v byteRead (((recordSpans a h.layout h.nreplay).drop 1).filter fun p => p.1 != a) = (u', none) →
        ∀ t rs, recordReplays u' v a h = (t, rs) →
        exec (.crestGo f) s = .next (settle (if traceRoom t F.g.core rs then groupRestored (restoreFrom t v F.g.id a h rs) (ctxOf s F.g)
          else parkFrag t F.g.id F.key (activeOf F f) .rangeLock) F.g.id))))

/-- R198, R200, R204, R206: the tile words that touch no memory complete with their handle, scalar, vector or accumulator
result. Of two NaN operands of ZRED and ZSCALE the z tile's comes first, which is the model's choice (log entry 77). -/
def Obligations.TileRegisters : Prop := ∀ (f : Fields) (s : State) (F : Frag), F.quiet →
  let act := activeOf F f
  let L0 := lowestLane act
  let z := f.d.toNat
  let hz := getZHeader F.g z
  let old := getZ F.g z
  let ends (i : Instr) (g : Group) : Prop := exec i s = .next (setGroup s { g with sides := nextSides F })
  let full := read64 s F.g f.selA f.a L0
  let addr : W64 := if f.mod.getLsbD 0 then (full.extractLsb' 0 32).setWidth 64 else full
  let hdr := withCheck (read64 s F.g f.selC f.c L0 ++ read64 s F.g f.selB f.b L0)
  let row := countB f s F L0 % 32
  (Issues s F (.hset f) → act ≠ 0 → headerOk hdr = true → addr.extractLsb' 0 4 = 0 →
    ends (.hset f) (setHandle F.g z ⟨f.mod.extractLsb' 1 2, f.mod.getLsbD 0, true, addr, hdr⟩))
  ∧ (Issues s F (.hget f) → ∃ g, g = { F.g with sregs := g.sregs } ∧ (∀ r, getS g r =
      if act ≠ 0 ∧ r = z then hgetValue (if f.mod.getLsbD 0 then ⟨0, false, true, 0, getZHeader F.g f.a.toNat⟩
        else getHandle F.g f.a.toNat) f.e.toNat else getS F.g r) ∧ ends (.hget f) g)
  ∧ (Issues s F (.zzero f) → act ≠ 0 → ∃ g, TileResult F z (fun _ _ => 0) (zHeader (if f.mod.getLsbD 0 then 0x0A else 0x01)
      ((f.mod.extractLsb' 1 5).toNat + 1) ((f.mod.extractLsb' 6 5).toNat + 1)) g ∧ ends (.zzero f) g)
  ∧ (Issues s F (.zmov f) → act ≠ 0 → f.mod.toNat = 0 →
      ∃ g, TileResult F z (getZ F.g f.a.toNat) (getZHeader F.g f.a.toNat) g ∧ ends (.zmov f) g)
  ∧ (Issues s F (.zmov f) → f.mod.toNat = 1 → ∃ g, g = { F.g with vregs := g.vregs } ∧ (∀ r L, L < 32 → getV g r L =
      if act.getLsbD L = true ∧ r = z then getZ F.g f.a.toNat row L else getV F.g r L) ∧ ends (.zmov f) g)
  ∧ (Issues s F (.zmov f) → f.mod.toNat = 2 → ∃ g, TileResult F z
      (fun i n => if i = row ∧ act.getLsbD n = true then getV F.g f.a.toNat n else old i n) hz g ∧ ends (.zmov f) g)
  ∧ (Issues s F (.zred f) → act ≠ 0 → (let a := getZHeader F.g f.a.toNat
      headerOk a = true ∧ headerOk hz = true ∧ hKind hz = hKind a ∧ hRows hz = hRows a ∧ hCols hz = hCols a) →
      ∃ g, TileResult F z (fun i n => if i < hRows hz ∧ n < hCols hz then
        zredElement (hKind hz) f.mod.toNat (old i n) (getZ F.g f.a.toNat i n) else old i n) hz g ∧ ends (.zred f) g)
  ∧ (Issues s F (.zscale f) → act ≠ 0 → headerOk hz = true → hKind hz = 0x01 →
      ∃ g, TileResult F z (fun i n => match (if i < hRows hz ∧ n < hCols hz then zscaleFactor s F f act i n else none) with
        | some q => BitVec.ofNat 32 (roundTo kF32 (fmulNum (decodeNum kF32 (old i n).toNat) (decodeNum kF32 q)) 0)
        | none => old i n) hz g ∧ ends (.zscale f) g)
  ∧ (Issues s F (.qscale f) → ∃ g, g = { F.g with vregs := g.vregs } ∧ (∀ r L, L < 32 → getV g r L =
      if act.getLsbD L = true ∧ r = z then BitVec.ofNat 32 (qByte f.mod.toNat (decodeNum kF32 (read32 s F.g f.selA f.a L).toNat))
      else getV F.g r L) ∧ ends (.qscale f) g)

/-- R199: HLD reads a header into a handle where it is right, and HST writes a handle's header with its check computed (R182);
with hint=nol1 no store waits in L1 (R30). R202, R203: ZLD and ZST, their checks passed, fill the accumulator tile from the image at
the handle, and write the image that the tile and the destination's shape give. That an access above grp scope is preceded by all of
the group's waiting stores is the model's choice (DEDUCED, log entry 60). -/
def Obligations.TileMemory : Prop :=
  (∀ (f : Fields) (s : State) (F : Frag) (direct : Bool) (pa : Nat), F.quiet →
    f.opm9 = false → activeOf F f ≠ 0 → (getCore s F.g.core).grpStores = [] →
    let va := memAddr F.g f (lowestLane (activeOf F f))
    let hdr := BitVec.ofNat 128 (readNat s.mem pa 16)
    let ends (i : Instr) (g : Group) (m : Memory) : Prop := ∃ t, exec i s = .next t ∧
      AccessFrame (setGroup s { g with sides := nextSides F }) t ∧ t.mem = m ∧ t.hostMem = s.hostMem
    (Issues s F (.hld f) → Mapped s (envOf s F.g) va headerRead false pa direct → CurrentLine s F.g.core (lineOf pa) →
      headerOk hdr = true → ends (.hld f) (setHandle F.g f.d.toNat ⟨0, false, true, va, hdr⟩) s.mem)
    ∧ (Issues s F (.hst f) → Mapped s (envOf s F.g) va headerWrite false pa direct → (getHandle F.g f.c.toNat).v = true →
      ((envOf s F.g).part.orderMode = false ∨ f.scope ≠ 0 ∨ direct = true ∨ f.hint.toNat = 3) →
      ends (.hst f) F.g (writeBytes s.mem pa (leBytes 16 (withCheck (getHandle F.g f.c.toNat).hdr).toNat))))
  ∧ (∀ (f : Fields) (s : State) (F : Frag), activeOf F f ≠ 0 →
    let v := hintedEnv s F f
    let ends (i : Instr) (t : State) : Prop := exec i s = .next (settle (advance t F.g.id F.key) F.g.id)
    (Issues s F (.zld f) →
      let h := getHandle F.g f.a.toNat
      let c := checkRuns s v h tileRead true (dataRuns h.hdr fun _ => true)
      let r := readPlaces (orderPlaces c.s v c.places f.scope) v c.places
      zldCheck h = none → c.fault = none → ends (.zld f) (updGroup r.1 F.g.id fun g => fillTile g f.d.toNat h.hdr r.2))
    ∧ (Issues s F (.zst f) →
      let h := getHandle F.g f.d.toNat
      let z := getZHeader F.g f.a.toNat
      let new := hReshape h.hdr (if (f.e.extractLsb' 0 5).toNat = 0 then hKind h.hdr else (f.e.extractLsb' 0 5).toNat) (hRows z) (hCols z)
      let runs := dataRuns new fun _ => true
      let c := checkRuns s v h tileWrite true (runs ++ scaleRuns new f.opm9 ++ [⟨0, 128, false⟩])
      let bits (r n : Nat) := getZ F.g f.a.toNat r n
      let scales := if hScale new = 4 then blockBytes new f.opm9 fun r n => decodeNum (tileKind (hKind z)) (bits r n).toNat else []
      let elem (r n : Nat) :=
        zstElement (hKind z) new scales f.opm9 (f.e.extractLsb' 5 3).toNat (f.e.extractLsb' 8 2).toNat r n (bits r n)
      let old := if runs.any (fun r => r.keep && (r.bit + r.len) % 8 != 0) then readPlaces c.s v c.places else (c.s, [])
      let img := tileImage new old.2 runs (fun r n => (elem r n).getD 0) scales
      ¬ ((f.e.extractLsb' 0 5).toNat = 0 ∧ intKind (hKind h.hdr) = true ∧ (f.e.extractLsb' 8 2 = 1 ∨ f.e.extractLsb' 8 2 = 2)) →
      let w := markPlaces old.1 v h c.places
      zstCheck h z new = none → c.fault = none → (∀ r n, r < hRows new → n < hCols new → (elem r n).isSome) → w.fault = none →
      ends (.zst f) (updGroup (writePlaces (orderPlaces w.s v w.places f.scope) v f.scope w.places img) F.g.id
        fun g => setHandle g f.d.toNat { h with hdr := new }))
    ∧ (∀ (g : Group) (d : Nat) (h : W128) (m : Memory) (i n : Nat), i < 32 → n < 32 →
      getZ (fillTile g d h m) d i n = if i < hRows h ∧ n < hCols h then BitVec.ofNat 32 (elementOf m h i n) else 0))

/-- R182 to R185, R198, R206: what the tile words trap on before anything is written: a header that is not right, a
misaligned address, shapes or kinds that do not agree. The order of the shape, bitmap and pair checks of an MMA, and the address
that each gives, are the model's choice (log entry 75), and so is that the bitmap rows of quarters with no active lane are not checked (DEDUCED, log
entry 120). R197, R471: a fetch of an MMA that meets a page not present takes a
team whose block allows it off its cores, at most three times, until the page is there; then it is placed again. -/
def Obligations.TileFaults : Prop :=
  (∀ (f : Fields) (s : State) (F : Frag), F.calm → activeOf F f ≠ 0 →
    let act := activeOf F f
    let L0 := lowestLane act
    let full := read64 s F.g f.selA f.a L0
    let addr : W64 := if f.mod.getLsbD 0 then (full.extractLsb' 0 32).setWidth 64 else full
    let ok := headerOk (withCheck (read64 s F.g f.selC f.c L0 ++ read64 s F.g f.selB f.b L0))
    let d := getZHeader F.g f.d.toNat
    let a := getZHeader F.g f.a.toNat
    (Issues s F (.hset f) → ok = false → exec (.hset f) s = .next (afterTrap s F 0x07 addr act))
    ∧ (Issues s F (.hset f) → ok = true → addr.extractLsb' 0 4 ≠ 0 → exec (.hset f) s = .next (afterTrap s F 0x03 addr act))
    ∧ (Issues s F (.hst f) → (getHandle F.g f.c.toNat).v = false →
        exec (.hst f) s = .next (afterTrap s F 0x07 (getHandle F.g f.c.toNat).addr act))
    ∧ (let h := getHandle F.g f.a.toNat
      let k := getHandle F.g f.b.toNat
      let bad := bitmapBad s (hintedEnv s F f) h (quarterRow act)
      Issues s F (.mma f) →
      (∀ c va, mmaShape h k d (!f.mod.getLsbD 0) = some (c, va) → exec (.mma f) s = .next (afterTrap s F c va act))
      ∧ (mmaShape h k d (!f.mod.getLsbD 0) = none → bad = true → exec (.mma f) s = .next (afterTrap s F 0x08 h.addr act))
      ∧ (∀ c va, mmaShape h k d (!f.mod.getLsbD 0) = none → bad = false → mmaPair h k = some (c, va) →
        exec (.mma f) s = .next (afterTrap s F c va act)))
    ∧ (Issues s F (.zst f) → (f.e.extractLsb' 0 5).toNat = 0 → intKind (hKind (getHandle F.g f.d.toNat).hdr) = true →
        (f.e.extractLsb' 8 2 = 1 ∨ f.e.extractLsb' 8 2 = 2) → exec (.zst f) s = .next (afterPlainTrap s F 0x01 act))
    ∧ (Issues s F (.zld f) → ∀ c, zldCheck (getHandle F.g f.a.toNat) = some c →
        exec (.zld f) s = .next (afterTrap s F c (getHandle F.g f.a.toNat).addr act))
    ∧ (Issues s F (.zred f) → (headerOk a && headerOk d) = false → exec (.zred f) s = .next (afterTrap s F 0x07 0 act))
    ∧ (Issues s F (.zscale f) → headerOk d = false → exec (.zscale f) s = .next (afterTrap s F 0x07 0 act))
    ∧ (Issues s F (.zred f) → headerOk a = true → headerOk d = true → ¬ (hKind d = hKind a ∧ hRows d = hRows a ∧ hCols d = hCols a) →
        exec (.zred f) s = .next (afterTrap s F 0x08 0 act))
    ∧ (Issues s F (.zscale f) → headerOk d = true → hKind d ≠ 0x01 → exec (.zscale f) s = .next (afterTrap s F 0x09 0 act)))
  ∧ (∀ (s : State) (mma : Nat) (op : MmaOp) (g : Group) (t : Team) (va : W64),
    s.mmas.find? (fun m => m.id = mma) = some op → op.fault = some ⟨0x04, va, 0, true⟩ → getGroup s op.gid = some g →
    getTeam s g.team = some t → (∀ c, (getCore s c).grpStores = []) →
    ((launchOf s g).map fun l => l.blk.relaunch) = some true → t.relaunches < 3 → (getCtx s (ctxOf s g)).elog = 0 →
    ∃ u t', exec (.tileFetchFault mma 0x04 va) s = .next u ∧ getTeam u t.id = some t' ∧ t'.waiting = some va ∧
      t'.relaunches = t.relaunches + 1 ∧ t'.cores = [] ∧ (∀ x ∈ u.groups, x.team ≠ t.id) ∧
      Instr.relaunchWalk t.id ∈ u.work ∧ u.mem = s.mem ∧
      exec (.relaunchWalk t.id) u = .next (match walk u (getPart u (getCtx u t'.ctx).part) (getCtx u t'.ctx).root va with
        | .leaf _ _ _ => owe (setTeam u { t' with waiting := none, walkedAt := none }) (.teamPlace (getCtx u t'.ctx).part)
        | _ => setTeam u { t' with walkedAt := some u.now }))

/-- R191, R201: an MMA whose checks pass reads its operands and is an operation of the matrix unit, which then completes, or
whose fetch has met a fault; when it completes, the elements of the rows whose quarter has an active lane are those of the
product, accumulated or not, and every other element of every tile stays. R188, R201: an MMA that accumulates leaves the tile's
header, and one that does not writes the accumulation kind and the shape of the product into it. That it reads its operands at its
issue is the model's choice (log entry 76), and so is that all of the group's waiting stores go home before that (DEDUCED, log entry
60) and that bitmap rows of quarters with no active lane are not checked (DEDUCED, log entry 120). -/
def Obligations.MatrixMultiply : Prop := ∀ (s : State),
  (∀ (f : Fields) (F : Frag), Issues s F (.mma f) → F.quiet → activeOf F f ≠ 0 →
    let v := hintedEnv s F f
    let a := getHandle F.g f.a.toNat
    let b := getHandle F.g f.b.toNat
    let x := fetchOperands s v a b (activeOf F f)
    mmaShape a b (getZHeader F.g f.d.toNat) (!f.mod.getLsbD 0) = none → bitmapBad s v a (quarterRow (activeOf F f)) = false →
    mmaPair a b = none →
    operandCheck s v a (tileRuns a.hdr false fun _ => true) = none → operandCheck s v b (tileRuns b.hdr true fun _ => true) = none →
    exec (.mma f) s = .next (setGroup (owe { x.s with
      mmas := x.s.mmas ++ [⟨s.nextId, F.g.id, f.d.toNat, !f.mod.getLsbD 0, a, b, activeOf F f, x.a, x.b, x.fault⟩]
      nextId := s.nextId + 1 }
        (match x.fault with
         | some y => .tileFetchFault s.nextId y.cause y.va
         | none => .mmaComplete s.nextId)) { F.g with sides := nextSides F }))
  ∧ (∀ (v : Env) (a b : Handle) (act : Mask),
    let ca := checkRuns (drainOwn s v) v a tileRead false (tileRuns a.hdr false (quarterRow act))
    let cb := checkRuns ca.s v b tileRead false (tileRuns b.hdr true fun _ => true)
    let ra := readPlaces cb.s v ca.places
    let rb := readPlaces ra.1 v cb.places
    (ca.fault = none → cb.fault = none → fetchOperands s v a b act = ⟨rb.1, ra.2, rb.2, none⟩)
    ∧ (ca.fault ≠ none ∨ cb.fault ≠ none → fetchOperands s v a b act = ⟨cb.s, [], [], ca.fault.or cb.fault⟩))
  ∧ (∀ (id : Nat) (op : MmaOp), s.mmas.find? (fun m => m.id = id) = some op → op.fault = none →
    exec (.mmaComplete id) s = .next (wakeMma
      (updGroup { s with mmas := s.mmas.filter fun m => m.id != id } op.gid fun g => mmaTile g op op.aBytes op.bBytes) id))
  ∧ (∀ (g : Group) (op : MmaOp) (ma mb : Memory) (t i n : Nat), i < 32 → n < 32 →
    let kind := (accKind (hKind op.a.hdr) (hKind op.b.hdr)).getD 0x01
    getZ (mmaTile g op ma mb) t i n =
      if t = op.z ∧ quarterRow op.rows i = true then
        if i < hRows op.a.hdr ∧ n < hCols op.b.hdr then
          mmaElement ma mb op.a.hdr op.b.hdr (kind = 0x01) i n (if op.accumulate then getZ g t i n else 0)
        else if op.accumulate then getZ g t i n else 0
      else getZ g t i n)
  ∧ (∀ (g : Group) (op : MmaOp) (ma mb : Memory) (t kind : Nat), accKind (hKind op.a.hdr) (hKind op.b.hdr) = some kind →
    getZHeader (mmaTile g op ma mb) t =
      if t = op.z ∧ op.accumulate = false then
        withCheck (BitVec.ofNat 128 (0xA + 16 + kind * 64
          + (hRows op.a.hdr - 1) * 2 ^ 19 + (hCols op.b.hdr - 1) * 2 ^ 29 + 8 * 2 ^ 39 + 2 ^ 75))
      else getZHeader g t)

/-- R217, R390, R393: CPY, GTHR, SCTR and TRACE, their operands right and no lane at fault, enter the operations of the lanes
that pass in the core's table, each owed its movement, and go on; with too few entries free the fragment waits. That all of the group's
waiting stores go home before the operations are entered is the model's choice (DEDUCED, log entry 60). R393: a command whose
completion target is not aligned traps with cause 0x03 and creates nothing. -/
def Obligations.EngineIssue : Prop :=
  (∀ (f : Fields) (s : State) (F : Frag), activeOf F f ≠ 0 →
    let act := activeOf F f
    let v := envOf s F.g
    let c := commandOf F.g f
    let start : Issue := ⟨s, [], 0, []⟩
    let goes (i : Instr) (x : Issue) (bytes : Nat) : Prop := x.faults = [] →
      (x.ops = [] → exec i s = .next (settle (advance x.s F.g.id F.key) F.g.id))
      ∧ (x.ops ≠ [] → lockEntries s F.g.core + x.ops.length ≤ 256 → exec i s = .next (settle (advance
          (enterOps (drainOwn x.s v) x.ops (maskOf (x.ops.map AsyncOp.lane) ||| x.notDone) bytes) F.g.id F.key) F.g.id))
      ∧ (x.ops ≠ [] → 256 < lockEntries s F.g.core + x.ops.length →
        exec i s = .next (settle (parkFrag s F.g.id F.key act .rangeLock) F.g.id))
    let cpy := (lanesOf act).foldl (cpyLane F f v c) start
    let gthr := (lanesOf act).foldl (rowLane false F f v c) start
    let sctr := (lanesOf act).foldl (rowLane true F f v c) start
    let trace := (lanesOf act).foldl (traceLane F f v c) start
    (Issues s F (.cpy f) → c.targetBad = none → c.len ≤ 4194304 → goes (.cpy f) cpy (c.len * cpy.ops.length))
    ∧ (Issues s F (.gthr f) → c.rowsBad true = none → goes (.gthr f) gthr (c.len * (gthr.ops.length + countLanes gthr.notDone)))
    ∧ (Issues s F (.sctr f) → c.rowsBad false = none → goes (.sctr f) sctr (c.len * (sctr.ops.length + countLanes sctr.notDone)))
    ∧ (Issues s F (.trace f) → c.targetBad = none → (getS F.g f.b.toNat).extractLsb' 0 3 = 0 →
        goes (.trace f) trace (32 * trace.ops.length))
    ∧ (∀ (ops : List AsyncOp) (req : Mask) (bytes : Nat), let t := enterOps s ops req bytes
        t.nextId = s.nextId + ops.length ∧ t.mem = s.mem ∧ t.groups = s.groups ∧
        t.ops = s.ops ++ (ops.zipIdx.map fun p =>
          { p.1 with id := s.nextId + p.2, batch := s.nextId, req := req, bytes := bytes }) ∧
        ∀ k, k < ops.length → Instr.asyncOpComplete (s.nextId + k) ∈ t.work))
  ∧ (∀ (f : Fields) (s : State) (F : Frag) (i : Instr),
    i ∈ [Instr.cpy f, .gthr f, .sctr f, .cpyt f, .rcon f, .trace f] → Issues s F i → F.calm → activeOf F f ≠ 0 →
    let c := commandOf F.g f
    c.target.toNat % c.targetLen ≠ 0 → exec i s = .next (afterTrap s F 0x03 c.target (activeOf F f)))

/-- R390, R402, R417: CPYT and RCON, with a guide handle or without, every check passed, create one operation for the fragment,
issued by its lowest active lane, after the group's waiting stores have gone home (that all of the group's do is the model's choice,
DEDUCED, log entry 60), and go on; the first RCON of a block in a run is the one whose audits count. R403, R404: ADRAIN goes on where
no operation of its lanes, or with `all` of its group, is under way, with a step of its core's clock (DEDUCED, log entry 7), and else
waits; AQRY reads how many operations the group has, or how many entries of the core's table are free. -/
def Obligations.EngineFragments : Prop :=
  (∀ (f : Fields) (s : State) (F : Frag), activeOf F f ≠ 0 →
    lockEntries s F.g.core < 256 →
    let v := envOf s F.g
    let c := commandOf F.g f
    let L := lowestLane (activeOf F f)
    let a := getHandle F.g f.a.toNat
    let b := getHandle F.g f.b.toNat
    let goes (i : Instr) (u : State) (o : AsyncOp) (bytes : Nat) : Prop :=
      exec i s = .next (settle (advance (enterOps (drainOwn u v) [o] (maskOf [L]) bytes) F.g.id F.key) F.g.id)
    (Issues s F (.cpyt f) → c.targetBad = none → cpytCheck a b f.c = none →
      let rs := cpytSourceRuns b.hdr (cpytSourceB c.kb f.c)
      let rd := cpytTargetRuns (cpytHeader a.hdr b.hdr f.c) c.kb
      let cs := checkRuns s v b tileRead true rs
      let cd := checkRuns cs.s v a tileWrite true rd
      cs.fault = none → rangesOverlap (tileRanges a rd) (tileRanges b rs) = none → cd.fault = none →
      ∀ u, firstFault cd.s (targetChecks v c false) = (u, none) →
      goes (.cpyt f) u { blankOp F v c .cpyt L with
        dstH := a, srcH := b, conv := f.c, srcRanges := tileRanges b rs, dstRanges := tileRanges a rd }
        ((rd.map fun r => ceilDiv (r.bit % 8 + r.len) 8).foldl (· + ·) 0))
    ∧ (Issues s F (.rcon f) → c.targetBad = none →
      let g : Option Handle := if f.opm9 then some b else none
      rconCheck a g = none →
      ∀ l t u, launchOf s F.g = some l → getTeam s F.g.team = some t →
      let c' := { c with tol := false, kb := f.opm9 }
      let runs (h : Handle) := blockRuns h.hdr (rconPoints l t)
      let first : Bool := (recordOf l t).any fun x => !x.claimed
      let mark (x : BlockRecord) : BlockRecord := if x.block = teamIndex l.blk t then { x with claimed := true } else x
      firstFault s ((match g with
        | some h => [fun s => checkTileRange s v h tileRead (runs h)]
        | none => []) ++ [fun s => checkTileRange s v a tileWrite (runs a)] ++ targetChecks v c' false) = (u, none) →
      goes (.rcon f) (setLaunch u { l with cov := { l.cov with blocks := l.cov.blocks.map mark } })
        { blankOp F v c' .rcon L with
          dstH := a, srcH := if f.opm9 then b else Handle.blank, dstRanges := tileRanges a (runs a)
          srcRanges := if f.opm9 then tileRanges b (runs b) else [], audits := if first then some ⟨0, 1, 0, 0⟩ else none }
        (64 * ceilDiv (kindWidth (hKind a.hdr)) 8)))
  ∧ (∀ (f : Fields) (s : State) (F : Frag), F.quiet →
    let act := activeOf F f
    let owed := drainOwed s F act (f.mod.getLsbD 0)
    (∀ L, L < 32 → (owed.getLsbD L = true ↔
      act.getLsbD L = true ∧ ∃ o ∈ s.ops, (o.gid = F.g.id ∧ (f.mod.getLsbD 0 = true ∨ o.lane = L))
        ∨ ∃ p ∈ F.g.priorOps, p.2 = o.id ∧ (f.mod.getLsbD 0 = true ∨ p.1 = L)))
    ∧ (Issues s F (.adrain f) → owed = 0 →
        exec (.adrain f) s = .next (setGroup (syncClk s F.g.core) { F.g with sides := nextSides F }))
    ∧ (Issues s F (.adrain f) → owed ≠ 0 →
        exec (.adrain f) s = .next (settle (parkFrag s F.g.id F.key owed (.drain (f.mod.getLsbD 0))) F.g.id))
    ∧ (Issues s F (.aqry f) → ∃ g, g = { F.g with sregs := g.sregs } ∧
        (∀ r, getS g r = if act ≠ 0 ∧ r = f.d.toNat then BitVec.ofNat 64 (if f.mod.getLsbD 0 then 256 - lockEntries s F.g.core
          else (s.ops.filter (groupIssued F.g)).length) else getS F.g r) ∧
        exec (.aqry f) s = .next (setGroup s { g with sides := nextSides F })))

/-- R222, R394: an operation whose bytes lie on mapped pages writes its source's bytes to its destination, and no other byte.
R395, R402, R417, R435: an operation of CPY or GTHR moves its row so, and one of SCTR once no earlier row of its instruction is
to move; CPYT writes the converted image of its source to its destination's places; RCON fills its block, from its guide where it has
one, and its audits, where it is the block's first of the run, go to the controller with its completion; TRACE writes its ray's hit and STATUS to its slot; each has then moved, and the last of its
instruction brings the completion action. -/
def Obligations.BytesMoved : Prop :=
  (∀ (s : State) (v : Env) (o : AsyncOp) (spa dpa : Nat),
    o.srcShare = false → o.dstShare = false → o.src.toNat + o.len ≤ 2 ^ 64 → o.dst.toNat + o.len ≤ 2 ^ 64 →
    (∀ k, k < o.len → (∃ d, OnPage s v (o.src + BitVec.ofNat 64 k) byteRead false (spa + k) d)
      ∧ ∃ d, OnPage s v (o.dst + BitVec.ofNat 64 k) byteWrite false (dpa + k) d) →
    (spa + o.len ≤ dpa ∨ dpa + o.len ≤ spa) → (getCore s v.core).grpStores = [] → (spa % 128 = o.src.toNat % 128) →
    ∃ t, moveUnits v o (o.len + 1) s 0 = (t, o.len, none) ∧ AccessFrame s t ∧ t.hostMem = s.hostMem ∧
      t.mem = writeBytes s.mem dpa (readBytes s.mem spa o.len))
  ∧ (∀ (s : State) (o : AsyncOp), getOp s o.id = some o → o.moved = false →
    let v := opEnv s o
    let i := Instr.asyncOpComplete o.id
    let ended : AsyncOp := { o with moved := true, whole := true, waiting := none }
    let ends (t : State) : Prop := exec i s = .next (completeBatch (setOp t ended) ended)
    (o.kind = .cpy ∨ o.kind = .gthr ∨ o.kind = .sctr → o.window = none → o.tol = false → o.pos = 0 → rowHeld s o = false →
      ∀ t, moveUnits v o (o.len + 1) s 0 = (t, o.len, none) →
      let o' : AsyncOp := { o with pos := o.len, moved := true, whole := o.whole || 0 < o.len, waiting := none }
      exec i s = .next (completeBatch (oweRows (setOp t o') o') o'))
    ∧ (o.kind = .sctr → o.window = none → rowHeld s o = true → exec i s = .next s)
    ∧ (o.kind = .cpyt →
      let new := cpytHeader o.dstH.hdr o.srcH.hdr o.conv
      let rd := cpytTargetRuns new o.kb
      let cs := checkRuns s v o.srcH tileRead false (cpytSourceRuns o.srcH.hdr (cpytSourceB o.kb o.conv))
      let cd := checkRuns cs.s v o.dstH tileWrite false rd
      let m := readPlaces cd.s v cs.places
      let old := if rd.any (fun r => r.keep && (r.bit + r.len) % 8 != 0) then readPlaces m.1 v cd.places else (m.1, [])
      let w := markPlaces old.1 v o.dstH cd.places
      cs.fault = none → cd.fault = none → w.fault = none →
      ∀ img, cpytImage new o.srcH.hdr o.conv o.kb (dataRuns new everyRow) m.2 old.2 = some img →
        ends (writePlaces w.s v (max 1 o.scope) w.places img))
    ∧ (o.kind = .rcon → ∀ t l u r, getTeam s o.team = some t → getLaunch s t.launch = some l →
      fillBlock s v o.scope ⟨o.dstH, if o.kb then some o.srcH else none, rconPoints l t, ((recordOf l t).map BlockRecord.code).getD 0⟩
        o.audits.isSome = (u, .inr r) →
      exec i s = .next (finishRcon u { ended with audits := if o.audits.isSome then some (.from r.sum r.count) else none }
        (some (l.id, teamIndex l.blk t))))
    ∧ (o.kind = .trace → o.pos ≠ 1 → ∀ t bs u x w, sideRead s v false o.src 0 48 = (t, .inr bs) →
      traverse t v (some o.core) (rayFrom (leNat bs)) = (u, .inr x) →
      opWrites u v o [(0, x.hit.bytes.take 8), (8, x.hit.bytes.drop 8), (16, leBytes 4 x.status)] = (w, none) → ends w))
  ∧ ∀ (s : State) (v : Env) (scope : Nat) (j : SolderJob) (audits : Bool),
    let ts := fillTargets j audits
    let ci := checkRuns s v j.image tileRead false (blockRuns j.image.hdr (readsFor j ts))
    let cg : TileCheck := match j.guide with
      | some g => checkRuns ci.s v g tileRead false (blockRuns g.hdr (guideReadsFor j ts))
      | none => ⟨ci.s, [], none⟩
    let cw := checkRuns cg.s v j.image tileWrite false (blockRuns j.image.hdr (ts.filter fun p => p.kind = 1))
    let img := readPlaces cw.s v ci.places
    let gd := readPlaces img.1 v cg.places
    let r := solderPoints j ts img.2 gd.2
    let w := markPlaces gd.1 v j.image cw.places
    ci.fault = none → cg.fault = none → cw.fault = none → w.fault = none →
    fillBlock s v scope j audits = (writePlaces w.s v (max 1 scope) w.places
      (r.fills.foldl (fun m p => putElement m j.image.hdr p.1.y p.1.x p.2) img.2), .inr r)

/-- R346, R392: the completion action of an instruction without a done record writes VALUE to its word, bit 63 inverted after
a failure, or completes its bytes on its object; nothing else is written. R365, R394, R469: an object on a poisoned line is not
completed, and the fault is 0x14 at its first poisoned byte. R390, R392: when the one operation of a CPY has
moved its bytes and its action is done, its entry is free, and no other operation has changed. -/
def Obligations.EngineCompletion : Prop :=
  (∀ (s : State) (v : Env) (o : AsyncOp) (done : Mask) (failed d : Bool) (pa : Nat),
    o.drec = 0 → o.tsp = false → OnPage s v o.target byteWrite false pa d → (getCore s v.core).grpStores = [] →
    (o.cw = true ∨ ∀ l ∈ s.poison, 128 * l + 128 ≤ pa ∨ pa + 16 ≤ 128 * l) →
    ∃ t, completionAction s v o done failed = (t, none) ∧ AccessFrame s t ∧ t.hostMem = s.hostMem ∧ t.mem = writeBytes s.mem pa
      (if o.cw then leBytes 8 (if failed then o.value ^^^ (2 ^ 63 : Nat) else o.value).toNat
        else leBytes 16 (objCompletion o.bytes (readNat s.mem pa 16))))
  ∧ (∀ (s : State) (v : Env) (o : AsyncOp) (done : Mask) (failed d : Bool) (pa : Nat),
    o.drec = 0 → o.tsp = false → o.cw = false → OnPage s v o.target byteWrite false pa d → lineOf pa ∈ s.poison →
    completionAction s v o done failed = (s, some (.fault 0x14 o.target pa)))
  ∧ (∀ (s : State) (o : AsyncOp) (t u : State),
    getOp s o.id = some o → o.kind = .cpy → o.window = none → o.tol = false → o.pos = 0 →
    (s.ops.filter fun x => x.batch = o.batch) = [o] → (s.ops.map AsyncOp.id).Nodup →
    moveUnits (opEnv s o) o (o.len + 1) s 0 = (t, o.len, none) → t.ops = s.ops →
    let o' := { o with pos := o.len, moved := true, whole := o.whole || 0 < o.len, waiting := none }
    completionAction (setOp t o') (opEnv (setOp t o') o') o' (if o'.whole then laneBit o.lane else 0) o.failed = (u, none) →
    u.ops = (setOp t o').ops →
    exec (.asyncOpComplete o.id) s = .next (opsFreed { u with ops := s.ops.filter fun x => x.batch != o.batch } o'))

/-- R302, R303, R420: LAUNCH tries its lanes in lane order, or its lowest lane for all of them, appends a child for each that
passes the checks, and puts the status in D; COVQ puts the lane's dealt point, or a point's status, in D. The point of a lane
of a group drawn from a REFORM bin is a free value (DESIGN CHOICE, log entry 8). R305 to R307: outside a record node RGET and
REMIT trap with cause 0x17. In one, an RGET of a single lane takes the oldest untaken record of its edge, whose slot it puts
in D with predicate C set; clears C where the edge is closed and empty; and waits where it is empty and open. An RGET, REMIT
or RDONE of several lanes acts for each in lane order, and completes where none waits and none faults; an RGET or REMIT that
waits does so for the lanes that are owed, and a fault of other lanes of a REMIT is raised once none waits. An RGET of a port with no
edge clears C. That LAUNCH takes all of the group's waiting stores home is the model's choice (DEDUCED, log entry 60), and so is the
step of the core's clock at an RGET that takes a record (DEDUCED, log entry 7). R308: GSIG leaves one owed write for each active lane,
which names the lane's operations in flight; the write, once none of them is in flight, stores the value or adds it. -/
def Obligations.GraphWords : Prop :=
  (∀ (f : Fields) (s : State) (F : Frag), F.quiet →
    let act := activeOf F f
    let one := f.mod.getLsbD 0
    let try_ (x : State × (Nat → Nat)) (L : Nat) : State × (Nat → Nat) :=
      let b := addr64 F.g f.selB f.b L
      let r := tryLaunch x.1 (envOf s F.g) (addr64 F.g f.selA f.a L) b
      let s' := match r.2.blk, launchOf r.1 F.g with
        | some blk, some parent => appendChild r.1 parent blk b (if f.mod.getLsbD 1 then some (addr64 F.g f.selC f.c L) else none)
        | _, _ => r.1
      (s', fun K => if one = true ∨ K = L then r.2.status else x.2 K)
    let all := ((lanesOf act).take (if one then 1 else 32)).foldl try_ (if act = 0 then s else drainOwn s (envOf s F.g), fun _ => 0)
    let points (s' : State) (v : Nat → Nat × Nat) : Prop := ∃ g',
      LaneLoads F act f.d.toNat 8 (fun L => (v L).1 % 2 ^ 32 + (v L).2 * 2 ^ 32) g' ∧
      exec (.covqMe f) s = .next (setGroup s' { g' with sides := nextSides F })
    (Issues s F (.launch f) → ∃ g', LaneLoads F act f.d.toNat 4 all.2 g' ∧
      exec (.launch f) s = .next (setGroup all.1 { g' with sides := nextSides F }))
    ∧ (Issues s F (.covqMe f) → ∀ l t, launchOf s F.g = some l → getTeam s F.g.team = some t →
      (l.blk.coven = false ∨ F.g.role ≠ 0 → points s fun _ => (0xFFFFFFFF, 0xFFFFFFFF))
      ∧ (l.blk.coven = true → F.g.role = 0 → F.g.drawn = false → ∀ b, recordOf l t = some b → points s fun L =>
          match (dealtPoints l t b)[32 * F.g.index + L]? with
          | some p => (p.x, p.y)
          | none => (0xFFFFFFFF, 0xFFFFFFFF))
      ∧ (l.blk.coven = true → F.g.role = 0 → F.g.drawn = true → points { s with free := s.free + 1 } fun L =>
          (Config.free s.free / 2 ^ (64 * L), Config.free s.free / 2 ^ (64 * L + 32))))
    ∧ (Issues s F (.covqPt f) → ∀ l t, launchOf s F.g = some l → getTeam s F.g.team = some t → ∃ g',
      LaneLoads F act f.d.toNat 4 (fun L => pointStatus l t (bitsA s F.g f false 0 L) (bitsB s F.g f 0 L)) g' ∧
      exec (.covqPt f) s = .next (setGroup s { g' with sides := nextSides F })))
  ∧ (∀ (f : Fields) (s : State) (F : Frag),
    let act := activeOf F f
    let done (i : Instr) (t : State) : Prop := exec i s = .next (settle (advance t F.g.id F.key) F.g.id)
    let waits (i : Instr) (t : State) (owed : Mask) : Prop :=
      exec i s = .next (settle (parkFrag t F.g.id F.key owed (.record false)) F.g.id)
    (F.calm → recordNode s F.g = none → act ≠ 0 →
      (Issues s F (.rget f) → exec (.rget f) s = .next (afterPlainTrap s F 0x17 act))
      ∧ (Issues s F (.remit f) → exec (.remit f) s = .next (afterPlainTrap s F 0x17 act)))
    ∧ (∀ gr n, recordNode s F.g = some (gr, n) →
      (Issues s F (.rget f) →
        (let x := (lanesOf act).foldl (takeLane F f gr.num n) ⟨s, 0, false⟩
         let t := if x.took then oweEnd (syncClk x.s F.g.core) gr.num n else x.s
         (x.owed = 0 → done (.rget f) t) ∧ (x.owed ≠ 0 → waits (.rget f) t x.owed))
        ∧ (∀ L, F.quiet → L < 32 → act = laneBit L → inEdge gr n (portOf s F.g f L) = none → getGraph s gr.num = some gr →
          ∃ g', exec (.rget f) s = .next (setGroup s { g' with sides := nextSides F }) ∧ g' = { F.g with preds := g'.preds } ∧
            ∀ p K, K < 32 → getP g' p K = if K = L ∧ p = f.c.toNat ∧ p ≠ 15 then false else getP F.g p K)
        ∧ ∀ L i e, F.quiet → L < 32 → act = laneBit L → inEdge gr n (portOf s F.g f L) = some i → gr.edges[i]? = some e →
          (e.untaken ≠ 0 → ∃ t g' gr', exec (.rget f) s = .next t ∧
            t.held = s.held ++ [(F.g.team, ⟨gr.num, i, e.taken, F.g.id, L⟩)] ∧
            getGraph t gr.num = some gr' ∧ gr'.edges = gr.edges.set i { e with taken := e.taken + 1 } ∧
            getGroup t F.g.id = some { g' with sides := nextSides F } ∧ g' = { F.g with vregs := g'.vregs, preds := g'.preds } ∧
            (∀ r K, K < 32 → getV g' r K =
              if K = L ∧ r = f.d.toNat then (e.slotVa e.taken).extractLsb' 0 32
              else if K = L ∧ r = f.d.toNat + 1 then (e.slotVa e.taken).extractLsb' 32 32 else getV F.g r K) ∧
            ∀ p K, K < 32 → getP g' p K = if K = L ∧ p = f.c.toNat then true else getP F.g p K)
          ∧ (e.untaken = 0 → e.closed = true → ∃ g', exec (.rget f) s = .next (setGroup s { g' with sides := nextSides F }) ∧
            g' = { F.g with preds := g'.preds } ∧
            ∀ p K, K < 32 → getP g' p K = if K = L ∧ p = f.c.toNat ∧ p ≠ 15 then false else getP F.g p K))
      ∧ (Issues s F (.remit f) →
        let x := (lanesOf act).foldl (emitLane F f (envOf s F.g) gr.num n gr.frame) ⟨s, [], 0⟩
        F.key.held = none →
        (x.faults = [] → x.owed = 0 → done (.remit f) x.s) ∧ (x.faults = [] → x.owed ≠ 0 → waits (.remit f) x.s x.owed)
        ∧ (∀ y r, x.faults = y :: r → y.cause ≠ 0x14 → y.cause ≠ 0x15 →
          let lanes := maskOf (x.faults.map LaneFault.lane)
          (x.owed = 0 → exec (.remit f) s = .next (settle (raise x.s F.g.id F.key y.cause y.va lanes) F.g.id))
          ∧ (x.owed ≠ 0 → exec (.remit f) s = .next (settle (updGroup x.s F.g.id fun g => mapFrag g F.key fun k =>
              { k with only := x.owed, held := some ⟨y.cause, y.va, lanes⟩, st := .park (.record false) }) F.g.id)))))
    ∧ (Issues s F (.rdone f) → (sweep s act (releaseSlot F f)).faults = [] → done (.rdone f) (sweep s act (releaseSlot F f)).s))
  ∧ ((∀ (f : Fields) (s : State) (F : Frag) (host direct : Nat → Bool) (pa : Nat → Nat), Issues s F (.gsig f) → F.quiet →
      let act := activeOf F f
      let add := f.mod.getLsbD 0
      let signal (p : Nat × Nat) : OwedGsig :=
        ⟨s.nextId + p.2, F.g.team, F.g.id, p.1, F.g.core, addr64 F.g f.selA f.a p.1, add,
          if f.immForm then f.imm32.signExtend 64 else read64 s F.g f.selC f.c p.1,
          (s.ops.filter (issuedBy F.g p.1)).map AsyncOp.id, none⟩
      (∀ L ∈ lanesOf act,
        Mapped s (envOf s F.g) (addr64 F.g f.selA f.a L) (if add then atomicOf 8 else plainWrite 8) (host L) (pa L) (direct L)) →
      ∃ t, exec (.gsig f) s = .next t ∧ t = { s with groups := t.groups, gsigs := t.gsigs, nextId := t.nextId, work := t.work } ∧
        t.groups = (setGroup s { F.g with sides := nextSides F }).groups ∧
        t.gsigs = s.gsigs ++ (lanesOf act).zipIdx.map signal ∧
        ∀ x ∈ (lanesOf act).zipIdx.map signal, Instr.gsigWrite x.id ∈ t.work)
    ∧ (∀ (s : State) (x : OwedGsig) (host direct : Bool) (pa : Nat),
      s.gsigs.find? (fun g => g.id = x.id) = some x → (∀ o ∈ s.ops, o.id ∉ x.ops) → (getCore s x.core).grpStores = [] →
      OnPage s (gsigEnv s x) x.va (if x.add then atomicOf 8 else plainWrite 8) host pa direct →
      let put (m : Memory) : Memory :=
        writeBytes m pa (leBytes 8 (if x.add then (readNat m pa 8 + x.value.toNat) % 2 ^ 64 else x.value.toNat))
      ∃ t, exec (.gsigWrite x.id) s = .next t ∧ t.gsigs = s.gsigs.filter (fun g => g.id != x.id) ∧
        t.mem = (if host then s.mem else put s.mem) ∧ t.hostMem = (if host then put s.hostMem else s.hostMem)))

/-- R437 to R443: TEX1, TEXF, TEXQ and ATTR complete with what each active lane reads, and a malformed header traps for the
whole fragment. What a malformed descriptor reads as is a free value (DESIGN CHOICE, log entry 10), and so is the texel of a pick that is none (DESIGN
CHOICE, log entry 92); the footprint of TEX1 is the model's reading (DEDUCED, log entry 90). R443: DISCARD sets bit 0
of the FLAGS of each active lane's colour record; DEPTHW writes the clamped depth to its Z and sets bit 1. With early depth
both trap with cause 0x11 (R428). -/
def Obligations.RenderWords : Prop :=
  (∀ f : Fields,
    let level (n : State → Frag → Nat → Nat) (h : State → Frag → Nat → State → Env → TexLevel × Nat → State × (TexFault ⊕ List Nat))
        (s0 : State) (F : Frag) (s : State) (L : Nat) : State × (TexFault ⊕ List Nat) :=
      match namedLevel s (hintedEnv s0 F f) (getS F.g f.a.toNat) (n s0 F L) with
      | (s, .inl x) => (s, .inl x)
      | (s, .inr none) => freeTexel s
      | (s, .inr (some l)) => h s0 F L s (hintedEnv s0 F f) l
    TexWord (.tex1 f) f (fun s0 F s L =>
      let key := hash32 (BitVec.ofNat 32 (f.mod.extractLsb' 4 4).toNat) (F.g.seed.extractLsb' 0 32)
      let frame := BitVec.ofNat 32 (((launchOf s0 F.g).map Launch.frame).getD 0)
      match readDescriptor s (hintedEnv s0 F f) (getS F.g f.a.toNat) with
      | (s, .fault x) => (s, .inl x)
      | (s, .malformed) => freeTexel s
      | (s, .levels ls) =>
        match footprint s (hintedEnv s0 F f) F f (activeOf F f) ls L with
        | (s, .inl x) => (s, .inl x)
        | (s, .inr taps) =>
          match pickTap taps 0 ((hash32 (hash32 (getV F.g f.e.toNat L) frame) key).extractLsb' 16 16).toNat with
          | some t => texFetch s (hintedEnv s0 F f) t.level t.x t.y
          | none => freeTexel s)
    ∧ TexWord (.texf f) f (level (fun _ F L => (getV F.g f.e.toNat L).toNat) fun s0 F L s v l =>
        texFetch s v l.1 (texIndex (f.mod.getLsbD 2) (hCols l.1.hdr) (bitsB s0 F.g f 0 L))
          (texIndex (f.mod.getLsbD 2) (hRows l.1.hdr) (bitsC s0 F.g f 0 L)))
    ∧ TexWord (.texq f) f (level (fun s F L => bitsB s F.g f 0 L) fun _ _ _ s _ l => (s, .inr [hCols l.1.hdr, hRows l.1.hdr, l.2, hKind l.1.hdr]))
    ∧ TexWord (.attr f) f (fun s0 F s L =>
      let v := hintedEnv s0 F f
      let at_ (n : Nat) : W64 := addr64 F.g f.selA f.a L + BitVec.ofNat 64 n
      let p := bitsC s0 F.g f 0 L % 4
      if f.mod.getLsbD 0 then
        match pixelLoad s v (at_ (40 + 4 * p)) 4 with
        | (s, .inr z) => (s, .inr [z])
        | (s, .inl x) => (s, .inl x)
      else
        match pixelLoads s v [(at_ 32, 8), (at_ (56 + 8 * p), 4), (at_ (60 + 8 * p), 4)] with
        | (s, .inr [base, b1, b2]) =>
          let a : W64 := BitVec.ofNat 64 (base + 16 * bitsB s0 F.g f 0 L)
          (match pixelLoads s v [(a + 0, 4), (a + 4, 4), (a + 8, 4)] with
           | (s, .inr [a0, a1, a2]) => (s, .inr [attrValue a0 a1 a2 b1 b2])
           | (s, .inr _) => (s, .inr [])
           | (s, .inl x) => (s, .inl x))
        | (s, .inr _) => (s, .inr [])
        | (s, .inl x) => (s, .inl x)))
  ∧ (∀ (f : Fields) (s : State) (F : Frag),
    let act := activeOf F f
    let word (i : Instr) (z : Nat → Option Nat) (bit : Nat) : Prop := Issues s F i →
      (act ≠ 0 → depthFinal s F.g = true → F.calm → exec i s = .next (afterTrap s F 0x11 0 act))
      ∧ (let w := sweep s act (colourLane F f (hintedEnv s F f) z bit)
         (act = 0 ∨ depthFinal s F.g = false) → w.faults = [] → exec i s = .next (settle (advance w.s F.g.id F.key) F.g.id))
    word (.discard f) (fun _ => none) 0 ∧ word (.depthw f) (fun L => some (depthValue (bitsB s F.g f 5 L))) 1
    ∧ (∀ b, depthValue b = match f32Num b with
        | .nan _ _ => f32One
        | x => if numLt x (Num.ofInt 0) || x.isZero then 0 else if numLt (Num.ofInt 1) x then f32One else b))

/-- R169, R170, R221, R314, R315: a side whose dependence has resolved runs again at its word, and its BLOCKED group is
ACTIVE again, or PENDING where it holds no place: after the data of a load has returned, after a write to a line that it
waits on, after the re-read of a full table's waiter, and after the limit of a WAITS. -/
def Obligations.WaitsResolve : Prop := ∀ (s : State),
  (∀ (l : InFlight), s.loads.find? (fun x => x.id = l.id) = some l → ∃ t, exec (.loadDataReturn l.id) s = .next t ∧
    t = { s with loads := s.loads.filter (fun x => x.id != l.id), work := t.work } ∧ Instr.dependenceResolved l.gid ∈ t.work)
  ∧ (∀ (host : Bool) (line : Nat), (s.groups.map Group.id).Nodup →
    let hit (g : Group) (L : Nat) : Bool := s.waits.any fun w => w.host = host && w.line = line && w.gid = g.id && w.lane = L
    ∃ t, exec (.waitaWake host line) s = .next t ∧
      t = { s with groups := t.groups, work := t.work, waits := s.waits.filter fun w => !(w.host = host && w.line = line) } ∧
      (∀ g, getGroup s g.id = some g → getGroup t g.id = some { g with sides := g.sides.map (wakeSide (hit g)) } ∧
        (g.sides.map (wakeSide (hit g)) ≠ g.sides → Instr.dependenceResolved g.id ∈ t.work))
      ∧ ∀ w ∈ s.waits, w.host = host → w.line = line → 2 ^ 64 ≤ w.gid →
        Instr.waitSignalWake (w.gid % 2 ^ 64 / 64) (w.gid % 64) ∈ t.work)
  ∧ ∀ (g : Group) (x : Side), getGroup s g.id = some g → g.tm = false → x ∈ g.sides → x.lanes ≠ 0 →
    (∀ y ∈ g.sides, y.answeredFault = none) →
    let again (i : Instr) (y : Side) : Prop := ∃ t g', exec i s = .next t ∧ t.mem = s.mem ∧ getGroup t g.id = some g' ∧ y ∈ g'.sides ∧
      g'.vregs = g.vregs ∧ g'.sregs = g.sregs ∧ g'.preds = g.preds ∧
      g'.st = if g.st = .blocked then (if g.placed then .active else .pending) else g.st
    (∀ id, x.st = .park (.load id) → (∀ l ∈ s.loads, l.id ≠ id) → again (.dependenceResolved g.id) { x with st := .running })
    ∧ (x.st = .park (.waita true) → again (.dependenceResolved g.id) { x with st := .running })
    ∧ (∀ fault, x.st = .park (.ldf true fault) →
        again (.dependenceResolved g.id) { x with noGuard := true, held := fault, st := .running })
    ∧ (x.st = .park (.record true) → again (.dependenceResolved g.id) { x with noGuard := true, st := .running })
    ∧ (∀ b, x.st = .park (.bwait b true) → again (.dependenceResolved g.id) { x.goto (x.pc + 16) with st := .running })
    ∧ (∀ w, x.st = .park (.waita w) → x.only ≠ 0 → again (.waitaPoll g.id) { x with st := .running })
    ∧ (∀ w, x.st = .park (.waits w) → x.limit ≠ 0 → x.limit ≤ (coreNow s g.core).toNat →
        again (.waitsLimitExpiry g.id) { x with st := .running })

/-- R317, R333, R336, R370: a PENDING group takes a place of the active set, of which another makes room where it is full; a
due timer is disarmed and owed, and a fragment parked in WAITA or WAITS takes it at once, with the lanes that the word is still
owed in sr.replay (DEDUCED, log entry 12); a fetch that faults traps at the PC; and a terminated team is gone, its context FAULTED. -/
def Obligations.GroupEvents : Prop := ∀ (s : State),
  (∀ (g : Group) (x : Side), getGroup s g.id = some g → g.st = .pending → g.tm = false → x ∈ g.sides → x.lanes ≠ 0 → x.st = .running →
    let set := activeSet s g.core g.slot
    let in_ : Group :=
      { g with placed := true, st := .active, since := coreNow s g.core, activeSince := s.now, sides := normSides g.sides }
    (set.length < 8 → exec (.groupPromote g.id) s = .next (setGroup s in_))
    ∧ (8 ≤ set.length → ∃ d ∈ set,
      (if ∃ y ∈ set, y.st = .blocked then d.st = .blocked ∧ ∀ y ∈ set, y.st = .blocked → d.since.toNat ≤ y.since.toNat
        else ∀ y ∈ set, d.activeSince.toNat ≤ y.activeSince.toNat) ∧ exec (.groupPromote g.id) s = .next (setGroup
        (setGroup s { d with placed := false, st := if d.st = GroupSt.blocked then .blocked else .pending, since := coreNow s d.core }) in_)))
  ∧ (∀ (g : Group), getGroup s g.id = some g → g.st ≠ .exited → g.st ≠ .saved → g.cmp ≠ 0 → g.cmp.toNat ≤ s.now.toNat →
    (g.trapbase = 0 → exec (.timerFire g.id) s = .next (setGroup s { g with cmp := 0, timerDue := false }))
    ∧ (g.trapbase ≠ 0 → (g.tm = true ∨ ∀ x ∈ g.sides, x.waitsOnLine = false) →
      exec (.timerFire g.id) s = .next (setGroup s { g with cmp := 0, timerDue := true }))
    ∧ (∀ x, g.trapbase ≠ 0 → g.tm = false → g.sides = [x] → x.waitsOnLine = true → x.lanes ≠ 0 →
      ∃ t g', exec (.timerFire g.id) s = .next t ∧ getGroup t g.id = some g' ∧ g'.tm = true ∧ g'.cause = 0x0E ∧ g'.epc = x.pc ∧
        g'.replay = x.lanes &&& x.only ∧ g'.cmp = 0 ∧ g'.timerDue = false ∧ t.mem = s.mem ∧
        ∀ w ∈ t.waits, w ∈ s.waits ∧ ¬(w.gid = g.id ∧ x.lanes.getLsbD w.lane = true)))
  ∧ (∀ (F : Frag) (cause : BitVec 8), issuing s = some F → F.calm → fatalCause cause = false → cause ≠ 0x14 → cause ≠ 0x15 →
    exec (.instructionFetchFault cause) s = .next (afterTrap s F cause F.key.pc F.lanes))
  ∧ (∀ (t : Team) (cause : BitVec 8), getTeam s t.id = some t → ∃ u, exec (.teamTerminate t.id cause) s = .next u ∧
    (∀ x ∈ u.teams, x.ctx ≠ t.ctx) ∧ (getCtx u t.ctx).st = .faulted)

/-- R213, R216, R219, R220: a core with a resident group gains a tick; a rebase takes one base from every clock and stamp of
the partition; and a port period refills the tokens of its contexts, at each slice port, and lends what was left unused. A transfer takes its
tokens before what it was lent, and none that is not there; those it lacks are taken at the next boundary, which is the model's
choice (log entry 23). -/
def Obligations.ClocksAndPeriods : Prop := ∀ (s : State),
  (∀ core, resident s core = true → ∃ t, exec (.clockAdvance core) s = .next t ∧ t = { s with cores := t.cores } ∧
    ∀ c, getCore t c = if c = core then { getCore s c with clk := (getCore s c).clk + 1 } else getCore s c)
  ∧ (∀ part base, let p := getPart s part
    clockHigh s p = true → swf s.ws = true → swf s.le = true → ∃ t, exec (.clockRebase part base) s = .next t ∧
      t = { s with
        cores := t.cores, rdc := t.rdc, ws := t.ws, le := t.le, hostWs := t.hostWs, hostLe := t.hostLe, devClk := t.devClk } ∧
      (∀ c, (getCore t c).clk =
        if coreIn p c = true then BitVec.ofNat 48 ((getCore s c).clk.toNat - base) else (getCore s c).clk) ∧
      ∀ line, let down (x : BitVec 48) : BitVec 48 := if (homeDie p (128 * line)).isSome then BitVec.ofNat 48 (x.toNat - base) else x
        sget t.ws line = down (sget s.ws line) ∧ sget t.le line = down (sget s.le line))
  ∧ (∀ part, (s.ctxs.map Context.num).Nodup →
    let cs := s.ctxs.filter (bucketed part)
    ∃ t, exec (.portPeriodBoundary part) s = .next t ∧ t = { s with ports := t.ports, ctxs := t.ctxs } ∧
      t.ctxs = s.ctxs.map (fun c => if bucketed part c then
        { c with idle := c.idle.boundary 0 1 (portRate c) (portCap c) } else c) ∧
      ∀ die slice, (die, slice) ∈ busyPorts s cs → ∀ c ∈ cs,
        let of (c : Context) : Bucket := portBucket s c die slice
        let pool := cs.foldl (fun n c => n + (portRate c - (of c).taken)) 0
        let share := (cs.filter fun c => (of c).emptied).foldl (fun n c => n + portRate c) 0
        let full : Bucket := {
          tokens := min ((of c).tokens + portRate c) (2 * portRate c), taken := 0, emptied := false, owed := 0
          allot := if (of c).emptied then min (portCap c) (pool * portRate c / share) else 0 }
        portBucket t c die slice = full.take (of c).owed)
  ∧ (∀ (b : Bucket) (n : Nat), let b' := b.take n
    b'.tokens = b.tokens - n ∧ b'.tokens + b'.allot + n = b.tokens + b.allot + (b'.owed - b.owed) ∧ b'.taken + b'.owed = b.taken + b.owed + n
    ∧ (n ≤ b.tokens + b.allot → b'.owed = b.owed))

/-- R364, R365, R367, R368: a walk that finds a leaf sets its A bit, and D for a write that is permitted, and fills the TLB;
one that finds an INVALID page marks it FAULT-PENDING and posts a request of 32 bytes, unless the ring is off or full; its TIME is the largest clock of the partition's cores at the
write (DESIGN CHOICE, log entry 68). R366,
R369: PRQ's base, size and enable are written; INV.GO takes an invalidation while fewer than 16 are pending, else it sets
INVOVF; and a completed one has removed its entries and is counted. That it leaves no deferred LDF that it covers is the model's choice
(DESIGN CHOICE, log entry 108), and so is that the waiting grp stores of the partition's cores have gone home (DEDUCED, log entry 60). -/
def Obligations.Pages : Prop :=
  (∀ (s : State) (core : Option Nat) (ctx die : Nat) (va : W64) (acc : PageAcc) (post mark : Bool) (devOk : Nat → Bool),
    let c := getCtx s ctx
    let p := getPart s c.part
    let x := translate s core die ctx va acc post mark devOk
    let t := x.1
    tlbFind s core die p c.asid va { acc with write := acc.write && mark } = none → p.pendingInv = [] →
    (∀ m ∈ s.misses, m.die ≠ die ∨ m.part ≠ p.pid ∨ m.asid ≠ c.asid ∨ m.page ≠ va.toNat / 4096) →
    (∀ w level index, walkHeld s die w p.pid c.asid level index = none) →
    (∀ level pa e, walk s p c.root va = .leaf level pa e →
      let lg := if level = 0 ∧ pteBit e 11 = true then 16 else levelLog2 level
      let group (i : Nat) : W64 := BitVec.ofNat 64 (readNat s.mem (pa / 128 * 128 + 8 * i) 8)
      (lg = 16 → ∀ i, i < 16 → group i &&& 0xFFFFFFFFFFFF0CFF = e &&& 0xFFFFFFFFFFFF0CFF) →
      let dirty : Bool := acc.write && mark && match leafAnswer p e lg va acc devOk with | .ok _ _ => true | _ => false
      let e' : W64 := e ||| (if dirty then 0x300 else 0x100)
      x.2 = leafAnswer p e lg va acc devOk ∧ t.hostMem = s.hostMem ∧
        t.mem = (if e' = e then s.mem else writeBytes s.mem pa (leBytes 8 e'.toNat)) ∧
        t.tlb = ((tlbPath core die).map fun place => TlbEntry.mk place p.pid c.asid (pteBit e 10)
          (BitVec.ofNat 64 (va.toNat / 2 ^ lg * 2 ^ lg)) lg e' false).foldl (putTlb c.asid va) s.tlb)
    ∧ (∀ pa e, walk s p c.root va = .absent pa e →
      let size := 2 ^ (p.prqLog2n + 8)
      let same (u : State) : Prop := t = { u with free := t.free, walkCache := t.walkCache }
      x.2 = .absent
      ∧ (post = true → pteNps e = 0 → p.prqEn = true → (p.prqTail - p.prqHead).toNat ≠ size →
        t.mem = writeBytes s.mem pa (leBytes 8 (e.toNat / 8 * 8 + e.toNat % 2 + 4)) ∧
        t.hostMem = writeBytes s.hostMem (p.prqBase.toNat + 32 * (p.prqTail.toNat % size))
          (leBytes 8 (p.prqTail.toNat + (acc.read.toNat + acc.write.toNat * 2 + acc.exec.toNat * 4 + acc.tile.toNat * 8) * 2 ^ 32
              + c.asid.toNat * 2 ^ 36 + c.num * 2 ^ 52)
            ++ leBytes 8 (va.toNat / 4096 * 4096) ++ leBytes 8 0 ++ leBytes 8 (partTime s c.part core).toNat) ∧
        (getPart t c.part).prqTail = p.prqTail + 1 ∧ t.tlb = s.tlb)
      ∧ (post = true → pteNps e = 0 → p.prqEn = true → (p.prqTail - p.prqHead).toNat = size → same (setPart s { p with prqovf := true }))
      ∧ (post = false ∨ pteNps e ≠ 0 ∨ p.prqEn = false → same s))
    ∧ (∀ cause pa, walk s p c.root va = .fault cause pa → x.2 = .fault cause pa ∧ t = { s with free := t.free, walkCache := t.walkCache }))
  ∧ (∀ (s : State) (ctx die : Nat) (va : W64) (acc : PageAcc), die < 4 →
    exec (.pageWalk ctx die va acc) s = .next (translate s none die ctx va acc true false (loadedFor s ctx)).1)
  ∧ (∀ (s : State) (core : Option Nat) (ctx die : Nat) (va : W64) (acc : PageAcc) (post mark : Bool) (devOk : Nat → Bool) (e : TlbEntry),
    let p := getPart s (getCtx s ctx).part
    tlbFind s core die p (getCtx s ctx).asid va { acc with write := acc.write && mark } = some e →
      translate s core die ctx va acc post mark devOk = (s, leafAnswer p e.leaf e.log2 va acc devOk))
  ∧ (∀ (s : State) (part : Nat) (v : W64),
    let p := getPart s part
    exec (.trPrqWrite part v) s = .next (setPart s { p with
      prqBase := BitVec.ofNat 64 (v.toNat / 4096 * 4096), prqEn := v.getLsbD 0
      prqLog2n := if v.toNat / 256 % 16 < 8 then v.toNat / 256 % 16 else p.prqLog2n })
    ∧ (v.getLsbD 0 = false → exec (.trInvGo part v) s = .next s)
    ∧ (v.getLsbD 0 = true → 16 ≤ p.pendingInv.length → exec (.trInvGo part v) s = .next (setPart s { p with invovf := true }))
    ∧ (v.getLsbD 0 = true → p.pendingInv.length < 16 → exec (.trInvGo part v) s = .next (owe
        (setPart { s with misses := s.misses.filter fun m => !(invalidationOf p).removesMiss p.pid m }
          { p with pendingInv := p.pendingInv ++ [invalidationOf p], invSeq := p.invSeq + 1 }) (.invalidationComplete part)))
    ∧ (∀ i rest, p.pendingInv = i :: rest → ∃ t, exec (.invalidationComplete part) s = .next t ∧
      (getPart t p.pid).pendingInv = rest ∧ (getPart t p.pid).invDone = p.invDone + 1 ∧
      (∀ e, e ∈ t.tlb ↔ e ∈ s.tlb ∧ i.removes part e = false) ∧
      (∀ e, e ∈ t.walkCache ↔ e ∈ s.walkCache ∧ i.removesWalk part e = false) ∧
      (∀ e, e ∈ t.misses ↔ e ∈ s.misses ∧ i.removesMiss part e = false) ∧
      (∀ d ∈ t.deferred, d ∈ s.deferred ∧ i.coversLdf s part d = false) ∧
      (∀ k, coreIn p k = true → (getCore t k).grpStores = []) ∧
      ((∀ k ∈ s.cores, k.grpStores = []) → t.mem = s.mem)))

/-- R273, R275 to R278: a notify of a page that is not enabled, or for no queue, changes nothing; one of an UNMAPPED queue
whose descriptor is valid maps it and takes TAIL, one of a mapped queue takes TAIL or drains it, and a field that fails posts
event 1. A TAIL outside the ring fails at 0x3F; one that brings packets gives the queue a slot, or leaves it SWAPPED and
ready. Clearing VCP_ERR re-arms a queue in ERROR whose context can run. R277 to R279: a queue that has waited 65,536 cycles
gives up its slot, and so does the one that has waited longest where another is ready; the one that became ready first takes
a free slot; a write to the awaited line lets a waiting queue go on where its condition holds, and registers it again where
not; and the watchdog posts event 2 once. The model's own, each with its log entry: FIELDs of reserved bits (35) and of event 2
(56); that a later notify checks the copy (36); that a drain ends a wait and discards what comes meanwhile (37, 38); that VCP_ERR
re-arms the queue it names, and only while V reads 1 (39); a TAIL that comes in ERROR (40); and what both logs receive of a field
whose check meets a poison or a violation (110). -/
def Obligations.Queues : Prop :=
  (∀ (s : State) (page : Nat) (p : VcpPage) (v : W64), getPage s page = some p →
    let q := (v.extractLsb' 32 6).toNat
    let tail : W32 := v.extractLsb' 0 32
    let x := getQueue s page q
    let i := Instr.vcpNotify page v
    let ends (t : State) : Prop := p.en = true → q < 60 → exec i s = .next t
    (p.en = false ∨ 60 ≤ q → exec i s = .next s)
    ∧ (x.st = .unmapped → dValid x.desc = false → ends s)
    ∧ (x.st = .unmapped → dValid x.desc = true →
      (firstBad (descriptorBad s page x.desc) = none → x.page = page → ends (takeTail (setQueue s (mapQueue x)) (mapQueue x) tail))
      ∧ (∀ b, firstBad (descriptorBad s page x.desc) = some b → x.page = page → ends (descriptorFault s x b)))
    ∧ (x.st = .mapped ∨ x.st = .active →
      (dValid x.desc = false ∨ dDrain x.desc = true → ends (drainQueue s x (!dValid x.desc)))
      ∧ (dValid x.desc = true → dDrain x.desc = false → x.page = page →
        (firstBad (descriptorBad s page x.copy) = none → ends (takeTail s x tail))
        ∧ ∀ b, firstBad (descriptorBad s page x.copy) = some b → ends (notifyFault (logField s x b) x 0xFFFFFFFF b.at_ b.addr)))
    ∧ (tailOk x tail = false → takeTail s x tail = notifyFault s x tail 0x3F 0)
    ∧ (tailOk x tail = true → x.st = .mapped → tail ≠ x.head → slotFree (setQueue s { x with shadow := tail }) = false →
      ∃ t, takeTail s x tail = t ∧ t.queues = (setQueue (setQueue s { x with shadow := tail })
        { x with shadow := tail, st := .swapped, ready := true, readySince := s.now }).queues)
    ∧ (v.getLsbD 0 = false ∨ p.err.getLsbD 0 = false → exec (.vcpErrClear page v) s = .next s)
    ∧ (v.getLsbD 0 = true → p.err.getLsbD 0 = true →
      let y := getQueue s page (p.err.extractLsb' 26 6).toNat
      let t := setPage s { p with err := 0 }
      exec (.vcpErrClear page v) s = .next (
        if y.st = .error ∧ (∀ c, y.space t = some c → ctxRuns s c = true) then
          setQueue t { y with st := .mapped, head := match y.faultAt with | some k => k + 1 | none => y.head, faultAt := none }
        else t)))
  ∧ (∀ (s : State) (page q : Nat),
    let x := getQueue s page q
    (x.st = .waiting → 65536 ≤ (s.now - x.parkedSince).toNat → ∃ t, exec (.queueWaitTimeout page q) s = .next t ∧
      t = { setQueue s { x with st := .swapped, ready := false } with work := t.work })
    ∧ (x.st = .waiting → slotFree s = false → (firstReady s).isSome → (longestWaiting s).map Queue.key = some x.key →
      ∃ t, exec (.queueSwap page q) s = .next t ∧ t = { setQueue s { x with st := .swapped, ready := false } with work := t.work })
    ∧ (x.st = .swapped → x.ready = true → slotFree s = true → (firstReady s).map Queue.key = some x.key → x.await = none →
      exec (.queueSwap page q) s = .next (advanceQueue (setQueue s { x with st := .active, ready := false }) x.page x.q))
    ∧ (∀ a t b, x.await = some a → awaitRead s x a = (t, some b) →
      (b = false → exec (.waitSignalWake page q) s = .next (registerQueue t x a))
      ∧ (b = true → x.st = .waiting → exec (.waitSignalWake page q) s = .next
          (advanceQueue (setQueue (unwait t x) { x with st := .active, await := none, ready := false }) x.page x.q))
      ∧ (b = true → x.st = .swapped → x.ready = false → ∃ u, exec (.waitSignalWake page q) s = .next u ∧
          u.queues = (setQueue (registerQueue t x a) { x with ready := true, readySince := t.now }).queues))
    ∧ (∀ a, x.await = some a → dWdog x.copy ≠ 0 → x.wdogFired = false → 1024 * dWdog x.copy ≤ (s.now - x.awaitSince).toNat →
      let t : State := { s with free := s.free + 1 }
      exec (.queueWatchdog page q) s = .next (postEvent (setQueue t { x with wdogFired := true }) x 2 a.idx
        (Config.free s.free % 64) a.addr (laterSignal t x x.head (x.shadow - x.head).toNat))))

/-- R280 to R282: a packet at the head of a queue whose TYPE its page allows, that waits for no packet before it and passes
its checks, advances the head and has its effect; one that fails a check has none, and its queue is in ERROR. The model's own, each with
its log entry: that a check which meets a poison or a violation enters both logs (110, DESIGN CHOICE); the layout of a CUT-PROPOSE's
body (18) and the FIELDs of SET_CUT's checks (25); and that a LOAD_GRAPH of a graph in use is held (24). -/
def Obligations.WorkPackets : Prop := ∀ (s s1 : State) (page q n : Nat),
  let x := getQueue s page q
  x.hasNext = true → packetAt s x x.head = (s1, some n) →
  let y := (advanceHead s1 x).2
  let t := (advanceHead s1 x).1
  let allowed (P : PacketForm) : Prop := packetEvent (pagePriv s1 page) (x.space s1).isNone page q n = some P.event
    ∧ (n.testBit 8 = true ∨ P.bar = true → x.started = [])
  let runs (P : PacketForm) (u : State) : Prop := allowed P → firstBad (reservedBad n P.listed ++ P.check s1 x n) = none →
    P.held s1 x n = false → exec P.event s = .next (advanceQueue u page q)
  runs (signalForm page q) (signalWord t y x.head (pkW n 8) (pk n 16 8) (pk n 24 1 = 1))
  ∧ runs (waitForm page q) (beginWait t y ⟨x.head, pkW n 8, pk n 24 1, pkW n 16, pk n 25 1⟩)
  ∧ runs (copyForm page q) (owe (startPacket
      { t with
        copies := t.copies ++ [⟨t.nextId, y.page, y.q, x.head, dCtx y.copy, pkW n 8, pkW n 16, pk n 24 8⟩], nextId := t.nextId + 1 }
      y (.copy t.nextId)) (.copyPacketComplete t.nextId))
  ∧ runs (queryForm page q) (spaceWrite t (y.space t) (pkW n 16) ((queryBytes t y (pk n 8 1)).getD []))
  ∧ runs (fenceForm page q) t
  ∧ (∀ u img, spaceRead t (y.space t) (pkW n 8) (pk n 16 4) = (u, some img) →
      runs (loadForm page q) (loadGraph u y (pk n 20 2) (pkW n 8) img))
  ∧ runs (triggerForm page q) (triggerRun t y (pk n 8 2) (pkW n 16))
  ∧ (∀ g c bits table, getGraph t (pk n 8 2) = some g → getCut t (pk n 8 2) = some c →
      readCutMap t g (pkW n 16) = some (bits, table) →
      let u := setPart t { getPart t g.part with
        cutEframe := BitVec.ofNat 32 (pk n 12 4), cutGraph := BitVec.ofNat 16 g.num, cutResult := 0, cutBusy := true }
      let u := Sys2Proof.Machine.setCut u { c with move := some (Move.proposed (pk n 12 4) bits table), busy := true }
      runs (setCutForm page q) (sendOn (portsMoving u g.num) (controlPort u g) tCutPropose g.num (pk n 12 4)
        (cutBody bits g.edges.length table)))
  ∧ (∀ P ∈ [signalForm page q, waitForm page q, copyForm page q, queryForm page q, fenceForm page q, loadForm page q,
      triggerForm page q, setCutForm page q], allowed P → ∀ b, firstBad (reservedBad n P.listed ++ P.check s1 x n) = some b →
      exec P.event s = .next (failPacket (logField s1 x b) x b.at_ b.addr))
  ∧ ∀ (u : State) (j : CopyJob) (bs : List Byte), s.copies.find? (fun k => k.id = j.id) = some j →
      spaceRead { s with copies := s.copies.filter fun k => k.id != j.id } (some j.ctx) j.src j.len = (u, some bs) →
      let u' := spaceWrite u (some j.ctx) j.dst bs
      exec (.copyPacketComplete j.id) s = .next (completePackets u' (getQueue u' j.page j.q) fun p => p = .copy j.id)

/-- R253 to R258, R284: the management packets, under the same conditions: partitions and pages, the events of a context, and
the words that SET_WORD sets. A PART_CREATE of a partition still in its scrub waits, and a port-share word set while its context is
FREE stays, which is the model's (DESIGN CHOICE, log entry 111). -/
def Obligations.ManagementPackets : Prop := ∀ (s s1 : State) (page q n : Nat),
  let x := getQueue s page q
  x.hasNext = true → packetAt s x x.head = (s1, some n) →
  let y := (advanceHead s1 x).2
  let t := (advanceHead s1 x).1
  let allowed (P : PacketForm) : Prop := packetEvent (pagePriv s1 page) (x.space s1).isNone page q n = some P.event
    ∧ (n.testBit 8 = true → x.started = [])
  let runs (P : PacketForm) (u : State) : Prop := allowed P → firstBad (reservedBad n P.listed ++ P.check s1 x n) = none →
    P.held s1 x n = false → exec P.event s = .next (advanceQueue u page q)
  let num := pk n 10 2
  let c := getCtx t num
  let va := pkW n 24
  let part := getPart t (pk n 9 1)
  runs (partCreateForm page q) (buildPartition t (pk n 8 1) (pk n 9 1 = 1) (BitVec.ofNat 8 (pk n 10 1)) (BitVec.ofNat 8 (pk n 11 1))
      (BitVec.ofNat 16 (pk n 12 2)) (pkW n 16) (pkW n 24))
  ∧ (allowed (partCreateForm page q) → firstBad (reservedBad n (partCreateForm page q).listed ++ (partCreateForm page q).check s1 x n) = none →
      (getPart s1 (pk n 8 1)).scrubbing = true → exec (.partCreate page q) s = .next s1)
  ∧ runs (partDestroyForm page q) (destroyPartition t y (pk n 8 1))
  ∧ (∀ v, getPage t (pk n 8 1) = some v → runs (vcpAssignForm page q)
      (let u := setPage t { v with part := pk n 9 1, tenant := pk n 10 1, priv := pk n 11 1 }
       setPart u { getPart u (pk n 9 1) with quantum := sset (getPart u (pk n 9 1)).quantum (pk n 10 1) (pkW n 16) }))
  ∧ (∀ u bs k, spaceRead t (y.space t) (pkW n 16) 64 = (u, some bs) → lowestFree t = some k →
      let d := { createdCtx k (pk n 9 1) (leNat bs) with portShare := (getCtx u k).portShare }
      runs (ctxCreateForm page q) (spaceWrite (setCtx u d) (y.space (setCtx u d)) va (ctxResult d 0)))
  ∧ (let d := { c with st := .bound, root := c.ptroot, logSeq := 0 }
     runs (ctxOpForm (.ctxBind page q) 1 bindEvent) (writeResult (clearLog (setCtx t d) d) y va d))
  ∧ runs (ctxOpForm (.ctxDestroy page q) 2 destroyEvent) (destroyContext (writeResult t y va { c with st := .destroyed }) num)
  ∧ (let u := startPacket t y (.ctxOp num 3 va)
     runs (ctxOpForm (.ctxPreempt page q) 3 preemptEvent)
      (if (getCtx u num).st = .running then startPreempt u num else setCtx u { getCtx u num with heldPreempt := true }))
  ∧ (let u := startPacket t y (.ctxOp num 4 va)
     runs (ctxOpForm (.ctxRestore page q) 4 restoreEvent) (owe (setCtx u { getCtx u num with heldRestore := true }) (.restoreAdmit num)))
  ∧ (let d := { c with st := .bound, heldRestore := false, heldPreempt := false, savedTeams := [], savedGroups := [], savedHeld := [] }
     runs (ctxOpForm (.ctxReset page q) 5 resetEvent) (writeResult (setCtx t d) y va d))
  ∧ runs (setPortShareForm page q) (setCtx t { c with portShare := pkW n 16 })
  ∧ runs (setPlacerForm page q) (setPart t { part with placer := pkW n 16 })
  ∧ runs (setGroupSchedulerForm page q) (setPart t { part with age := (pkW n 16).extractLsb' 0 16 })
  ∧ runs (setTenantQuantumForm page q) (setPart t { part with quantum := sset part.quantum num (pkW n 16) })
  ∧ runs (setHomingEntryForm page q) (devWrite (setPart t { part with homes := sset part.homes num (pkW n 16) }) false
      (part.homing.toNat + 8 * num) (leBytes 8 (pkW n 16).toNat))

/-- R254, R257, R260, R261, R267, R268: a group past its save limit ends its context; a team past its deadline is
force-saved; a context whose groups are all saved or gone is SAVED, with what its saved teams hold; a held restore is admitted when
there is room for every saved team, which the model tests for drawn groups too (DESIGN CHOICE, log entry 103), once the records can be
read: a page of them that is not present is waited for, and a poison or a violation ends the context (DEDUCED, log entry 116); and
scrubs end with a FREE context and with copies, translations and homing of a partition gone. -/
def Obligations.ContextEvents : Prop := ∀ (s : State),
  (∀ (t : Team) (g : Group), getTeam s t.id = some t → overrun s t = some g → ∃ u, exec (.saveOverrun t.id) s = .next u ∧
    (∀ x ∈ u.teams, x.ctx ≠ t.ctx) ∧ (getCtx u t.ctx).st = .faulted)
  ∧ (∀ (t : Team), getTeam s t.id = some t → preemptDue s t = true →
    let u := (notSaving s t.id).foldl (fun s g => forceSave s g.id) s
    exec (.preemptDeadlineExpiry t.id) s = .next (owe
      (if notSaving u t.id = [] then saveBins t.id (u.bins.foldl (fun n b => n + b.lanes.length) 0) u else u) (.contextSaved t.ctx)))
  ∧ (∀ (ctx : Nat), (getCtx s ctx).st = .preempting →
    (saveOver s ctx = false → exec (.contextSaved ctx) s = .next s)
    ∧ (saveOver s ctx = true → ∃ u, exec (.contextSaved ctx) s = .next u ∧ (getCtx u ctx).st = .saved ∧
        (getCtx u ctx).savedTeams =
          (s.teams.filter fun t => t.ctx = ctx && s.groups.any fun g => g.team = t.id && g.st = .saved).map Team.id ∧
        (getCtx u ctx).savedHeld = s.held.filter (fun h => ((getCtx u ctx).savedTeams).contains h.1) ∧
        ∀ g t, getGroup s g.id = some g → getTeam s g.team = some t → t.ctx = ctx → (∃ x ∈ s.groups, x.team = t.id ∧ x.st = .saved) →
          ∃ x ∈ (getCtx u ctx).savedGroups, x.id = g.id ∧ x.team = g.team ∧ x.st = g.st))
  ∧ (∀ (ctx : Nat), (getCtx s ctx).st = .saved → (getCtx s ctx).heldRestore = true →
    let teams := (getCtx s ctx).savedTeams
    let begun (u : State) : State := setCtx u { getCtx u ctx with st := .restoring, heldRestore := false }
    (readmitAll ctx teams s = none → exec (.restoreAdmit ctx) s = .next s)
    ∧ ((readmitAll ctx teams s).isSome → ∀ t,
      (∀ bs u, admitReads s ctx = (t, .ok bs) → readmitAll ctx teams t = some u →
        exec (.restoreAdmit ctx) s = .next (groupRestored (reloadAll (begun u) ctx) ctx))
      ∧ (∀ va, admitReads s ctx = (t, .absent va) → exec (.restoreAdmit ctx) s = .next t)
      ∧ (∀ cause va pa, admitReads s ctx = (t, .fault cause va pa) →
        exec (.restoreAdmit ctx) s = .next (recordFault (begun t) ctx cause va pa))))
  ∧ (∀ (ctx : Nat), (getCtx s ctx).st = .destroyed → ∃ u, exec (.contextScrubDone ctx) s = .next u ∧
    getCtx u ctx = Context.blank ctx ∧ (let c := getCtx s ctx
      (∀ e, e ∈ u.tlb ↔ e ∈ s.tlb ∧ ¬(e.part = c.part ∧ e.asid = c.asid))
      ∧ (∀ e, e ∈ u.walkCache ↔ e ∈ s.walkCache ∧ ¬(e.part = c.part ∧ e.asid = c.asid))
      ∧ (∀ e, e ∈ u.misses ↔ e ∈ s.misses ∧ ¬(e.part = c.part ∧ e.asid = c.asid))
      ∧ ∀ p ∈ u.ports, p.ctx ≠ ctx))
  ∧ ∀ (part : Nat), let p := getPart s part
    p.scrubbing = true →
    let scrub (k : Core) : Core := if coreIn p k.id then { k with l1 := [], icache := [], grpStores := [] } else k
    let u := setPart { s with
      cores := s.cores.map scrub, rdc := s.rdc.filter fun e => (homeDie p (128 * e.2.line)).isNone
      tlb := s.tlb.filter fun t => t.part != part, walkCache := s.walkCache.filter fun c => c.part != part
      misses := s.misses.filter fun m => m.part != part } (Partition.reset part)
    exec (.partitionScrubDone part) s = .next
      (u.queues.foldl (fun s x => completePackets s (getQueue s x.page x.q) fun d => d = .scrub part) u)

/-- R285, R291, R294, R298, R305, R310, R311: rounds among tenants; the reads before a launch's first team; placement, and
admission to a record node; the start of cores; and the end of a task. That a guide's header is checked once, with the argument fetch,
is the model's (DEDUCED, log entry 78), and so is the choice of a record team's coordinates (DESIGN CHOICE, log entry 57). -/
def Obligations.Launches : Prop := ∀ (s : State),
  (∀ (part : Nat), exec (.tenantRound part) s
      = .next ((List.range 16).foldl (roundFor part) (setPart s { getPart s part with roundAt := s.now }))
    ∧ ∀ t, readyTasks s part t = [] → roundFor part s t =
        if 0 < deficitOf (getPart s part) t then setPart s (setDeficit (getPart s part) t 0) else s)
  ∧ (∀ (l : Launch) (a b : State) (cs as : List Byte), getLaunch s l.id = some l → l.fetched = false → l.dispatched = true →
    devRead s l.ctx false l.blk.const 4096 = (a, .ok cs) → devRead a l.ctx false l.argVa l.blk.arglen = (b, .ok as) →
    (∀ c, checkGuide b l = (c, none) → exec (.launchArgsFetch l.id) s = .next c)
    ∧ (l.blk.coven = false ∨ covGuide l.blk = 0 → checkGuide b l = (b, some l))
    ∧ ∀ c k, checkGuide b l = (c, some k) → exec (.launchArgsFetch l.id) s = .next (owe (owe (setLaunch c { k with
      waiting := none, fetched := true, constBank := writeBytes [] 0 cs, argBlock := writeBytes [] 0 as })
      (.teamPlace (getCtx c k.ctx).part)) (.recordTeamAdmit l.id)))
  ∧ (∀ (part : Nat),
    let again (t : Team) : Option State := (getLaunch s t.launch).bind fun l => replaceTeam s l t
    let first (l : Launch) : Option State := placeTeam s l l.next (l.next + 1)
    let placed := (firstPlaced again (s.teams.filter (relaunchable s part))).or
      (firstPlaced first (s.launches.filter (placeable s part)))
    exec (.teamPlace part) s = .next (match placed with
      | some u => owe u (.teamPlace part)
      | none => s))
  ∧ (∀ (t : Team), getTeam s t.id = some t → t.unstarted ≠ [] → ∃ u, exec (.coreStart t.id) s = .next u ∧
    u.mem = s.mem ∧ u.groups = s.groups ∧
    getTeam u t.id = some { t with unstarted := t.unstarted.filter fun p => decide (s.now.toNat < p.2.toNat) } ∧
    ∀ p ∈ t.unstarted, p.2.toNat ≤ s.now.toNat → (getCore u p.1).icache = [])
  ∧ (∀ (l : Launch) (g : Graph) (i : Nat), getLaunch s l.id = some l → takesRecords s l = some (g, i) →
    let mine := s.teams.filter fun t => t.launch = l.id
    let untaken := (inputs g i).foldl (fun n e => n + e.untaken) 0
    let wanted : Bool := l.fetched && ctxRuns s l.ctx && decide ((mine.filter fun t => !t.took).length < untaken)
      && decide (mine.length < l.blk.teams)
    let unused := (List.range (mine.length + 1)).filter fun k => !mine.any fun t => teamIndex l.blk t = k
    (wanted = false → exec (.recordTeamAdmit l.id) s = .next s)
    ∧ (wanted = true → ∃ k ∈ unused, exec (.recordTeamAdmit l.id) s = .next
        (match placeTeam { s with free := s.free + 1 } l k l.next with
         | some u => owe u (.recordTeamAdmit l.id)
         | none => { s with free := s.free + 1 })))
  ∧ ∀ (l : Launch) (cost : Nat), getLaunch s l.id = some l → taskOver s l = true →
    (l.settled = false → cost = l.cost) →
    (ctxSaved s l.ctx = true → exec (.taskComplete l.id cost) s = .next s)
    ∧ (let u := if l.settled then s else settleCost s l cost
    ctxSaved s l.ctx = false → exec (.taskComplete l.id cost) s = .next (
      if u.teams.any fun t => t.launch = l.id then u
      else match l.graph with
        | some (gn, i) => owe u (.nodeDone gn i)
        | none => ctxIdle (childDone u l) l.ctx))

/-- R298, R300, R301, R415: a run requested of an idle graph starts, with the next frame number and its arguments; of a
running one it is held, and OVR says that a held one was replaced; a node whose work is over completes, and a loop evaluates
again; the end of a run is counted, once the last packets of its remote edges have gone (R451); and an update of the coverage code starts a new sum. R422: a fixed-function unit reads
its configuration, writes what it has to write while there is room, and then takes the next record of input port 0; a record
whose payload is too short, or fails its check, is skipped, with cause 0x17 in the context log. -/
def Obligations.RunsAndUnits : Prop :=
  (∀ (s : State),
    (∀ (g : Graph) (v : W64), getGraph s g.num = some g →
      (v.extractLsb' 0 4 ≠ 0 → exec (.triggerRunRequest g.num v) s = .next s)
      ∧ (v.extractLsb' 0 4 = 0 → g.run = true → exec (.triggerRunRequest g.num v) s
          = .next (setGraph s { g with pend := some v, pendOwner := 0, ovr := g.ovr || g.pend.isSome }))
      ∧ (v.extractLsb' 0 4 = 0 → g.run = false → runHeld s g.num (g.frame + 1) = false → ∃ u g',
          exec (.triggerRunRequest g.num v) s = .next u ∧ getGraph u g.num = some g' ∧ g'.run = true ∧
          g'.frame = (g.frame + 1) % 2 ^ 32 ∧ g'.runArgs = (if v = 0 then g.args else v) ∧ g'.donec = g.donec)
      ∧ exec (.triggerClearOvr g.num) s = .next (setGraph s { g with ovr := false }))
    ∧ (∀ (g : Graph) (i : Nat) (n : Node), getGraph s g.num = some g → g.nodes[i]? = some n →
      (ctxSaved s g.ctx = true → exec (.nodeDone g.num i) s = .next s)
      ∧ (ctxSaved s g.ctx = false → (n.kind = 2 → n.st = .draining → n.outbox = [] → unitReady n = true →
        exec (.nodeDone g.num i) s = .next (finishUnit s g i n))
      ∧ (n.kind = 4 → n.st = .running → nodesWhere g (fun x j => bodyOf n j && x.st != .done) = [] → n.count ≠ 0 →
        exec (.nodeDone g.num i) s = .next
          (if n.iterations.toNat < n.count.toNat then afterNodes s (startIteration g i) else endLoop s g.num i))
      ∧ (∀ l, n.kind ≠ 2 → n.kind ≠ 4 → s.launches.find? (fun l => l.graph = some (g.num, i)) = some l → l.settled = true →
        (∀ t ∈ s.teams, t.launch ≠ l.id) → nodeChildren s g.num i = false →
        exec (.nodeDone g.num i) s = .next (finishLaunch s g.num i l))))
    ∧ (∀ (g : Graph), getGraph s g.num = some g → g.run = true → (∀ n ∈ g.nodes, n.ended = true) →
      (ctxSaved s g.ctx = true ∨ unsentEdges s g ≠ [] → exec (.runEnd g.num) s = .next s)
      ∧ (ctxSaved s g.ctx = false → unsentEdges s g = [] → ∃ u g', exec (.runEnd g.num) s = .next u ∧ getGraph u g.num = some g' ∧ g'.donec = g.donec + 1 ∧
        (g.pend = none → g'.run = false ∧ ∀ n ∈ g'.nodes, n.st = .idle)))
    ∧ ∀ (l : Launch), getLaunch s l.id = some l →
      let k := covUpdate s.now l
      exec (.coverageUpdate l.id) s = .next (keepCovCode (setLaunch s k) k) ∧ k.cov.audits.count = 0 ∧ k.cov.added = 0 ∧
      k.cov.codeAt s.now = l.cov.codeAt s.now ∧ (∀ t, t ≠ s.now → k.cov.codeAt t = k.cov.code) ∧
      (l.cov.audits.count = 0 → k.cov.code = l.cov.code))
  ∧ (∀ (s : State) (g : Graph) (i : Nat) (n : Node), getGraph s g.num = some g →
    g.nodes[i]? = some n → n.kind = 2 → n.atWork = true →
    ∀ p ∈ [(rasteriser, Instr.rasteriseTriangle g.num i), (traversalUnit, Instr.traverseRay g.num i),
      (blender, Instr.blendRecord g.num i), (solderUnit, Instr.solderRecord g.num i)], n.unit = p.1.unit →
    (∀ t c, n.config = none → p.1.start s g n = (t, .inr c) →
      exec p.2 s = .next (updNode t g.num i fun n => { n with config := some (some c), waiting := none }))
    ∧ (∀ cfg, n.config = some cfg → n.outbox ≠ [] → exec p.2 s = .next (oweDrain (emitAll g.num i (n.outbox.length + 1) s) g.num i))
    ∧ (∀ cfg, n.config = some cfg → n.outbox = [] → exec p.2 s = .next (oweDrain (takeRecord p.1 s g i cfg) g.num i))
    ∧ (∀ cfg k e t bs, inEdge g i 0 = some k → g.edges[k]? = some e → e.untaken ≠ 0 →
      bareRead s g.ctx false (e.slotVa e.taken) 256 = (t, .ok bs) →
      let h := leNat (bs.take 16)
      let x := leNat ((bs.drop 16).take p.1.size)
      (recLen h < p.1.size ∨ p.1.bad x = true →
        takeRecord p.1 s g i cfg = recordDone (logContext t g.ctx 0x17 none 0 0) g.num i k h [])
      ∧ (p.1.size ≤ recLen h → p.1.bad x = false → ∀ c u out, cfg = some c → p.1.work t g i c x = (u, .outs out) →
        takeRecord p.1 s g i cfg = recordDone u g.num i k h out)))

/-- R13, R465, R466, R476: the stages of start-up in their order, each with what it leaves, and the stop of one that fails.
R309, R466 to R470: readings, trips, power periods, soft errors and the patrol scrub. R466: a stop enters that state, where
no reset is to come. The model's own, each with its log entry: what a stop loses of contexts and memory (48, DEDUCED); how a
power period counts its last periods and picks among equal dies (43), and what it does to a die at 1.0 GHz (95); that the measured
powers are free values (109, DESIGN CHOICE); and that an uncorrectable error takes the copies of its line with it (96, DEDUCED). -/
def Obligations.StartUpAndPower : Prop :=
  (∀ (s : State),
    exec .moduleReset s = .next { State.reset with
      stage := 1, hostMem := s.hostMem, hostPoison := s.hostPoison, free := s.free, inputs := s.inputs, turns := s.turns, tick := s.tick }
    ∧ (s.stage = 1 →
      ((∀ d < 4, goodBinding d = true) → exec .fuseLoad s = .next { s with stage := 2, binding := bindingTables })
      ∧ ((∃ d < 4, goodBinding d = false) → ∃ d < 4, goodBinding d = false ∧
          exec .fuseLoad s = .next (stopModule s 0x01 (BitVec.ofNat 2 d))))
    ∧ (∀ die, s.stage = 2 → die = s.trained.length →
      exec (.channelTraining die false) s = .next (stopModule s 0x02 (BitVec.ofNat 2 die))
      ∧ exec (.channelTraining die true) s = .next
          { s with trained := s.trained ++ [die], stage := if die = 3 then 3 else s.stage })
    ∧ (s.stage = 3 → exec .memoryZero s = .next { s with stage := 4, mem := [], poison := [] })
    ∧ (s.stage = 4 →
      exec (.firmwareLoad false) s = .next (stopModule s 0x03 0)
      ∧ ∃ t, exec (.firmwareLoad true) s = .next t ∧ t.stage = 5 ∧ (getPart t 0).v = true ∧ (getPart t 0).qdies = 0xFFFF ∧
        (getPart t 0).orderMode = false ∧ (getPart t 0).homing = 0xBFFFFFC000 ∧ (getPart t 0).elog = 0xBFFFFFB000 ∧
        (∀ k < 1024, sget (getPart t 0).homes k = if k < 768 then 0xC0 else 0) ∧
        t.mem = writeBytes (writeBytes s.mem 0xBFFFFFC000 homingBytes) 0xBFFFFFB000 (List.replicate 4096 0))
    ∧ (s.stage = 5 → exec .macEnable s = .next { s with stage := 6, links := s.links.map fun (l : Link) => { l with en := false } })
    ∧ ∀ (e : BitVec 8) (d : BitVec 2), let t := stopModule s e d
      t.stage = 15 ∧ t.err = e ∧ t.errdie = d ∧ t.mem = [] ∧ t.ctxs = [] ∧ t.hostMem = s.hostMem)
  ∧ (∀ (s : State),
    exec .supplyFault s = .next (stopModule s 0x05 0)
    ∧ (∀ core, tripHeat s core = true → exec (.thermalTrip core) s = .next (stopModule s 0x04 0))
    ∧ (∀ (rs : List (Nat × BitVec 8 × BitVec 8)), (rs.map Prod.fst).Nodup → ∃ t : State,
      t.mem = s.mem ∧ (∀ r ∈ rs, (getCore t r.1).temp = r.2.1 ∧ (getCore t r.1).droop = r.2.2) ∧
      exec (.sensorResample rs) s = .next (if ∃ c ∈ t.cores, tripHeat t c.id = true then stopModule t 0x04 0 else t))
    ∧ (∀ (p : PowerReading), let counts := overCounts { s with free := s.free + 1 } p
      ∃ pick, let t := { s with
          free := s.free + 1
          tempmax := BitVec.ofNat 8 (((List.range 4).flatMap (dieHeats s)).foldl max 0)
          dies := s.dies.zipIdx.map (settleDie s (steppedClocks s p pick)), overRuns := counts }
        exec (.powerPeriod p) s = .next (if ∃ n ∈ counts, 16 ≤ n then stopModule t 0x06 0 else t))
    ∧ (exec .correctedSoftError s = .next { s with cecnt := if s.cecnt = 0xFFFF then 0xFFFF else s.cecnt + 1 })
    ∧ (∀ line, 128 * line < moduleSize →
      exec (.patrolScrub line false) s = .next s
      ∧ (∃ t, exec (.patrolScrub line true) s = .next t ∧ line ∈ t.poison ∧ ∀ l ∈ s.poison, l ∈ t.poison)
      ∧ exec (.uncorrectableError (.line line)) s = .next { s with
          poison := if line ∈ s.poison then s.poison else s.poison ++ [line]
          cores := s.cores.map fun k => { k with l1 := k.l1.filter fun c => c.line != line }
          rdc := s.rdc.filter fun e => e.2.line != line })
    ∧ ∀ (t : Team), getTeam s t.id = some t → ∃ u, exec (.uncorrectableError (.team t.id)) s = .next u ∧
      (∀ x ∈ u.teams, x.ctx ≠ t.ctx) ∧ (getCtx u t.ctx).st = .faulted)
  ∧ (∀ (s : State) (e : BitVec 8) (d : BitVec 2), Instr.moduleReset ∉ s.inputs →
    (stopModule s e d).stage = 15 ∧ (stopModule s e d).err = e ∧ Instr.moduleReset ∉ (stopModule s e d).inputs)

/-- R5, R6, R272, R366, R376, R399, R464: a write to BAR0 before READY, or to no register, changes nothing; one to a register
of a page writes its fields, or acts. R373, R374, R466: a host write of one line stores its bytes in module memory, and a
read changes neither memory; before READY both leave the module as it is; and a snoop takes the lines that the host writes
from the agent, and wakes their waiters. Reserved bits of a queue descriptor are held as written (DESIGN CHOICE, log entry 84), and
so are a window's fields and MTU (DEDUCED, log entry 46). -/
def Obligations.HostSide : Prop :=
  (∀ (s : State) (off : Nat) (v : W64),
    (s.stage ≠ 6 ∨ off % 8 ≠ 0 ∨ 0x84000 ≤ off ∨ 0x48000 ≤ off ∧ off < 0x80000 → exec (.registerWrite off v) s = .next s)
    ∧ (s.stage = 6 →
      (∀ n, n < 64 →
        exec (.registerWrite (0x1000 * n) v) s = exec (.vcpNotify n v) s
        ∧ exec (.registerWrite (0x1000 * n + 0x20) v) s = exec (.vcpErrClear n v) s
        ∧ (∀ p, getPage s n = some p → exec (.registerWrite (0x1000 * n + 8) v) s
            = .next (setPage s { p with en := v.getLsbD 0, qsel := (v.extractLsb' 8 6).toNat }))
        ∧ ∀ q w, q < 60 → w < 8 → exec (.registerWrite (0x1000 * n + 0x100 + 64 * q + 8 * w) v) s
            = .next (setQueue s { getQueue s n q with desc := setPart64 (getQueue s n q).desc w v }))
      ∧ (∀ n, n < 8 → let p := getPart s n
        let a := 0x40000 + 0x1000 * n
        exec (.registerWrite a v) s = exec (.trPrqWrite n v) s
        ∧ exec (.registerWrite (a + 0x08) v) s = .next (setPart s { p with prqHead := v.extractLsb' 0 32 })
        ∧ exec (.registerWrite (a + 0x18) v) s = .next (setPart s { p with invAddr := v &&& 0x01FFFFFFFFFFF000 })
        ∧ exec (.registerWrite (a + 0x20) v) s = .next (setPart s { p with invCtl := v &&& 0xFFFF30FFFFFFFFFF })
        ∧ exec (.registerWrite (a + 0x28) v) s = exec (.trInvGo n v) s
        ∧ exec (.registerWrite (a + 0x40) v) s
            = .next (setPart s { p with invovf := p.invovf && !v.getLsbD 1, prqovf := p.prqovf && !v.getLsbD 0 }))
      ∧ ∀ n, n < 4 → let l := getLink s n
        let a := 0x80000 + 0x1000 * n
        exec (.registerWrite a v) s = exec (if v.getLsbD 0 then .linkEnable n v else .linkDisable n v) s
        ∧ (∀ w, w < 2 → exec (.registerWrite (a + 8 + 8 * w) v) s = .next (setLink s { l with ip6 := setPart64 l.ip6 w v }))
        ∧ exec (.registerWrite (a + 0x28) v) s = .next (setLink s { l with nhV := v.getLsbD 48, nhMac := v.extractLsb' 0 48 })
        ∧ ∀ k w, k < 64 → w < 4 → exec (.registerWrite (a + 0x100 + 32 * k + 8 * w) v) s = .next
            { s with windows := putBy Window.idx (writeWindow (getWindow s (64 * n + k)) w v) s.windows }))
  ∧ (∀ (s : State) (pa : Nat),
    (∀ n, ∃ t, exec (.hostCxlMemRead pa n) s = .next t ∧ (s.stage ≠ 6 → t = s))
    ∧ (∀ n, 0 < n → pa % 128 + n ≤ 128 → s.stage = 6 → isTrigger pa = true → exec (.hostCxlMemRead pa n) s = .next s)
    ∧ (∀ (bs : List Byte), s.stage ≠ 6 → exec (.hostCxlMemWrite pa bs) s = .next s)
    ∧ (∀ (bs : List Byte), s.stage = 6 → bs ≠ [] → pa % 128 + bs.length ≤ 128 → isTrigger pa = false → pa < moduleSize →
      (∃ p ∈ s.parts, p.v = true ∧ (homeDie p pa).isSome) → ∃ t, exec (.hostCxlMemWrite pa bs) s = .next t ∧
      t.mem = writeBytes s.mem pa bs ∧ t.hostMem = s.hostMem)
    ∧ (∀ (bs : List Byte) (v : W64), s.stage = 6 → isTrigger pa = true → pa % 8 = 0 → bs = leBytes 8 v.toNat →
      exec (.hostCxlMemWrite pa bs) s = .next (triggerStore s (triggerGraph pa) v))
    ∧ ∀ (bs : List Byte), ∃ t, exec (.hostSnoop pa bs) s = .next t ∧ t.mem = s.mem ∧ t.hostMem = writeBytes s.hostMem pa bs ∧
      (∀ l, lineOf pa ≤ l → 128 * l < pa + max 1 bs.length → l ∉ t.hostLines))

/-- R375, R376: LINK_CTL written with EN = 1 starts the training of a port that is DOWN, with EN = 0 ends in DOWN; a trained
port comes up in its mode; the loss of the link, and two seconds of training, end in ERROR; and control messages that are due
are sent again, but not past four times RETRY. R377: a solicitation for the port's address is answered, an advertisement
resolves or confirms a peer; an entry is gone 30 s after it was confirmed, and packets whose peer does not answer are lost. R385,
R386, R389: a control message that comes in its turn is acted on and acknowledged. FRAME triggers the graph's run at the far
side; CUT-PROPOSE is accepted or refused; the answer lets the near side go on, or ends the move with nothing changed but RESULT
and BUSY; a STATE-XFER is written at once, or held for a later run where its node has been READY in run E; and a STATE-ACK ends
the sending of its STATE-XFER. The advertisement's destination and the frames that a port takes are the model's (PRESUMED, log
entry 80), the cause that a degraded port logs is a free value (log entry 16), and so is the layout of the messages' bodies the
model's (log entry 18). -/
def Obligations.LinkStates : Prop :=
  (∀ (s : State) (port : Nat) (v : W64), port < 4 →
    let l := getLink s port
    (v.getLsbD 0 = true → ∃ t, exec (.linkEnable port v) s = .next t ∧ t = { s with links := t.links } ∧
      (getLink t port).en = true ∧ (getLink t port).mtu = v.extractLsb' 2 14 ∧ (getLink t port).rto = v.extractLsb' 16 24 ∧
      (getLink t port).retry = v.extractLsb' 40 8 ∧ (getLink t port).lossmax = v.extractLsb' 48 16 ∧
      (getLink t port).mode = v.getLsbD 1 ∧
      (getLink t port).st = (if l.st = .down then .training else l.st) ∧
      (getLink t port).modeUp = (if l.en then l.modeUp else v.getLsbD 1) ∧ (l.st = .down → (getLink t port).since = s.now) ∧
      (getLink t port).wire = l.wire ++ (if l.en || l.nhV then [] else [ndFrom port allNodesMac (.advertise l.ip6 (Config.mac port))]))
    ∧ (v.getLsbD 0 = false → exec (.linkDisable port v) s = .next (portDown (setLink s (writeLinkCtl l v)) port .down))
    ∧ (∀ st, (∀ c ∈ s.cuts, c.busy = false) → (∀ o ∈ s.ops, o.window = none) →
      let keep (u : Unacked) : Option Unacked := if u.ptype = tLdata then none else some { u with sends := 0 }
      let lose (x : RxFrame) : RxFrame := if x.closed then x else { x with data := [], parity := [] }
      portDown s port st = { setLink s { l with
          st := st, unresolved := [], lostpk := l.lostpk + BitVec.ofNat 32 l.unresolved.length
          pairs := l.pairs.map fun (p : Pair) => { p with unacked := p.unacked.filterMap keep, earlyData := [] } } with
        remotes := s.remotes.map fun r => if pPort r.param = port then { r with frames := r.frames.map lose } else r })
    ∧ (l.st = .training → l.modeUp = true → exec (.pcsLinkUp port) s = .next (setLink s { l with st := .upLossy, since := s.now }))
    ∧ (l.st = .training → l.modeUp = false → exec (.pcsLinkUp port) s = .next (setLink s { l with
        st := .upLossless, since := s.now
        pairs := l.pairs.map fun (p : Pair) => { p with dataNext := 0, dataSeen := 0, earlyData := [] } }))
    ∧ (l.st ≠ .training → exec (.pcsLinkUp port) s = .next s)
    ∧ (exec (.pcsLinkLoss port) s = .next (if l.st.up then portDown s port .error else s))
    ∧ (l.st = .training → 4200000000 ≤ (s.now - l.since).toNat → ∃ t, exec (.trainingTimeout port) s = .next t ∧
        t = logPartition (setLink s { l with st := .error }) (portPart s port) 0 0x17 none 0 0)
    ∧ let late := l.pairs.flatMap fun p => (p.unacked.filter (resendDue s l)).map fun u => (p.peer, u)
      let over_ : Bool := late.any fun x => !x.2.covered && decide (4 * l.retry.toNat ≤ x.2.sends)
      l.st.up = true → late ≠ [] →
        (over_ = true → exec (.controlResend port) s = .next (portDown s port .error))
        ∧ (over_ = false → let t := late.foldl (resendOne port) s
          let m := getLink t port
          exec (.controlResend port) s = .next
            (if (m.st = .upLossy || m.st = .upLossless) && m.resentOften then degrade t m else t)))
  ∧ (∀ (s : State) (port : Nat), let l := getLink s port
    (∀ nd, l.st.up = false ∨ l.nhV = true ∨ frameTaken l nd.dst = false → exec (.neighborSolicitation port nd) s = .next s)
    ∧ (l.st.up = true → l.nhV = false → ∀ dst src, frameTaken l dst = true →
      (∀ a, exec (.neighborSolicitation port ⟨dst, src, .solicit a⟩) s = .next (if a = l.ip6 then
        setLink s { l with wire := l.wire ++ [.nd ⟨src, Config.mac port, .advertise l.ip6 (Config.mac port)⟩] } else s))
      ∧ (∀ a mac, l.unresolved.any (fun u => u.peer = a) = false → l.neighbors.any (fun n => n.ip = a) = false →
        exec (.neighborSolicitation port ⟨dst, src, .advertise a mac⟩) s = .next s)
      ∧ (∀ a mac, l.unresolved.any (fun u => u.peer = a) = true ∨ l.neighbors.any (fun n => n.ip = a) = true →
        ∃ t, exec (.neighborSolicitation port ⟨dst, src, .advertise a mac⟩) s = .next t ∧ t = { s with links := t.links } ∧
          ⟨a, mac, s.now⟩ ∈ (getLink t port).neighbors ∧ (getLink t port).neighbors.length ≤ max 256 l.neighbors.length ∧
          (∀ u ∈ (getLink t port).unresolved, u.peer ≠ a) ∧
          ∀ u ∈ l.unresolved, u.peer = a → framed port mac a u.ptype u.pkt ∈ (getLink t port).wire))
    ∧ (∀ n, l.neighbors.find? (fun x => x.ip = n.ip) = some n → exec (.neighborCacheExpiry port n.ip) s = .next
        (if (s.now - n.confirmed).toNat < 63000000000 then s
         else setLink s { l with neighbors := l.neighbors.filter fun x => x.ip != n.ip }))
    ∧ ∀ a, let gone (u : Unresolved) : Bool := u.peer = a && decide (l.rtoCounts ≤ (s.now - u.since).toNat)
      l.unresolved.any gone = true → exec (.neighborResolutionTimeout port a) s = .next (setLink s { l with
        unresolved := l.unresolved.filter fun u => !gone u
        lostpk := l.lostpk + BitVec.ofNat 32 (l.unresolved.filter gone).length }))
  ∧ (∀ (s : State) (port ptype : Nat) (p : EdgePacket), (getLink s port).st.up = true → frameTaken (getLink s port) p.dst = true →
    p.plain = true → p.ver = 1 → p.spare = 0 →
    let x := getPair (getLink s port) p.src
    let t := actControl (setLink s (setPair (getLink s port) { x with ctlSeen := x.ctlSeen + 1, early := [] })) ptype p
    x.ctlSeen = BitVec.ofNat 32 p.cseq → x.early = [] → (getPair (getLink t port) p.src).early = [] →
    receiveControl port ptype p s = acknowledge t port p.src)
  ∧ (∀ (s : State) (p : EdgePacket) (g : Graph) (c : Cut), getGraph s p.graph = some g → getCut s p.graph = some c →
    (c.near = false → actControl s tFrame p = triggerStore s p.graph 0)
    ∧ (∀ bits table, cutMap g p.body = some (bits, table) → c.near = false →
      (c.busy = true ∨ p.frame ≤ g.frame + 1 ∨ cutValid g bits = false →
        actControl s tCutPropose p = sendOn s (controlPort s g) tCutReject g.num p.frame [])
      ∧ (c.busy = false → g.frame + 1 < p.frame → cutValid g bits = true →
        let t := acceptMove (portsMoving s g.num) g { c with busy := true } (Move.proposed p.frame bits table)
        actControl s tCutPropose p = sendOn t (controlPort t g) tCutAccept g.num p.frame []))
    ∧ (∀ m, c.move = some m → c.near = true → c.busy = true → m.accepted = false → m.eframe = p.frame →
      actControl s tCutAccept p = startPending (m.early.foldl (fun s y => takeXfer s g y) (acceptMove s g c { m with early := [] })) g.num
      ∧ actControl s tCutReject p = finishMove s c 2 none)
    ∧ (∀ m i, c.awaited.find? (fun m => m.eframe = p.frame) = some m → m.incoming.find? (fun i => i.node = xferNode p) = some i →
      i.written = false →
      (i.decided = true → actControl s tStateXfer p =
        Sys2Proof.Machine.setCut s (c.change m.eframe fun m => m.setIncoming { i with held := some p }))
      ∧ (i.decided = false → (writeXfer s g m p).cuts = s.cuts → actControl s tStateXfer p =
        owe (Sys2Proof.Machine.setCut (writeXfer s g m p) (c.change m.eframe fun m => m.setIncoming { i with written := true }))
          (.cutMoveEnd g.part)))
    ∧ (∀ m, c.move = some m → m.eframe = p.frame → ∃ t, actControl s tStateAck p = t ∧ Instr.cutMoveEnd g.part ∈ t.work ∧
      t.cuts = (Sys2Proof.Machine.setCut s { c with move := some { m with owed := m.owed.filter fun n => n != xferNode p } }).cuts ∧
      ∀ l ∈ t.links, ∀ y ∈ l.pairs, ∀ u ∈ y.unacked,
        ¬ (u.ptype = tStateXfer ∧ u.pkt.graph = p.graph ∧ u.pkt.frame = p.frame ∧ xferNode u.pkt = xferNode p))
    ∧ (p.graph = g.num → c.graph = g.num → c.near = true → (getPart s g.part).cutBusy = true → (getPart s g.part).cutGraph.toNat = c.graph →
      g.pend = none → ∃ t, finishMove s c 2 none = t ∧ (getPart t g.part).cutBusy = false ∧ (getPart t g.part).cutResult = 2 ∧
        ∀ d ∈ t.cuts, d.graph = g.num → d.move = none ∧ d.busy = false))

/-- R376 to R378: what a port does with any packet that comes: nothing while it is not up, nor with one addressed elsewhere; a
packet that is not a plain one is counted in LOSTPK and dropped, one with another VER or a nonzero byte that is not listed is
dropped, and any other is taken. That another VER is dropped is the model's (log entry 79). R3, R378: the 32 bytes of an edge
header, most significant byte first, and the bytes of the body after them give back type and packet. R385, R399: a CACK acknowledges every control message before it, a
STATE-XFER but for its STATE-ACK; an LDATA packet that comes in its turn is written, at the window's base and offset, and
answered, and one taken before is only answered again; a LACK takes its packet off, and ends the operation whose last one it
is. R380 to R384, R389, R451: a remote edge's encoder takes the records of its ring and, once its producer is DONE, sends the
frame; a DATA or PARITY packet of an open frame joins it, a copy of one that has come not; a frame that is due is closed and
delivered; a late record refreshes its slot of the stale store, once its frame is closed; and a partition's moves are looked at. The
model's own, each with its log entry: that the records of a local edge into a Brass node are taken and nothing is emitted (14, DESIGN
CHOICE); that a producer in a loop's body is DONE only once the loop has ended (118); that LDATA whose pages are not mapped is refused, and one taken before is only answered again (29); the layouts of
bodies (18); the frame addresses that a port takes (80, PRESUMED); and whose number an LDATA packet's window has (85). -/
def Obligations.Network : Prop :=
  (∀ (s : State) (port : Nat) (p : EdgePacket),
    let l := getLink s port
    ∀ x ∈ [(Instr.data port p, edgePacket s false p), (.parity port p, edgePacket s true p),
      (.frame port p, receiveControl port tFrame p s), (.cutPropose port p, receiveControl port tCutPropose p s),
      (.cutAccept port p, receiveControl port tCutAccept p s), (.cutReject port p, receiveControl port tCutReject p s),
      (.stateXfer port p, receiveControl port tStateXfer p s), (.stateAck port p, receiveControl port tStateAck p s),
      (.refMiss port p, receiveControl port tRefMiss p s)],
      (l.st.up = false ∨ frameTaken l p.dst = false → exec x.1 s = .next s)
      ∧ (l.st.up = true → frameTaken l p.dst = true →
        (p.plain = false → exec x.1 s = .next (setLink s { l with lostpk := l.lostpk + 1 }))
        ∧ (p.plain = true → p.ver ≠ 1 ∨ p.spare ≠ 0 → exec x.1 s = .next s)
        ∧ (p.plain = true → p.ver = 1 → p.spare = 0 → exec x.1 s = .next x.2)))
  ∧ (∀ (s : State) (port : Nat) (p : EdgePacket), (getLink s port).st.up = true → frameTaken (getLink s port) p.dst = true →
    p.plain = true → p.ver = 1 → p.spare = 0 →
    let l := getLink s port
    let x := getPair l p.src
    (let before (u : Unacked) : Bool := u.ptype != tLdata && decide (1 ≤ (BitVec.ofNat 32 p.cseq - BitVec.ofNat 32 u.pkt.cseq).toNat)
        && decide ((BitVec.ofNat 32 p.cseq - BitVec.ofNat 32 u.pkt.cseq).toNat < 2 ^ 31)
     let keep (u : Unacked) : Option Unacked :=
       if !before u then some u else if u.ptype = tStateXfer then some { u with covered := true } else none
     exec (.cack port p) s = .next (setLink s (setPair l { x with unacked := x.unacked.filterMap keep })))
    ∧ (2 ^ 31 ≤ (BitVec.ofNat 32 p.cseq - x.dataSeen).toNat → exec (.ldata port p) s = .next (takeData s port p true))
    ∧ (x.dataSeen = BitVec.ofNat 32 p.cseq → x.earlyData = [] → ∃ t, exec (.ldata port p) s = .next t ∧
        t = takeData (setLink s (setPair l { x with dataSeen := x.dataSeen + 1, earlyData := [] })) port p false)
    ∧ (∀ w off, inboundFor s p = some (w, off) → l.nhV = true → ∃ t, takeData s port p false = t ∧
        t = transmit (spaceWrite s (some w.ctx) (w.base + BitVec.ofNat 64 off) (p.body.drop 8)) port p.src tLack
          { blankPacket (getLink (spaceWrite s (some w.ctx) (w.base + BitVec.ofNat 64 off) (p.body.drop 8)) port) 0 0 [0] with
            edge := p.edge, cseq := p.cseq })
    ∧ (x.unacked.find? (fun u => u.ptype = tLdata && u.pkt.cseq = p.cseq) = none → exec (.lack port p) s = .next s)
    ∧ ∀ u o, x.unacked.find? (fun u => u.ptype = tLdata && u.pkt.cseq = p.cseq) = some u → getOp s u.op = some o →
      let t := setOp (setLink s (setPair l { x with
        unacked := x.unacked.filter fun v => !(v.ptype = tLdata && v.pkt.cseq = p.cseq) })) { o with
          failed := o.failed || p.body.take 1 != [0] }
      exec (.lack port p) s = .next (if allAcked t u.op then owe t (.asyncOpComplete u.op) else t))
  ∧ (∀ (s : State) (g : Graph) (i : Nat),
    getGraph s g.num = some g →
    (∀ (parity : Bool) (p : EdgePacket) (r : RemoteEdge), edgeOf s p = some (g, i, r) →
      let x := (getFrame r p.frame).join false parity p
      let y := (recoverFrame s (pPort r.param) false x).2
      let t := setRemote (recoverFrame s (pPort r.param) false x).1 (setFrame r y)
      (getFrame r p.frame).closed = false → closeDue s r (getFrame r p.frame) = false →
      edgePacket s parity p = (if closeDue (recoverFrame s (pPort r.param) false x).1 r y then owe t (.frameClose g.num i p.frame) else t)
      ∧ (parity = false → (∀ q ∈ (getFrame r p.frame).group p.group, q.idx ≠ p.idx) → x.data = (getFrame r p.frame).data ++ [p])
      ∧ (parity = true → (∀ q ∈ (getFrame r p.frame).parity, q.group ≠ p.group) → x.parity = (getFrame r p.frame).parity ++ [p])
      ∧ (∀ q ∈ x.data, q ∈ y.data))
    ∧ (∀ (p : EdgePacket) (parity : Bool), edgeOf s p = none → edgePacket s parity p = s)
    ∧ (∀ (e : Edge), g.edges[i]? = some e → brassNode g e = true → e.untaken ≠ 0 →
      exec (.brassEncode g.num i g.frame) s = .next (passRecords g.num i e.untaken s))
    ∧ (∀ (e : Edge) (n : Node) (r : RemoteEdge), g.edges[i]? = some e → e.away = true → e.closed = false → g.run = true → g.nodes[e.src]? = some n →
      n.owned = true → getRemote s g.num i = some r → e.untaken = 0 →
      exec (.brassEncode g.num i g.frame) s = .next (if producerOver g e = true then sendFrame s g i e r else s))
    ∧ (∀ (r : RemoteEdge) (f : Nat), getRemote s g.num i = some r →
      (∀ todo, r.delivering = some (f, todo) → exec (.frameClose g.num i f) s = .next (deliverFrame g.num i (todo.length + 2) s))
      ∧ (r.delivering.map Prod.fst ≠ some f → closeDue s r (getFrame r f) = true →
        let t := closeFrame s g i r (getFrame r f)
        let n := match (getRemote t g.num i).bind RemoteEdge.delivering with
          | some x => x.2.length + 2
          | none => 1
        exec (.frameClose g.num i f) s = .next (deliverFrame g.num i n t)))
    ∧ (∀ (r : RemoteEdge) (slot : List Byte), getRemote s g.num i = some r →
      let x := (readSlot s g.ctx r (recKey (recHead slot))).2
      let t := (readSlot s g.ctx r (recKey (recHead slot))).1
      exec (.lateRecord g.num i slot) s = .next (if closeDue t r (getFrame r (recFrame (recHead slot))) = true then
          owe t (.lateRecord g.num i slot)
        else if x.refresh slot = x then t else writeSlot (setRemote t { r with rcvd := r.rcvd ++ [(recKey (recHead slot), recFrame (recHead slot))] }) g.ctx r
          (x.refresh slot)))
    ∧ (∀ (part : Nat), let mine := s.cuts.filter fun c => c.move.isSome && (getGraph s c.graph).any fun g => g.part = part
      mine ≠ [] → exec (.cutMoveEnd part) s = .next (mine.foldl (fun s c => lookAtMove s c.graph) s)))
  ∧ ∀ (ptype : Nat) (p : EdgePacket), ptype < 256 → p.fits = true →
    (headerBytes ptype p).length = 32 ∧ packetFrom p.src p.dst p.plain (headerBytes ptype p ++ p.body) = (ptype, p)

/-- R38 to R42, R57, R61, R62: every legal instruction but a fused sequence has a word, and the word decodes to it, whatever
bytes follow. -/
def Obligations.DecodeOfEncode : Prop := ∀ i : Instr, i.legal = true →
  (∃ w x y z, i = .fusedSoftmax w x y z)
  ∨ ∃ w, encode i = some w ∧ decode w = .ok i ∧ ∀ rest, decodeBytes (bytesOfWord w ++ rest) = .ok i

/-- R38 to R42, R57, R61, R62: a word that decodes is the word of the instruction it decodes to, which is legal: no two words
decode alike, and no bit of a word is dropped. -/
def Obligations.EncodeOfDecode : Prop := ∀ (w : W128) (i : Instr), decode w = .ok i → encode i = some w ∧ i.legal = true

/-- Words that the spec writes out bit by bit decode to the instructions that they stand for. -/
def Obligations.DecodeWords : Prop :=
  let z : Fields := ⟨false, 0, 0, 0, 0, 0, 0, 0, 15, 15, 0, 0, 0, 0, 0, 0, 0, 0, 0⟩
  decode 0x0000000001EF20000000C00403005200 = .ok (.fadd { z with mod := 5, d := 3, a := 1, b := 12, selB := 2 })
  ∧ decode 0x0000000301EF00000000000402005306 = .ok (.cvtn { z with immForm := true, imm32 := 3, mod := 5, d := 2, a := 1 })
  ∧ decode 0xFFFFFE8001EF00000000000000000004 = .ok (.bra { z with off25 := 0x1FFFFFD })
  ∧ decode 0x0000000001EF00020000300801001158 = .ok (.icmp { z with mod := 1, d := 1, a := 2, b := 3, e := 2 })
  ∧ decode 0x0000200001EF0400000070100801A600 =
      .ok (.ld { z with mod := 0x01A, d := 8, a := 4, b := 7, selA := 1, off25 := 64 })
  ∧ decode 0x0000000001EF00000000200400000810 = .ok (.mma { z with d := 0, a := 1, b := 2 })
  ∧ decode 0x0000000001EF14080000601000408900 =
      .ok (.cpy { z with mod := 0x408, a := 4, b := 6, e := 8, selA := 1, selB := 1 })
  ∧ decode 0x0000000001EF00020000000000000C00 = .ok (.bar { z with e := 2 })
  ∧ decode 0x0000000001EF14000000902000000D1C = .ok (.csave { z with a := 8, b := 9, selA := 1, selB := 1 })

/-- R253, R255, R272, R322, R375, R464, R465: right after reset no stage of start-up has run, the time base and the error
fields are 0, no partition exists, no page is enabled, every context is FREE, every queue UNMAPPED and every port DOWN with
EN = 0; and both memories list nothing, in their canonical form. That unlisted bytes read 0 is the model's choice (log entry
3). -/
def Obligations.ResetLeaves : Prop :=
  let s := State.reset
  s.stage = 0 ∧ s.err = 0 ∧ s.now = 0 ∧ s.mem = [] ∧ s.hostMem = [] ∧ s.mem.wf = true ∧ s.hostMem.wf = true
  ∧ (∀ p < 8, (getPart s p).v = false) ∧ (∀ n < 64, ∃ p, getPage s n = some p ∧ p.en = false ∧ p.err = 0)
  ∧ (∀ c, (getCtx s c).st = .free) ∧ (∀ v q, (getQueue s v q).st = .unmapped)
  ∧ (∀ l < 4, (getLink s l).st = .down ∧ (getLink s l).en = false) ∧ s.groups = [] ∧ s.teams = []

/-- The form in which the model holds memory, module memory and host memory alike, addresses rising and no entry that equals what an
unlisted address reads as, is kept by every step, whatever it does: two memories with the same bytes are the same data. -/
def Obligations.MemoryStaysCanonical : Prop := KeptByStep fun s => s.mem.wf = true ∧ s.hostMem.wf = true

/-- R466: after a stop the module does nothing of its own, and takes no request: whatever else the step is, the stage stays
15 with its error code until a reset, and neither memory changes. That host memory does not change either holds because a stopped module
takes no input, the host's own writes to its memory among them (DESIGN CHOICE, log entry 4). -/
def Obligations.StoppedStays : Prop := ∀ (e : BitVec 8) (m h : Memory),
  KeptByStep fun s => s.stage = 15 ∧ s.err = e ∧ s.mem = m ∧ s.hostMem = h ∧ Instr.moduleReset ∉ s.inputs

/-- R62, R63, R370: at a fragment's turn, the word at its PC is fetched; a step is then exec of the instruction that it
decodes to, or of the illegal-instruction or fetch-fault event, with the fragment issuing for its duration. REDUCE may begin
a fused sequence (R134). Before a turn of a module that is READY the timers that are due fire (R333); after it, what it has brought
into a full L1 makes room there (R208; DESIGN CHOICE, log entry 105). Which turn comes next is the model's (log entry 1). A step of a unit is exec of a job that the
device has to do, and a step of the outside exec of the next input, which a module takes at any stage before it has stopped,
or only when READY (which inputs those are is log entry 4's); a turn that comes to an event of an object that is gone changes
nothing (DEDUCED, log entry 62). -/
def Obligations.StepRunsDecodedInstruction : Prop :=
  let fired (s : State) : State := if s.stage = 6 then fireTimers s else s
  let ends (r : Res) : Res := match r with
    | .next t => .next (if t.stage = 15 then t else boundCaches t)
    | r => r
  (∀ (s u w : State) (dt gid slice : Nat) (F : Frag),
    takeTurn s = (⟨dt, .fragment gid slice⟩, u) →
    let v := fired (passTime u dt)
    fragAt v gid slice = some F → canIssue v F.g = true → takesTimer F = false →
    let issued (i : Instr) (w : State) : Res := ends (match exec i w with
      | .next t => .next (endIssue (freeYielders t F.g slice i))
      | r => r)
    (∀ x, fetchWord (beginIssue v gid slice) F.g F.key.pc = (w, .word x) →
      (∀ i, decode x = .ok i → (∀ f, i ≠ .reduce f) → step s = issued i w)
      ∧ (∀ f, decode x = .ok (.reduce f) →
          step s = issued (fusedWith w F (.reduce f)).2 (fusedWith w F (.reduce f)).1
          ∧ ((fusedWith w F (.reduce f)).2 = .reduce f ∨ ∃ b c d, (fusedWith w F (.reduce f)).2 = .fusedSoftmax f b c d))
      ∧ (∀ why, decode x = .reject why → step s = issued (.illegalInstruction x) w))
    ∧ (∀ cause pa, fetchWord (beginIssue v gid slice) F.g F.key.pc = (w, .fault cause pa) →
        step s = issued (.instructionFetchFault cause) w))
  ∧ (∀ (s u : State) (dt : Nat),
    let v := fired (passTime u dt)
    (∀ k i, takeTurn s = (⟨dt, .work k⟩, u) → v.stage ≠ 15 → (jobs v)[k]? = some i →
      step s = ends (act i { v with work := v.work.filter fun j => j != i }))
    ∧ (∀ i rest, takeTurn s = (⟨dt, .input⟩, u) → v.inputs = i :: rest →
      let v := { v with inputs := rest }
      step s = ends (if (v.stage ≠ 15 ∧ startInput i = true) ∨ (v.stage = 6 ∧ readyInput i = true) ∨ i = .moduleReset then act i v
        else .next v))
    ∧ (∀ i v t, exec i v = .next t → act i v = .next t)
    ∧ ∀ i v o, exec i v = .fault (.noSuchObject o) → act i v = .next v)
end

