-- ==== Sys2Proof/Laws/Coding.lean ====
section
/-! SUPPORT. The encoder and the decoder's field reader undo each other, field by field. -/

namespace Sys2Proof

/-- The bits of a word below IMM32 or OFF25, REUSE and STALL. -/
theorem Fields.word_imm (f : Fields) (op : BitVec 10) (h : f.immForm = true) (i : Nat) :
    (f.word op).getLsbD i = BitVec.getLsbD (f.imm32 ++ (f.yield ++ f.hint ++ f.gcomb ++ f.g2 ++ f.g1 ++ f.selC ++ f.selB
      ++ f.selA ++ f.e ++ f.c ++ f.b ++ f.a ++ f.d ++ f.mod ++ op ++ 2#2)) i := by
  simp only [Fields.word, h, if_true]

theorem Fields.word_reg (f : Fields) (op : BitVec 10) (h : f.immForm = false) (i : Nat) :
    (f.word op).getLsbD i = BitVec.getLsbD (f.off25 ++ f.reuse ++ f.stall ++ (f.yield ++ f.hint ++ f.gcomb ++ f.g2 ++ f.g1
      ++ f.selC ++ f.selB ++ f.selA ++ f.e ++ f.c ++ f.b ++ f.a ++ f.d ++ f.mod ++ op ++ 0#2)) i := by
  simp only [Fields.word, h, Bool.false_eq_true, if_false]

/-- Bits of a word that stand in one field. -/
theorem Fields.word_field (f : Fields) (op : BitVec 10) {n : Nat} (p : Nat) (x : BitVec n) (hp : p + n ≤ 96)
    (h : ∀ i, i < n → ∀ k : BitVec 2, BitVec.getLsbD (f.yield ++ f.hint ++ f.gcomb ++ f.g2 ++ f.g1 ++ f.selC ++ f.selB
      ++ f.selA ++ f.e ++ f.c ++ f.b ++ f.a ++ f.d ++ f.mod ++ op ++ k) (p + i) = x.getLsbD i) :
    (f.word op).extractLsb' p n = x := by
  apply BitVec.eq_of_getLsbD_eq
  intro i hi
  rw [BitVec.getLsbD_extractLsb']
  simp only [hi, decide_true, Bool.true_and]
  cases hf : f.immForm
  · rw [Fields.word_reg f op hf, BitVec.getLsbD_append, if_pos (by omega)]; exact h i hi _
  · rw [Fields.word_imm f op hf, BitVec.getLsbD_append, if_pos (by omega)]; exact h i hi _

theorem Fields.word_op (f : Fields) (op : BitVec 10) : (f.word op).extractLsb' 2 10 = op := by
  refine f.word_field op 2 op (by omega) fun i h k => ?_
  rw [BitVec.getLsbD_append, if_neg (by omega), BitVec.getLsbD_append, if_pos (by omega)]
  congr 1; omega
theorem Fields.word_mod (f : Fields) (op : BitVec 10) : (f.word op).extractLsb' 12 12 = f.mod := by
  refine f.word_field op 12 f.mod (by omega) fun i h k => ?_
  rw [BitVec.getLsbD_append, if_neg (by omega), BitVec.getLsbD_append, if_neg (by omega), BitVec.getLsbD_append, if_pos (by omega)]
  congr 1; omega
theorem Fields.word_d (f : Fields) (op : BitVec 10) : (f.word op).extractLsb' 24 10 = f.d := by
  refine f.word_field op 24 f.d (by omega) fun i h k => ?_
  rw [BitVec.getLsbD_append, if_neg (by omega), BitVec.getLsbD_append, if_neg (by omega), BitVec.getLsbD_append, if_neg (by omega), BitVec.getLsbD_append, if_pos (by omega)]
  congr 1; omega
theorem Fields.word_a (f : Fields) (op : BitVec 10) : (f.word op).extractLsb' 34 10 = f.a := by
  refine f.word_field op 34 f.a (by omega) fun i h k => ?_
  rw [BitVec.getLsbD_append, if_neg (by omega), BitVec.getLsbD_append, if_neg (by omega), BitVec.getLsbD_append, if_neg (by omega), BitVec.getLsbD_append, if_neg (by omega), BitVec.getLsbD_append, if_pos (by omega)]
  congr 1; omega
theorem Fields.word_b (f : Fields) (op : BitVec 10) : (f.word op).extractLsb' 44 10 = f.b := by
  refine f.word_field op 44 f.b (by omega) fun i h k => ?_
  rw [BitVec.getLsbD_append, if_neg (by omega), BitVec.getLsbD_append, if_neg (by omega), BitVec.getLsbD_append, if_neg (by omega), BitVec.getLsbD_append, if_neg (by omega), BitVec.getLsbD_append, if_neg (by omega), BitVec.getLsbD_append, if_pos (by omega)]
  congr 1; omega
theorem Fields.word_c (f : Fields) (op : BitVec 10) : (f.word op).extractLsb' 54 10 = f.c := by
  refine f.word_field op 54 f.c (by omega) fun i h k => ?_
  rw [BitVec.getLsbD_append, if_neg (by omega), BitVec.getLsbD_append, if_neg (by omega), BitVec.getLsbD_append, if_neg (by omega), BitVec.getLsbD_append, if_neg (by omega), BitVec.getLsbD_append, if_neg (by omega), BitVec.getLsbD_append, if_neg (by omega), BitVec.getLsbD_append, if_pos (by omega)]
  congr 1; omega
theorem Fields.word_e (f : Fields) (op : BitVec 10) : (f.word op).extractLsb' 64 10 = f.e := by
  refine f.word_field op 64 f.e (by omega) fun i h k => ?_
  rw [BitVec.getLsbD_append, if_neg (by omega), BitVec.getLsbD_append, if_neg (by omega), BitVec.getLsbD_append, if_neg (by omega), BitVec.getLsbD_append, if_neg (by omega), BitVec.getLsbD_append, if_neg (by omega), BitVec.getLsbD_append, if_neg (by omega), BitVec.getLsbD_append, if_neg (by omega), BitVec.getLsbD_append, if_pos (by omega)]
  congr 1; omega
theorem Fields.word_selA (f : Fields) (op : BitVec 10) : (f.word op).extractLsb' 74 2 = f.selA := by
  refine f.word_field op 74 f.selA (by omega) fun i h k => ?_
  rw [BitVec.getLsbD_append, if_neg (by omega), BitVec.getLsbD_append, if_neg (by omega), BitVec.getLsbD_append, if_neg (by omega), BitVec.getLsbD_append, if_neg (by omega), BitVec.getLsbD_append, if_neg (by omega), BitVec.getLsbD_append, if_neg (by omega), BitVec.getLsbD_append, if_neg (by omega), BitVec.getLsbD_append, if_neg (by omega), BitVec.getLsbD_append, if_pos (by omega)]
  congr 1; omega
theorem Fields.word_selB (f : Fields) (op : BitVec 10) : (f.word op).extractLsb' 76 2 = f.selB := by
  refine f.word_field op 76 f.selB (by omega) fun i h k => ?_
  rw [BitVec.getLsbD_append, if_neg (by omega), BitVec.getLsbD_append, if_neg (by omega), BitVec.getLsbD_append, if_neg (by omega), BitVec.getLsbD_append, if_neg (by omega), BitVec.getLsbD_append, if_neg (by omega), BitVec.getLsbD_append, if_neg (by omega), BitVec.getLsbD_append, if_neg (by omega), BitVec.getLsbD_append, if_neg (by omega), BitVec.getLsbD_append, if_neg (by omega), BitVec.getLsbD_append, if_pos (by omega)]
  congr 1; omega
theorem Fields.word_selC (f : Fields) (op : BitVec 10) : (f.word op).extractLsb' 78 2 = f.selC := by
  refine f.word_field op 78 f.selC (by omega) fun i h k => ?_
  rw [BitVec.getLsbD_append, if_neg (by omega), BitVec.getLsbD_append, if_neg (by omega), BitVec.getLsbD_append, if_neg (by omega), BitVec.getLsbD_append, if_neg (by omega), BitVec.getLsbD_append, if_neg (by omega), BitVec.getLsbD_append, if_neg (by omega), BitVec.getLsbD_append, if_neg (by omega), BitVec.getLsbD_append, if_neg (by omega), BitVec.getLsbD_append, if_neg (by omega), BitVec.getLsbD_append, if_neg (by omega), BitVec.getLsbD_append, if_pos (by omega)]
  congr 1; omega
theorem Fields.word_g1 (f : Fields) (op : BitVec 10) : (f.word op).extractLsb' 80 5 = f.g1 := by
  refine f.word_field op 80 f.g1 (by omega) fun i h k => ?_
  rw [BitVec.getLsbD_append, if_neg (by omega), BitVec.getLsbD_append, if_neg (by omega), BitVec.getLsbD_append, if_neg (by omega), BitVec.getLsbD_append, if_neg (by omega), BitVec.getLsbD_append, if_neg (by omega), BitVec.getLsbD_append, if_neg (by omega), BitVec.getLsbD_append, if_neg (by omega), BitVec.getLsbD_append, if_neg (by omega), BitVec.getLsbD_append, if_neg (by omega), BitVec.getLsbD_append, if_neg (by omega), BitVec.getLsbD_append, if_neg (by omega), BitVec.getLsbD_append, if_pos (by omega)]
  congr 1; omega
theorem Fields.word_g2 (f : Fields) (op : BitVec 10) : (f.word op).extractLsb' 85 5 = f.g2 := by
  refine f.word_field op 85 f.g2 (by omega) fun i h k => ?_
  rw [BitVec.getLsbD_append, if_neg (by omega), BitVec.getLsbD_append, if_neg (by omega), BitVec.getLsbD_append, if_neg (by omega), BitVec.getLsbD_append, if_neg (by omega), BitVec.getLsbD_append, if_neg (by omega), BitVec.getLsbD_append, if_neg (by omega), BitVec.getLsbD_append, if_neg (by omega), BitVec.getLsbD_append, if_neg (by omega), BitVec.getLsbD_append, if_neg (by omega), BitVec.getLsbD_append, if_neg (by omega), BitVec.getLsbD_append, if_neg (by omega), BitVec.getLsbD_append, if_neg (by omega), BitVec.getLsbD_append, if_pos (by omega)]
  congr 1; omega
theorem Fields.word_gcomb (f : Fields) (op : BitVec 10) : (f.word op).extractLsb' 90 1 = f.gcomb := by
  refine f.word_field op 90 f.gcomb (by omega) fun i h k => ?_
  rw [BitVec.getLsbD_append, if_neg (by omega), BitVec.getLsbD_append, if_neg (by omega), BitVec.getLsbD_append, if_neg (by omega), BitVec.getLsbD_append, if_neg (by omega), BitVec.getLsbD_append, if_neg (by omega), BitVec.getLsbD_append, if_neg (by omega), BitVec.getLsbD_append, if_neg (by omega), BitVec.getLsbD_append, if_neg (by omega), BitVec.getLsbD_append, if_neg (by omega), BitVec.getLsbD_append, if_neg (by omega), BitVec.getLsbD_append, if_neg (by omega), BitVec.getLsbD_append, if_neg (by omega), BitVec.getLsbD_append, if_neg (by omega), BitVec.getLsbD_append, if_pos (by omega)]
  congr 1; omega
theorem Fields.word_hint (f : Fields) (op : BitVec 10) : (f.word op).extractLsb' 91 4 = f.hint := by
  refine f.word_field op 91 f.hint (by omega) fun i h k => ?_
  rw [BitVec.getLsbD_append, if_neg (by omega), BitVec.getLsbD_append, if_neg (by omega), BitVec.getLsbD_append, if_neg (by omega), BitVec.getLsbD_append, if_neg (by omega), BitVec.getLsbD_append, if_neg (by omega), BitVec.getLsbD_append, if_neg (by omega), BitVec.getLsbD_append, if_neg (by omega), BitVec.getLsbD_append, if_neg (by omega), BitVec.getLsbD_append, if_neg (by omega), BitVec.getLsbD_append, if_neg (by omega), BitVec.getLsbD_append, if_neg (by omega), BitVec.getLsbD_append, if_neg (by omega), BitVec.getLsbD_append, if_neg (by omega), BitVec.getLsbD_append, if_neg (by omega), BitVec.getLsbD_append, if_pos (by omega)]
  congr 1; omega
theorem Fields.word_yield (f : Fields) (op : BitVec 10) : (f.word op).extractLsb' 95 1 = f.yield := by
  refine f.word_field op 95 f.yield (by omega) fun i h k => ?_
  rw [BitVec.getLsbD_append, if_neg (by omega), BitVec.getLsbD_append, if_neg (by omega), BitVec.getLsbD_append, if_neg (by omega), BitVec.getLsbD_append, if_neg (by omega), BitVec.getLsbD_append, if_neg (by omega), BitVec.getLsbD_append, if_neg (by omega), BitVec.getLsbD_append, if_neg (by omega), BitVec.getLsbD_append, if_neg (by omega), BitVec.getLsbD_append, if_neg (by omega), BitVec.getLsbD_append, if_neg (by omega), BitVec.getLsbD_append, if_neg (by omega), BitVec.getLsbD_append, if_neg (by omega), BitVec.getLsbD_append, if_neg (by omega), BitVec.getLsbD_append, if_neg (by omega), BitVec.getLsbD_append, if_neg (by omega)]
  congr 1; omega

theorem Fields.word_kind (f : Fields) (op : BitVec 10) :
    (f.word op).extractLsb' 0 2 = if f.immForm then 2#2 else 0#2 := by
  apply BitVec.eq_of_getLsbD_eq
  intro i hi
  rw [BitVec.getLsbD_extractLsb']
  simp only [hi, decide_true, Bool.true_and]
  cases hf : f.immForm
  · rw [Fields.word_reg f op hf, BitVec.getLsbD_append, if_pos (by omega), BitVec.getLsbD_append, if_pos (by omega)]
    simp
  · rw [Fields.word_imm f op hf, BitVec.getLsbD_append, if_pos (by omega), BitVec.getLsbD_append, if_pos (by omega)]
    simp

theorem Fields.word_bit_one (f : Fields) (op : BitVec 10) : (f.word op).getLsbD 1 = f.immForm := by
  have h := congrArg (fun x : BitVec 2 => x.getLsbD 1) (f.word_kind op)
  simp only [BitVec.getLsbD_extractLsb'] at h
  cases hf : f.immForm <;> simp_all

theorem Fields.word_imm32 (f : Fields) (op : BitVec 10) (hf : f.immForm = true) :
    (f.word op).extractLsb' 96 32 = f.imm32 := by
  apply BitVec.eq_of_getLsbD_eq
  intro i hi
  rw [BitVec.getLsbD_extractLsb']
  simp only [hi, decide_true, Bool.true_and]
  rw [Fields.word_imm f op hf, BitVec.getLsbD_append, if_neg (by omega)]
  congr 1; omega

/-- Bits of the upper 32 in the register form. -/
theorem Fields.word_upper (f : Fields) (op : BitVec 10) (hf : f.immForm = false) {n : Nat} (p : Nat) (x : BitVec n)
    (h : ∀ i, i < n → BitVec.getLsbD (f.off25 ++ f.reuse ++ f.stall) (p + i) = x.getLsbD i) :
    (f.word op).extractLsb' (96 + p) n = x := by
  apply BitVec.eq_of_getLsbD_eq
  intro i hi
  rw [BitVec.getLsbD_extractLsb']
  simp only [hi, decide_true, Bool.true_and]
  rw [Fields.word_reg f op hf, BitVec.getLsbD_append, if_neg (by omega), ← h i hi]
  congr 1; omega

theorem Fields.word_stall (f : Fields) (op : BitVec 10) (hf : f.immForm = false) :
    (f.word op).extractLsb' 96 3 = f.stall := by
  refine f.word_upper op hf 0 f.stall fun i h => ?_
  rw [BitVec.getLsbD_append, if_pos (by omega)]
  congr 1; omega
theorem Fields.word_reuse (f : Fields) (op : BitVec 10) (hf : f.immForm = false) :
    (f.word op).extractLsb' 99 4 = f.reuse := by
  refine f.word_upper op hf 3 f.reuse fun i h => ?_
  rw [BitVec.getLsbD_append, if_neg (by omega), BitVec.getLsbD_append, if_pos (by omega)]
  congr 1; omega
theorem Fields.word_off25 (f : Fields) (op : BitVec 10) (hf : f.immForm = false) :
    (f.word op).extractLsb' 103 25 = f.off25 := by
  refine f.word_upper op hf 7 f.off25 fun i h => ?_
  rw [BitVec.getLsbD_append, if_neg (by omega), BitVec.getLsbD_append, if_neg (by omega)]
  congr 1; omega

/-- The fields that one form of a word does not hold are 0 (R41). -/
def Fields.canonical (f : Fields) : Prop :=
  if f.immForm then f.off25 = 0 ∧ f.reuse = 0 ∧ f.stall = 0 else f.imm32 = 0

theorem opField_word (f : Fields) (op : BitVec 10) : opField (f.word op) = op.toNat := by
  rw [opField, f.word_op]

theorem fieldsOf_word (f : Fields) (op : BitVec 10) (h : f.canonical) : fieldsOf (f.word op) = f := by
  simp only [fieldsOf, f.word_bit_one, f.word_yield, f.word_hint, f.word_gcomb, f.word_g2, f.word_g1, f.word_selC,
    f.word_selB, f.word_selA, f.word_e, f.word_c, f.word_b, f.word_a, f.word_d, f.word_mod]
  unfold Fields.canonical at h
  cases hf : f.immForm
  · rw [f.word_off25 op hf, f.word_reuse op hf, f.word_stall op hf]
    simp only [hf, Bool.false_eq_true, if_false] at h
    cases f; simp_all
  · rw [f.word_imm32 op hf]
    simp only [hf, if_true] at h
    cases f; simp_all

/-- The decoder on a full-form word. -/
theorem decode_word (f : Fields) (op : BitVec 10) (h : f.canonical) :
    decode (f.word op) = match opMap op.toNat f with
      | none => .reject (.unassigned op.toNat)
      | some i => if i.legal then .ok i else .reject (.field op.toNat) := by
  unfold decode
  rw [f.word_kind, opField_word, fieldsOf_word f op h]
  cases f.immForm <;> rfl

/-- A legal word's fields are canonical (R41, R62). -/
theorem Shape.legal_canonical {s : Shape} {f : Fields} (h : s.legal f = true) : f.canonical := by
  simp only [Shape.legal, Bool.and_eq_true, Bool.or_eq_true, Bool.not_eq_true', decide_eq_true_eq] at h
  unfold Fields.canonical
  cases hf : f.immForm <;> simp_all

theorem shapeOk_canonical {i : Instr} {f : Fields} {s : Shape} (h : i.shapeOk = true) (hs : i.shape = some (f, s)) :
    f.canonical := by
  rw [Instr.shapeOk, hs] at h
  exact Shape.legal_canonical h

theorem Shape.legal_extra {s : Shape} {f : Fields} (h : s.legal f = true) : s.extra = true := by
  simp only [Shape.legal, Bool.and_eq_true] at h
  exact h.2

/-- A legal full-form instruction decodes from its own word. -/
theorem decode_of_shape {i : Instr} {op : BitVec 10} {f : Fields} {s : Shape} (h : i.legal = true)
    (hl : i.legal = i.shapeOk) (hs : i.shape = some (f, s)) (hm : opMap op.toNat f = some i) :
    decode (f.word op) = .ok i := by
  rw [decode_word f op (shapeOk_canonical (hl ▸ h) hs), hm]
  simp [h]

/-! ## The pair form -/

theorem pair_kind (y x : BitVec 63) : (y ++ x ++ 1#2 : BitVec (63 + 63 + 2)).extractLsb' 0 2 = 1#2 := by
  apply BitVec.eq_of_getLsbD_eq
  intro i hi
  rw [BitVec.getLsbD_extractLsb', BitVec.getLsbD_append, if_pos (by omega)]
  simp [hi]
theorem pair_low (y x : BitVec 63) : (y ++ x ++ 1#2 : BitVec (63 + 63 + 2)).extractLsb' 2 63 = x := by
  apply BitVec.eq_of_getLsbD_eq
  intro i hi
  rw [BitVec.getLsbD_extractLsb', BitVec.getLsbD_append, if_neg (by omega), BitVec.getLsbD_append, if_pos (by omega)]
  simp only [hi, decide_true, Bool.true_and]; congr 1; omega
theorem pair_high (y x : BitVec 63) : (y ++ x ++ 1#2 : BitVec (63 + 63 + 2)).extractLsb' 65 63 = y := by
  apply BitVec.eq_of_getLsbD_eq
  intro i hi
  rw [BitVec.getLsbD_extractLsb', BitVec.getLsbD_append, if_neg (by omega), BitVec.getLsbD_append, if_neg (by omega)]
  simp only [hi, decide_true, Bool.true_and]; congr 1; omega

/-- Bits of a half that stand in one field. -/
theorem Half.bits_field (h : Half) {n : Nat} (p : Nat) (x : BitVec n)
    (hx : ∀ i, i < n → BitVec.getLsbD (h.imm24 ++ h.g ++ h.asel ++ h.a ++ h.d ++ h.hmod ++ h.hop) (p + i) = x.getLsbD i) :
    h.bits.extractLsb' p n = x := by
  apply BitVec.eq_of_getLsbD_eq
  intro i hi
  rw [BitVec.getLsbD_extractLsb']
  simp only [hi, decide_true, Bool.true_and]
  exact hx i hi

theorem Half.bits_hop (h : Half) : h.bits.extractLsb' 0 7 = h.hop := by
  refine h.bits_field 0 h.hop fun i hi => ?_
  rw [BitVec.getLsbD_append, if_pos (by omega)]
  congr 1; omega
theorem Half.bits_hmod (h : Half) : h.bits.extractLsb' 7 5 = h.hmod := by
  refine h.bits_field 7 h.hmod fun i hi => ?_
  rw [BitVec.getLsbD_append, if_neg (by omega), BitVec.getLsbD_append, if_pos (by omega)]
  congr 1; omega
theorem Half.bits_d (h : Half) : h.bits.extractLsb' 12 10 = h.d := by
  refine h.bits_field 12 h.d fun i hi => ?_
  rw [BitVec.getLsbD_append, if_neg (by omega), BitVec.getLsbD_append, if_neg (by omega), BitVec.getLsbD_append, if_pos (by omega)]
  congr 1; omega
theorem Half.bits_a (h : Half) : h.bits.extractLsb' 22 10 = h.a := by
  refine h.bits_field 22 h.a fun i hi => ?_
  rw [BitVec.getLsbD_append, if_neg (by omega), BitVec.getLsbD_append, if_neg (by omega), BitVec.getLsbD_append, if_neg (by omega), BitVec.getLsbD_append, if_pos (by omega)]
  congr 1; omega
theorem Half.bits_asel (h : Half) : h.bits.extractLsb' 32 2 = h.asel := by
  refine h.bits_field 32 h.asel fun i hi => ?_
  rw [BitVec.getLsbD_append, if_neg (by omega), BitVec.getLsbD_append, if_neg (by omega), BitVec.getLsbD_append, if_neg (by omega), BitVec.getLsbD_append, if_neg (by omega), BitVec.getLsbD_append, if_pos (by omega)]
  congr 1; omega
theorem Half.bits_g (h : Half) : h.bits.extractLsb' 34 5 = h.g := by
  refine h.bits_field 34 h.g fun i hi => ?_
  rw [BitVec.getLsbD_append, if_neg (by omega), BitVec.getLsbD_append, if_neg (by omega), BitVec.getLsbD_append, if_neg (by omega), BitVec.getLsbD_append, if_neg (by omega), BitVec.getLsbD_append, if_neg (by omega), BitVec.getLsbD_append, if_pos (by omega)]
  congr 1; omega
theorem Half.bits_imm24 (h : Half) : h.bits.extractLsb' 39 24 = h.imm24 := by
  refine h.bits_field 39 h.imm24 fun i hi => ?_
  rw [BitVec.getLsbD_append, if_neg (by omega), BitVec.getLsbD_append, if_neg (by omega), BitVec.getLsbD_append, if_neg (by omega), BitVec.getLsbD_append, if_neg (by omega), BitVec.getLsbD_append, if_neg (by omega), BitVec.getLsbD_append, if_neg (by omega)]
  congr 1; omega

theorem halfOf_bits (h : Half) : halfOf h.bits = h := by
  simp only [halfOf, h.bits_hop, h.bits_hmod, h.bits_d, h.bits_a, h.bits_asel, h.bits_g, h.bits_imm24]

theorem decode_pair (x y : Half) (h : pairOk x y = true) :
    decode (y.bits ++ x.bits ++ 1#2) = .ok (.pairWord x y) := by
  have k : (y.bits ++ x.bits ++ 1#2 : W128).extractLsb' 0 2 = 1#2 := pair_kind _ _
  have l : (y.bits ++ x.bits ++ 1#2 : W128).extractLsb' 2 63 = x.bits := pair_low _ _
  have u : (y.bits ++ x.bits ++ 1#2 : W128).extractLsb' 65 63 = y.bits := pair_high _ _
  unfold decode
  rw [k, l, u, halfOf_bits, halfOf_bits]
  have hl : (Instr.pairWord x y).legal = true := h
  simp [hl]

/-! ## A word from its fields -/

theorem bit_of_extract {m : Nat} {u w : BitVec m} {p n : Nat} (h : u.extractLsb' p n = w.extractLsb' p n) {i : Nat}
    (h1 : p ≤ i) (h2 : i < p + n) : u.getLsbD i = w.getLsbD i := by
  have e := congrArg (fun x : BitVec n => x.getLsbD (i - p)) h
  simp only [BitVec.getLsbD_extractLsb', show i - p < n by omega, decide_true, Bool.true_and,
    show p + (i - p) = i by omega] at e
  exact e

theorem kind_bit_one (w : W128) : w.getLsbD 1 = (w.extractLsb' 0 2).getLsbD 1 := by
  simp

/-- A full-form word is the word of its own fields. -/
theorem word_fieldsOf (w : W128) (h : w.extractLsb' 0 2 = 0#2 ∨ w.extractLsb' 0 2 = 2#2) :
    (fieldsOf w).word (w.extractLsb' 2 10) = w := by
  have hk : ((fieldsOf w).word (w.extractLsb' 2 10)).extractLsb' 0 2 = w.extractLsb' 0 2 := by
    rw [Fields.word_kind]
    show (if w.getLsbD 1 = true then 2#2 else 0#2) = _
    rw [kind_bit_one]
    rcases h with h | h <;> rw [h] <;> rfl
  apply BitVec.eq_of_getLsbD_eq
  intro i hi
  by_cases c0 : i < 2
  · exact bit_of_extract hk (by omega) (by omega)
  by_cases c1 : i < 12
  · exact bit_of_extract (Fields.word_op _ _) (by omega) (by omega)
  by_cases c2 : i < 24
  · exact bit_of_extract (Fields.word_mod (fieldsOf w) _) (by omega) (by omega)
  by_cases c3 : i < 34
  · exact bit_of_extract (Fields.word_d (fieldsOf w) _) (by omega) (by omega)
  by_cases c4 : i < 44
  · exact bit_of_extract (Fields.word_a (fieldsOf w) _) (by omega) (by omega)
  by_cases c5 : i < 54
  · exact bit_of_extract (Fields.word_b (fieldsOf w) _) (by omega) (by omega)
  by_cases c6 : i < 64
  · exact bit_of_extract (Fields.word_c (fieldsOf w) _) (by omega) (by omega)
  by_cases c7 : i < 74
  · exact bit_of_extract (Fields.word_e (fieldsOf w) _) (by omega) (by omega)
  by_cases c8 : i < 76
  · exact bit_of_extract (Fields.word_selA (fieldsOf w) _) (by omega) (by omega)
  by_cases c9 : i < 78
  · exact bit_of_extract (Fields.word_selB (fieldsOf w) _) (by omega) (by omega)
  by_cases c10 : i < 80
  · exact bit_of_extract (Fields.word_selC (fieldsOf w) _) (by omega) (by omega)
  by_cases c11 : i < 85
  · exact bit_of_extract (Fields.word_g1 (fieldsOf w) _) (by omega) (by omega)
  by_cases c12 : i < 90
  · exact bit_of_extract (Fields.word_g2 (fieldsOf w) _) (by omega) (by omega)
  by_cases c13 : i < 91
  · exact bit_of_extract (Fields.word_gcomb (fieldsOf w) _) (by omega) (by omega)
  by_cases c14 : i < 95
  · exact bit_of_extract (Fields.word_hint (fieldsOf w) _) (by omega) (by omega)
  by_cases c15 : i < 96
  · exact bit_of_extract (Fields.word_yield (fieldsOf w) _) (by omega) (by omega)
  cases hf : w.getLsbD 1
  · have r : (fieldsOf w).immForm = false := hf
    by_cases d0 : i < 99
    · refine bit_of_extract ((Fields.word_stall (fieldsOf w) _ r).trans ?_) (p := 96) (n := 3) (by omega) (by omega)
      simp only [fieldsOf, hf, Bool.false_eq_true, if_false]
    by_cases d1 : i < 103
    · refine bit_of_extract ((Fields.word_reuse (fieldsOf w) _ r).trans ?_) (p := 99) (n := 4) (by omega) (by omega)
      simp only [fieldsOf, hf, Bool.false_eq_true, if_false]
    · refine bit_of_extract ((Fields.word_off25 (fieldsOf w) _ r).trans ?_) (p := 103) (n := 25) (by omega) (by omega)
      simp only [fieldsOf, hf, Bool.false_eq_true, if_false]
  · have r : (fieldsOf w).immForm = true := hf
    refine bit_of_extract ((Fields.word_imm32 (fieldsOf w) _ r).trans ?_) (p := 96) (n := 32) (by omega) (by omega)
    simp only [fieldsOf, hf, if_true]

/-- A half is the half of its own fields. -/
theorem bits_halfOf (x : BitVec 63) : (halfOf x).bits = x := by
  apply BitVec.eq_of_getLsbD_eq
  intro i hi
  by_cases c0 : i < 7
  · exact bit_of_extract (Half.bits_hop (halfOf x)) (by omega) (by omega)
  by_cases c1 : i < 12
  · exact bit_of_extract (Half.bits_hmod (halfOf x)) (by omega) (by omega)
  by_cases c2 : i < 22
  · exact bit_of_extract (Half.bits_d (halfOf x)) (by omega) (by omega)
  by_cases c3 : i < 32
  · exact bit_of_extract (Half.bits_a (halfOf x)) (by omega) (by omega)
  by_cases c4 : i < 34
  · exact bit_of_extract (Half.bits_asel (halfOf x)) (by omega) (by omega)
  by_cases c5 : i < 39
  · exact bit_of_extract (Half.bits_g (halfOf x)) (by omega) (by omega)
  exact bit_of_extract (Half.bits_imm24 (halfOf x)) (by omega) (by omega)

/-- A pair-form word is the word of its halves. -/
theorem pair_word (w : W128) (h : w.extractLsb' 0 2 = 1#2) :
    (w.extractLsb' 65 63 ++ w.extractLsb' 2 63 ++ 1#2 : W128) = w := by
  apply BitVec.eq_of_getLsbD_eq
  intro i hi
  by_cases c0 : i < 2
  · exact bit_of_extract ((pair_kind (w.extractLsb' 65 63) (w.extractLsb' 2 63)).trans h.symm) (by omega) (by omega)
  by_cases c1 : i < 65
  · exact bit_of_extract (pair_low (w.extractLsb' 65 63) (w.extractLsb' 2 63)) (by omega) (by omega)
  · exact bit_of_extract (pair_high (w.extractLsb' 65 63) (w.extractLsb' 2 63)) (by omega) (by omega)

/-- What the opcode map gives has that OP and those fields. -/
theorem opMap_opFields {op : Nat} {f : Fields} {i : Instr} (h : opMap op f = some i) :
    i.opFields = some (BitVec.ofNat 10 op, f) := by
  unfold opMap at h
  split at h <;> first | cases h; rfl | skip
  all_goals first | (split at h <;> cases h <;> rfl) | cases h

end Sys2Proof
end

