-- ==== Sys2Proof/Laws/Tables.lean ====
section
/-! SUPPORT. Sparse arrays and tables of objects by number: what a write leaves to be read, and that the canonical form is
kept. -/

namespace Sys2Proof.Machine

/-! ## Tables by number -/

section
variable {α : Type} (key : α → Nat)

@[simp] theorem findBy_putBy (x : α) (l : List α) : findBy key (key x) (putBy key x l) = some x := by
  induction l with
  | nil => simp [putBy, findBy]
  | cons y r ih =>
    unfold putBy
    split
    · simp [findBy]
    · split
      · simp [findBy]
      · rename_i _ h
        simp [findBy, Ne.symm h, ih]

theorem findBy_putBy_ne (x : α) (l : List α) (k : Nat) (h : k ≠ key x) :
    findBy key k (putBy key x l) = findBy key k l := by
  induction l with
  | nil => simp [putBy, findBy, Ne.symm h]
  | cons y r ih =>
    unfold putBy
    split
    · simp [findBy, Ne.symm h]
    · split
      · rename_i _ e
        simp [findBy, Ne.symm h, e ▸ Ne.symm h]
      · simp [findBy, ih]

theorem putBy_putBy (x y : α) (l : List α) (h : key x = key y) : putBy key y (putBy key x l) = putBy key y l := by
  induction l with
  | nil => simp [putBy, h]
  | cons z r ih =>
    by_cases h1 : key x < key z
    · simp [putBy, h ▸ h1, h]
    · by_cases h2 : key x = key z
      · simp [putBy, ← h2, h]
      · simp [putBy, h1, h2, h ▸ h1, h ▸ h2, ih]

theorem findBy_key {k : Nat} {l : List α} {x : α} (h : findBy key k l = some x) : key x = k := by
  induction l with
  | nil => cases h
  | cons y r ih =>
    unfold findBy at h
    split at h
    · cases h; assumption
    · exact ih h
end

/-! ## Sparse arrays -/

section
variable {w : Nat}

theorem sget_sput (m : SMap w) (k : Nat) (v : BitVec w) : sget (sput m k v) k = v := by
  induction m with
  | nil => simp [sput, sget]
  | cons p r ih =>
    obtain ⟨j, x⟩ := p
    unfold sput
    split
    · simp [sget]
    · split
      · simp [sget]
      · rename_i _ h
        simp [sget, Ne.symm h, ih]

theorem sget_sput_ne (m : SMap w) {k k' : Nat} (v : BitVec w) (h : k' ≠ k) : sget (sput m k v) k' = sget m k' := by
  induction m with
  | nil => simp [sput, sget, Ne.symm h]
  | cons p r ih =>
    obtain ⟨j, x⟩ := p
    unfold sput
    split
    · simp [sget, Ne.symm h]
    · split
      · rename_i _ e
        subst e
        simp [sget, Ne.symm h]
      · simp [sget, ih]

theorem sget_filter (m : SMap w) (k : Nat) : sget (m.filter fun p => p.1 != k) k = 0 := by
  induction m with
  | nil => rfl
  | cons p r ih =>
    obtain ⟨j, x⟩ := p
    by_cases h : j = k
    · rw [List.filter_cons_of_neg (by simp [h])]; exact ih
    · rw [List.filter_cons_of_pos (by simp [h])]; simp [sget, h, ih]

theorem sget_filter_ne (m : SMap w) {k k' : Nat} (h : k' ≠ k) : sget (m.filter fun p => p.1 != k) k' = sget m k' := by
  induction m with
  | nil => rfl
  | cons p r ih =>
    obtain ⟨j, x⟩ := p
    by_cases e : j = k
    · subst e
      rw [List.filter_cons_of_neg (by simp), ih]; simp [sget, Ne.symm h]
    · rw [List.filter_cons_of_pos (by simp [e])]; simp [sget, ih]

/-- A read after a write to the same place gives the value written. -/
@[simp] theorem sget_sset (m : SMap w) (k : Nat) (v : BitVec w) : sget (sset m k v) k = v := by
  unfold sset
  split
  · rename_i h; rw [sget_filter, h]
  · exact sget_sput m k v

/-- A write leaves every other place alone. -/
theorem sget_sset_ne (m : SMap w) {k k' : Nat} (v : BitVec w) (h : k' ≠ k) : sget (sset m k v) k' = sget m k' := by
  unfold sset
  split
  · exact sget_filter_ne m h
  · exact sget_sput_ne m v h

theorem sget_sset_eq (m : SMap w) (k k' : Nat) (v : BitVec w) :
    sget (sset m k v) k' = if k' = k then v else sget m k' := by
  split
  · rename_i h; rw [h, sget_sset]
  · rename_i h; exact sget_sset_ne m v h

/-! ## The canonical form -/

theorem swfFrom_mono {m : SMap w} {a b : Nat} (h : swfFrom b m = true) (hab : a ≤ b) : swfFrom a m = true := by
  cases m with
  | nil => rfl
  | cons p r =>
    obtain ⟨j, x⟩ := p
    simp only [swfFrom, Bool.and_eq_true, decide_eq_true_eq] at h ⊢
    exact ⟨⟨by omega, h.1.2⟩, h.2⟩

theorem swfFrom_sput {m : SMap w} {lo k : Nat} {v : BitVec w} (h : swfFrom lo m = true) (hk : lo ≤ k) (hv : v ≠ 0) :
    swfFrom lo (sput m k v) = true := by
  induction m generalizing lo with
  | nil => simp only [sput, swfFrom, Bool.and_eq_true, decide_eq_true_eq]; exact ⟨⟨hk, by simpa using hv⟩, trivial⟩
  | cons p r ih =>
    obtain ⟨j, x⟩ := p
    simp only [swfFrom, Bool.and_eq_true, decide_eq_true_eq] at h
    unfold sput
    split
    · rename_i c
      simp only [swfFrom, Bool.and_eq_true, decide_eq_true_eq]
      exact ⟨⟨hk, by simpa using hv⟩, ⟨by omega, h.1.2⟩, h.2⟩
    · split
      · rename_i c e
        subst e
        simp only [swfFrom, Bool.and_eq_true, decide_eq_true_eq]
        exact ⟨⟨hk, by simpa using hv⟩, h.2⟩
      · rename_i c e
        simp only [swfFrom, Bool.and_eq_true, decide_eq_true_eq]
        exact ⟨h.1, ih h.2 (by omega)⟩

theorem swfFrom_filter {m : SMap w} {lo : Nat} (f : Nat × BitVec w → Bool) (h : swfFrom lo m = true) :
    swfFrom lo (m.filter f) = true := by
  induction m generalizing lo with
  | nil => rfl
  | cons p r ih =>
    obtain ⟨j, x⟩ := p
    simp only [swfFrom, Bool.and_eq_true, decide_eq_true_eq] at h
    have hr := ih h.2
    simp only [List.filter]
    split
    · simp only [swfFrom, Bool.and_eq_true, decide_eq_true_eq]
      exact ⟨h.1, hr⟩
    · exact swfFrom_mono hr (by omega)

/-- A write keeps the canonical form. -/
theorem swf_sset {m : SMap w} (k : Nat) (v : BitVec w) (h : swf m = true) : swf (sset m k v) = true := by
  unfold sset
  split
  · exact swfFrom_filter _ h
  · rename_i hv; exact swfFrom_sput h (Nat.zero_le k) hv

/-- A key below every listed one reads 0. -/
theorem sget_low {m : SMap w} {lo k : Nat} (h : swfFrom lo m = true) (hk : k < lo) : sget m k = 0 := by
  induction m generalizing lo with
  | nil => rfl
  | cons p r ih =>
    obtain ⟨j, x⟩ := p
    simp only [swfFrom, Bool.and_eq_true, decide_eq_true_eq] at h
    rw [sget, if_neg (by omega)]
    exact ih h.2 (by omega)

/-- Canonical arrays that read alike are equal. -/
theorem swfFrom_ext {m n : SMap w} {lo : Nat} (hm : swfFrom lo m = true) (hn : swfFrom lo n = true)
    (h : ∀ k, sget m k = sget n k) : m = n := by
  induction m generalizing n lo with
  | nil =>
    cases n with
    | nil => rfl
    | cons q r =>
      obtain ⟨j, y⟩ := q
      simp only [swfFrom, Bool.and_eq_true, decide_eq_true_eq] at hn
      have := h j
      simp only [sget, if_true] at this
      have := hn.1.2
      simp_all
  | cons p r ih =>
    obtain ⟨j, x⟩ := p
    simp only [swfFrom, Bool.and_eq_true, decide_eq_true_eq] at hm
    cases n with
    | nil =>
      have := h j
      simp only [sget, if_true] at this
      have := hm.1.2
      simp_all
    | cons q t =>
      obtain ⟨i, y⟩ := q
      simp only [swfFrom, Bool.and_eq_true, decide_eq_true_eq] at hn
      have e : j = i := by
        rcases Nat.lt_trichotomy j i with c | c | c
        · have a := h j
          rw [sget, if_pos rfl, sget, if_neg (by omega), sget_low hn.2 (by omega)] at a
          have := hm.1.2; simp_all
        · exact c
        · have a := h i
          rw [sget, if_neg (by omega), sget_low hm.2 (by omega), sget, if_pos rfl] at a
          have := hn.1.2; simp_all
      subst e
      have e : x = y := by have a := h j; simpa [sget] using a
      subst e
      congr 1
      refine ih hm.2 hn.2 fun k => ?_
      by_cases c : j = k
      · subst c; rw [sget_low hm.2 (by omega), sget_low hn.2 (by omega)]
      · have a := h k; simpa [sget, c] using a

theorem swf_ext {m n : SMap w} (hm : swf m = true) (hn : swf n = true) (h : ∀ k, sget m k = sget n k) : m = n :=
  swfFrom_ext hm hn h
end

/-! ## Bytes of memory -/

theorem sget_writeBytes (m : Memory) (a : Nat) (bs : List Byte) (k : Nat) :
    sget (writeBytes m a bs) k = if a ≤ k ∧ k < a + bs.length then bs.getD (k - a) 0 else sget m k := by
  induction bs generalizing m a with
  | nil => rw [List.length_nil, if_neg (by omega)]; rfl
  | cons b r ih =>
    rw [writeBytes, ih, sget_sset_eq]
    by_cases h : k = a
    · subst h; rw [if_neg (by omega), if_pos rfl, if_pos (by simp)]; simp
    · by_cases h2 : a + 1 ≤ k ∧ k < a + 1 + r.length
      · rw [if_pos h2, if_pos (by simp; omega)]
        have : k - a = (k - (a + 1)) + 1 := by omega
        rw [this]; rfl
      · rw [if_neg h2, if_neg h, if_neg (by simp; omega)]

/-- Every write to memory keeps the canonical form. -/
theorem wf_writeBytes {m : Memory} (a : Nat) (bs : List Byte) (h : m.wf = true) : (writeBytes m a bs).wf = true := by
  induction bs generalizing m a with
  | nil => exact h
  | cons b r ih => exact ih (a + 1) (swf_sset a b h)

theorem wf_writeNat {m : Memory} (a n x : Nat) (h : m.wf = true) : (writeNat m a n x).wf = true := wf_writeBytes a _ h

@[simp] theorem readBytes_length (m : Memory) (a n : Nat) : (readBytes m a n).length = n := by
  induction n generalizing a with
  | zero => rfl
  | succ n ih => simp [readBytes, ih]

/-- What was written is what is read. -/
theorem readBytes_writeBytes (m : Memory) (a : Nat) (bs : List Byte) :
    readBytes (writeBytes m a bs) a bs.length = bs := by
  induction bs generalizing m a with
  | nil => rfl
  | cons b r ih =>
    show sget (writeBytes (sset m a b) (a + 1) r) a :: readBytes (writeBytes (sset m a b) (a + 1) r) (a + 1) r.length = b :: r
    rw [ih, sget_writeBytes, if_neg (by omega), sget_sset]

theorem leBytes_length (n x : Nat) : (leBytes n x).length = n := by
  induction n generalizing x with
  | zero => rfl
  | succ n ih => simp [leBytes, ih]

/-- Numbers come back from their bytes (R3). -/
theorem leNat_leBytes (n x : Nat) : leNat (leBytes n x) = x % 256 ^ n := by
  induction n generalizing x with
  | zero => simp [leBytes, leNat, Nat.mod_one]
  | succ n ih =>
    have : (BitVec.ofNat 8 x).toNat = x % 256 := by simp
    rw [leBytes, leNat, ih, this, Nat.pow_succ, Nat.mul_comm (256 ^ n) 256, Nat.mod_mul]

theorem readNat_writeNat (m : Memory) (a n x : Nat) : readNat (writeNat m a n x) a n = x % 256 ^ n := by
  unfold readNat writeNat
  have h := readBytes_writeBytes m a (leBytes n x)
  rw [leBytes_length] at h
  rw [h, leNat_leBytes]

end Sys2Proof.Machine
end

