-- ==== Sys2Proof/Laws/State.lean ====
section
/-! SUPPORT. One lemma for each field of the state and each operation that puts one object into it. -/

namespace Sys2Proof.Machine

@[simp] theorem setCore_stage (s : State) (c : Core) : (setCore s c).stage = s.stage := rfl
@[simp] theorem setCore_err (s : State) (c : Core) : (setCore s c).err = s.err := rfl
@[simp] theorem setCore_errdie (s : State) (c : Core) : (setCore s c).errdie = s.errdie := rfl
@[simp] theorem setCore_cecnt (s : State) (c : Core) : (setCore s c).cecnt = s.cecnt := rfl
@[simp] theorem setCore_tempmax (s : State) (c : Core) : (setCore s c).tempmax = s.tempmax := rfl
@[simp] theorem setCore_dies (s : State) (c : Core) : (setCore s c).dies = s.dies := rfl
@[simp] theorem setCore_overRuns (s : State) (c : Core) : (setCore s c).overRuns = s.overRuns := rfl
@[simp] theorem setCore_trained (s : State) (c : Core) : (setCore s c).trained = s.trained := rfl
@[simp] theorem setCore_now (s : State) (c : Core) : (setCore s c).now = s.now := rfl
@[simp] theorem setCore_binding (s : State) (c : Core) : (setCore s c).binding = s.binding := rfl
@[simp] theorem setCore_mem (s : State) (c : Core) : (setCore s c).mem = s.mem := rfl
@[simp] theorem setCore_hostMem (s : State) (c : Core) : (setCore s c).hostMem = s.hostMem := rfl
@[simp] theorem setCore_poison (s : State) (c : Core) : (setCore s c).poison = s.poison := rfl
@[simp] theorem setCore_hostPoison (s : State) (c : Core) : (setCore s c).hostPoison = s.hostPoison := rfl
@[simp] theorem setCore_ws (s : State) (c : Core) : (setCore s c).ws = s.ws := rfl
@[simp] theorem setCore_le (s : State) (c : Core) : (setCore s c).le = s.le := rfl
@[simp] theorem setCore_hostWs (s : State) (c : Core) : (setCore s c).hostWs = s.hostWs := rfl
@[simp] theorem setCore_hostLe (s : State) (c : Core) : (setCore s c).hostLe = s.hostLe := rfl
@[simp] theorem setCore_devClk (s : State) (c : Core) : (setCore s c).devClk = s.devClk := rfl
@[simp] theorem setCore_hostLines (s : State) (c : Core) : (setCore s c).hostLines = s.hostLines := rfl
@[simp] theorem setCore_rdc (s : State) (c : Core) : (setCore s c).rdc = s.rdc := rfl
@[simp] theorem setCore_tlb (s : State) (c : Core) : (setCore s c).tlb = s.tlb := rfl
@[simp] theorem setCore_walkCache (s : State) (c : Core) : (setCore s c).walkCache = s.walkCache := rfl
@[simp] theorem setCore_misses (s : State) (c : Core) : (setCore s c).misses = s.misses := rfl
@[simp] theorem setCore_ports (s : State) (c : Core) : (setCore s c).ports = s.ports := rfl
@[simp] theorem setCore_parts (s : State) (c : Core) : (setCore s c).parts = s.parts := rfl
@[simp] theorem setCore_ctxs (s : State) (c : Core) : (setCore s c).ctxs = s.ctxs := rfl
@[simp] theorem setCore_teams (s : State) (c : Core) : (setCore s c).teams = s.teams := rfl
@[simp] theorem setCore_groups (s : State) (c : Core) : (setCore s c).groups = s.groups := rfl
@[simp] theorem setCore_bins (s : State) (c : Core) : (setCore s c).bins = s.bins := rfl
@[simp] theorem setCore_launches (s : State) (c : Core) : (setCore s c).launches = s.launches := rfl
@[simp] theorem setCore_graphs (s : State) (c : Core) : (setCore s c).graphs = s.graphs := rfl
@[simp] theorem setCore_held (s : State) (c : Core) : (setCore s c).held = s.held := rfl
@[simp] theorem setCore_gsigs (s : State) (c : Core) : (setCore s c).gsigs = s.gsigs := rfl
@[simp] theorem setCore_ops (s : State) (c : Core) : (setCore s c).ops = s.ops := rfl
@[simp] theorem setCore_mmas (s : State) (c : Core) : (setCore s c).mmas = s.mmas := rfl
@[simp] theorem setCore_loads (s : State) (c : Core) : (setCore s c).loads = s.loads := rfl
@[simp] theorem setCore_waits (s : State) (c : Core) : (setCore s c).waits = s.waits := rfl
@[simp] theorem setCore_deferred (s : State) (c : Core) : (setCore s c).deferred = s.deferred := rfl
@[simp] theorem setCore_pages (s : State) (c : Core) : (setCore s c).pages = s.pages := rfl
@[simp] theorem setCore_queues (s : State) (c : Core) : (setCore s c).queues = s.queues := rfl
@[simp] theorem setCore_copies (s : State) (c : Core) : (setCore s c).copies = s.copies := rfl
@[simp] theorem setCore_links (s : State) (c : Core) : (setCore s c).links = s.links := rfl
@[simp] theorem setCore_windows (s : State) (c : Core) : (setCore s c).windows = s.windows := rfl
@[simp] theorem setCore_remotes (s : State) (c : Core) : (setCore s c).remotes = s.remotes := rfl
@[simp] theorem setCore_cuts (s : State) (c : Core) : (setCore s c).cuts = s.cuts := rfl
@[simp] theorem setCore_nextId (s : State) (c : Core) : (setCore s c).nextId = s.nextId := rfl
@[simp] theorem setCore_free (s : State) (c : Core) : (setCore s c).free = s.free := rfl
@[simp] theorem setCore_inputs (s : State) (c : Core) : (setCore s c).inputs = s.inputs := rfl
@[simp] theorem setCore_work (s : State) (c : Core) : (setCore s c).work = s.work := rfl
@[simp] theorem setCore_turns (s : State) (c : Core) : (setCore s c).turns = s.turns := rfl
@[simp] theorem setCore_tick (s : State) (c : Core) : (setCore s c).tick = s.tick := rfl
@[simp] theorem setCore_cur (s : State) (c : Core) : (setCore s c).cur = s.cur := rfl

@[simp] theorem setPart_stage (s : State) (p : Partition) : (setPart s p).stage = s.stage := rfl
@[simp] theorem setPart_err (s : State) (p : Partition) : (setPart s p).err = s.err := rfl
@[simp] theorem setPart_errdie (s : State) (p : Partition) : (setPart s p).errdie = s.errdie := rfl
@[simp] theorem setPart_cecnt (s : State) (p : Partition) : (setPart s p).cecnt = s.cecnt := rfl
@[simp] theorem setPart_tempmax (s : State) (p : Partition) : (setPart s p).tempmax = s.tempmax := rfl
@[simp] theorem setPart_dies (s : State) (p : Partition) : (setPart s p).dies = s.dies := rfl
@[simp] theorem setPart_overRuns (s : State) (p : Partition) : (setPart s p).overRuns = s.overRuns := rfl
@[simp] theorem setPart_trained (s : State) (p : Partition) : (setPart s p).trained = s.trained := rfl
@[simp] theorem setPart_now (s : State) (p : Partition) : (setPart s p).now = s.now := rfl
@[simp] theorem setPart_binding (s : State) (p : Partition) : (setPart s p).binding = s.binding := rfl
@[simp] theorem setPart_mem (s : State) (p : Partition) : (setPart s p).mem = s.mem := rfl
@[simp] theorem setPart_hostMem (s : State) (p : Partition) : (setPart s p).hostMem = s.hostMem := rfl
@[simp] theorem setPart_poison (s : State) (p : Partition) : (setPart s p).poison = s.poison := rfl
@[simp] theorem setPart_hostPoison (s : State) (p : Partition) : (setPart s p).hostPoison = s.hostPoison := rfl
@[simp] theorem setPart_ws (s : State) (p : Partition) : (setPart s p).ws = s.ws := rfl
@[simp] theorem setPart_le (s : State) (p : Partition) : (setPart s p).le = s.le := rfl
@[simp] theorem setPart_hostWs (s : State) (p : Partition) : (setPart s p).hostWs = s.hostWs := rfl
@[simp] theorem setPart_hostLe (s : State) (p : Partition) : (setPart s p).hostLe = s.hostLe := rfl
@[simp] theorem setPart_devClk (s : State) (p : Partition) : (setPart s p).devClk = s.devClk := rfl
@[simp] theorem setPart_hostLines (s : State) (p : Partition) : (setPart s p).hostLines = s.hostLines := rfl
@[simp] theorem setPart_rdc (s : State) (p : Partition) : (setPart s p).rdc = s.rdc := rfl
@[simp] theorem setPart_cores (s : State) (p : Partition) : (setPart s p).cores = s.cores := rfl
@[simp] theorem setPart_tlb (s : State) (p : Partition) : (setPart s p).tlb = s.tlb := rfl
@[simp] theorem setPart_walkCache (s : State) (p : Partition) : (setPart s p).walkCache = s.walkCache := rfl
@[simp] theorem setPart_misses (s : State) (p : Partition) : (setPart s p).misses = s.misses := rfl
@[simp] theorem setPart_ports (s : State) (p : Partition) : (setPart s p).ports = s.ports := rfl
@[simp] theorem setPart_ctxs (s : State) (p : Partition) : (setPart s p).ctxs = s.ctxs := rfl
@[simp] theorem setPart_teams (s : State) (p : Partition) : (setPart s p).teams = s.teams := rfl
@[simp] theorem setPart_groups (s : State) (p : Partition) : (setPart s p).groups = s.groups := rfl
@[simp] theorem setPart_bins (s : State) (p : Partition) : (setPart s p).bins = s.bins := rfl
@[simp] theorem setPart_launches (s : State) (p : Partition) : (setPart s p).launches = s.launches := rfl
@[simp] theorem setPart_graphs (s : State) (p : Partition) : (setPart s p).graphs = s.graphs := rfl
@[simp] theorem setPart_held (s : State) (p : Partition) : (setPart s p).held = s.held := rfl
@[simp] theorem setPart_gsigs (s : State) (p : Partition) : (setPart s p).gsigs = s.gsigs := rfl
@[simp] theorem setPart_ops (s : State) (p : Partition) : (setPart s p).ops = s.ops := rfl
@[simp] theorem setPart_mmas (s : State) (p : Partition) : (setPart s p).mmas = s.mmas := rfl
@[simp] theorem setPart_loads (s : State) (p : Partition) : (setPart s p).loads = s.loads := rfl
@[simp] theorem setPart_waits (s : State) (p : Partition) : (setPart s p).waits = s.waits := rfl
@[simp] theorem setPart_deferred (s : State) (p : Partition) : (setPart s p).deferred = s.deferred := rfl
@[simp] theorem setPart_pages (s : State) (p : Partition) : (setPart s p).pages = s.pages := rfl
@[simp] theorem setPart_queues (s : State) (p : Partition) : (setPart s p).queues = s.queues := rfl
@[simp] theorem setPart_copies (s : State) (p : Partition) : (setPart s p).copies = s.copies := rfl
@[simp] theorem setPart_links (s : State) (p : Partition) : (setPart s p).links = s.links := rfl
@[simp] theorem setPart_windows (s : State) (p : Partition) : (setPart s p).windows = s.windows := rfl
@[simp] theorem setPart_remotes (s : State) (p : Partition) : (setPart s p).remotes = s.remotes := rfl
@[simp] theorem setPart_cuts (s : State) (p : Partition) : (setPart s p).cuts = s.cuts := rfl
@[simp] theorem setPart_nextId (s : State) (p : Partition) : (setPart s p).nextId = s.nextId := rfl
@[simp] theorem setPart_free (s : State) (p : Partition) : (setPart s p).free = s.free := rfl
@[simp] theorem setPart_inputs (s : State) (p : Partition) : (setPart s p).inputs = s.inputs := rfl
@[simp] theorem setPart_work (s : State) (p : Partition) : (setPart s p).work = s.work := rfl
@[simp] theorem setPart_turns (s : State) (p : Partition) : (setPart s p).turns = s.turns := rfl
@[simp] theorem setPart_tick (s : State) (p : Partition) : (setPart s p).tick = s.tick := rfl
@[simp] theorem setPart_cur (s : State) (p : Partition) : (setPart s p).cur = s.cur := rfl

@[simp] theorem setCtx_stage (s : State) (c : Context) : (setCtx s c).stage = s.stage := rfl
@[simp] theorem setCtx_err (s : State) (c : Context) : (setCtx s c).err = s.err := rfl
@[simp] theorem setCtx_errdie (s : State) (c : Context) : (setCtx s c).errdie = s.errdie := rfl
@[simp] theorem setCtx_cecnt (s : State) (c : Context) : (setCtx s c).cecnt = s.cecnt := rfl
@[simp] theorem setCtx_tempmax (s : State) (c : Context) : (setCtx s c).tempmax = s.tempmax := rfl
@[simp] theorem setCtx_dies (s : State) (c : Context) : (setCtx s c).dies = s.dies := rfl
@[simp] theorem setCtx_overRuns (s : State) (c : Context) : (setCtx s c).overRuns = s.overRuns := rfl
@[simp] theorem setCtx_trained (s : State) (c : Context) : (setCtx s c).trained = s.trained := rfl
@[simp] theorem setCtx_now (s : State) (c : Context) : (setCtx s c).now = s.now := rfl
@[simp] theorem setCtx_binding (s : State) (c : Context) : (setCtx s c).binding = s.binding := rfl
@[simp] theorem setCtx_mem (s : State) (c : Context) : (setCtx s c).mem = s.mem := rfl
@[simp] theorem setCtx_hostMem (s : State) (c : Context) : (setCtx s c).hostMem = s.hostMem := rfl
@[simp] theorem setCtx_poison (s : State) (c : Context) : (setCtx s c).poison = s.poison := rfl
@[simp] theorem setCtx_hostPoison (s : State) (c : Context) : (setCtx s c).hostPoison = s.hostPoison := rfl
@[simp] theorem setCtx_ws (s : State) (c : Context) : (setCtx s c).ws = s.ws := rfl
@[simp] theorem setCtx_le (s : State) (c : Context) : (setCtx s c).le = s.le := rfl
@[simp] theorem setCtx_hostWs (s : State) (c : Context) : (setCtx s c).hostWs = s.hostWs := rfl
@[simp] theorem setCtx_hostLe (s : State) (c : Context) : (setCtx s c).hostLe = s.hostLe := rfl
@[simp] theorem setCtx_devClk (s : State) (c : Context) : (setCtx s c).devClk = s.devClk := rfl
@[simp] theorem setCtx_hostLines (s : State) (c : Context) : (setCtx s c).hostLines = s.hostLines := rfl
@[simp] theorem setCtx_rdc (s : State) (c : Context) : (setCtx s c).rdc = s.rdc := rfl
@[simp] theorem setCtx_cores (s : State) (c : Context) : (setCtx s c).cores = s.cores := rfl
@[simp] theorem setCtx_tlb (s : State) (c : Context) : (setCtx s c).tlb = s.tlb := rfl
@[simp] theorem setCtx_walkCache (s : State) (c : Context) : (setCtx s c).walkCache = s.walkCache := rfl
@[simp] theorem setCtx_misses (s : State) (c : Context) : (setCtx s c).misses = s.misses := rfl
@[simp] theorem setCtx_ports (s : State) (c : Context) : (setCtx s c).ports = s.ports := rfl
@[simp] theorem setCtx_parts (s : State) (c : Context) : (setCtx s c).parts = s.parts := rfl
@[simp] theorem setCtx_teams (s : State) (c : Context) : (setCtx s c).teams = s.teams := rfl
@[simp] theorem setCtx_groups (s : State) (c : Context) : (setCtx s c).groups = s.groups := rfl
@[simp] theorem setCtx_bins (s : State) (c : Context) : (setCtx s c).bins = s.bins := rfl
@[simp] theorem setCtx_launches (s : State) (c : Context) : (setCtx s c).launches = s.launches := rfl
@[simp] theorem setCtx_graphs (s : State) (c : Context) : (setCtx s c).graphs = s.graphs := rfl
@[simp] theorem setCtx_held (s : State) (c : Context) : (setCtx s c).held = s.held := rfl
@[simp] theorem setCtx_gsigs (s : State) (c : Context) : (setCtx s c).gsigs = s.gsigs := rfl
@[simp] theorem setCtx_ops (s : State) (c : Context) : (setCtx s c).ops = s.ops := rfl
@[simp] theorem setCtx_mmas (s : State) (c : Context) : (setCtx s c).mmas = s.mmas := rfl
@[simp] theorem setCtx_loads (s : State) (c : Context) : (setCtx s c).loads = s.loads := rfl
@[simp] theorem setCtx_waits (s : State) (c : Context) : (setCtx s c).waits = s.waits := rfl
@[simp] theorem setCtx_deferred (s : State) (c : Context) : (setCtx s c).deferred = s.deferred := rfl
@[simp] theorem setCtx_pages (s : State) (c : Context) : (setCtx s c).pages = s.pages := rfl
@[simp] theorem setCtx_queues (s : State) (c : Context) : (setCtx s c).queues = s.queues := rfl
@[simp] theorem setCtx_copies (s : State) (c : Context) : (setCtx s c).copies = s.copies := rfl
@[simp] theorem setCtx_links (s : State) (c : Context) : (setCtx s c).links = s.links := rfl
@[simp] theorem setCtx_windows (s : State) (c : Context) : (setCtx s c).windows = s.windows := rfl
@[simp] theorem setCtx_remotes (s : State) (c : Context) : (setCtx s c).remotes = s.remotes := rfl
@[simp] theorem setCtx_cuts (s : State) (c : Context) : (setCtx s c).cuts = s.cuts := rfl
@[simp] theorem setCtx_nextId (s : State) (c : Context) : (setCtx s c).nextId = s.nextId := rfl
@[simp] theorem setCtx_free (s : State) (c : Context) : (setCtx s c).free = s.free := rfl
@[simp] theorem setCtx_inputs (s : State) (c : Context) : (setCtx s c).inputs = s.inputs := rfl
@[simp] theorem setCtx_work (s : State) (c : Context) : (setCtx s c).work = s.work := rfl
@[simp] theorem setCtx_turns (s : State) (c : Context) : (setCtx s c).turns = s.turns := rfl
@[simp] theorem setCtx_tick (s : State) (c : Context) : (setCtx s c).tick = s.tick := rfl
@[simp] theorem setCtx_cur (s : State) (c : Context) : (setCtx s c).cur = s.cur := rfl

@[simp] theorem setGroup_stage (s : State) (g : Group) : (setGroup s g).stage = s.stage := rfl
@[simp] theorem setGroup_err (s : State) (g : Group) : (setGroup s g).err = s.err := rfl
@[simp] theorem setGroup_errdie (s : State) (g : Group) : (setGroup s g).errdie = s.errdie := rfl
@[simp] theorem setGroup_cecnt (s : State) (g : Group) : (setGroup s g).cecnt = s.cecnt := rfl
@[simp] theorem setGroup_tempmax (s : State) (g : Group) : (setGroup s g).tempmax = s.tempmax := rfl
@[simp] theorem setGroup_dies (s : State) (g : Group) : (setGroup s g).dies = s.dies := rfl
@[simp] theorem setGroup_overRuns (s : State) (g : Group) : (setGroup s g).overRuns = s.overRuns := rfl
@[simp] theorem setGroup_trained (s : State) (g : Group) : (setGroup s g).trained = s.trained := rfl
@[simp] theorem setGroup_now (s : State) (g : Group) : (setGroup s g).now = s.now := rfl
@[simp] theorem setGroup_binding (s : State) (g : Group) : (setGroup s g).binding = s.binding := rfl
@[simp] theorem setGroup_mem (s : State) (g : Group) : (setGroup s g).mem = s.mem := rfl
@[simp] theorem setGroup_hostMem (s : State) (g : Group) : (setGroup s g).hostMem = s.hostMem := rfl
@[simp] theorem setGroup_poison (s : State) (g : Group) : (setGroup s g).poison = s.poison := rfl
@[simp] theorem setGroup_hostPoison (s : State) (g : Group) : (setGroup s g).hostPoison = s.hostPoison := rfl
@[simp] theorem setGroup_ws (s : State) (g : Group) : (setGroup s g).ws = s.ws := rfl
@[simp] theorem setGroup_le (s : State) (g : Group) : (setGroup s g).le = s.le := rfl
@[simp] theorem setGroup_hostWs (s : State) (g : Group) : (setGroup s g).hostWs = s.hostWs := rfl
@[simp] theorem setGroup_hostLe (s : State) (g : Group) : (setGroup s g).hostLe = s.hostLe := rfl
@[simp] theorem setGroup_devClk (s : State) (g : Group) : (setGroup s g).devClk = s.devClk := rfl
@[simp] theorem setGroup_hostLines (s : State) (g : Group) : (setGroup s g).hostLines = s.hostLines := rfl
@[simp] theorem setGroup_rdc (s : State) (g : Group) : (setGroup s g).rdc = s.rdc := rfl
@[simp] theorem setGroup_cores (s : State) (g : Group) : (setGroup s g).cores = s.cores := rfl
@[simp] theorem setGroup_tlb (s : State) (g : Group) : (setGroup s g).tlb = s.tlb := rfl
@[simp] theorem setGroup_walkCache (s : State) (g : Group) : (setGroup s g).walkCache = s.walkCache := rfl
@[simp] theorem setGroup_misses (s : State) (g : Group) : (setGroup s g).misses = s.misses := rfl
@[simp] theorem setGroup_ports (s : State) (g : Group) : (setGroup s g).ports = s.ports := rfl
@[simp] theorem setGroup_parts (s : State) (g : Group) : (setGroup s g).parts = s.parts := rfl
@[simp] theorem setGroup_ctxs (s : State) (g : Group) : (setGroup s g).ctxs = s.ctxs := rfl
@[simp] theorem setGroup_teams (s : State) (g : Group) : (setGroup s g).teams = s.teams := rfl
@[simp] theorem setGroup_bins (s : State) (g : Group) : (setGroup s g).bins = s.bins := rfl
@[simp] theorem setGroup_launches (s : State) (g : Group) : (setGroup s g).launches = s.launches := rfl
@[simp] theorem setGroup_graphs (s : State) (g : Group) : (setGroup s g).graphs = s.graphs := rfl
@[simp] theorem setGroup_held (s : State) (g : Group) : (setGroup s g).held = s.held := rfl
@[simp] theorem setGroup_gsigs (s : State) (g : Group) : (setGroup s g).gsigs = s.gsigs := rfl
@[simp] theorem setGroup_ops (s : State) (g : Group) : (setGroup s g).ops = s.ops := rfl
@[simp] theorem setGroup_mmas (s : State) (g : Group) : (setGroup s g).mmas = s.mmas := rfl
@[simp] theorem setGroup_loads (s : State) (g : Group) : (setGroup s g).loads = s.loads := rfl
@[simp] theorem setGroup_waits (s : State) (g : Group) : (setGroup s g).waits = s.waits := rfl
@[simp] theorem setGroup_deferred (s : State) (g : Group) : (setGroup s g).deferred = s.deferred := rfl
@[simp] theorem setGroup_pages (s : State) (g : Group) : (setGroup s g).pages = s.pages := rfl
@[simp] theorem setGroup_queues (s : State) (g : Group) : (setGroup s g).queues = s.queues := rfl
@[simp] theorem setGroup_copies (s : State) (g : Group) : (setGroup s g).copies = s.copies := rfl
@[simp] theorem setGroup_links (s : State) (g : Group) : (setGroup s g).links = s.links := rfl
@[simp] theorem setGroup_windows (s : State) (g : Group) : (setGroup s g).windows = s.windows := rfl
@[simp] theorem setGroup_remotes (s : State) (g : Group) : (setGroup s g).remotes = s.remotes := rfl
@[simp] theorem setGroup_cuts (s : State) (g : Group) : (setGroup s g).cuts = s.cuts := rfl
@[simp] theorem setGroup_nextId (s : State) (g : Group) : (setGroup s g).nextId = s.nextId := rfl
@[simp] theorem setGroup_free (s : State) (g : Group) : (setGroup s g).free = s.free := rfl
@[simp] theorem setGroup_inputs (s : State) (g : Group) : (setGroup s g).inputs = s.inputs := rfl
@[simp] theorem setGroup_work (s : State) (g : Group) : (setGroup s g).work = s.work := rfl
@[simp] theorem setGroup_turns (s : State) (g : Group) : (setGroup s g).turns = s.turns := rfl
@[simp] theorem setGroup_tick (s : State) (g : Group) : (setGroup s g).tick = s.tick := rfl
@[simp] theorem setGroup_cur (s : State) (g : Group) : (setGroup s g).cur = s.cur := rfl

@[simp] theorem setTeam_stage (s : State) (t : Team) : (setTeam s t).stage = s.stage := rfl
@[simp] theorem setTeam_err (s : State) (t : Team) : (setTeam s t).err = s.err := rfl
@[simp] theorem setTeam_errdie (s : State) (t : Team) : (setTeam s t).errdie = s.errdie := rfl
@[simp] theorem setTeam_cecnt (s : State) (t : Team) : (setTeam s t).cecnt = s.cecnt := rfl
@[simp] theorem setTeam_tempmax (s : State) (t : Team) : (setTeam s t).tempmax = s.tempmax := rfl
@[simp] theorem setTeam_dies (s : State) (t : Team) : (setTeam s t).dies = s.dies := rfl
@[simp] theorem setTeam_overRuns (s : State) (t : Team) : (setTeam s t).overRuns = s.overRuns := rfl
@[simp] theorem setTeam_trained (s : State) (t : Team) : (setTeam s t).trained = s.trained := rfl
@[simp] theorem setTeam_now (s : State) (t : Team) : (setTeam s t).now = s.now := rfl
@[simp] theorem setTeam_binding (s : State) (t : Team) : (setTeam s t).binding = s.binding := rfl
@[simp] theorem setTeam_mem (s : State) (t : Team) : (setTeam s t).mem = s.mem := rfl
@[simp] theorem setTeam_hostMem (s : State) (t : Team) : (setTeam s t).hostMem = s.hostMem := rfl
@[simp] theorem setTeam_poison (s : State) (t : Team) : (setTeam s t).poison = s.poison := rfl
@[simp] theorem setTeam_hostPoison (s : State) (t : Team) : (setTeam s t).hostPoison = s.hostPoison := rfl
@[simp] theorem setTeam_ws (s : State) (t : Team) : (setTeam s t).ws = s.ws := rfl
@[simp] theorem setTeam_le (s : State) (t : Team) : (setTeam s t).le = s.le := rfl
@[simp] theorem setTeam_hostWs (s : State) (t : Team) : (setTeam s t).hostWs = s.hostWs := rfl
@[simp] theorem setTeam_hostLe (s : State) (t : Team) : (setTeam s t).hostLe = s.hostLe := rfl
@[simp] theorem setTeam_devClk (s : State) (t : Team) : (setTeam s t).devClk = s.devClk := rfl
@[simp] theorem setTeam_hostLines (s : State) (t : Team) : (setTeam s t).hostLines = s.hostLines := rfl
@[simp] theorem setTeam_rdc (s : State) (t : Team) : (setTeam s t).rdc = s.rdc := rfl
@[simp] theorem setTeam_cores (s : State) (t : Team) : (setTeam s t).cores = s.cores := rfl
@[simp] theorem setTeam_tlb (s : State) (t : Team) : (setTeam s t).tlb = s.tlb := rfl
@[simp] theorem setTeam_walkCache (s : State) (t : Team) : (setTeam s t).walkCache = s.walkCache := rfl
@[simp] theorem setTeam_misses (s : State) (t : Team) : (setTeam s t).misses = s.misses := rfl
@[simp] theorem setTeam_ports (s : State) (t : Team) : (setTeam s t).ports = s.ports := rfl
@[simp] theorem setTeam_parts (s : State) (t : Team) : (setTeam s t).parts = s.parts := rfl
@[simp] theorem setTeam_ctxs (s : State) (t : Team) : (setTeam s t).ctxs = s.ctxs := rfl
@[simp] theorem setTeam_groups (s : State) (t : Team) : (setTeam s t).groups = s.groups := rfl
@[simp] theorem setTeam_bins (s : State) (t : Team) : (setTeam s t).bins = s.bins := rfl
@[simp] theorem setTeam_launches (s : State) (t : Team) : (setTeam s t).launches = s.launches := rfl
@[simp] theorem setTeam_graphs (s : State) (t : Team) : (setTeam s t).graphs = s.graphs := rfl
@[simp] theorem setTeam_held (s : State) (t : Team) : (setTeam s t).held = s.held := rfl
@[simp] theorem setTeam_gsigs (s : State) (t : Team) : (setTeam s t).gsigs = s.gsigs := rfl
@[simp] theorem setTeam_ops (s : State) (t : Team) : (setTeam s t).ops = s.ops := rfl
@[simp] theorem setTeam_mmas (s : State) (t : Team) : (setTeam s t).mmas = s.mmas := rfl
@[simp] theorem setTeam_loads (s : State) (t : Team) : (setTeam s t).loads = s.loads := rfl
@[simp] theorem setTeam_waits (s : State) (t : Team) : (setTeam s t).waits = s.waits := rfl
@[simp] theorem setTeam_deferred (s : State) (t : Team) : (setTeam s t).deferred = s.deferred := rfl
@[simp] theorem setTeam_pages (s : State) (t : Team) : (setTeam s t).pages = s.pages := rfl
@[simp] theorem setTeam_queues (s : State) (t : Team) : (setTeam s t).queues = s.queues := rfl
@[simp] theorem setTeam_copies (s : State) (t : Team) : (setTeam s t).copies = s.copies := rfl
@[simp] theorem setTeam_links (s : State) (t : Team) : (setTeam s t).links = s.links := rfl
@[simp] theorem setTeam_windows (s : State) (t : Team) : (setTeam s t).windows = s.windows := rfl
@[simp] theorem setTeam_remotes (s : State) (t : Team) : (setTeam s t).remotes = s.remotes := rfl
@[simp] theorem setTeam_cuts (s : State) (t : Team) : (setTeam s t).cuts = s.cuts := rfl
@[simp] theorem setTeam_nextId (s : State) (t : Team) : (setTeam s t).nextId = s.nextId := rfl
@[simp] theorem setTeam_free (s : State) (t : Team) : (setTeam s t).free = s.free := rfl
@[simp] theorem setTeam_inputs (s : State) (t : Team) : (setTeam s t).inputs = s.inputs := rfl
@[simp] theorem setTeam_work (s : State) (t : Team) : (setTeam s t).work = s.work := rfl
@[simp] theorem setTeam_turns (s : State) (t : Team) : (setTeam s t).turns = s.turns := rfl
@[simp] theorem setTeam_tick (s : State) (t : Team) : (setTeam s t).tick = s.tick := rfl
@[simp] theorem setTeam_cur (s : State) (t : Team) : (setTeam s t).cur = s.cur := rfl

@[simp] theorem setLaunch_stage (s : State) (l : Launch) : (setLaunch s l).stage = s.stage := rfl
@[simp] theorem setLaunch_err (s : State) (l : Launch) : (setLaunch s l).err = s.err := rfl
@[simp] theorem setLaunch_errdie (s : State) (l : Launch) : (setLaunch s l).errdie = s.errdie := rfl
@[simp] theorem setLaunch_cecnt (s : State) (l : Launch) : (setLaunch s l).cecnt = s.cecnt := rfl
@[simp] theorem setLaunch_tempmax (s : State) (l : Launch) : (setLaunch s l).tempmax = s.tempmax := rfl
@[simp] theorem setLaunch_dies (s : State) (l : Launch) : (setLaunch s l).dies = s.dies := rfl
@[simp] theorem setLaunch_overRuns (s : State) (l : Launch) : (setLaunch s l).overRuns = s.overRuns := rfl
@[simp] theorem setLaunch_trained (s : State) (l : Launch) : (setLaunch s l).trained = s.trained := rfl
@[simp] theorem setLaunch_now (s : State) (l : Launch) : (setLaunch s l).now = s.now := rfl
@[simp] theorem setLaunch_binding (s : State) (l : Launch) : (setLaunch s l).binding = s.binding := rfl
@[simp] theorem setLaunch_mem (s : State) (l : Launch) : (setLaunch s l).mem = s.mem := rfl
@[simp] theorem setLaunch_hostMem (s : State) (l : Launch) : (setLaunch s l).hostMem = s.hostMem := rfl
@[simp] theorem setLaunch_poison (s : State) (l : Launch) : (setLaunch s l).poison = s.poison := rfl
@[simp] theorem setLaunch_hostPoison (s : State) (l : Launch) : (setLaunch s l).hostPoison = s.hostPoison := rfl
@[simp] theorem setLaunch_ws (s : State) (l : Launch) : (setLaunch s l).ws = s.ws := rfl
@[simp] theorem setLaunch_le (s : State) (l : Launch) : (setLaunch s l).le = s.le := rfl
@[simp] theorem setLaunch_hostWs (s : State) (l : Launch) : (setLaunch s l).hostWs = s.hostWs := rfl
@[simp] theorem setLaunch_hostLe (s : State) (l : Launch) : (setLaunch s l).hostLe = s.hostLe := rfl
@[simp] theorem setLaunch_devClk (s : State) (l : Launch) : (setLaunch s l).devClk = s.devClk := rfl
@[simp] theorem setLaunch_hostLines (s : State) (l : Launch) : (setLaunch s l).hostLines = s.hostLines := rfl
@[simp] theorem setLaunch_rdc (s : State) (l : Launch) : (setLaunch s l).rdc = s.rdc := rfl
@[simp] theorem setLaunch_cores (s : State) (l : Launch) : (setLaunch s l).cores = s.cores := rfl
@[simp] theorem setLaunch_tlb (s : State) (l : Launch) : (setLaunch s l).tlb = s.tlb := rfl
@[simp] theorem setLaunch_walkCache (s : State) (l : Launch) : (setLaunch s l).walkCache = s.walkCache := rfl
@[simp] theorem setLaunch_misses (s : State) (l : Launch) : (setLaunch s l).misses = s.misses := rfl
@[simp] theorem setLaunch_ports (s : State) (l : Launch) : (setLaunch s l).ports = s.ports := rfl
@[simp] theorem setLaunch_parts (s : State) (l : Launch) : (setLaunch s l).parts = s.parts := rfl
@[simp] theorem setLaunch_ctxs (s : State) (l : Launch) : (setLaunch s l).ctxs = s.ctxs := rfl
@[simp] theorem setLaunch_teams (s : State) (l : Launch) : (setLaunch s l).teams = s.teams := rfl
@[simp] theorem setLaunch_groups (s : State) (l : Launch) : (setLaunch s l).groups = s.groups := rfl
@[simp] theorem setLaunch_bins (s : State) (l : Launch) : (setLaunch s l).bins = s.bins := rfl
@[simp] theorem setLaunch_graphs (s : State) (l : Launch) : (setLaunch s l).graphs = s.graphs := rfl
@[simp] theorem setLaunch_held (s : State) (l : Launch) : (setLaunch s l).held = s.held := rfl
@[simp] theorem setLaunch_gsigs (s : State) (l : Launch) : (setLaunch s l).gsigs = s.gsigs := rfl
@[simp] theorem setLaunch_ops (s : State) (l : Launch) : (setLaunch s l).ops = s.ops := rfl
@[simp] theorem setLaunch_mmas (s : State) (l : Launch) : (setLaunch s l).mmas = s.mmas := rfl
@[simp] theorem setLaunch_loads (s : State) (l : Launch) : (setLaunch s l).loads = s.loads := rfl
@[simp] theorem setLaunch_waits (s : State) (l : Launch) : (setLaunch s l).waits = s.waits := rfl
@[simp] theorem setLaunch_deferred (s : State) (l : Launch) : (setLaunch s l).deferred = s.deferred := rfl
@[simp] theorem setLaunch_pages (s : State) (l : Launch) : (setLaunch s l).pages = s.pages := rfl
@[simp] theorem setLaunch_queues (s : State) (l : Launch) : (setLaunch s l).queues = s.queues := rfl
@[simp] theorem setLaunch_copies (s : State) (l : Launch) : (setLaunch s l).copies = s.copies := rfl
@[simp] theorem setLaunch_links (s : State) (l : Launch) : (setLaunch s l).links = s.links := rfl
@[simp] theorem setLaunch_windows (s : State) (l : Launch) : (setLaunch s l).windows = s.windows := rfl
@[simp] theorem setLaunch_remotes (s : State) (l : Launch) : (setLaunch s l).remotes = s.remotes := rfl
@[simp] theorem setLaunch_cuts (s : State) (l : Launch) : (setLaunch s l).cuts = s.cuts := rfl
@[simp] theorem setLaunch_nextId (s : State) (l : Launch) : (setLaunch s l).nextId = s.nextId := rfl
@[simp] theorem setLaunch_free (s : State) (l : Launch) : (setLaunch s l).free = s.free := rfl
@[simp] theorem setLaunch_inputs (s : State) (l : Launch) : (setLaunch s l).inputs = s.inputs := rfl
@[simp] theorem setLaunch_work (s : State) (l : Launch) : (setLaunch s l).work = s.work := rfl
@[simp] theorem setLaunch_turns (s : State) (l : Launch) : (setLaunch s l).turns = s.turns := rfl
@[simp] theorem setLaunch_tick (s : State) (l : Launch) : (setLaunch s l).tick = s.tick := rfl
@[simp] theorem setLaunch_cur (s : State) (l : Launch) : (setLaunch s l).cur = s.cur := rfl

@[simp] theorem setGraph_stage (s : State) (g : Graph) : (setGraph s g).stage = s.stage := rfl
@[simp] theorem setGraph_err (s : State) (g : Graph) : (setGraph s g).err = s.err := rfl
@[simp] theorem setGraph_errdie (s : State) (g : Graph) : (setGraph s g).errdie = s.errdie := rfl
@[simp] theorem setGraph_cecnt (s : State) (g : Graph) : (setGraph s g).cecnt = s.cecnt := rfl
@[simp] theorem setGraph_tempmax (s : State) (g : Graph) : (setGraph s g).tempmax = s.tempmax := rfl
@[simp] theorem setGraph_dies (s : State) (g : Graph) : (setGraph s g).dies = s.dies := rfl
@[simp] theorem setGraph_overRuns (s : State) (g : Graph) : (setGraph s g).overRuns = s.overRuns := rfl
@[simp] theorem setGraph_trained (s : State) (g : Graph) : (setGraph s g).trained = s.trained := rfl
@[simp] theorem setGraph_now (s : State) (g : Graph) : (setGraph s g).now = s.now := rfl
@[simp] theorem setGraph_binding (s : State) (g : Graph) : (setGraph s g).binding = s.binding := rfl
@[simp] theorem setGraph_mem (s : State) (g : Graph) : (setGraph s g).mem = s.mem := rfl
@[simp] theorem setGraph_hostMem (s : State) (g : Graph) : (setGraph s g).hostMem = s.hostMem := rfl
@[simp] theorem setGraph_poison (s : State) (g : Graph) : (setGraph s g).poison = s.poison := rfl
@[simp] theorem setGraph_hostPoison (s : State) (g : Graph) : (setGraph s g).hostPoison = s.hostPoison := rfl
@[simp] theorem setGraph_ws (s : State) (g : Graph) : (setGraph s g).ws = s.ws := rfl
@[simp] theorem setGraph_le (s : State) (g : Graph) : (setGraph s g).le = s.le := rfl
@[simp] theorem setGraph_hostWs (s : State) (g : Graph) : (setGraph s g).hostWs = s.hostWs := rfl
@[simp] theorem setGraph_hostLe (s : State) (g : Graph) : (setGraph s g).hostLe = s.hostLe := rfl
@[simp] theorem setGraph_devClk (s : State) (g : Graph) : (setGraph s g).devClk = s.devClk := rfl
@[simp] theorem setGraph_hostLines (s : State) (g : Graph) : (setGraph s g).hostLines = s.hostLines := rfl
@[simp] theorem setGraph_rdc (s : State) (g : Graph) : (setGraph s g).rdc = s.rdc := rfl
@[simp] theorem setGraph_cores (s : State) (g : Graph) : (setGraph s g).cores = s.cores := rfl
@[simp] theorem setGraph_tlb (s : State) (g : Graph) : (setGraph s g).tlb = s.tlb := rfl
@[simp] theorem setGraph_walkCache (s : State) (g : Graph) : (setGraph s g).walkCache = s.walkCache := rfl
@[simp] theorem setGraph_misses (s : State) (g : Graph) : (setGraph s g).misses = s.misses := rfl
@[simp] theorem setGraph_ports (s : State) (g : Graph) : (setGraph s g).ports = s.ports := rfl
@[simp] theorem setGraph_parts (s : State) (g : Graph) : (setGraph s g).parts = s.parts := rfl
@[simp] theorem setGraph_ctxs (s : State) (g : Graph) : (setGraph s g).ctxs = s.ctxs := rfl
@[simp] theorem setGraph_teams (s : State) (g : Graph) : (setGraph s g).teams = s.teams := rfl
@[simp] theorem setGraph_groups (s : State) (g : Graph) : (setGraph s g).groups = s.groups := rfl
@[simp] theorem setGraph_bins (s : State) (g : Graph) : (setGraph s g).bins = s.bins := rfl
@[simp] theorem setGraph_launches (s : State) (g : Graph) : (setGraph s g).launches = s.launches := rfl
@[simp] theorem setGraph_held (s : State) (g : Graph) : (setGraph s g).held = s.held := rfl
@[simp] theorem setGraph_gsigs (s : State) (g : Graph) : (setGraph s g).gsigs = s.gsigs := rfl
@[simp] theorem setGraph_ops (s : State) (g : Graph) : (setGraph s g).ops = s.ops := rfl
@[simp] theorem setGraph_mmas (s : State) (g : Graph) : (setGraph s g).mmas = s.mmas := rfl
@[simp] theorem setGraph_loads (s : State) (g : Graph) : (setGraph s g).loads = s.loads := rfl
@[simp] theorem setGraph_waits (s : State) (g : Graph) : (setGraph s g).waits = s.waits := rfl
@[simp] theorem setGraph_deferred (s : State) (g : Graph) : (setGraph s g).deferred = s.deferred := rfl
@[simp] theorem setGraph_pages (s : State) (g : Graph) : (setGraph s g).pages = s.pages := rfl
@[simp] theorem setGraph_queues (s : State) (g : Graph) : (setGraph s g).queues = s.queues := rfl
@[simp] theorem setGraph_copies (s : State) (g : Graph) : (setGraph s g).copies = s.copies := rfl
@[simp] theorem setGraph_links (s : State) (g : Graph) : (setGraph s g).links = s.links := rfl
@[simp] theorem setGraph_windows (s : State) (g : Graph) : (setGraph s g).windows = s.windows := rfl
@[simp] theorem setGraph_remotes (s : State) (g : Graph) : (setGraph s g).remotes = s.remotes := rfl
@[simp] theorem setGraph_cuts (s : State) (g : Graph) : (setGraph s g).cuts = s.cuts := rfl
@[simp] theorem setGraph_nextId (s : State) (g : Graph) : (setGraph s g).nextId = s.nextId := rfl
@[simp] theorem setGraph_free (s : State) (g : Graph) : (setGraph s g).free = s.free := rfl
@[simp] theorem setGraph_inputs (s : State) (g : Graph) : (setGraph s g).inputs = s.inputs := rfl
@[simp] theorem setGraph_work (s : State) (g : Graph) : (setGraph s g).work = s.work := rfl
@[simp] theorem setGraph_turns (s : State) (g : Graph) : (setGraph s g).turns = s.turns := rfl
@[simp] theorem setGraph_tick (s : State) (g : Graph) : (setGraph s g).tick = s.tick := rfl
@[simp] theorem setGraph_cur (s : State) (g : Graph) : (setGraph s g).cur = s.cur := rfl

@[simp] theorem setPage_stage (s : State) (p : VcpPage) : (setPage s p).stage = s.stage := rfl
@[simp] theorem setPage_err (s : State) (p : VcpPage) : (setPage s p).err = s.err := rfl
@[simp] theorem setPage_errdie (s : State) (p : VcpPage) : (setPage s p).errdie = s.errdie := rfl
@[simp] theorem setPage_cecnt (s : State) (p : VcpPage) : (setPage s p).cecnt = s.cecnt := rfl
@[simp] theorem setPage_tempmax (s : State) (p : VcpPage) : (setPage s p).tempmax = s.tempmax := rfl
@[simp] theorem setPage_dies (s : State) (p : VcpPage) : (setPage s p).dies = s.dies := rfl
@[simp] theorem setPage_overRuns (s : State) (p : VcpPage) : (setPage s p).overRuns = s.overRuns := rfl
@[simp] theorem setPage_trained (s : State) (p : VcpPage) : (setPage s p).trained = s.trained := rfl
@[simp] theorem setPage_now (s : State) (p : VcpPage) : (setPage s p).now = s.now := rfl
@[simp] theorem setPage_binding (s : State) (p : VcpPage) : (setPage s p).binding = s.binding := rfl
@[simp] theorem setPage_mem (s : State) (p : VcpPage) : (setPage s p).mem = s.mem := rfl
@[simp] theorem setPage_hostMem (s : State) (p : VcpPage) : (setPage s p).hostMem = s.hostMem := rfl
@[simp] theorem setPage_poison (s : State) (p : VcpPage) : (setPage s p).poison = s.poison := rfl
@[simp] theorem setPage_hostPoison (s : State) (p : VcpPage) : (setPage s p).hostPoison = s.hostPoison := rfl
@[simp] theorem setPage_ws (s : State) (p : VcpPage) : (setPage s p).ws = s.ws := rfl
@[simp] theorem setPage_le (s : State) (p : VcpPage) : (setPage s p).le = s.le := rfl
@[simp] theorem setPage_hostWs (s : State) (p : VcpPage) : (setPage s p).hostWs = s.hostWs := rfl
@[simp] theorem setPage_hostLe (s : State) (p : VcpPage) : (setPage s p).hostLe = s.hostLe := rfl
@[simp] theorem setPage_devClk (s : State) (p : VcpPage) : (setPage s p).devClk = s.devClk := rfl
@[simp] theorem setPage_hostLines (s : State) (p : VcpPage) : (setPage s p).hostLines = s.hostLines := rfl
@[simp] theorem setPage_rdc (s : State) (p : VcpPage) : (setPage s p).rdc = s.rdc := rfl
@[simp] theorem setPage_cores (s : State) (p : VcpPage) : (setPage s p).cores = s.cores := rfl
@[simp] theorem setPage_tlb (s : State) (p : VcpPage) : (setPage s p).tlb = s.tlb := rfl
@[simp] theorem setPage_walkCache (s : State) (p : VcpPage) : (setPage s p).walkCache = s.walkCache := rfl
@[simp] theorem setPage_misses (s : State) (p : VcpPage) : (setPage s p).misses = s.misses := rfl
@[simp] theorem setPage_ports (s : State) (p : VcpPage) : (setPage s p).ports = s.ports := rfl
@[simp] theorem setPage_parts (s : State) (p : VcpPage) : (setPage s p).parts = s.parts := rfl
@[simp] theorem setPage_ctxs (s : State) (p : VcpPage) : (setPage s p).ctxs = s.ctxs := rfl
@[simp] theorem setPage_teams (s : State) (p : VcpPage) : (setPage s p).teams = s.teams := rfl
@[simp] theorem setPage_groups (s : State) (p : VcpPage) : (setPage s p).groups = s.groups := rfl
@[simp] theorem setPage_bins (s : State) (p : VcpPage) : (setPage s p).bins = s.bins := rfl
@[simp] theorem setPage_launches (s : State) (p : VcpPage) : (setPage s p).launches = s.launches := rfl
@[simp] theorem setPage_graphs (s : State) (p : VcpPage) : (setPage s p).graphs = s.graphs := rfl
@[simp] theorem setPage_held (s : State) (p : VcpPage) : (setPage s p).held = s.held := rfl
@[simp] theorem setPage_gsigs (s : State) (p : VcpPage) : (setPage s p).gsigs = s.gsigs := rfl
@[simp] theorem setPage_ops (s : State) (p : VcpPage) : (setPage s p).ops = s.ops := rfl
@[simp] theorem setPage_mmas (s : State) (p : VcpPage) : (setPage s p).mmas = s.mmas := rfl
@[simp] theorem setPage_loads (s : State) (p : VcpPage) : (setPage s p).loads = s.loads := rfl
@[simp] theorem setPage_waits (s : State) (p : VcpPage) : (setPage s p).waits = s.waits := rfl
@[simp] theorem setPage_deferred (s : State) (p : VcpPage) : (setPage s p).deferred = s.deferred := rfl
@[simp] theorem setPage_queues (s : State) (p : VcpPage) : (setPage s p).queues = s.queues := rfl
@[simp] theorem setPage_copies (s : State) (p : VcpPage) : (setPage s p).copies = s.copies := rfl
@[simp] theorem setPage_links (s : State) (p : VcpPage) : (setPage s p).links = s.links := rfl
@[simp] theorem setPage_windows (s : State) (p : VcpPage) : (setPage s p).windows = s.windows := rfl
@[simp] theorem setPage_remotes (s : State) (p : VcpPage) : (setPage s p).remotes = s.remotes := rfl
@[simp] theorem setPage_cuts (s : State) (p : VcpPage) : (setPage s p).cuts = s.cuts := rfl
@[simp] theorem setPage_nextId (s : State) (p : VcpPage) : (setPage s p).nextId = s.nextId := rfl
@[simp] theorem setPage_free (s : State) (p : VcpPage) : (setPage s p).free = s.free := rfl
@[simp] theorem setPage_inputs (s : State) (p : VcpPage) : (setPage s p).inputs = s.inputs := rfl
@[simp] theorem setPage_work (s : State) (p : VcpPage) : (setPage s p).work = s.work := rfl
@[simp] theorem setPage_turns (s : State) (p : VcpPage) : (setPage s p).turns = s.turns := rfl
@[simp] theorem setPage_tick (s : State) (p : VcpPage) : (setPage s p).tick = s.tick := rfl
@[simp] theorem setPage_cur (s : State) (p : VcpPage) : (setPage s p).cur = s.cur := rfl

@[simp] theorem setQueue_stage (s : State) (q : Queue) : (setQueue s q).stage = s.stage := rfl
@[simp] theorem setQueue_err (s : State) (q : Queue) : (setQueue s q).err = s.err := rfl
@[simp] theorem setQueue_errdie (s : State) (q : Queue) : (setQueue s q).errdie = s.errdie := rfl
@[simp] theorem setQueue_cecnt (s : State) (q : Queue) : (setQueue s q).cecnt = s.cecnt := rfl
@[simp] theorem setQueue_tempmax (s : State) (q : Queue) : (setQueue s q).tempmax = s.tempmax := rfl
@[simp] theorem setQueue_dies (s : State) (q : Queue) : (setQueue s q).dies = s.dies := rfl
@[simp] theorem setQueue_overRuns (s : State) (q : Queue) : (setQueue s q).overRuns = s.overRuns := rfl
@[simp] theorem setQueue_trained (s : State) (q : Queue) : (setQueue s q).trained = s.trained := rfl
@[simp] theorem setQueue_now (s : State) (q : Queue) : (setQueue s q).now = s.now := rfl
@[simp] theorem setQueue_binding (s : State) (q : Queue) : (setQueue s q).binding = s.binding := rfl
@[simp] theorem setQueue_mem (s : State) (q : Queue) : (setQueue s q).mem = s.mem := rfl
@[simp] theorem setQueue_hostMem (s : State) (q : Queue) : (setQueue s q).hostMem = s.hostMem := rfl
@[simp] theorem setQueue_poison (s : State) (q : Queue) : (setQueue s q).poison = s.poison := rfl
@[simp] theorem setQueue_hostPoison (s : State) (q : Queue) : (setQueue s q).hostPoison = s.hostPoison := rfl
@[simp] theorem setQueue_ws (s : State) (q : Queue) : (setQueue s q).ws = s.ws := rfl
@[simp] theorem setQueue_le (s : State) (q : Queue) : (setQueue s q).le = s.le := rfl
@[simp] theorem setQueue_hostWs (s : State) (q : Queue) : (setQueue s q).hostWs = s.hostWs := rfl
@[simp] theorem setQueue_hostLe (s : State) (q : Queue) : (setQueue s q).hostLe = s.hostLe := rfl
@[simp] theorem setQueue_devClk (s : State) (q : Queue) : (setQueue s q).devClk = s.devClk := rfl
@[simp] theorem setQueue_hostLines (s : State) (q : Queue) : (setQueue s q).hostLines = s.hostLines := rfl
@[simp] theorem setQueue_rdc (s : State) (q : Queue) : (setQueue s q).rdc = s.rdc := rfl
@[simp] theorem setQueue_cores (s : State) (q : Queue) : (setQueue s q).cores = s.cores := rfl
@[simp] theorem setQueue_tlb (s : State) (q : Queue) : (setQueue s q).tlb = s.tlb := rfl
@[simp] theorem setQueue_walkCache (s : State) (q : Queue) : (setQueue s q).walkCache = s.walkCache := rfl
@[simp] theorem setQueue_misses (s : State) (q : Queue) : (setQueue s q).misses = s.misses := rfl
@[simp] theorem setQueue_ports (s : State) (q : Queue) : (setQueue s q).ports = s.ports := rfl
@[simp] theorem setQueue_parts (s : State) (q : Queue) : (setQueue s q).parts = s.parts := rfl
@[simp] theorem setQueue_ctxs (s : State) (q : Queue) : (setQueue s q).ctxs = s.ctxs := rfl
@[simp] theorem setQueue_teams (s : State) (q : Queue) : (setQueue s q).teams = s.teams := rfl
@[simp] theorem setQueue_groups (s : State) (q : Queue) : (setQueue s q).groups = s.groups := rfl
@[simp] theorem setQueue_bins (s : State) (q : Queue) : (setQueue s q).bins = s.bins := rfl
@[simp] theorem setQueue_launches (s : State) (q : Queue) : (setQueue s q).launches = s.launches := rfl
@[simp] theorem setQueue_graphs (s : State) (q : Queue) : (setQueue s q).graphs = s.graphs := rfl
@[simp] theorem setQueue_held (s : State) (q : Queue) : (setQueue s q).held = s.held := rfl
@[simp] theorem setQueue_gsigs (s : State) (q : Queue) : (setQueue s q).gsigs = s.gsigs := rfl
@[simp] theorem setQueue_ops (s : State) (q : Queue) : (setQueue s q).ops = s.ops := rfl
@[simp] theorem setQueue_mmas (s : State) (q : Queue) : (setQueue s q).mmas = s.mmas := rfl
@[simp] theorem setQueue_loads (s : State) (q : Queue) : (setQueue s q).loads = s.loads := rfl
@[simp] theorem setQueue_waits (s : State) (q : Queue) : (setQueue s q).waits = s.waits := rfl
@[simp] theorem setQueue_deferred (s : State) (q : Queue) : (setQueue s q).deferred = s.deferred := rfl
@[simp] theorem setQueue_pages (s : State) (q : Queue) : (setQueue s q).pages = s.pages := rfl
@[simp] theorem setQueue_copies (s : State) (q : Queue) : (setQueue s q).copies = s.copies := rfl
@[simp] theorem setQueue_links (s : State) (q : Queue) : (setQueue s q).links = s.links := rfl
@[simp] theorem setQueue_windows (s : State) (q : Queue) : (setQueue s q).windows = s.windows := rfl
@[simp] theorem setQueue_remotes (s : State) (q : Queue) : (setQueue s q).remotes = s.remotes := rfl
@[simp] theorem setQueue_cuts (s : State) (q : Queue) : (setQueue s q).cuts = s.cuts := rfl
@[simp] theorem setQueue_nextId (s : State) (q : Queue) : (setQueue s q).nextId = s.nextId := rfl
@[simp] theorem setQueue_free (s : State) (q : Queue) : (setQueue s q).free = s.free := rfl
@[simp] theorem setQueue_inputs (s : State) (q : Queue) : (setQueue s q).inputs = s.inputs := rfl
@[simp] theorem setQueue_work (s : State) (q : Queue) : (setQueue s q).work = s.work := rfl
@[simp] theorem setQueue_turns (s : State) (q : Queue) : (setQueue s q).turns = s.turns := rfl
@[simp] theorem setQueue_tick (s : State) (q : Queue) : (setQueue s q).tick = s.tick := rfl
@[simp] theorem setQueue_cur (s : State) (q : Queue) : (setQueue s q).cur = s.cur := rfl

@[simp] theorem setLink_stage (s : State) (l : Link) : (setLink s l).stage = s.stage := rfl
@[simp] theorem setLink_err (s : State) (l : Link) : (setLink s l).err = s.err := rfl
@[simp] theorem setLink_errdie (s : State) (l : Link) : (setLink s l).errdie = s.errdie := rfl
@[simp] theorem setLink_cecnt (s : State) (l : Link) : (setLink s l).cecnt = s.cecnt := rfl
@[simp] theorem setLink_tempmax (s : State) (l : Link) : (setLink s l).tempmax = s.tempmax := rfl
@[simp] theorem setLink_dies (s : State) (l : Link) : (setLink s l).dies = s.dies := rfl
@[simp] theorem setLink_overRuns (s : State) (l : Link) : (setLink s l).overRuns = s.overRuns := rfl
@[simp] theorem setLink_trained (s : State) (l : Link) : (setLink s l).trained = s.trained := rfl
@[simp] theorem setLink_now (s : State) (l : Link) : (setLink s l).now = s.now := rfl
@[simp] theorem setLink_binding (s : State) (l : Link) : (setLink s l).binding = s.binding := rfl
@[simp] theorem setLink_mem (s : State) (l : Link) : (setLink s l).mem = s.mem := rfl
@[simp] theorem setLink_hostMem (s : State) (l : Link) : (setLink s l).hostMem = s.hostMem := rfl
@[simp] theorem setLink_poison (s : State) (l : Link) : (setLink s l).poison = s.poison := rfl
@[simp] theorem setLink_hostPoison (s : State) (l : Link) : (setLink s l).hostPoison = s.hostPoison := rfl
@[simp] theorem setLink_ws (s : State) (l : Link) : (setLink s l).ws = s.ws := rfl
@[simp] theorem setLink_le (s : State) (l : Link) : (setLink s l).le = s.le := rfl
@[simp] theorem setLink_hostWs (s : State) (l : Link) : (setLink s l).hostWs = s.hostWs := rfl
@[simp] theorem setLink_hostLe (s : State) (l : Link) : (setLink s l).hostLe = s.hostLe := rfl
@[simp] theorem setLink_devClk (s : State) (l : Link) : (setLink s l).devClk = s.devClk := rfl
@[simp] theorem setLink_hostLines (s : State) (l : Link) : (setLink s l).hostLines = s.hostLines := rfl
@[simp] theorem setLink_rdc (s : State) (l : Link) : (setLink s l).rdc = s.rdc := rfl
@[simp] theorem setLink_cores (s : State) (l : Link) : (setLink s l).cores = s.cores := rfl
@[simp] theorem setLink_tlb (s : State) (l : Link) : (setLink s l).tlb = s.tlb := rfl
@[simp] theorem setLink_walkCache (s : State) (l : Link) : (setLink s l).walkCache = s.walkCache := rfl
@[simp] theorem setLink_misses (s : State) (l : Link) : (setLink s l).misses = s.misses := rfl
@[simp] theorem setLink_ports (s : State) (l : Link) : (setLink s l).ports = s.ports := rfl
@[simp] theorem setLink_parts (s : State) (l : Link) : (setLink s l).parts = s.parts := rfl
@[simp] theorem setLink_ctxs (s : State) (l : Link) : (setLink s l).ctxs = s.ctxs := rfl
@[simp] theorem setLink_teams (s : State) (l : Link) : (setLink s l).teams = s.teams := rfl
@[simp] theorem setLink_groups (s : State) (l : Link) : (setLink s l).groups = s.groups := rfl
@[simp] theorem setLink_bins (s : State) (l : Link) : (setLink s l).bins = s.bins := rfl
@[simp] theorem setLink_launches (s : State) (l : Link) : (setLink s l).launches = s.launches := rfl
@[simp] theorem setLink_graphs (s : State) (l : Link) : (setLink s l).graphs = s.graphs := rfl
@[simp] theorem setLink_held (s : State) (l : Link) : (setLink s l).held = s.held := rfl
@[simp] theorem setLink_gsigs (s : State) (l : Link) : (setLink s l).gsigs = s.gsigs := rfl
@[simp] theorem setLink_ops (s : State) (l : Link) : (setLink s l).ops = s.ops := rfl
@[simp] theorem setLink_mmas (s : State) (l : Link) : (setLink s l).mmas = s.mmas := rfl
@[simp] theorem setLink_loads (s : State) (l : Link) : (setLink s l).loads = s.loads := rfl
@[simp] theorem setLink_waits (s : State) (l : Link) : (setLink s l).waits = s.waits := rfl
@[simp] theorem setLink_deferred (s : State) (l : Link) : (setLink s l).deferred = s.deferred := rfl
@[simp] theorem setLink_pages (s : State) (l : Link) : (setLink s l).pages = s.pages := rfl
@[simp] theorem setLink_queues (s : State) (l : Link) : (setLink s l).queues = s.queues := rfl
@[simp] theorem setLink_copies (s : State) (l : Link) : (setLink s l).copies = s.copies := rfl
@[simp] theorem setLink_windows (s : State) (l : Link) : (setLink s l).windows = s.windows := rfl
@[simp] theorem setLink_remotes (s : State) (l : Link) : (setLink s l).remotes = s.remotes := rfl
@[simp] theorem setLink_cuts (s : State) (l : Link) : (setLink s l).cuts = s.cuts := rfl
@[simp] theorem setLink_nextId (s : State) (l : Link) : (setLink s l).nextId = s.nextId := rfl
@[simp] theorem setLink_free (s : State) (l : Link) : (setLink s l).free = s.free := rfl
@[simp] theorem setLink_inputs (s : State) (l : Link) : (setLink s l).inputs = s.inputs := rfl
@[simp] theorem setLink_work (s : State) (l : Link) : (setLink s l).work = s.work := rfl
@[simp] theorem setLink_turns (s : State) (l : Link) : (setLink s l).turns = s.turns := rfl
@[simp] theorem setLink_tick (s : State) (l : Link) : (setLink s l).tick = s.tick := rfl
@[simp] theorem setLink_cur (s : State) (l : Link) : (setLink s l).cur = s.cur := rfl

@[simp] theorem setOp_stage (s : State) (o : AsyncOp) : (setOp s o).stage = s.stage := rfl
@[simp] theorem setOp_err (s : State) (o : AsyncOp) : (setOp s o).err = s.err := rfl
@[simp] theorem setOp_errdie (s : State) (o : AsyncOp) : (setOp s o).errdie = s.errdie := rfl
@[simp] theorem setOp_cecnt (s : State) (o : AsyncOp) : (setOp s o).cecnt = s.cecnt := rfl
@[simp] theorem setOp_tempmax (s : State) (o : AsyncOp) : (setOp s o).tempmax = s.tempmax := rfl
@[simp] theorem setOp_dies (s : State) (o : AsyncOp) : (setOp s o).dies = s.dies := rfl
@[simp] theorem setOp_overRuns (s : State) (o : AsyncOp) : (setOp s o).overRuns = s.overRuns := rfl
@[simp] theorem setOp_trained (s : State) (o : AsyncOp) : (setOp s o).trained = s.trained := rfl
@[simp] theorem setOp_now (s : State) (o : AsyncOp) : (setOp s o).now = s.now := rfl
@[simp] theorem setOp_binding (s : State) (o : AsyncOp) : (setOp s o).binding = s.binding := rfl
@[simp] theorem setOp_mem (s : State) (o : AsyncOp) : (setOp s o).mem = s.mem := rfl
@[simp] theorem setOp_hostMem (s : State) (o : AsyncOp) : (setOp s o).hostMem = s.hostMem := rfl
@[simp] theorem setOp_poison (s : State) (o : AsyncOp) : (setOp s o).poison = s.poison := rfl
@[simp] theorem setOp_hostPoison (s : State) (o : AsyncOp) : (setOp s o).hostPoison = s.hostPoison := rfl
@[simp] theorem setOp_ws (s : State) (o : AsyncOp) : (setOp s o).ws = s.ws := rfl
@[simp] theorem setOp_le (s : State) (o : AsyncOp) : (setOp s o).le = s.le := rfl
@[simp] theorem setOp_hostWs (s : State) (o : AsyncOp) : (setOp s o).hostWs = s.hostWs := rfl
@[simp] theorem setOp_hostLe (s : State) (o : AsyncOp) : (setOp s o).hostLe = s.hostLe := rfl
@[simp] theorem setOp_devClk (s : State) (o : AsyncOp) : (setOp s o).devClk = s.devClk := rfl
@[simp] theorem setOp_hostLines (s : State) (o : AsyncOp) : (setOp s o).hostLines = s.hostLines := rfl
@[simp] theorem setOp_rdc (s : State) (o : AsyncOp) : (setOp s o).rdc = s.rdc := rfl
@[simp] theorem setOp_cores (s : State) (o : AsyncOp) : (setOp s o).cores = s.cores := rfl
@[simp] theorem setOp_tlb (s : State) (o : AsyncOp) : (setOp s o).tlb = s.tlb := rfl
@[simp] theorem setOp_walkCache (s : State) (o : AsyncOp) : (setOp s o).walkCache = s.walkCache := rfl
@[simp] theorem setOp_misses (s : State) (o : AsyncOp) : (setOp s o).misses = s.misses := rfl
@[simp] theorem setOp_ports (s : State) (o : AsyncOp) : (setOp s o).ports = s.ports := rfl
@[simp] theorem setOp_parts (s : State) (o : AsyncOp) : (setOp s o).parts = s.parts := rfl
@[simp] theorem setOp_ctxs (s : State) (o : AsyncOp) : (setOp s o).ctxs = s.ctxs := rfl
@[simp] theorem setOp_teams (s : State) (o : AsyncOp) : (setOp s o).teams = s.teams := rfl
@[simp] theorem setOp_groups (s : State) (o : AsyncOp) : (setOp s o).groups = s.groups := rfl
@[simp] theorem setOp_bins (s : State) (o : AsyncOp) : (setOp s o).bins = s.bins := rfl
@[simp] theorem setOp_launches (s : State) (o : AsyncOp) : (setOp s o).launches = s.launches := rfl
@[simp] theorem setOp_graphs (s : State) (o : AsyncOp) : (setOp s o).graphs = s.graphs := rfl
@[simp] theorem setOp_held (s : State) (o : AsyncOp) : (setOp s o).held = s.held := rfl
@[simp] theorem setOp_gsigs (s : State) (o : AsyncOp) : (setOp s o).gsigs = s.gsigs := rfl
@[simp] theorem setOp_mmas (s : State) (o : AsyncOp) : (setOp s o).mmas = s.mmas := rfl
@[simp] theorem setOp_loads (s : State) (o : AsyncOp) : (setOp s o).loads = s.loads := rfl
@[simp] theorem setOp_waits (s : State) (o : AsyncOp) : (setOp s o).waits = s.waits := rfl
@[simp] theorem setOp_deferred (s : State) (o : AsyncOp) : (setOp s o).deferred = s.deferred := rfl
@[simp] theorem setOp_pages (s : State) (o : AsyncOp) : (setOp s o).pages = s.pages := rfl
@[simp] theorem setOp_queues (s : State) (o : AsyncOp) : (setOp s o).queues = s.queues := rfl
@[simp] theorem setOp_copies (s : State) (o : AsyncOp) : (setOp s o).copies = s.copies := rfl
@[simp] theorem setOp_links (s : State) (o : AsyncOp) : (setOp s o).links = s.links := rfl
@[simp] theorem setOp_windows (s : State) (o : AsyncOp) : (setOp s o).windows = s.windows := rfl
@[simp] theorem setOp_remotes (s : State) (o : AsyncOp) : (setOp s o).remotes = s.remotes := rfl
@[simp] theorem setOp_cuts (s : State) (o : AsyncOp) : (setOp s o).cuts = s.cuts := rfl
@[simp] theorem setOp_nextId (s : State) (o : AsyncOp) : (setOp s o).nextId = s.nextId := rfl
@[simp] theorem setOp_free (s : State) (o : AsyncOp) : (setOp s o).free = s.free := rfl
@[simp] theorem setOp_inputs (s : State) (o : AsyncOp) : (setOp s o).inputs = s.inputs := rfl
@[simp] theorem setOp_work (s : State) (o : AsyncOp) : (setOp s o).work = s.work := rfl
@[simp] theorem setOp_turns (s : State) (o : AsyncOp) : (setOp s o).turns = s.turns := rfl
@[simp] theorem setOp_tick (s : State) (o : AsyncOp) : (setOp s o).tick = s.tick := rfl
@[simp] theorem setOp_cur (s : State) (o : AsyncOp) : (setOp s o).cur = s.cur := rfl

@[simp] theorem setBin_stage (s : State) (b : Bin) : (setBin s b).stage = s.stage := rfl
@[simp] theorem setBin_err (s : State) (b : Bin) : (setBin s b).err = s.err := rfl
@[simp] theorem setBin_errdie (s : State) (b : Bin) : (setBin s b).errdie = s.errdie := rfl
@[simp] theorem setBin_cecnt (s : State) (b : Bin) : (setBin s b).cecnt = s.cecnt := rfl
@[simp] theorem setBin_tempmax (s : State) (b : Bin) : (setBin s b).tempmax = s.tempmax := rfl
@[simp] theorem setBin_dies (s : State) (b : Bin) : (setBin s b).dies = s.dies := rfl
@[simp] theorem setBin_overRuns (s : State) (b : Bin) : (setBin s b).overRuns = s.overRuns := rfl
@[simp] theorem setBin_trained (s : State) (b : Bin) : (setBin s b).trained = s.trained := rfl
@[simp] theorem setBin_now (s : State) (b : Bin) : (setBin s b).now = s.now := rfl
@[simp] theorem setBin_binding (s : State) (b : Bin) : (setBin s b).binding = s.binding := rfl
@[simp] theorem setBin_mem (s : State) (b : Bin) : (setBin s b).mem = s.mem := rfl
@[simp] theorem setBin_hostMem (s : State) (b : Bin) : (setBin s b).hostMem = s.hostMem := rfl
@[simp] theorem setBin_poison (s : State) (b : Bin) : (setBin s b).poison = s.poison := rfl
@[simp] theorem setBin_hostPoison (s : State) (b : Bin) : (setBin s b).hostPoison = s.hostPoison := rfl
@[simp] theorem setBin_ws (s : State) (b : Bin) : (setBin s b).ws = s.ws := rfl
@[simp] theorem setBin_le (s : State) (b : Bin) : (setBin s b).le = s.le := rfl
@[simp] theorem setBin_hostWs (s : State) (b : Bin) : (setBin s b).hostWs = s.hostWs := rfl
@[simp] theorem setBin_hostLe (s : State) (b : Bin) : (setBin s b).hostLe = s.hostLe := rfl
@[simp] theorem setBin_devClk (s : State) (b : Bin) : (setBin s b).devClk = s.devClk := rfl
@[simp] theorem setBin_hostLines (s : State) (b : Bin) : (setBin s b).hostLines = s.hostLines := rfl
@[simp] theorem setBin_rdc (s : State) (b : Bin) : (setBin s b).rdc = s.rdc := rfl
@[simp] theorem setBin_cores (s : State) (b : Bin) : (setBin s b).cores = s.cores := rfl
@[simp] theorem setBin_tlb (s : State) (b : Bin) : (setBin s b).tlb = s.tlb := rfl
@[simp] theorem setBin_walkCache (s : State) (b : Bin) : (setBin s b).walkCache = s.walkCache := rfl
@[simp] theorem setBin_misses (s : State) (b : Bin) : (setBin s b).misses = s.misses := rfl
@[simp] theorem setBin_ports (s : State) (b : Bin) : (setBin s b).ports = s.ports := rfl
@[simp] theorem setBin_parts (s : State) (b : Bin) : (setBin s b).parts = s.parts := rfl
@[simp] theorem setBin_ctxs (s : State) (b : Bin) : (setBin s b).ctxs = s.ctxs := rfl
@[simp] theorem setBin_teams (s : State) (b : Bin) : (setBin s b).teams = s.teams := rfl
@[simp] theorem setBin_groups (s : State) (b : Bin) : (setBin s b).groups = s.groups := rfl
@[simp] theorem setBin_launches (s : State) (b : Bin) : (setBin s b).launches = s.launches := rfl
@[simp] theorem setBin_graphs (s : State) (b : Bin) : (setBin s b).graphs = s.graphs := rfl
@[simp] theorem setBin_held (s : State) (b : Bin) : (setBin s b).held = s.held := rfl
@[simp] theorem setBin_gsigs (s : State) (b : Bin) : (setBin s b).gsigs = s.gsigs := rfl
@[simp] theorem setBin_ops (s : State) (b : Bin) : (setBin s b).ops = s.ops := rfl
@[simp] theorem setBin_mmas (s : State) (b : Bin) : (setBin s b).mmas = s.mmas := rfl
@[simp] theorem setBin_loads (s : State) (b : Bin) : (setBin s b).loads = s.loads := rfl
@[simp] theorem setBin_waits (s : State) (b : Bin) : (setBin s b).waits = s.waits := rfl
@[simp] theorem setBin_deferred (s : State) (b : Bin) : (setBin s b).deferred = s.deferred := rfl
@[simp] theorem setBin_pages (s : State) (b : Bin) : (setBin s b).pages = s.pages := rfl
@[simp] theorem setBin_queues (s : State) (b : Bin) : (setBin s b).queues = s.queues := rfl
@[simp] theorem setBin_copies (s : State) (b : Bin) : (setBin s b).copies = s.copies := rfl
@[simp] theorem setBin_links (s : State) (b : Bin) : (setBin s b).links = s.links := rfl
@[simp] theorem setBin_windows (s : State) (b : Bin) : (setBin s b).windows = s.windows := rfl
@[simp] theorem setBin_remotes (s : State) (b : Bin) : (setBin s b).remotes = s.remotes := rfl
@[simp] theorem setBin_cuts (s : State) (b : Bin) : (setBin s b).cuts = s.cuts := rfl
@[simp] theorem setBin_nextId (s : State) (b : Bin) : (setBin s b).nextId = s.nextId := rfl
@[simp] theorem setBin_free (s : State) (b : Bin) : (setBin s b).free = s.free := rfl
@[simp] theorem setBin_inputs (s : State) (b : Bin) : (setBin s b).inputs = s.inputs := rfl
@[simp] theorem setBin_work (s : State) (b : Bin) : (setBin s b).work = s.work := rfl
@[simp] theorem setBin_turns (s : State) (b : Bin) : (setBin s b).turns = s.turns := rfl
@[simp] theorem setBin_tick (s : State) (b : Bin) : (setBin s b).tick = s.tick := rfl
@[simp] theorem setBin_cur (s : State) (b : Bin) : (setBin s b).cur = s.cur := rfl

@[simp] theorem owe_stage (s : State) (i : Instr) : (owe s i).stage = s.stage := by unfold owe; split <;> rfl
@[simp] theorem owe_err (s : State) (i : Instr) : (owe s i).err = s.err := by unfold owe; split <;> rfl
@[simp] theorem owe_errdie (s : State) (i : Instr) : (owe s i).errdie = s.errdie := by unfold owe; split <;> rfl
@[simp] theorem owe_cecnt (s : State) (i : Instr) : (owe s i).cecnt = s.cecnt := by unfold owe; split <;> rfl
@[simp] theorem owe_tempmax (s : State) (i : Instr) : (owe s i).tempmax = s.tempmax := by unfold owe; split <;> rfl
@[simp] theorem owe_dies (s : State) (i : Instr) : (owe s i).dies = s.dies := by unfold owe; split <;> rfl
@[simp] theorem owe_overRuns (s : State) (i : Instr) : (owe s i).overRuns = s.overRuns := by unfold owe; split <;> rfl
@[simp] theorem owe_trained (s : State) (i : Instr) : (owe s i).trained = s.trained := by unfold owe; split <;> rfl
@[simp] theorem owe_now (s : State) (i : Instr) : (owe s i).now = s.now := by unfold owe; split <;> rfl
@[simp] theorem owe_binding (s : State) (i : Instr) : (owe s i).binding = s.binding := by unfold owe; split <;> rfl
@[simp] theorem owe_mem (s : State) (i : Instr) : (owe s i).mem = s.mem := by unfold owe; split <;> rfl
@[simp] theorem owe_hostMem (s : State) (i : Instr) : (owe s i).hostMem = s.hostMem := by unfold owe; split <;> rfl
@[simp] theorem owe_poison (s : State) (i : Instr) : (owe s i).poison = s.poison := by unfold owe; split <;> rfl
@[simp] theorem owe_hostPoison (s : State) (i : Instr) : (owe s i).hostPoison = s.hostPoison := by unfold owe; split <;> rfl
@[simp] theorem owe_ws (s : State) (i : Instr) : (owe s i).ws = s.ws := by unfold owe; split <;> rfl
@[simp] theorem owe_le (s : State) (i : Instr) : (owe s i).le = s.le := by unfold owe; split <;> rfl
@[simp] theorem owe_hostWs (s : State) (i : Instr) : (owe s i).hostWs = s.hostWs := by unfold owe; split <;> rfl
@[simp] theorem owe_hostLe (s : State) (i : Instr) : (owe s i).hostLe = s.hostLe := by unfold owe; split <;> rfl
@[simp] theorem owe_devClk (s : State) (i : Instr) : (owe s i).devClk = s.devClk := by unfold owe; split <;> rfl
@[simp] theorem owe_hostLines (s : State) (i : Instr) : (owe s i).hostLines = s.hostLines := by unfold owe; split <;> rfl
@[simp] theorem owe_rdc (s : State) (i : Instr) : (owe s i).rdc = s.rdc := by unfold owe; split <;> rfl
@[simp] theorem owe_cores (s : State) (i : Instr) : (owe s i).cores = s.cores := by unfold owe; split <;> rfl
@[simp] theorem owe_tlb (s : State) (i : Instr) : (owe s i).tlb = s.tlb := by unfold owe; split <;> rfl
@[simp] theorem owe_walkCache (s : State) (i : Instr) : (owe s i).walkCache = s.walkCache := by unfold owe; split <;> rfl
@[simp] theorem owe_misses (s : State) (i : Instr) : (owe s i).misses = s.misses := by unfold owe; split <;> rfl
@[simp] theorem owe_ports (s : State) (i : Instr) : (owe s i).ports = s.ports := by unfold owe; split <;> rfl
@[simp] theorem owe_parts (s : State) (i : Instr) : (owe s i).parts = s.parts := by unfold owe; split <;> rfl
@[simp] theorem owe_ctxs (s : State) (i : Instr) : (owe s i).ctxs = s.ctxs := by unfold owe; split <;> rfl
@[simp] theorem owe_teams (s : State) (i : Instr) : (owe s i).teams = s.teams := by unfold owe; split <;> rfl
@[simp] theorem owe_groups (s : State) (i : Instr) : (owe s i).groups = s.groups := by unfold owe; split <;> rfl
@[simp] theorem owe_bins (s : State) (i : Instr) : (owe s i).bins = s.bins := by unfold owe; split <;> rfl
@[simp] theorem owe_launches (s : State) (i : Instr) : (owe s i).launches = s.launches := by unfold owe; split <;> rfl
@[simp] theorem owe_graphs (s : State) (i : Instr) : (owe s i).graphs = s.graphs := by unfold owe; split <;> rfl
@[simp] theorem owe_held (s : State) (i : Instr) : (owe s i).held = s.held := by unfold owe; split <;> rfl
@[simp] theorem owe_gsigs (s : State) (i : Instr) : (owe s i).gsigs = s.gsigs := by unfold owe; split <;> rfl
@[simp] theorem owe_ops (s : State) (i : Instr) : (owe s i).ops = s.ops := by unfold owe; split <;> rfl
@[simp] theorem owe_mmas (s : State) (i : Instr) : (owe s i).mmas = s.mmas := by unfold owe; split <;> rfl
@[simp] theorem owe_loads (s : State) (i : Instr) : (owe s i).loads = s.loads := by unfold owe; split <;> rfl
@[simp] theorem owe_waits (s : State) (i : Instr) : (owe s i).waits = s.waits := by unfold owe; split <;> rfl
@[simp] theorem owe_deferred (s : State) (i : Instr) : (owe s i).deferred = s.deferred := by unfold owe; split <;> rfl
@[simp] theorem owe_pages (s : State) (i : Instr) : (owe s i).pages = s.pages := by unfold owe; split <;> rfl
@[simp] theorem owe_queues (s : State) (i : Instr) : (owe s i).queues = s.queues := by unfold owe; split <;> rfl
@[simp] theorem owe_copies (s : State) (i : Instr) : (owe s i).copies = s.copies := by unfold owe; split <;> rfl
@[simp] theorem owe_links (s : State) (i : Instr) : (owe s i).links = s.links := by unfold owe; split <;> rfl
@[simp] theorem owe_windows (s : State) (i : Instr) : (owe s i).windows = s.windows := by unfold owe; split <;> rfl
@[simp] theorem owe_remotes (s : State) (i : Instr) : (owe s i).remotes = s.remotes := by unfold owe; split <;> rfl
@[simp] theorem owe_cuts (s : State) (i : Instr) : (owe s i).cuts = s.cuts := by unfold owe; split <;> rfl
@[simp] theorem owe_nextId (s : State) (i : Instr) : (owe s i).nextId = s.nextId := by unfold owe; split <;> rfl
@[simp] theorem owe_free (s : State) (i : Instr) : (owe s i).free = s.free := by unfold owe; split <;> rfl
@[simp] theorem owe_inputs (s : State) (i : Instr) : (owe s i).inputs = s.inputs := by unfold owe; split <;> rfl
@[simp] theorem owe_turns (s : State) (i : Instr) : (owe s i).turns = s.turns := by unfold owe; split <;> rfl
@[simp] theorem owe_tick (s : State) (i : Instr) : (owe s i).tick = s.tick := by unfold owe; split <;> rfl
@[simp] theorem owe_cur (s : State) (i : Instr) : (owe s i).cur = s.cur := by unfold owe; split <;> rfl

@[simp] theorem freeNat_stage (s : State) : (freeNat s).2.stage = s.stage := rfl
@[simp] theorem freeNat_err (s : State) : (freeNat s).2.err = s.err := rfl
@[simp] theorem freeNat_errdie (s : State) : (freeNat s).2.errdie = s.errdie := rfl
@[simp] theorem freeNat_cecnt (s : State) : (freeNat s).2.cecnt = s.cecnt := rfl
@[simp] theorem freeNat_tempmax (s : State) : (freeNat s).2.tempmax = s.tempmax := rfl
@[simp] theorem freeNat_dies (s : State) : (freeNat s).2.dies = s.dies := rfl
@[simp] theorem freeNat_overRuns (s : State) : (freeNat s).2.overRuns = s.overRuns := rfl
@[simp] theorem freeNat_trained (s : State) : (freeNat s).2.trained = s.trained := rfl
@[simp] theorem freeNat_now (s : State) : (freeNat s).2.now = s.now := rfl
@[simp] theorem freeNat_binding (s : State) : (freeNat s).2.binding = s.binding := rfl
@[simp] theorem freeNat_mem (s : State) : (freeNat s).2.mem = s.mem := rfl
@[simp] theorem freeNat_hostMem (s : State) : (freeNat s).2.hostMem = s.hostMem := rfl
@[simp] theorem freeNat_poison (s : State) : (freeNat s).2.poison = s.poison := rfl
@[simp] theorem freeNat_hostPoison (s : State) : (freeNat s).2.hostPoison = s.hostPoison := rfl
@[simp] theorem freeNat_ws (s : State) : (freeNat s).2.ws = s.ws := rfl
@[simp] theorem freeNat_le (s : State) : (freeNat s).2.le = s.le := rfl
@[simp] theorem freeNat_hostWs (s : State) : (freeNat s).2.hostWs = s.hostWs := rfl
@[simp] theorem freeNat_hostLe (s : State) : (freeNat s).2.hostLe = s.hostLe := rfl
@[simp] theorem freeNat_devClk (s : State) : (freeNat s).2.devClk = s.devClk := rfl
@[simp] theorem freeNat_hostLines (s : State) : (freeNat s).2.hostLines = s.hostLines := rfl
@[simp] theorem freeNat_rdc (s : State) : (freeNat s).2.rdc = s.rdc := rfl
@[simp] theorem freeNat_cores (s : State) : (freeNat s).2.cores = s.cores := rfl
@[simp] theorem freeNat_tlb (s : State) : (freeNat s).2.tlb = s.tlb := rfl
@[simp] theorem freeNat_walkCache (s : State) : (freeNat s).2.walkCache = s.walkCache := rfl
@[simp] theorem freeNat_misses (s : State) : (freeNat s).2.misses = s.misses := rfl
@[simp] theorem freeNat_ports (s : State) : (freeNat s).2.ports = s.ports := rfl
@[simp] theorem freeNat_parts (s : State) : (freeNat s).2.parts = s.parts := rfl
@[simp] theorem freeNat_ctxs (s : State) : (freeNat s).2.ctxs = s.ctxs := rfl
@[simp] theorem freeNat_teams (s : State) : (freeNat s).2.teams = s.teams := rfl
@[simp] theorem freeNat_groups (s : State) : (freeNat s).2.groups = s.groups := rfl
@[simp] theorem freeNat_bins (s : State) : (freeNat s).2.bins = s.bins := rfl
@[simp] theorem freeNat_launches (s : State) : (freeNat s).2.launches = s.launches := rfl
@[simp] theorem freeNat_graphs (s : State) : (freeNat s).2.graphs = s.graphs := rfl
@[simp] theorem freeNat_held (s : State) : (freeNat s).2.held = s.held := rfl
@[simp] theorem freeNat_gsigs (s : State) : (freeNat s).2.gsigs = s.gsigs := rfl
@[simp] theorem freeNat_ops (s : State) : (freeNat s).2.ops = s.ops := rfl
@[simp] theorem freeNat_mmas (s : State) : (freeNat s).2.mmas = s.mmas := rfl
@[simp] theorem freeNat_loads (s : State) : (freeNat s).2.loads = s.loads := rfl
@[simp] theorem freeNat_waits (s : State) : (freeNat s).2.waits = s.waits := rfl
@[simp] theorem freeNat_deferred (s : State) : (freeNat s).2.deferred = s.deferred := rfl
@[simp] theorem freeNat_pages (s : State) : (freeNat s).2.pages = s.pages := rfl
@[simp] theorem freeNat_queues (s : State) : (freeNat s).2.queues = s.queues := rfl
@[simp] theorem freeNat_copies (s : State) : (freeNat s).2.copies = s.copies := rfl
@[simp] theorem freeNat_links (s : State) : (freeNat s).2.links = s.links := rfl
@[simp] theorem freeNat_windows (s : State) : (freeNat s).2.windows = s.windows := rfl
@[simp] theorem freeNat_remotes (s : State) : (freeNat s).2.remotes = s.remotes := rfl
@[simp] theorem freeNat_cuts (s : State) : (freeNat s).2.cuts = s.cuts := rfl
@[simp] theorem freeNat_nextId (s : State) : (freeNat s).2.nextId = s.nextId := rfl
@[simp] theorem freeNat_inputs (s : State) : (freeNat s).2.inputs = s.inputs := rfl
@[simp] theorem freeNat_work (s : State) : (freeNat s).2.work = s.work := rfl
@[simp] theorem freeNat_turns (s : State) : (freeNat s).2.turns = s.turns := rfl
@[simp] theorem freeNat_tick (s : State) : (freeNat s).2.tick = s.tick := rfl
@[simp] theorem freeNat_cur (s : State) : (freeNat s).2.cur = s.cur := rfl

/-! ## Reading back the object that was put -/

@[simp] theorem getCore_setCore (s : State) (c : Core) : getCore (setCore s c) c.id = c := by simp [getCore, setCore]
@[simp] theorem getPart_setPart (s : State) (p : Partition) : getPart (setPart s p) p.pid = p := by simp [getPart, setPart]
@[simp] theorem getCtx_setCtx (s : State) (c : Context) : getCtx (setCtx s c) c.num = c := by simp [getCtx, setCtx]
@[simp] theorem getGroup_setGroup (s : State) (g : Group) : getGroup (setGroup s g) g.id = some g := by
  simp [getGroup, setGroup]
@[simp] theorem getTeam_setTeam (s : State) (t : Team) : getTeam (setTeam s t) t.id = some t := by simp [getTeam, setTeam]
@[simp] theorem getLaunch_setLaunch (s : State) (l : Launch) : getLaunch (setLaunch s l) l.id = some l := by
  simp [getLaunch, setLaunch]
@[simp] theorem getGraph_setGraph (s : State) (g : Graph) : getGraph (setGraph s g) g.num = some g := by
  simp [getGraph, setGraph]

theorem getGroup_setGroup_ne (s : State) (g : Group) (k : Nat) (h : k ≠ g.id) :
    getGroup (setGroup s g) k = getGroup s k := by
  simp [getGroup, setGroup, findBy_putBy_ne Group.id g s.groups k h]

/-- The later of two puts of one group stands. -/
theorem setGroup_setGroup (s : State) (g g' : Group) (h : g.id = g'.id) : setGroup (setGroup s g) g' = setGroup s g' := by
  simp [setGroup, putBy_putBy Group.id g g' s.groups h]

/-- A group read has the number it was read by. -/
theorem getGroup_id {s : State} {k : Nat} {g : Group} (h : getGroup s k = some g) : g.id = k := findBy_key Group.id h

end Sys2Proof.Machine
end

