-- ==== Sys2Proof/Laws/Lanes.lean ====
section
/-! SUPPORT. Lanes, masks and registers: what a write of a lane leaves to be read. -/

namespace Sys2Proof.Machine

/-! ## Masks -/

theorem mem_lanesOf (m : Mask) (L : Nat) : L ∈ lanesOf m ↔ L < 32 ∧ m.getLsbD L = true := by
  simp [lanesOf, List.mem_filter, List.mem_range]

theorem lanesOf_lt {m : Mask} {L : Nat} (h : L ∈ lanesOf m) : L < 32 := ((mem_lanesOf m L).mp h).1

theorem lanesOf_nodup (m : Mask) : (lanesOf m).Nodup := List.Pairwise.filter _ List.nodup_range

theorem getLsbD_laneBit (L k : Nat) (hk : k < 32) : (laneBit L).getLsbD k = decide (k = L) := by
  simp only [laneBit, BitVec.getLsbD_ofNat, hk, decide_true, Bool.true_and]
  rw [Nat.testBit_two_pow]
  simp [eq_comm]

theorem getLsbD_foldl_or (ls : List Nat) (m : Mask) (k : Nat) (hk : k < 32) :
    (ls.foldl (fun m L => m ||| laneBit L) m).getLsbD k = (m.getLsbD k || ls.contains k) := by
  induction ls generalizing m with
  | nil => simp
  | cons a r ih =>
    rw [List.foldl_cons, ih, BitVec.getLsbD_or, getLsbD_laneBit a k hk, List.contains_cons]
    by_cases h : k = a
    · simp [h]
    · have : (k == a) = false := by simp [h]
      simp [h, this]

theorem getLsbD_maskOf (ls : List Nat) (k : Nat) (hk : k < 32) : (maskOf ls).getLsbD k = ls.contains k := by
  rw [maskOf, getLsbD_foldl_or _ _ _ hk]; simp

theorem mask_ext {a b : Mask} (h : ∀ k, k < 32 → a.getLsbD k = b.getLsbD k) : a = b :=
  BitVec.eq_of_getLsbD_eq fun i hi => h i hi

@[simp] theorem maskOf_lanesOf (m : Mask) : maskOf (lanesOf m) = m := by
  refine mask_ext fun k hk => ?_
  rw [getLsbD_maskOf _ _ hk, Bool.eq_iff_iff, List.contains_iff_mem, mem_lanesOf]
  simp [hk]

theorem getLsbD_lanesWhere (m : Mask) (p : Nat → Bool) (k : Nat) (hk : k < 32) :
    (lanesWhere m p).getLsbD k = (m.getLsbD k && p k) := by
  rw [lanesWhere, getLsbD_maskOf _ _ hk, Bool.eq_iff_iff, List.contains_iff_mem, List.mem_filter, mem_lanesOf]
  simp [hk]

theorem lanesOf_eq_nil (m : Mask) : lanesOf m = [] ↔ m = 0 := by
  constructor
  · intro h
    have := maskOf_lanesOf m
    rw [h] at this
    exact this.symm
  · rintro rfl; decide

@[simp] theorem lanesOf_zero : lanesOf 0 = [] := by decide

theorem lowestLane_mem {m : Mask} (h : m ≠ 0) : lowestLane m ∈ lanesOf m := by
  unfold lowestLane
  cases e : lanesOf m with
  | nil => exact absurd ((lanesOf_eq_nil m).mp e) h
  | cons a r => simp

/-! ## One register of one lane -/

theorem getV_setV (g : Group) (r L r' L' : Nat) (v : W32) (hL : L < 32) (hL' : L' < 32) :
    getV (setV g r L v) r' L' = if r' = r ∧ L' = L then v else getV g r' L' := by
  simp only [getV, setV, sget_sset_eq]
  congr 1
  simp only [eq_iff_iff]
  omega

/-- A write of vector registers leaves the rest of the group. -/
def Group.withV (g g' : Group) : Group := { g with vregs := g'.vregs }

theorem setV_withV (g : Group) (r L : Nat) (v : W32) : setV g r L v = g.withV (setV g r L v) := rfl
theorem setV64_withV (g : Group) (r L : Nat) (v : W64) : setV64 g r L v = g.withV (setV64 g r L v) := rfl
theorem Group.withV_trans {g g' g'' : Group} (h : g' = g.withV g') (h' : g'' = g'.withV g'') : g'' = g.withV g'' := by
  rw [h', h]; rfl

/-- The 32 bits that a write of a 32-bit value, or of a pair, leaves in register r of a lane. -/
def laneResult (d : Nat) (w : Bool) (x old : Nat) (r : Nat) : W32 :=
  if r = d then BitVec.ofNat 32 x else if w ∧ r = d + 1 then BitVec.ofNat 32 (x / 2 ^ 32) else BitVec.ofNat 32 old

theorem getV_setV64 (g : Group) (r L r' L' : Nat) (v : W64) (hL : L < 32) (hL' : L' < 32) :
    getV (setV64 g r L v) r' L' =
      if L' = L ∧ r' = r then v.extractLsb' 0 32 else if L' = L ∧ r' = r + 1 then v.extractLsb' 32 32 else getV g r' L' := by
  rw [setV64, getV_setV _ _ _ _ _ _ hL hL', getV_setV _ _ _ _ _ _ hL hL']
  by_cases h1 : L' = L <;> by_cases h2 : r' = r <;> by_cases h3 : r' = r + 1 <;> simp [h1, h2, h3]

/-! ## Results per lane -/

theorem writeLanes_withV (g : Group) (d : Nat) (w : Bool) (lanes : Mask) (v : Nat → Nat) :
    writeLanes g d w lanes v = g.withV (writeLanes g d w lanes v) := by
  unfold writeLanes
  generalize lanesOf lanes = ls
  induction ls generalizing g with
  | nil => rfl
  | cons a r ih =>
    rw [List.foldl_cons]
    refine Group.withV_trans ?_ (ih _)
    split
    · rfl
    · rfl

theorem getV_foldl_setV (g : Group) (d : Nat) (ls : List Nat) (v : Nat → Nat) (hls : ∀ L ∈ ls, L < 32) (r L : Nat)
    (hL : L < 32) :
    getV (ls.foldl (fun g L => setV g d L (BitVec.ofNat 32 (v L))) g) r L =
      if L ∈ ls ∧ r = d then BitVec.ofNat 32 (v L) else getV g r L := by
  induction ls generalizing g with
  | nil => simp
  | cons a t ih =>
    rw [List.foldl_cons, ih _ fun x hx => hls x (List.mem_cons_of_mem _ hx),
      getV_setV _ _ _ _ _ _ (hls a List.mem_cons_self) hL]
    by_cases h1 : L ∈ t <;> by_cases h2 : r = d <;> by_cases h3 : L = a <;> simp_all

theorem getV_foldl_setV64 (g : Group) (d : Nat) (ls : List Nat) (v : Nat → Nat) (hls : ∀ L ∈ ls, L < 32) (r L : Nat)
    (hL : L < 32) :
    getV (ls.foldl (fun g L => setV64 g d L (BitVec.ofNat 64 (v L))) g) r L =
      if L ∈ ls ∧ r = d then BitVec.ofNat 32 (v L)
      else if L ∈ ls ∧ r = d + 1 then BitVec.ofNat 32 (v L / 2 ^ 32) else getV g r L := by
  induction ls generalizing g with
  | nil => simp
  | cons a t ih =>
    have e0 : (BitVec.ofNat 64 (v a)).extractLsb' 0 32 = BitVec.ofNat 32 (v a) := by
      apply BitVec.eq_of_toNat_eq
      simp [BitVec.extractLsb'_toNat]
    have e1 : (BitVec.ofNat 64 (v a)).extractLsb' 32 32 = BitVec.ofNat 32 (v a / 2 ^ 32) := by
      apply BitVec.eq_of_toNat_eq
      simp [BitVec.extractLsb'_toNat, Nat.shiftRight_eq_div_pow]
      omega
    rw [List.foldl_cons, ih _ fun x hx => hls x (List.mem_cons_of_mem _ hx),
      getV_setV64 _ _ _ _ _ _ (hls a List.mem_cons_self) hL, e0, e1]
    by_cases h1 : L ∈ t <;> by_cases h2 : r = d <;> by_cases h4 : r = d + 1 <;> by_cases h3 : L = a <;> simp_all

/-- What `writeLanes` leaves in every vector register of every lane (R44, R49). -/
theorem getV_writeLanes (g : Group) (d : Nat) (w : Bool) (lanes : Mask) (v : Nat → Nat) (r L : Nat) (hL : L < 32) :
    getV (writeLanes g d w lanes v) r L =
      if lanes.getLsbD L = true ∧ r = d then BitVec.ofNat 32 (v L)
      else if w = true ∧ lanes.getLsbD L = true ∧ r = d + 1 then BitVec.ofNat 32 (v L / 2 ^ 32) else getV g r L := by
  have hm : L ∈ lanesOf lanes ↔ lanes.getLsbD L = true := by rw [mem_lanesOf]; simp [hL]
  unfold writeLanes
  cases w
  · simp only [Bool.false_eq_true, if_false, false_and]
    rw [getV_foldl_setV _ _ _ _ (fun _ h => lanesOf_lt h) _ _ hL]
    simp only [hm]
  · simp only [if_true, true_and]
    rw [getV_foldl_setV64 _ _ _ _ (fun _ h => lanesOf_lt h) _ _ hL]
    simp only [hm]

/-! ## Scalar results -/

theorem getS_setS (g : Group) (r r' : Nat) (v : W64) : getS (setS g r v) r' = if r' = r then v else getS g r' := by
  simp [getS, setS, sget_sset_eq]

theorem getS_writeScalar (g : Group) (d : Nat) (w : Bool) (lanes : Mask) (v r : Nat) :
    getS (writeScalar g d w lanes v) r =
      if lanes ≠ 0 ∧ r = d then BitVec.ofNat 64 (if w then v else v % 2 ^ 32) else getS g r := by
  unfold writeScalar
  split
  · rename_i h; simp [h]
  · rename_i h
    have h' : lanes ≠ 0 := h
    rw [getS_setS]; simp only [h', ne_eq, not_false_eq_true, true_and]

theorem writeScalar_rest (g : Group) (d : Nat) (w : Bool) (lanes : Mask) (v : Nat) :
    writeScalar g d w lanes v = { g with sregs := (writeScalar g d w lanes v).sregs } := by
  unfold writeScalar
  split <;> rfl

/-! ## Predicates -/

theorem getP_setP (g : Group) (n L m K : Nat) (b : Bool) (hK : K < 32) :
    getP (setP g n L b) m K = if n ≠ 15 ∧ m = n ∧ K = L then b else getP g m K := by
  by_cases h : n = 15
  · subst h; simp [setP]
  · by_cases hm : m = n
    · subst hm
      simp only [getP, predLanes, setP, h, if_false, sget_sset, ne_eq, not_false_eq_true, true_and]
      cases b
      · simp only [BitVec.getLsbD_and, BitVec.getLsbD_not, getLsbD_laneBit _ _ hK, Bool.false_eq_true, if_false]
        by_cases e : K = L <;> simp [e, hK]
      · simp only [BitVec.getLsbD_or, getLsbD_laneBit _ _ hK, if_true]
        by_cases e : K = L <;> simp [e]
    · simp only [getP, predLanes, setP, h, if_false, sget_sset_ne _ _ hm]
      simp [hm]

theorem getP_writePred (g : Group) (d : Nat) (lanes : Mask) (v : Nat → Bool) (m K : Nat) (hK : K < 32) :
    getP (writePred g d lanes v) m K =
      if d ≠ 15 ∧ m = d ∧ lanes.getLsbD K = true then v K else getP g m K := by
  have hm : K ∈ lanesOf lanes ↔ lanes.getLsbD K = true := by rw [mem_lanesOf]; simp [hK]
  simp only [← hm]
  unfold writePred
  generalize lanesOf lanes = ls
  induction ls generalizing g with
  | nil => simp
  | cons a t ih =>
    rw [List.foldl_cons, ih, getP_setP _ _ _ _ _ _ hK]
    by_cases h0 : d = 15 <;> by_cases h1 : K ∈ t <;> by_cases h2 : m = d <;> by_cases h3 : K = a <;> simp_all

theorem setP_rest (g : Group) (n L : Nat) (b : Bool) : setP g n L b = { g with preds := (setP g n L b).preds } := by
  unfold setP; split <;> rfl

theorem writePred_rest (g : Group) (d : Nat) (lanes : Mask) (v : Nat → Bool) :
    writePred g d lanes v = { g with preds := (writePred g d lanes v).preds } := by
  unfold writePred
  generalize lanesOf lanes = ls
  induction ls generalizing g with
  | nil => rfl
  | cons a t ih =>
    rw [List.foldl_cons, ih (setP g d a (v a)), setP_rest]

end Sys2Proof.Machine
end

