-- ==== Sys2Proof/Laws/Issue.lean ====
section
/-! SUPPORT. What issuing a word does: the issuing fragment, the sides of its group afterwards, and the state that a word's
effect ends in. -/

namespace Sys2Proof.Machine

/-! ## The issuing fragment -/

/-- The lanes of the sides that a property picks. -/
theorem getLsbD_foldl_lanes (l : List Side) (m : Mask) (k : Nat) :
    (l.foldl (fun m x => m ||| x.lanes) m).getLsbD k = (m.getLsbD k || l.any fun x => x.lanes.getLsbD k) := by
  induction l generalizing m with
  | nil => simp
  | cons a r ih => rw [List.foldl_cons, ih, List.any_cons, BitVec.getLsbD_or, Bool.or_assoc]

theorem foldl_lanes_ne_zero {l : List Side} (h : l.foldl (fun m x => m ||| x.lanes) 0 ≠ (0 : Mask)) :
    ∃ x ∈ l, x.lanes ≠ 0 := by
  by_cases e : ∃ x ∈ l, x.lanes ≠ 0
  · exact e
  · exfalso
    apply h
    apply BitVec.eq_of_getLsbD_eq
    intro i hi
    rw [getLsbD_foldl_lanes]
    simp only [BitVec.ofNat_eq_ofNat, BitVec.getLsbD_zero, Bool.false_or]
    rw [List.any_eq_false]
    intro x hx
    have : x.lanes = 0 := by
      by_cases c : x.lanes = 0
      · exact c
      · exact absurd ⟨x, hx, c⟩ e
    rw [this]; simp

theorem sameFragment_running {a b : Side} (h : a.sameFragment b = true) : b.st = .running := by
  simp only [Side.sameFragment, Bool.and_eq_true, decide_eq_true_eq] at h
  exact h.1.1.1.1.1.1.1.2

/-- Sides of one fragment have the same others. -/
theorem sameFragment_eq {a b : Side} (h : a.sameFragment b = true) : b.sameFragment = a.sameFragment := by
  simp only [Side.sameFragment, Bool.and_eq_true, decide_eq_true_eq] at h
  obtain ⟨⟨⟨⟨⟨⟨⟨⟨ha, hb⟩, h1⟩, h2⟩, h3⟩, h4⟩, h5⟩, h6⟩, h7⟩ := h
  funext x
  simp only [Side.sameFragment, ha, hb, h1, h2, h3, h4, h5, h6, h7]

theorem issuing_spec {s : State} {F : Frag} (h : issuing s = some F) :
    getGroup s F.g.id = some F.g ∧ F.key ∈ F.g.sides ∧ F.key.st = .running
      ∧ F.lanes = (F.g.sides.filter fun x => F.key.sameFragment x).foldl (fun m x => m ||| x.lanes) 0 := by
  unfold issuing at h
  cases hc : s.cur with
  | none => rw [hc] at h; cases h
  | some p =>
    rw [hc] at h
    simp only [Option.bind_some, fragAt] at h
    split at h
    · cases h
    · rename_i g hg
      split at h
      · cases h
      · rename_i k hk
        have hid : g.id = p.1 := getGroup_id hg
        have hr : k.st = .running := by
          have := List.find?_some hk
          simp only [Bool.and_eq_true, decide_eq_true_eq] at this
          exact this.2
        have hkey : ∀ k', (((g.sides.filter fun x => k.sameFragment x).find? Side.handler).getD k) = k' →
            k' ∈ g.sides ∧ k'.st = .running ∧ k'.sameFragment = k.sameFragment := by
          intro k' e
          cases hf : (g.sides.filter fun x => k.sameFragment x).find? Side.handler with
          | none =>
            rw [hf] at e
            exact e ▸ ⟨List.mem_of_find?_eq_some hk, hr, rfl⟩
          | some y =>
            rw [hf] at e
            obtain ⟨hy, hs⟩ := List.mem_filter.mp (List.mem_of_find?_eq_some hf)
            exact e ▸ ⟨hy, sameFragment_running hs, sameFragment_eq hs⟩
        cases h
        obtain ⟨h1, h2, h3⟩ := hkey _ rfl
        exact ⟨by rw [hid]; exact hg, h1, h2, by simp only [h3]⟩

/-- F's lanes are those of its sides: one of them has lanes. -/
theorem issuing_side {s : State} {F : Frag} (h : issuing s = some F) (hl : F.lanes ≠ 0) :
    ∃ x ∈ F.g.sides, F.key.sameFragment x = true ∧ x.lanes ≠ 0 ∧ x.st = .running := by
  obtain ⟨-, -, -, hlanes⟩ := issuing_spec h
  rw [hlanes] at hl
  obtain ⟨x, hx, hn⟩ := foldl_lanes_ne_zero hl
  rw [List.mem_filter] at hx
  exact ⟨x, hx.1, hx.2, hn, sameFragment_running hx.2⟩

/-! ## Sides at rest -/

/-- Slice s has a front side, or none that pends. -/
def sliceRests (s : Nat) (l : List Side) : Prop :=
  (l.any fun x => x.slice = s && x.front) = true ∨ ∀ x ∈ l, x.slice = s → x.st ≠ .pending

theorem promoteFirst_of_none {s : Nat} {l : List Side} (h : ∀ x ∈ l, x.slice = s → x.st ≠ .pending) :
    promoteFirst s l = l := by
  induction l with
  | nil => rfl
  | cons a r ih =>
    have : (a.slice = s && a.st = .pending) = false := by
      by_cases c : a.slice = s
      · simp [c, h a List.mem_cons_self c]
      · simp [c]
    rw [promoteFirst, this]
    simp only [Bool.false_eq_true, if_false]
    rw [ih fun x hx => h x (List.mem_cons_of_mem _ hx)]

/-- One slice's turn in `normSides`. -/
def restSlice (l : List Side) (s : Nat) : List Side :=
  if l.any fun x => x.slice = s && x.front then l else promoteFirst s l

theorem restSlice_of_rests {s : Nat} {l : List Side} (h : sliceRests s l) : restSlice l s = l := by
  unfold restSlice
  rcases h with h | h
  · rw [if_pos h]
  · split
    · rfl
    · exact promoteFirst_of_none h

theorem promoteFirst_rests (s : Nat) (l : List Side) : sliceRests s (promoteFirst s l) := by
  induction l with
  | nil => right; intro x hx; cases hx
  | cons a r ih =>
    unfold promoteFirst
    split
    · rename_i h
      simp only [Bool.and_eq_true, decide_eq_true_eq] at h
      left
      simp [List.any_cons, h.1, Side.front]
    · rename_i h
      rcases ih with ih | ih
      · left; simp only [List.any_cons, ih, Bool.or_true]
      · right
        intro x hx hs
        rcases List.mem_cons.mp hx with hx | hx
        · subst hx
          intro hp
          simp [hs, hp] at h
        · exact ih x hx hs

theorem promoteFirst_filter {s s' : Nat} (hne : s' ≠ s) (l : List Side) :
    (promoteFirst s l).filter (fun x => x.slice = s') = l.filter fun x => x.slice = s' := by
  induction l with
  | nil => rfl
  | cons a r ih =>
    unfold promoteFirst
    split
    · rename_i hc
      simp only [Bool.and_eq_true, decide_eq_true_eq] at hc
      have : ¬ a.slice = s' := fun e => hne (e.symm.trans hc.1)
      rw [List.filter_cons_of_neg (by simpa using this), List.filter_cons_of_neg (by simpa using this)]
    · by_cases c : a.slice = s'
      · rw [List.filter_cons_of_pos (by simpa using c), List.filter_cons_of_pos (by simpa using c), ih]
      · rw [List.filter_cons_of_neg (by simpa using c), List.filter_cons_of_neg (by simpa using c), ih]

theorem sliceRests_congr {s : Nat} {l l' : List Side}
    (h : l.filter (fun x => x.slice = s) = l'.filter fun x => x.slice = s) (hr : sliceRests s l) : sliceRests s l' := by
  rcases hr with hr | hr
  · left
    rw [List.any_eq_true] at hr ⊢
    obtain ⟨x, hx, hp⟩ := hr
    simp only [Bool.and_eq_true, decide_eq_true_eq] at hp
    have : x ∈ l.filter fun x => x.slice = s := List.mem_filter.mpr ⟨hx, by simpa using hp.1⟩
    rw [h] at this
    exact ⟨x, (List.mem_filter.mp this).1, by simp [hp.1, hp.2]⟩
  · right
    intro x hx hs
    have : x ∈ l'.filter fun x => x.slice = s := List.mem_filter.mpr ⟨hx, by simpa using hs⟩
    rw [← h] at this
    exact hr x (List.mem_filter.mp this).1 hs

theorem restSlice_rests (s : Nat) (l : List Side) : sliceRests s (restSlice l s) := by
  unfold restSlice
  split
  · left; assumption
  · exact promoteFirst_rests s l

theorem restSlice_other {s s' : Nat} (hne : s' ≠ s) {l : List Side} (h : sliceRests s' l) : sliceRests s' (restSlice l s) := by
  unfold restSlice
  split
  · exact h
  · exact sliceRests_congr (promoteFirst_filter hne l).symm h

theorem foldl_rests (ss : List Nat) (hs : ss.Nodup) (l : List Side) (s : Nat) (h : s ∈ ss ∨ sliceRests s l) :
    sliceRests s (ss.foldl restSlice l) := by
  induction ss generalizing l with
  | nil => rcases h with h | h; cases h; exact h
  | cons a r ih =>
    rw [List.foldl_cons]
    have hn := List.nodup_cons.mp hs
    refine ih hn.2 _ ?_
    rcases h with h | h
    · rcases List.mem_cons.mp h with h | h
      · right; subst h; exact restSlice_rests s l
      · exact .inl h
    · by_cases c : s = a
      · right; subst c; exact restSlice_rests s l
      · right; exact restSlice_other c h

theorem foldl_of_rests (ss : List Nat) (l : List Side) (h : ∀ s ∈ ss, sliceRests s l) : ss.foldl restSlice l = l := by
  induction ss with
  | nil => rfl
  | cons a r ih =>
    rw [List.foldl_cons, restSlice_of_rests (h a List.mem_cons_self)]
    exact ih fun s hs => h s (List.mem_cons_of_mem _ hs)

theorem normSides_eq (l : List Side) : normSides l = (List.range 8).foldl restSlice (l.filter fun x => x.lanes != 0) := rfl

/-- What promotion leaves of a side: its lanes, its slice and its PC; only a pending side changes. -/
theorem mem_promoteFirst {s : Nat} {l : List Side} {x : Side} (h : x ∈ promoteFirst s l) :
    x ∈ l ∨ ∃ y ∈ l, y.st = .pending ∧ x = { y with st := .running } := by
  induction l with
  | nil => cases h
  | cons a r ih =>
    unfold promoteFirst at h
    split at h
    · rename_i hc
      simp only [Bool.and_eq_true, decide_eq_true_eq] at hc
      rcases List.mem_cons.mp h with h | h
      · exact .inr ⟨a, List.mem_cons_self, hc.2, h⟩
      · exact .inl (List.mem_cons_of_mem _ h)
    · rcases List.mem_cons.mp h with h | h
      · exact .inl (h ▸ List.mem_cons_self)
      · rcases ih h with ih | ⟨y, hy, h1, h2⟩
        · exact .inl (List.mem_cons_of_mem _ ih)
        · exact .inr ⟨y, List.mem_cons_of_mem _ hy, h1, h2⟩

theorem promoteFirst_keeps {s : Nat} {l : List Side} {x : Side} (h : x ∈ l) (hx : x.st ≠ .pending) :
    x ∈ promoteFirst s l := by
  induction l with
  | nil => cases h
  | cons a r ih =>
    unfold promoteFirst
    split
    · rename_i hc
      simp only [Bool.and_eq_true, decide_eq_true_eq] at hc
      rcases List.mem_cons.mp h with h | h
      · exact absurd hc.2 (h ▸ hx)
      · exact List.mem_cons_of_mem _ h
    · rcases List.mem_cons.mp h with h | h
      · exact h ▸ List.mem_cons_self
      · exact List.mem_cons_of_mem _ (ih h)

theorem restSlice_keeps {s : Nat} {l : List Side} {x : Side} (h : x ∈ l) (hx : x.st ≠ .pending) : x ∈ restSlice l s := by
  unfold restSlice
  split
  · exact h
  · exact promoteFirst_keeps h hx

theorem foldl_keeps (ss : List Nat) {l : List Side} {x : Side} (h : x ∈ l) (hx : x.st ≠ .pending) :
    x ∈ ss.foldl restSlice l := by
  induction ss generalizing l with
  | nil => exact h
  | cons a r ih => exact ih (restSlice_keeps h hx)

/-- A side with lanes that does not pend stays as it is. -/
theorem mem_normSides {l : List Side} {x : Side} (h : x ∈ l) (hl : x.lanes ≠ 0) (hx : x.st ≠ .pending) :
    x ∈ normSides l := foldl_keeps _ (List.mem_filter.mpr ⟨h, by simpa using hl⟩) hx

/-- A property of the lanes, the slice and the PC of each side, and of its state unless it runs, is kept. -/
theorem foldl_rest_forall (p : Side → Prop) (hp : ∀ x : Side, p x → x.st = .pending → p { x with st := .running })
    (ss : List Nat) (l : List Side) (h : ∀ x ∈ l, p x) : ∀ x ∈ ss.foldl restSlice l, p x := by
  induction ss generalizing l with
  | nil => exact h
  | cons a r ih =>
    refine ih _ fun x hx => ?_
    unfold restSlice at hx
    split at hx
    · exact h x hx
    · rcases mem_promoteFirst hx with hx | ⟨y, hy, h1, h2⟩
      · exact h x hx
      · exact h2 ▸ hp y (h y hy) h1

theorem normSides_lanes (l : List Side) : ∀ x ∈ normSides l, x.lanes ≠ 0 :=
  foldl_rest_forall (fun x => x.lanes ≠ 0) (fun _ h _ => h) _ _ fun x hx => by
    have := (List.mem_filter.mp hx).2
    simpa using this

/-- Sides at rest stay so. -/
theorem normSides_idem (l : List Side) : normSides (normSides l) = normSides l := by
  have h1 : ((normSides l).filter fun x => x.lanes != 0) = normSides l := by
    rw [List.filter_eq_self]
    intro x hx
    simpa using normSides_lanes l x hx
  rw [normSides_eq (normSides l), h1]
  refine foldl_of_rests _ _ fun s hs => ?_
  rw [normSides_eq]
  exact foldl_rests _ List.nodup_range _ _ (.inl hs)

/-! ## The sides that wait at TRET -/

theorem any_promoteFirst {q : Side → Bool} (hq : ∀ x : Side, x.st = .pending → q { x with st := .running } = q x) (s : Nat)
    (l : List Side) : (promoteFirst s l).any q = l.any q := by
  induction l with
  | nil => rfl
  | cons a r ih =>
    unfold promoteFirst
    split
    · rename_i hc
      simp only [Bool.and_eq_true, decide_eq_true_eq] at hc
      rw [List.any_cons, List.any_cons, hq a hc.2]
    · rw [List.any_cons, List.any_cons, ih]

theorem any_foldl_rest {q : Side → Bool} (hq : ∀ x : Side, x.st = .pending → q { x with st := .running } = q x)
    (ss : List Nat) (l : List Side) : (ss.foldl restSlice l).any q = l.any q := by
  induction ss generalizing l with
  | nil => rfl
  | cons a r ih =>
    rw [List.foldl_cons, ih]
    unfold restSlice
    split
    · rfl
    · exact any_promoteFirst hq a l

/-- What is true of some side with lanes, and does not tell pending from running, `normSides` keeps. -/
theorem any_normSides {q : Side → Bool} (h0 : ∀ x : Side, x.lanes = 0 → q x = false)
    (hq : ∀ x : Side, x.st = .pending → q { x with st := .running } = q x) (l : List Side) :
    (normSides l).any q = l.any q := by
  rw [normSides_eq, any_foldl_rest hq, List.any_filter]
  congr 1
  funext x
  by_cases c : x.lanes = 0
  · rw [h0 x c, Bool.and_false]
  · have : (x.lanes != 0) = true := by simpa using c
    rw [this, Bool.true_and]

/-- The lanes of a group that wait at the gather of TRET. -/
def tretLanes (g : Group) : Mask := (g.sides.filter Side.atTret).foldl (fun m x => m ||| x.lanes) 0

theorem tretGathered_none (g : Group) :
    tretGathered g = none ↔ (g.tm && tretLanes g != 0 && liveLanes g &&& g.trapLanes &&& ~~~(tretLanes g) = 0) = false := by
  unfold tretGathered
  simp only
  show (if (g.tm && tretLanes g != 0 && decide (liveLanes g &&& g.trapLanes &&& ~~~(tretLanes g) = 0)) = true then
    some _ else none) = none ↔ _
  cases (g.tm && tretLanes g != 0 && decide (liveLanes g &&& g.trapLanes &&& ~~~(tretLanes g) = 0)) <;> simp

theorem foldl_lanes_congr {l l' : List Side}
    (h : ∀ k, (l.any fun x => x.lanes.getLsbD k) = l'.any fun x => x.lanes.getLsbD k) :
    l.foldl (fun m x => m ||| x.lanes) (0 : Mask) = l'.foldl (fun m x => m ||| x.lanes) 0 := by
  apply BitVec.eq_of_getLsbD_eq
  intro i hi
  rw [getLsbD_foldl_lanes, getLsbD_foldl_lanes, h]

/-- Whether a trap is about to end depends on the lanes of the sides, and of those at TRET, only. -/
theorem trapHeldOpen_congr {g g' : Group} (htm : g'.tm = g.tm) (hT : g'.trapLanes = g.trapLanes)
    (hl : ∀ k, (g'.sides.any fun x => x.lanes.getLsbD k) = g.sides.any fun x => x.lanes.getLsbD k)
    (ht : ∀ k, (g'.sides.any fun x => x.atTret && x.lanes.getLsbD k) = g.sides.any fun x => x.atTret && x.lanes.getLsbD k)
    (h : trapHeldOpen g) : trapHeldOpen g' := by
  have e1 : liveLanes g' = liveLanes g := foldl_lanes_congr hl
  have e2 : tretLanes g' = tretLanes g := by
    apply BitVec.eq_of_getLsbD_eq
    intro i hi
    unfold tretLanes
    rw [getLsbD_foldl_lanes, getLsbD_foldl_lanes, List.any_filter, List.any_filter, ht]
  rcases h with h | ⟨h1, h2⟩
  · left; rw [htm, h]
  · right
    rw [tretGathered_none] at h1 ⊢
    rw [htm, hT, e1, e2]
    exact ⟨h1, h2⟩

theorem any_normSides_lane (l : List Side) (k : Nat) :
    ((normSides l).any fun x => x.lanes.getLsbD k) = l.any fun x => x.lanes.getLsbD k :=
  any_normSides (q := fun x => x.lanes.getLsbD k) (fun x hx => by simp [hx]) (fun _ _ => rfl) l

theorem any_normSides_tret (l : List Side) (k : Nat) :
    ((normSides l).any fun x => x.atTret && x.lanes.getLsbD k) = l.any fun x => x.atTret && x.lanes.getLsbD k :=
  any_normSides (q := fun x => x.atTret && x.lanes.getLsbD k) (fun x hx => by simp [hx])
    (fun x hx => by simp [Side.atTret, hx]) l

theorem trapHeldOpen_sides {g : Group} (l : List Side)
    (hl : ∀ k, (l.any fun x => x.lanes.getLsbD k) = g.sides.any fun x => x.lanes.getLsbD k)
    (ht : ∀ k, (l.any fun x => x.atTret && x.lanes.getLsbD k) = g.sides.any fun x => x.atTret && x.lanes.getLsbD k)
    (h : trapHeldOpen g) : trapHeldOpen { g with sides := l } :=
  trapHeldOpen_congr (g := g) (g' := { g with sides := l }) rfl rfl hl ht h

theorem trapHeldOpen_normSides {g : Group} (h : trapHeldOpen g) : trapHeldOpen { g with sides := normSides g.sides } :=
  trapHeldOpen_sides _ (any_normSides_lane g.sides) (any_normSides_tret g.sides) h

theorem settleTrap_open {s : State} {gid : Nat} {g : Group} (hg : getGroup s gid = some g) (h : trapHeldOpen g) :
    settleTrap s gid = s := by
  unfold settleTrap
  rw [hg]
  rcases h with h | ⟨h1, h2⟩
  · have : tretGathered g = none := by rw [tretGathered_none, h]; rfl
    simp [this, h]
  · simp only [h1]
    rw [if_neg]
    simp only [Bool.and_eq_true, decide_eq_true_eq, not_and]
    intro _
    exact h2

theorem settleGate_running {s : State} {gid : Nat} {g : Group} (hg : getGroup s gid = some g) {x : Side} (hx : x ∈ g.sides)
    (hr : x.st = .running) : settleGate s gid = s := by
  unfold settleGate
  rw [hg]
  have h1 : (g.sides.all fun x => decide (x.st = .gateSave)) = false := by
    rw [List.all_eq_false]
    exact ⟨x, hx, by simp [hr]⟩
  have h2 : (g.sides.all fun x => decide (x.st = .gateHalt)) = false := by
    rw [List.all_eq_false]
    exact ⟨x, hx, by simp [hr]⟩
  simp [h1, h2]

theorem settleBlocked_running {s : State} {gid : Nat} {g : Group} (hg : getGroup s gid = some g) {x : Side}
    (hx : x ∈ g.sides) (hr : x.st = .running) : settleBlocked s gid = s := by
  unfold settleBlocked
  rw [hg]
  have h1 : (g.sides.any fun x => decide (x.st = .running)) = true := by
    rw [List.any_eq_true]
    exact ⟨x, hx, by simp [hr]⟩
  simp [h1]

theorem getGroup_put {s : State} {g : Group} {gid : Nat} (h : g.id = gid) : getGroup (setGroup s g) gid = some g := by
  rw [← h]; exact getGroup_setGroup s g

/-- The end of a word that leaves a running side, in a group whose trap is not about to end: the sides come to rest. -/
theorem settle_open {s : State} {gid : Nat} {g : Group} (hg : getGroup s gid = some g) (ho : trapHeldOpen g) {x : Side}
    (hx : x ∈ g.sides) (hl : x.lanes ≠ 0) (hr : x.st = .running) :
    settle s gid = setGroup s { g with sides := normSides g.sides } := by
  have hn : x ∈ normSides g.sides := mem_normSides hx hl (by simp [hr])

  have ho' := trapHeldOpen_normSides ho
  have hi := normSides_idem g.sides
  unfold settle
  rw [hg]
  simp only
  have hid : g.id = gid := getGroup_id hg
  generalize normSides g.sides = l at *
  have hg' := getGroup_put (s := s) (g := { g with sides := l }) hid
  rw [settleTrap_open hg' ho', settleGate_running hg' hn hr, hg']
  simp only
  split
  · rfl
  · rw [hi]
    have e := setGroup_setGroup s { g with sides := l } { g with sides := l } rfl
    rw [e, if_neg (List.ne_nil_of_mem hn)]
    exact settleBlocked_running hg' hn hr

/-! ## The end of a word -/

theorem sameFragment_goto_lanes (x : Side) (pc : W64) : (x.goto pc).lanes = x.lanes ∧ (x.goto pc).st = x.st := ⟨rfl, rfl⟩

/-- Sides that move on keep whether a trap is about to end. -/
theorem trapHeldOpen_move {g : Group} (k : Side) (to_ : Side → W64) (h : trapHeldOpen g) :
    trapHeldOpen { g with sides := g.sides.map fun x => if k.sameFragment x then x.goto (to_ x) else x } := by
  refine trapHeldOpen_sides _ (fun n => ?_) (fun n => ?_) h
  · rw [List.any_map]
    congr 1
    funext x
    simp only [Function.comp]
    split <;> rfl
  · rw [List.any_map]
    congr 1
    funext x
    simp only [Function.comp]
    split <;> rfl

/-- The word of a fragment that is done, where its effect has left the group's sides and its trap state as they were: every
lane of F goes to PC + 16. -/
theorem finish_done {s s' : State} {F : Frag} (hF : issuing s = some F) (hq : F.quiet) {g : Group}
    (hg : getGroup s' F.g.id = some g) (hs : g.sides = F.g.sides) (htm : g.tm = F.g.tm) (hT : g.trapLanes = F.g.trapLanes) :
    finish F.g.id F.key (.done s') = setGroup s' { g with sides := nextSides F } := by
  obtain ⟨x, hx, hsame, hl, hr⟩ := issuing_side hF hq.1
  have hid : g.id = F.g.id := getGroup_id hg
  have ho : trapHeldOpen g := by
    have h := hq.2
    refine trapHeldOpen_congr (g := F.g) htm hT (fun k => by rw [hs]) (fun k => by rw [hs]) h
  unfold finish advance
  simp only [hg]
  have hg' : getGroup (setGroup s' (mapFrag g F.key fun x => x.goto (x.pc + 16))) F.g.id
      = some (mapFrag g F.key fun x => x.goto (x.pc + 16)) := by
    rw [← hid]; exact getGroup_setGroup s' (mapFrag g F.key fun x => x.goto (x.pc + 16))
  have hx' : x.goto (x.pc + 16) ∈ (mapFrag g F.key fun x => x.goto (x.pc + 16)).sides := by
    rw [mapFrag]
    simp only [List.mem_map, hs]
    exact ⟨x, hx, by rw [if_pos hsame]⟩
  rw [settle_open hg' (trapHeldOpen_move F.key _ ho) hx' hl hr]
  refine (setGroup_setGroup _ _ _ (by rfl)).trans ?_
  rw [nextSides, mapFrag, hs]

/-- Issuing a word that its interlocks, its legality and its budgets let through. -/
theorem issue_of {s : State} {F : Frag} {i : Instr} (h : Issues s F i) (body : State → Frag → Act) :
    issue i body s = .next (finish F.g.id F.key (body s F)) := by
  unfold issue
  rw [h.issuing]
  simp [h.legal, h.budget, h.free]

/-- A word whose whole effect is on its group's registers. -/
theorem issue_registers {s : State} {F : Frag} {i : Instr} (h : Issues s F i) (hq : F.quiet) {body : State → Frag → Act}
    {g : Group} (hb : body s F = .done (setGroup s g)) (hid : g.id = F.g.id) (hs : g.sides = F.g.sides)
    (htm : g.tm = F.g.tm) (hT : g.trapLanes = F.g.trapLanes) :
    issue i body s = .next (setGroup s { g with sides := nextSides F }) := by
  rw [issue_of h, hb]
  have hg : getGroup (setGroup s g) F.g.id = some g := by rw [← hid]; exact getGroup_setGroup s g
  rw [finish_done h.issuing hq hg hs htm hT]
  exact congrArg _ (setGroup_setGroup _ _ _ (by rfl))

end Sys2Proof.Machine
end

