-- ==== Sys2Proof/Laws/Memory.lean ====
section
/-! SUPPORT. What accesses of lanes leave: one lemma for each operation of the memory system (R149, R209, R212). -/

namespace Sys2Proof.Machine

theorem AccessFrame.refl (s : State) : AccessFrame s s :=
  ⟨rfl, fun _ => rfl, fun _ h => h, fun _ h => h, fun _ h => .inl h⟩

theorem AccessFrame.trans {s t u : State} (h : AccessFrame s t) (k : AccessFrame t u) : AccessFrame s u := by
  refine ⟨?_, fun c => (k.cores c).trans (h.cores c), fun l x => h.poison l (k.poison l x),
    fun l x => h.hostPoison l (k.hostPoison l x), fun i x => ?_⟩
  · have e := k.rest
    rw [h.rest] at e
    exact e
  · rcases k.work i x with y | y
    · exact h.work i y
    · exact .inr y

/-- Replacing a group does not matter to what accesses leave. -/
theorem AccessFrame.setGroup {s t : State} (h : AccessFrame s t) (g : Group) : AccessFrame (setGroup s g) (setGroup t g) := by
  refine ⟨?_, h.cores, h.poison, h.hostPoison, h.work⟩
  have e := h.rest
  have : t.groups = s.groups := by rw [e]
  unfold Machine.setGroup
  rw [this]
  rw [e]

theorem getCore_id (s : State) (c : Nat) : (getCore s c).id = c := by
  unfold getCore
  cases h : findBy Core.id c s.cores with
  | none => rfl
  | some x => exact findBy_key Core.id h

theorem getCore_setCore_eq (s : State) (k : Core) (c : Nat) : getCore (setCore s k) c = if c = k.id then k else getCore s c := by
  unfold getCore setCore
  by_cases e : c = k.id
  · rw [if_pos e, e, findBy_putBy]; rfl
  · rw [if_neg e]; show (findBy Core.id c (putBy Core.id k s.cores)).getD _ = _; rw [findBy_putBy_ne Core.id k s.cores c e]

theorem getCore_congr {s t : State} (h : t.cores = s.cores) (c : Nat) : getCore t c = getCore s c := by
  unfold getCore; rw [h]

/-- A core put back with another clock and another L1. -/
theorem AccessFrame.ofCore (s : State) (c : Nat) (k : Core) (hid : k.id = c)
    (h : { k with clk := 0, l1 := [] } = { getCore s c with clk := 0, l1 := [] }) : AccessFrame s (setCore s k) := by
  refine ⟨rfl, fun c' => ?_, fun _ h => h, fun _ h => h, fun _ h => .inl h⟩
  rw [getCore_setCore_eq]
  split
  · rename_i e; rw [h, e, hid]
  · rfl

/-- The bytes of both memories are the same. -/
def SameBytes (s t : State) : Prop := t.mem = s.mem ∧ t.hostMem = s.hostMem
theorem SameBytes.refl (s : State) : SameBytes s s := ⟨rfl, rfl⟩
theorem SameBytes.trans {s t u : State} (h : SameBytes s t) (k : SameBytes t u) : SameBytes s u :=
  ⟨k.1.trans h.1, k.2.trans h.2⟩

/-- A relation of states that holds of each step of a fold holds of the fold. -/
theorem foldl_state {α : Type} (P : State → State → Prop) (hr : ∀ s, P s s) (ht : ∀ {a b c}, P a b → P b c → P a c)
    (h : State → α → State) (hh : ∀ s x, P s (h s x)) (l : List α) (s : State) : P s (l.foldl h s) := by
  induction l generalizing s with
  | nil => exact hr s
  | cons a r ih => exact ht (hh s a) (ih _)

theorem frame_setClk (s : State) (c part : Nat) (clk : BitVec 48) : AccessFrame s (setClk s (some c) part clk) := by
  unfold setClk
  exact AccessFrame.ofCore s c _ (getCore_id s c) rfl

theorem frame_syncClk (s : State) (c : Nat) : AccessFrame s (syncClk s c) := frame_setClk s c _ _

theorem frame_holdHostLine (s : State) (host : Bool) (line : Nat) : AccessFrame s (holdHostLine s host line) := by
  have key (l : List Nat) : AccessFrame s { s with hostLines := l } :=
    ⟨rfl, fun _ => rfl, fun _ h => h, fun _ h => h, fun _ h => .inl h⟩
  unfold holdHostLine
  split
  · exact key _
  · exact AccessFrame.refl s

theorem frame_setLineLe (s : State) (host : Bool) (part line : Nat) (x : BitVec 48) :
    AccessFrame s (setLineLe s host part line x) := by
  cases host <;> exact ⟨rfl, fun _ => rfl, fun _ h => h, fun _ h => h, fun _ h => .inl h⟩
theorem frame_setLineWs (s : State) (host : Bool) (part line : Nat) (x : BitVec 48) :
    AccessFrame s (setLineWs s host part line x) := by
  cases host <;> exact ⟨rfl, fun _ => rfl, fun _ h => h, fun _ h => h, fun _ h => .inl h⟩

theorem holdHostLine_mem (s : State) (host : Bool) (line : Nat) :
    (holdHostLine s host line).mem = s.mem ∧ (holdHostLine s host line).hostMem = s.hostMem
      ∧ (holdHostLine s host line).cores = s.cores ∧ (holdHostLine s host line).rdc = s.rdc := by
  unfold holdHostLine; split <;> exact ⟨rfl, rfl, rfl, rfl⟩

theorem frame_leaseLoad (s : State) (host : Bool) (part line lease : Nat) (clk : BitVec 48) :
    AccessFrame s (leaseLoad s host part line lease clk).1 :=
  (frame_holdHostLine s host line).trans (frame_setLineLe _ _ _ _ _)
theorem frame_leaseStore (s : State) (host : Bool) (part line : Nat) (clk : BitVec 48) :
    AccessFrame s (leaseStore s host part line clk).1 :=
  (frame_holdHostLine s host line).trans (frame_setLineWs _ _ _ _ _)

theorem leaseLoad_mem (s : State) (host : Bool) (part line lease : Nat) (clk : BitVec 48) :
    (leaseLoad s host part line lease clk).1.mem = s.mem ∧ (leaseLoad s host part line lease clk).1.hostMem = s.hostMem
      ∧ (leaseLoad s host part line lease clk).1.cores = s.cores ∧ (leaseLoad s host part line lease clk).1.rdc = s.rdc := by
  obtain ⟨h1, h2, h3, h4⟩ := holdHostLine_mem s host line
  cases host <;> exact ⟨h1, h2, h3, h4⟩
theorem leaseStore_mem (s : State) (host : Bool) (part line : Nat) (clk : BitVec 48) :
    SameBytes s (leaseStore s host part line clk).1 := by
  obtain ⟨h1, h2, -⟩ := holdHostLine_mem s host line
  cases host <;> exact ⟨h1, h2⟩

/-- A transfer takes tokens only (R220). -/
theorem portTransfer_eq (s : State) (ctx pa n : Nat) :
    portTransfer s ctx pa n = { s with ports := (portTransfer s ctx pa n).ports } := by
  unfold portTransfer
  dsimp only
  split
  · split
    · rfl
    · rfl
  · rfl

theorem frame_portTransfer (s : State) (ctx pa n : Nat) : AccessFrame s (portTransfer s ctx pa n) := by
  rw [portTransfer_eq]
  exact ⟨rfl, fun _ => rfl, fun _ h => h, fun _ h => h, fun _ h => .inl h⟩

/-! ## Reads and writes at the home -/

theorem homeRead_bytes (s : State) (core : Option Nat) (lease : Nat) (host : Bool) (pa n : Nat) :
    (homeRead s core lease host pa n).2 = bytesAt s host pa n := rfl

theorem frame_homeRead (s : State) (c lease : Nat) (host : Bool) (pa n : Nat) :
    AccessFrame s (homeRead s (some c) lease host pa n).1 :=
  (frame_leaseLoad s host (partOf s c) (lineOf pa) lease _).trans (frame_setClk _ c (partOf s c) _)

theorem homeRead_mem (s : State) (c lease : Nat) (host : Bool) (pa n : Nat) :
    SameBytes s (homeRead s (some c) lease host pa n).1 := by
  obtain ⟨h1, h2, -⟩ := leaseLoad_mem s host (partOf s c) (lineOf pa) lease (clkOf s (some c) (partOf s c))
  exact ⟨h1, h2⟩

theorem owe_bytes (s : State) (i : Instr) : (owe s i).mem = s.mem ∧ (owe s i).hostMem = s.hostMem := by
  unfold owe; split <;> exact ⟨rfl, rfl⟩

theorem frame_owe_wake (s : State) (h : Bool) (l : Nat) : AccessFrame s (owe s (.waitaWake h l)) := by
  unfold owe
  split
  · exact AccessFrame.refl s
  · refine ⟨rfl, fun _ => rfl, fun _ h => h, fun _ h => h, fun i hi => ?_⟩
    rcases List.mem_append.mp hi with x | x
    · exact .inl x
    · exact .inr ⟨h, l, by simpa using x⟩

theorem sameBytes_owe_if (b : Bool) (s : State) (i : Instr) : SameBytes s (if b then owe s i else s) := by
  cases b
  · exact SameBytes.refl s
  · exact owe_bytes s i
theorem frame_owe_if (b : Bool) (s : State) (h : Bool) (l : Nat) : AccessFrame s (if b then owe s (.waitaWake h l) else s) := by
  cases b
  · exact AccessFrame.refl s
  · exact frame_owe_wake s h l

theorem putBytes_mem (s : State) (host : Bool) (pa : Nat) (bs : List Byte) :
    (putBytes s host pa bs).mem = (if host then s.mem else writeBytes s.mem pa bs)
      ∧ (putBytes s host pa bs).hostMem = (if host then writeBytes s.hostMem pa bs else s.hostMem) := by
  have h : SameBytes (unpoison (if host then { s with hostMem := writeBytes s.hostMem pa bs }
      else { s with mem := writeBytes s.mem pa bs }) host pa bs.length) (putBytes s host pa bs) :=
    foldl_state SameBytes SameBytes.refl SameBytes.trans _
      (fun _ _ => sameBytes_owe_if _ _ _) _ _
  cases host <;> exact ⟨h.1, h.2⟩

theorem frame_putBytes (s : State) (host : Bool) (pa : Nat) (bs : List Byte) : AccessFrame s (putBytes s host pa bs) := by
  refine AccessFrame.trans (t := unpoison (if host then { s with hostMem := writeBytes s.hostMem pa bs }
      else { s with mem := writeBytes s.mem pa bs }) host pa bs.length) ?_
    (foldl_state AccessFrame AccessFrame.refl AccessFrame.trans _ (fun _ _ => frame_owe_if _ _ _ _) _ _)
  · cases host
    · exact ⟨rfl, fun _ => rfl, fun l h => (List.mem_filter.mp h).1, fun _ h => h, fun _ h => .inl h⟩
    · exact ⟨rfl, fun _ => rfl, fun _ h => h, fun l h => (List.mem_filter.mp h).1, fun _ h => .inl h⟩
/-- What stamping one line is: a lease step for each partition whose clocks it moves, then for the others of a host line. -/
theorem stampLine_state (P : State → State → Prop) (hr : ∀ s, P s s) (ht : ∀ {a b c}, P a b → P b c → P a c)
    (core : Option Nat) (h1 : ∀ s host p line clk, P s (leaseStore s host p line clk).1)
    (h2 : ∀ s p clk, P s (setClk s core p clk)) (s : State) (host : Bool) (line : Nat) : P s (stampLine s core host line) := by
  have a : P s ((movesClk s core host (128 * line)).foldl (fun s p =>
      setClk (leaseStore s host p line (clkOf s core p)).1 core p (leaseStore s host p line (clkOf s core p)).2) s) :=
    foldl_state P hr ht _ (fun s p => ht (h1 s host p line _) (h2 _ p _)) _ s
  unfold stampLine
  dsimp only
  split
  · exact ht a (foldl_state P hr ht _ (fun s p => h1 s true p line _) _ _)
  · exact a

theorem frame_stampLines (s : State) (c : Nat) (host : Bool) (line n : Nat) : AccessFrame s (stampLines s (some c) host line n) := by
  induction n generalizing s line with
  | zero => exact AccessFrame.refl s
  | succ n ih =>
    exact (stampLine_state AccessFrame AccessFrame.refl AccessFrame.trans (some c) frame_leaseStore
      (fun s p clk => frame_setClk s c p clk) s host line).trans (ih _ _)

theorem sameBytes_setClk (s : State) (core : Option Nat) (p : Nat) (clk : BitVec 48) : SameBytes s (setClk s core p clk) := by
  cases core <;> exact ⟨rfl, rfl⟩

theorem stampLines_mem (s : State) (core : Option Nat) (host : Bool) (line n : Nat) :
    SameBytes s (stampLines s core host line n) := by
  induction n generalizing s line with
  | zero => exact SameBytes.refl s
  | succ n ih =>
    exact (stampLine_state SameBytes SameBytes.refl SameBytes.trans core leaseStore_mem
      (fun s p clk => sameBytes_setClk s core p clk) s host line).trans (ih _ _)

theorem frame_homeWrite (s : State) (c : Nat) (host : Bool) (pa : Nat) (bs : List Byte) :
    AccessFrame s (homeWrite s (some c) host pa bs) := by
  have h := (frame_putBytes s host pa bs).trans
    (frame_stampLines (putBytes s host pa bs) c host (lineOf pa) ((pa + bs.length + 127) / 128 - pa / 128))
  unfold homeWrite
  cases host
  · dsimp only
    rw [if_neg (by decide)]
    split
    · exact h.trans (AccessFrame.ofCore _ c _ (getCore_id _ c) rfl)
    · exact h
  · exact h

theorem homeWrite_mem (s : State) (core : Option Nat) (host : Bool) (pa : Nat) (bs : List Byte) :
    (homeWrite s core host pa bs).mem = (if host then s.mem else writeBytes s.mem pa bs)
      ∧ (homeWrite s core host pa bs).hostMem = (if host then writeBytes s.hostMem pa bs else s.hostMem) := by
  have h1 := putBytes_mem s host pa bs
  have h2 := stampLines_mem (putBytes s host pa bs) core host (lineOf pa) ((pa + bs.length + 127) / 128 - pa / 128)
  have h : _ ∧ _ := ⟨h2.1.trans h1.1, h2.2.trans h1.2⟩
  unfold homeWrite
  cases core with
  | none => exact h
  | some c =>
    cases host
    · dsimp only
      rw [if_neg (by decide)]
      split <;> exact h
    · exact h

/-! ## Reads through the caches -/

theorem readBytes_drop (m : Memory) (a n k : Nat) : (readBytes m a n).drop k = readBytes m (a + k) (n - k) := by
  induction k generalizing a n with
  | zero => simp
  | succ k ih =>
    cases n with
    | zero => simp [readBytes]
    | succ n => rw [readBytes, List.drop_succ_cons, ih, Nat.add_right_comm, Nat.add_assoc a k 1, Nat.succ_sub_succ]

theorem readBytes_take (m : Memory) (a n k : Nat) (h : k ≤ n) : (readBytes m a n).take k = readBytes m a k := by
  induction k generalizing a n with
  | zero => simp [readBytes]
  | succ k ih =>
    cases n with
    | zero => omega
    | succ n => rw [readBytes, List.take_succ_cons, ih _ _ (by omega)]; rfl

/-- A line's bytes cut to an access within it. -/
theorem line_cut (m : Memory) (pa n : Nat) (h : pa % 128 + n ≤ 128) :
    ((readBytes m (128 * lineOf pa) 128).drop (pa % 128)).take n = readBytes m pa n := by
  rw [readBytes_drop, readBytes_take _ _ _ _ (by omega)]
  unfold lineOf
  rw [Nat.div_add_mod]

/-- What is left is a part. -/
theorem mem_giveUp {α : Type} {hint : α → Nat} {may : α → Bool} {l : List α} {x : α} (h : x ∈ giveUp hint may l) : x ∈ l := by
  unfold giveUp at h
  dsimp only at h
  split at h
  · exact List.mem_of_mem_eraseP h
  · split at h <;> exact List.mem_of_mem_eraseP h

theorem mem_boundRdc {die line : Nat} {l : List (Nat × Copy)} {p : Nat × Copy} (h : p ∈ boundRdc die line l) : p ∈ l := by
  unfold boundRdc at h
  split at h
  · exact mem_giveUp h
  · exact h

theorem frame_keepCopy (s : State) (core : Nat) (x : Copy) : AccessFrame s (keepCopy s core x) :=
  AccessFrame.ofCore s core _ (getCore_id s core) rfl

/-- The copies of a core once one more is kept. -/
theorem mem_keepCopy {s : State} {core : Nat} {x y : Copy} (h : y ∈ (getCore (keepCopy s core x) core).l1) :
    y ∈ (getCore s core).l1 ∨ y = x := by
  unfold keepCopy at h
  dsimp only at h
  rw [getCore_setCore_eq, if_pos (getCore_id s core).symm] at h
  rcases List.mem_append.mp h with e | e
  · exact .inl (List.mem_filter.mp e).1
  · exact .inr (by simpa using e)

/-- A mark on a core's copies. -/
theorem frame_markCopies (s : State) (core pa n hint : Nat) : AccessFrame s (markCopies s core pa n hint) := by
  unfold markCopies
  split
  · exact AccessFrame.ofCore s core _ (getCore_id s core) rfl
  · exact AccessFrame.refl s
theorem markCopies_mem (s : State) (core pa n hint : Nat) : SameBytes s (markCopies s core pa n hint) := by
  unfold markCopies; split <;> exact ⟨rfl, rfl⟩

/-- The line that a read past L1 takes: a copy from the RDC, or one from the home. -/
theorem takeLine_cases (s : State) (core ctx lease : Nat) (part : Partition) (hint pa : Nat) :
    let r := takeLine s core ctx lease part hint pa
    (∃ p ∈ s.rdc, p.1 = dieOf core ∧ p.2.line = lineOf pa ∧ r = (s, { p.2 with hint }))
    ∨ (r.2.line = lineOf pa ∧ r.2.bytes = bytesAt s false (128 * lineOf pa) 128 ∧ AccessFrame s r.1 ∧ SameBytes s r.1 ∧
        r.1.cores = s.cores ∧ ∀ p ∈ r.1.rdc, p ∈ s.rdc ∨ p = (dieOf core, r.2)) := by
  intro r
  have hr : r = takeLine s core ctx lease part hint pa := rfl
  unfold takeLine at hr
  dsimp only at hr
  cases hg : (if homeDie part pa = some (dieOf core) then none else
      ((s.rdc.find? fun p => p.1 = dieOf core && p.2.line = lineOf pa && p.2.usable (getCore s core).clk).map Prod.snd)) with
  | some x =>
    rw [hg] at hr
    have hx : ∃ p ∈ s.rdc, p.1 = dieOf core ∧ p.2.line = lineOf pa ∧ p.2 = x := by
      split at hg
      · cases hg
      · cases hq : (s.rdc.find? fun p => p.1 = dieOf core && p.2.line = lineOf pa && p.2.usable (getCore s core).clk) with
        | none => rw [hq] at hg; cases hg
        | some p =>
          rw [hq] at hg
          have h1 := List.mem_of_find?_eq_some hq
          have h2 := List.find?_some hq
          simp at h2 hg
          exact ⟨p, h1, h2.1.1, h2.1.2, hg⟩
    obtain ⟨p, hp, h1, h2, h3⟩ := hx
    subst h3
    exact .inl ⟨p, hp, h1, h2, hr⟩
  | none =>
    rw [hg] at hr
    dsimp only at hr
    have hport : (portTransfer s ctx pa 128).cores = s.cores ∧ (portTransfer s ctx pa 128).rdc = s.rdc
        ∧ SameBytes s (portTransfer s ctx pa 128) := by
      rw [portTransfer_eq]; exact ⟨rfl, rfl, rfl, rfl⟩
    obtain ⟨p1, p2, p3⟩ := hport
    have fp := frame_portTransfer s ctx pa 128
    obtain ⟨m1, m2, m3, m4⟩ := leaseLoad_mem (portTransfer s ctx pa 128) false part.pid (lineOf pa) lease (getCore s core).clk
    have fr := fp.trans (frame_leaseLoad (portTransfer s ctx pa 128) false part.pid (lineOf pa) lease (getCore s core).clk)
    generalize leaseLoad (portTransfer s ctx pa 128) false part.pid (lineOf pa) lease (getCore s core).clk = L
      at hr m1 m2 m3 m4 fr
    by_cases hm : homeDie part pa = some (dieOf core)
    · rw [if_pos hm] at hr
      rw [hr]
      exact .inr ⟨rfl, rfl, fr, ⟨m1.trans p3.1, m2.trans p3.2⟩, m3.trans p1, fun p hp => .inl (by rw [m4, p2] at hp; exact hp)⟩
    · rw [if_neg hm] at hr
      rw [hr]
      refine .inr ⟨rfl, rfl, fr.trans ?_, ⟨m1.trans p3.1, m2.trans p3.2⟩, m3.trans p1, fun p hp => ?_⟩
      · exact ⟨rfl, fun _ => rfl, fun _ h => h, fun _ h => h, fun _ h => .inl h⟩
      · rcases List.mem_append.mp (mem_boundRdc hp) with h | h
        · exact .inl (by have := (List.mem_filter.mp h).1; rw [m4, p2] at this; exact this)
        · exact .inr (by simpa using h)

/-- What a read through the caches may do: nothing, a read at the home, a copy from the RDC, or a copy from the home. -/
theorem cachedRead_cases (s : State) (core ctx lease : Nat) (part : Partition) (host direct : Bool) (hint pa n : Nat) :
    let r := cachedRead s core ctx lease part host direct hint pa n
    let cut (x : Copy) := (x.bytes.drop (pa % 128)).take n
    ((host || direct || decide (hint = 3)) = true ∧ (∃ u, AccessFrame s u ∧ SameBytes s u ∧ u.cores = s.cores ∧ u.rdc = s.rdc ∧
        r.state = (homeRead u (some core) lease host pa n).1) ∧ r.bytes = bytesAt s host pa n)
    ∨ (host = false ∧ ∃ x ∈ (getCore s core).l1, x.line = lineOf pa ∧ r.state = s ∧ r.bytes = cut x)
    ∨ (host = false ∧ ∃ p ∈ s.rdc, p.1 = dieOf core ∧ p.2.line = lineOf pa ∧ r.state = keepCopy s core { p.2 with hint } ∧ r.bytes = cut p.2)
    ∨ (host = false ∧ ∃ (x : Copy) (u : State), x.line = lineOf pa ∧ x.bytes = bytesAt s false (128 * lineOf pa) 128 ∧
        AccessFrame s u ∧ SameBytes s u ∧ u.cores = s.cores ∧ (∀ p ∈ u.rdc, p ∈ s.rdc ∨ p = (dieOf core, x)) ∧
        r.state = keepCopy u core x ∧ r.bytes = cut x) := by
  intro r cut
  have hr : r = cachedRead s core ctx lease part host direct hint pa n := rfl
  unfold cachedRead at hr
  dsimp only at hr
  by_cases hd : (host || direct || decide (hint = 3)) = true
  · rw [if_pos hd] at hr
    refine .inl ⟨hd, ?_, ?_⟩
    · cases host
      · have h : (portTransfer s ctx pa n).cores = s.cores ∧ (portTransfer s ctx pa n).rdc = s.rdc
            ∧ SameBytes s (portTransfer s ctx pa n) := by
          rw [portTransfer_eq]; exact ⟨rfl, rfl, rfl, rfl⟩
        exact ⟨_, frame_portTransfer s ctx pa n, h.2.2, h.1, h.2.1, by rw [hr]; rfl⟩
      · exact ⟨s, AccessFrame.refl s, SameBytes.refl s, rfl, rfl, by rw [hr]; rfl⟩
    · rw [hr]
      cases host
      · show bytesAt (portTransfer s ctx pa n) false pa n = _
        rw [portTransfer_eq]; rfl
      · rfl
  · rw [if_neg hd] at hr
    have hh : host = false := by simp at hd; exact hd.1.1
    cases hf : (getCore s core).l1.find? fun x => x.line = lineOf pa && x.usable (getCore s core).clk with
    | some x =>
      rw [hf] at hr
      have h1 := List.mem_of_find?_eq_some hf
      have h2 := List.find?_some hf
      refine .inr (.inl ⟨hh, x, h1, ?_, by rw [hr], by rw [hr]⟩)
      simp at h2; exact h2.1
    | none =>
      rw [hf] at hr
      dsimp only at hr
      rcases takeLine_cases s core ctx lease part hint pa with ⟨p, hp, h1, h2, h3⟩ | ⟨h1, h2, h3, h4, h5, h6⟩
      · rw [h3] at hr
        exact .inr (.inr (.inl ⟨hh, p, hp, h1, h2, by rw [hr], by rw [hr]⟩))
      · exact .inr (.inr (.inr ⟨hh, _, _, h1, h2, h3, h4, h5, h6, congrArg LoadResult.state hr, congrArg LoadResult.bytes hr⟩))

/-- A tile's read takes a line past L1, or reads at the home: in either case it changes no byte, and no core but its clock. -/
theorem frame_tileLoad (s : State) (core ctx lease : Nat) (part : Partition) (direct : Bool) (hint pa n : Nat) :
    AccessFrame s (tileLoad s core ctx lease part direct hint pa n).state
      ∧ SameBytes s (tileLoad s core ctx lease part direct hint pa n).state := by
  unfold tileLoad
  split
  · have h : SameBytes s (portTransfer s ctx pa n) := by rw [portTransfer_eq]; exact ⟨rfl, rfl⟩
    exact ⟨(frame_portTransfer s ctx pa n).trans (frame_homeRead (portTransfer s ctx pa n) core lease false pa n),
      h.trans (homeRead_mem (portTransfer s ctx pa n) core lease false pa n)⟩
  · dsimp only
    rcases takeLine_cases s core ctx lease part hint pa with ⟨p, -, -, -, h⟩ | ⟨-, -, f, b, -, -⟩
    · rw [h]; exact ⟨AccessFrame.ofCore s core _ (getCore_id s core) rfl, SameBytes.refl s⟩
    · exact ⟨f.trans (AccessFrame.ofCore _ core _ (getCore_id _ core) rfl), b.trans ⟨rfl, rfl⟩⟩

theorem frame_cachedRead (s : State) (core ctx lease : Nat) (part : Partition) (host direct : Bool) (hint pa n : Nat) :
    AccessFrame s (cachedRead s core ctx lease part host direct hint pa n).state
      ∧ SameBytes s (cachedRead s core ctx lease part host direct hint pa n).state := by
  rcases cachedRead_cases s core ctx lease part host direct hint pa n with ⟨-, ⟨u, f, b, -, -, h⟩, -⟩ | ⟨-, x, -, -, h, -⟩ |
    ⟨-, p, -, -, -, h, -⟩ | ⟨-, x, u, -, -, hf, hb, -, -, h, -⟩
  · rw [h]; exact ⟨f.trans (frame_homeRead _ _ _ _ _ _), b.trans (homeRead_mem _ _ _ _ _ _)⟩
  · rw [h]; exact ⟨AccessFrame.refl s, SameBytes.refl s⟩
  · rw [h]; exact ⟨frame_keepCopy _ _ _, SameBytes.refl s⟩
  · rw [h]; exact ⟨hf.trans (frame_keepCopy _ _ _), hb⟩

/-- A read gives the memory's bytes where every copy it could use holds them. -/
theorem cachedRead_bytes (s : State) (core ctx lease : Nat) (part : Partition) (host direct : Bool) (hint pa n : Nat)
    (hc : host = false → CurrentLine s core (lineOf pa)) (hn : pa % 128 + n ≤ 128) :
    (cachedRead s core ctx lease part host direct hint pa n).bytes = bytesAt s host pa n := by
  rcases cachedRead_cases s core ctx lease part host direct hint pa n with ⟨-, -, h⟩ | ⟨hh, x, hx, hl, -, h⟩ |
    ⟨hh, p, hp, hd, hl, -, h⟩ | ⟨hh, x, u, hl, hx, -, -, -, -, -, h⟩
  · exact h
  · rw [h, hh]
    show List.take _ (List.drop _ x.bytes) = _
    rw [(hc hh).1 x hx hl, line_cut _ _ _ hn]; rfl
  · rw [h, hh]
    show List.take _ (List.drop _ p.2.bytes) = _
    rw [(hc hh).2 p hp hd hl, line_cut _ _ _ hn]; rfl
  · rw [h, hh]
    show List.take _ (List.drop _ x.bytes) = _
    rw [hx]; exact line_cut _ _ _ hn

/-- A read leaves lines whose copies are current so, where the line it reads is one of them. -/
theorem current_cachedRead (s : State) (core ctx lease : Nat) (part : Partition) (host direct : Bool) (hint pa n : Nat)
    (hc : host = false → CurrentLine s core (lineOf pa)) (line : Nat) (h : CurrentLine s core line) :
    CurrentLine (cachedRead s core ctx lease part host direct hint pa n).state core line := by
  have hkeep (u : State) (x : Copy) (hm : u.mem = s.mem) (hu : u.cores = s.cores)
      (hr : ∀ p ∈ u.rdc, p ∈ s.rdc ∨ p = (dieOf core, x))
      (hx : x.line = line → x.bytes = readBytes s.mem (128 * line) 128) : CurrentLine (keepCopy u core x) core line := by
    constructor
    · intro y hy hl
      show y.bytes = readBytes u.mem _ _
      rw [hm]
      rcases mem_keepCopy hy with e | e
      · exact h.1 y (by rw [← getCore_congr hu]; exact e) hl
      · rw [e]; exact hx (e ▸ hl)
    · intro p hp hd hl
      show p.2.bytes = readBytes u.mem _ _
      rw [hm]
      rcases hr p hp with e | e
      · exact h.2 p e hd hl
      · rw [e]; exact hx (by rw [e] at hl; exact hl)
  rcases cachedRead_cases s core ctx lease part host direct hint pa n with ⟨-, ⟨u, -, b, c, d, e⟩, -⟩ | ⟨-, x, -, -, e, -⟩ |
    ⟨hh, p, hp, hd, hl, e, -⟩ | ⟨hh, x, u, hl, hx, -, hb, hu, hr, e, -⟩
  · rw [e]
    obtain ⟨-, -, m3, m4⟩ := leaseLoad_mem u host (partOf u core) (lineOf pa) lease (clkOf u (some core) (partOf u core))
    have hl : (getCore (homeRead u (some core) lease host pa n).1 core).l1 = (getCore s core).l1 := by
      show (getCore (setCore (leaseLoad u host (partOf u core) (lineOf pa) lease (clkOf u (some core) (partOf u core))).1 _) core).l1 = _
      rw [getCore_setCore_eq, if_pos (getCore_id _ core).symm]
      show (getCore (leaseLoad u host (partOf u core) (lineOf pa) lease (clkOf u (some core) (partOf u core))).1 core).l1 = _
      rw [getCore_congr m3 core, getCore_congr c core]
    have hr : (homeRead u (some core) lease host pa n).1.rdc = s.rdc := m4.trans d
    have hm : (homeRead u (some core) lease host pa n).1.mem = s.mem := (homeRead_mem u core lease host pa n).1.trans b.1
    exact ⟨fun x hx => by rw [hm]; exact h.1 x (hl ▸ hx), fun p hp => by rw [hm]; exact h.2 p (hr ▸ hp)⟩
  · rw [e]; exact h
  · rw [e]; exact hkeep s { p.2 with hint } rfl rfl (fun q hq => .inl hq) fun hline => (hc hh).2 p hp hd hl ▸ by rw [← hl, hline]
  · rw [e]; exact hkeep u x hb.1 hu hr fun hline => by rw [hx, ← hl, hline]; rfl

/-! ## The checks (R149) -/

theorem checkBytes_mapped {s : State} {v : Env} {va : W64} {a : Access} {host direct : Bool} {pa : Nat} (mark : Bool)
    (h : OnPage s v va a host pa direct) : checkBytes s v mark va a.n a = (s, .ok (.mem host pa direct)) := by
  obtain ⟨t, ht, hl⟩ := h.hit
  have hany (devOk : Nat → Bool) : leafAnswer (getPart s (getCtx s v.ctx).part) t.leaf t.log2 va a.acc devOk
      = .ok (if host then 2 else if direct then 1 else 0) pa := by
    have hm : (if host then 2 else if direct then 1 else 0) ≠ 3 := by cases host <;> cases direct <;> decide
    rw [← hl]
    have h3 : pteMtype t.leaf ≠ 3 := by
      intro e
      unfold leafAnswer at hl
      simp only [e] at hl
      simp at hl
    unfold leafAnswer
    simp [h3]
  have htr (post mark : Bool) (devOk : Nat → Bool) : translate s (some v.core) (dieOf v.core) v.ctx va a.acc post mark devOk
      = (s, .ok (if host then 2 else if direct then 1 else 0) pa) := by
    unfold translate
    dsimp only
    rw [ht]
    dsimp only
    rw [hany]
  unfold checkBytes
  rw [h.plain]
  dsimp only
  rw [htr]
  have hd := h.direct
  have hcl := h.clean
  cases host
  · have : ¬ (a.read && poisonedLine s false pa) = true := by
      intro e; simp at e; rw [hcl e.1] at e; exact absurd e.2 (by decide)
    cases direct <;> simp [this]
  · have hd := hd rfl
    subst hd
    have : ¬ (a.read && poisonedLine s true pa) = true := by
      intro e; simp at e; rw [hcl e.1] at e; exact absurd e.2 (by decide)
    simp [this]

theorem checkPage_mapped {s : State} {v : Env} {va : W64} {a : Access} {host direct : Bool} {pa : Nat}
    (h : OnPage s v va a host pa direct) : checkPage s v va a = (s, .ok (.mem host pa direct)) := checkBytes_mapped true h

theorem checkLaneAt_mapped {s : State} {v : Env} {va : W64} {a : Access} {host direct : Bool} {pa : Nat} (mark : Bool)
    (h : Mapped s v va a host pa direct) : checkLaneAt s v mark va a = (s, .ok (.mem host pa direct)) := by
  unfold checkLaneAt
  rw [if_neg (by simp [h.aligned]), h.unlocked, if_neg (by decide)]
  exact checkBytes_mapped mark h.toOnPage

theorem checkLane_mapped {s : State} {v : Env} {va : W64} {a : Access} {host direct : Bool} {pa : Nat}
    (h : Mapped s v va a host pa direct) : checkLane s v va a = (s, .ok (.mem host pa direct)) := checkLaneAt_mapped true h

/-- What accesses leave takes no lane's mapping away. -/
theorem OnPage.frame {s t : State} {v : Env} {va : W64} {a : Access} {host direct : Bool} {pa : Nat} (f : AccessFrame s t)
    (h : OnPage s v va a host pa direct) : OnPage t v va a host pa direct := by
  have e := f.rest
  have h2 : t.graphs = s.graphs := by rw [e]
  have h3 : t.tlb = s.tlb := by rw [e]
  have h4 : t.parts = s.parts := by rw [e]
  have h5 : t.ctxs = s.ctxs := by rw [e]
  have hc : ∀ c, getCtx t c = getCtx s c := fun c => by unfold getCtx; rw [h5]
  have hp : ∀ c, getPart t c = getPart s c := fun c => by unfold getPart; rw [h4]
  refine ⟨?_, ?_, h.direct, fun ha => ?_⟩
  · have := h.plain
    unfold triggerAt at this ⊢
    rw [h2]; exact this
  · obtain ⟨x, hx, hl⟩ := h.hit
    refine ⟨x, fun mark => ?_, ?_⟩
    · have := hx mark
      unfold tlbFind at this ⊢
      rw [h3, hc, hp]; exact this
    · rw [hc, hp]; exact hl
  · have := h.clean ha
    unfold poisonedLine at this ⊢
    cases host
    · simp at this ⊢; exact fun x => this (f.poison _ x)
    · simp at this ⊢; exact fun x => this (f.hostPoison _ x)

theorem Mapped.frame {s t : State} {v : Env} {va : W64} {a : Access} {host direct : Bool} {pa : Nat} (f : AccessFrame s t)
    (h : Mapped s v va a host pa direct) : Mapped t v va a host pa direct := by
  refine ⟨h.toOnPage.frame f, h.aligned, ?_, h.inLine⟩
  have h1 : t.ops = s.ops := by rw [f.rest]
  have := h.unlocked
  unfold lockConflict lockRanges at this ⊢
  rw [h1]; exact this

/-- Nor does a change of a group. -/
theorem Mapped.group {s : State} {v : Env} {va : W64} {a : Access} {host direct : Bool} {pa : Nat} (g : Group)
    (h : Mapped s v va a host pa direct) : Mapped (Machine.setGroup s g) v va a host pa direct :=
  ⟨⟨h.plain, h.hit, h.direct, h.clean⟩, h.aligned, h.unlocked, h.inLine⟩

end Sys2Proof.Machine
end

