-- ==== Sys2Proof/Laws/PerInstr.lean ====
section
/-! SUPPORT. Per instruction: the word that the encoder gives a legal instruction decodes to it. An event and a fused sequence
have no word of their own. -/

namespace Sys2Proof.Laws.RoundTrip

/-- The encoder's word decodes to the instruction. -/
def Statement (i : Instr) : Prop := i.legal = true → ∀ w, encode i = some w → decode w = .ok i

/-- Nothing to show of an instruction with no word. -/
theorem of_none {i : Instr} (h : encode i = none) : Statement i := fun _ w hw => by rw [h] at hw; cases hw

/-- A full-form instruction with an OP of its own. -/
theorem of_shape {i : Instr} {op : BitVec 10} {f : Fields} {s : Shape} (he : encode i = some (f.word op))
    (hl : i.legal = i.shapeOk) (hs : i.shape = some (f, s)) (hm : opMap op.toNat f = some i) : Statement i := by
  intro h w hw
  rw [he] at hw
  cases hw
  exact decode_of_shape h hl hs hm

/-- A full-form instruction that MOD tells apart. -/
theorem of_mod {i : Instr} {op : BitVec 10} {f : Fields} {s : Shape} (he : encode i = some (f.word op))
    (hl : i.legal = i.shapeOk) (hs : i.shape = some (f, s)) (hm : s.extra = true → opMap op.toNat f = some i) :
    Statement i := by
  intro h
  have e : s.legal f = true := by have h' := h; rw [hl, Instr.shapeOk, hs] at h'; exact h'
  exact of_shape he hl hs (hm (Shape.legal_extra e)) h

theorem nop (f : Fields) : Statement (.nop f) := of_shape rfl rfl rfl rfl
theorem bra (f : Fields) : Statement (.bra f) := of_shape rfl rfl rfl rfl
theorem brx (f : Fields) : Statement (.brx f) := of_shape rfl rfl rfl rfl
theorem call (f : Fields) : Statement (.call f) := of_shape rfl rfl rfl rfl
theorem callx (f : Fields) : Statement (.callx f) := of_shape rfl rfl rfl rfl
theorem ret (f : Fields) : Statement (.ret f) := of_shape rfl rfl rfl rfl
theorem exit_ (f : Fields) : Statement (.exit_ f) := of_shape rfl rfl rfl rfl
theorem yield (f : Fields) : Statement (.yield f) := of_shape rfl rfl rfl rfl
theorem brk (f : Fields) : Statement (.brk f) := of_shape rfl rfl rfl rfl
theorem loop (f : Fields) : Statement (.loop f) := of_shape rfl rfl rfl rfl
theorem iadd (f : Fields) : Statement (.iadd f) := of_shape rfl rfl rfl rfl
theorem isub (f : Fields) : Statement (.isub f) := of_shape rfl rfl rfl rfl
theorem imul (f : Fields) : Statement (.imul f) := of_shape rfl rfl rfl rfl
theorem imulh (f : Fields) : Statement (.imulh f) := of_shape rfl rfl rfl rfl
theorem imad (f : Fields) : Statement (.imad f) := of_shape rfl rfl rfl rfl
theorem imin (f : Fields) : Statement (.imin f) := of_shape rfl rfl rfl rfl
theorem imax (f : Fields) : Statement (.imax f) := of_shape rfl rfl rfl rfl
theorem iabs (f : Fields) : Statement (.iabs f) := of_shape rfl rfl rfl rfl
theorem ineg (f : Fields) : Statement (.ineg f) := of_shape rfl rfl rfl rfl
theorem and_ (f : Fields) : Statement (.and_ f) := of_shape rfl rfl rfl rfl
theorem or_ (f : Fields) : Statement (.or_ f) := of_shape rfl rfl rfl rfl
theorem xor_ (f : Fields) : Statement (.xor_ f) := of_shape rfl rfl rfl rfl
theorem not_ (f : Fields) : Statement (.not_ f) := of_shape rfl rfl rfl rfl
theorem shl (f : Fields) : Statement (.shl f) := of_shape rfl rfl rfl rfl
theorem shr (f : Fields) : Statement (.shr f) := of_shape rfl rfl rfl rfl
theorem shra (f : Fields) : Statement (.shra f) := of_shape rfl rfl rfl rfl
theorem rotl (f : Fields) : Statement (.rotl f) := of_shape rfl rfl rfl rfl
theorem bfx (f : Fields) : Statement (.bfx f) := of_shape rfl rfl rfl rfl
theorem bfi (f : Fields) : Statement (.bfi f) := of_shape rfl rfl rfl rfl
theorem popc (f : Fields) : Statement (.popc f) := of_shape rfl rfl rfl rfl
theorem clz (f : Fields) : Statement (.clz f) := of_shape rfl rfl rfl rfl
theorem brev (f : Fields) : Statement (.brev f) := of_shape rfl rfl rfl rfl
theorem icmp (f : Fields) : Statement (.icmp f) := of_shape rfl rfl rfl rfl
theorem sel (f : Fields) : Statement (.sel f) := of_shape rfl rfl rfl rfl
theorem mov (f : Fields) : Statement (.mov f) := of_shape rfl rfl rfl rfl
theorem lea (f : Fields) : Statement (.lea f) := of_shape rfl rfl rfl rfl
theorem iaddc (f : Fields) : Statement (.iaddc f) := of_shape rfl rfl rfl rfl
theorem plop (f : Fields) : Statement (.plop f) := of_shape rfl rfl rfl rfl
theorem movpGet (f : Fields) : Statement (.movpGet f) :=
  of_mod rfl rfl rfl fun h => by simp_all [opMap]
theorem movpSet (f : Fields) : Statement (.movpSet f) :=
  of_mod rfl rfl rfl fun h => by simp_all [opMap]
theorem hash (f : Fields) : Statement (.hash f) := of_shape rfl rfl rfl rfl
theorem fadd (f : Fields) : Statement (.fadd f) := of_shape rfl rfl rfl rfl
theorem fsub (f : Fields) : Statement (.fsub f) := of_shape rfl rfl rfl rfl
theorem fmul (f : Fields) : Statement (.fmul f) := of_shape rfl rfl rfl rfl
theorem ffma (f : Fields) : Statement (.ffma f) := of_shape rfl rfl rfl rfl
theorem fmin (f : Fields) : Statement (.fmin f) := of_shape rfl rfl rfl rfl
theorem fmax (f : Fields) : Statement (.fmax f) := of_shape rfl rfl rfl rfl
theorem fcmp (f : Fields) : Statement (.fcmp f) := of_shape rfl rfl rfl rfl
theorem fclass (f : Fields) : Statement (.fclass f) := of_shape rfl rfl rfl rfl
theorem frnd (f : Fields) : Statement (.frnd f) := of_shape rfl rfl rfl rfl
theorem fscale (f : Fields) : Statement (.fscale f) := of_shape rfl rfl rfl rfl
theorem fdot2 (f : Fields) : Statement (.fdot2 f) := of_shape rfl rfl rfl rfl
theorem fmed3 (f : Fields) : Statement (.fmed3 f) := of_shape rfl rfl rfl rfl
theorem cvt (f : Fields) : Statement (.cvt f) := of_shape rfl rfl rfl rfl
theorem cvtn (f : Fields) : Statement (.cvtn f) := of_shape rfl rfl rfl rfl
theorem cvtw (f : Fields) : Statement (.cvtw f) := of_shape rfl rfl rfl rfl
theorem pack (f : Fields) : Statement (.pack f) := of_shape rfl rfl rfl rfl
theorem unpack (f : Fields) : Statement (.unpack f) := of_shape rfl rfl rfl rfl
theorem shfl (f : Fields) : Statement (.shfl f) := of_shape rfl rfl rfl rfl
theorem bcast (f : Fields) : Statement (.bcast f) := of_shape rfl rfl rfl rfl
theorem vote (f : Fields) : Statement (.vote f) := of_shape rfl rfl rfl rfl
theorem reduce (f : Fields) : Statement (.reduce f) := of_shape rfl rfl rfl rfl
theorem scan (f : Fields) : Statement (.scan f) := of_shape rfl rfl rfl rfl
theorem match_ (f : Fields) : Statement (.match_ f) := of_shape rfl rfl rfl rfl
theorem compact (f : Fields) : Statement (.compact f) := of_shape rfl rfl rfl rfl
theorem rcp (f : Fields) : Statement (.rcp f) := of_shape rfl rfl rfl rfl
theorem rsq (f : Fields) : Statement (.rsq f) := of_shape rfl rfl rfl rfl
theorem sqrt (f : Fields) : Statement (.sqrt f) := of_shape rfl rfl rfl rfl
theorem exp2 (f : Fields) : Statement (.exp2 f) := of_shape rfl rfl rfl rfl
theorem log2 (f : Fields) : Statement (.log2 f) := of_shape rfl rfl rfl rfl
theorem sin (f : Fields) : Statement (.sin f) := of_shape rfl rfl rfl rfl
theorem cos (f : Fields) : Statement (.cos f) := of_shape rfl rfl rfl rfl
theorem tanh (f : Fields) : Statement (.tanh f) := of_shape rfl rfl rfl rfl
theorem sigm (f : Fields) : Statement (.sigm f) := of_shape rfl rfl rfl rfl
theorem fdiv (f : Fields) : Statement (.fdiv f) := of_shape rfl rfl rfl rfl
theorem fusedSoftmax (w1 w2 w3 w4 : Fields) : Statement (.fusedSoftmax w1 w2 w3 w4) := of_none rfl
theorem pairWord (x y : Half) : Statement (.pairWord x y) := by
  intro h w hw
  cases hw
  exact decode_pair x y h
theorem ld (f : Fields) : Statement (.ld f) := of_shape rfl rfl rfl rfl
theorem st (f : Fields) : Statement (.st f) := of_shape rfl rfl rfl rfl
theorem lds (f : Fields) : Statement (.lds f) := of_shape rfl rfl rfl rfl
theorem sts (f : Fields) : Statement (.sts f) := of_shape rfl rfl rfl rfl
theorem ldp (f : Fields) : Statement (.ldp f) := of_shape rfl rfl rfl rfl
theorem stp (f : Fields) : Statement (.stp f) := of_shape rfl rfl rfl rfl
theorem ldc (f : Fields) : Statement (.ldc f) := of_shape rfl rfl rfl rfl
theorem ldg (f : Fields) : Statement (.ldg f) := of_shape rfl rfl rfl rfl
theorem pref (f : Fields) : Statement (.pref f) := of_shape rfl rfl rfl rfl
theorem fence (f : Fields) : Statement (.fence f) := of_shape rfl rfl rfl rfl
theorem cctl (f : Fields) : Statement (.cctl f) := of_shape rfl rfl rfl rfl
theorem atom (f : Fields) : Statement (.atom f) := of_shape rfl rfl rfl rfl
theorem acas (f : Fields) : Statement (.acas f) := of_shape rfl rfl rfl rfl
theorem atoms (f : Fields) : Statement (.atoms f) := of_shape rfl rfl rfl rfl
theorem ldf (f : Fields) : Statement (.ldf f) := of_shape rfl rfl rfl rfl
theorem stf (f : Fields) : Statement (.stf f) := of_shape rfl rfl rfl rfl
theorem freset (f : Fields) : Statement (.freset f) := of_shape rfl rfl rfl rfl
theorem waita (f : Fields) : Statement (.waita f) := of_shape rfl rfl rfl rfl
theorem waits (f : Fields) : Statement (.waits f) := of_shape rfl rfl rfl rfl
theorem hset (f : Fields) : Statement (.hset f) := of_shape rfl rfl rfl rfl
theorem hld (f : Fields) : Statement (.hld f) := of_shape rfl rfl rfl rfl
theorem hst (f : Fields) : Statement (.hst f) := of_shape rfl rfl rfl rfl
theorem hget (f : Fields) : Statement (.hget f) := of_shape rfl rfl rfl rfl
theorem mma (f : Fields) : Statement (.mma f) := of_shape rfl rfl rfl rfl
theorem zld (f : Fields) : Statement (.zld f) := of_shape rfl rfl rfl rfl
theorem zst (f : Fields) : Statement (.zst f) := of_shape rfl rfl rfl rfl
theorem zzero (f : Fields) : Statement (.zzero f) := of_shape rfl rfl rfl rfl
theorem zmov (f : Fields) : Statement (.zmov f) := of_shape rfl rfl rfl rfl
theorem zred (f : Fields) : Statement (.zred f) := of_shape rfl rfl rfl rfl
theorem zscale (f : Fields) : Statement (.zscale f) := of_shape rfl rfl rfl rfl
theorem qscale (f : Fields) : Statement (.qscale f) := of_shape rfl rfl rfl rfl
theorem cpy (f : Fields) : Statement (.cpy f) := of_shape rfl rfl rfl rfl
theorem cpyt (f : Fields) : Statement (.cpyt f) := of_shape rfl rfl rfl rfl
theorem gthr (f : Fields) : Statement (.gthr f) := of_shape rfl rfl rfl rfl
theorem sctr (f : Fields) : Statement (.sctr f) := of_shape rfl rfl rfl rfl
theorem rcon (f : Fields) : Statement (.rcon f) := of_shape rfl rfl rfl rfl
theorem trace (f : Fields) : Statement (.trace f) := of_shape rfl rfl rfl rfl
theorem adrain (f : Fields) : Statement (.adrain f) := of_shape rfl rfl rfl rfl
theorem aqry (f : Fields) : Statement (.aqry f) := of_shape rfl rfl rfl rfl
theorem launch (f : Fields) : Statement (.launch f) := of_shape rfl rfl rfl rfl
theorem rget (f : Fields) : Statement (.rget f) := of_shape rfl rfl rfl rfl
theorem remit (f : Fields) : Statement (.remit f) := of_shape rfl rfl rfl rfl
theorem rdone (f : Fields) : Statement (.rdone f) := of_shape rfl rfl rfl rfl
theorem gsig (f : Fields) : Statement (.gsig f) := of_shape rfl rfl rfl rfl
theorem covqMe (f : Fields) : Statement (.covqMe f) :=
  of_mod rfl rfl rfl fun h => by simp_all [opMap]
theorem covqPt (f : Fields) : Statement (.covqPt f) :=
  of_mod rfl rfl rfl fun h => by simp_all [opMap]
theorem tex1 (f : Fields) : Statement (.tex1 f) := of_shape rfl rfl rfl rfl
theorem texf (f : Fields) : Statement (.texf f) := of_shape rfl rfl rfl rfl
theorem texq (f : Fields) : Statement (.texq f) := of_shape rfl rfl rfl rfl
theorem discard (f : Fields) : Statement (.discard f) := of_shape rfl rfl rfl rfl
theorem depthw (f : Fields) : Statement (.depthw f) := of_shape rfl rfl rfl rfl
theorem attr (f : Fields) : Statement (.attr f) := of_shape rfl rfl rfl rfl
theorem bar (f : Fields) : Statement (.bar f) := of_shape rfl rfl rfl rfl
theorem binit (f : Fields) : Statement (.binit f) := of_shape rfl rfl rfl rfl
theorem bexp (f : Fields) : Statement (.bexp f) := of_shape rfl rfl rfl rfl
theorem barv (f : Fields) : Statement (.barv f) := of_shape rfl rfl rfl rfl
theorem bwait (f : Fields) : Statement (.bwait f) := of_shape rfl rfl rfl rfl
theorem jarm (f : Fields) : Statement (.jarm f) := of_shape rfl rfl rfl rfl
theorem join (f : Fields) : Statement (.join f) := of_shape rfl rfl rfl rfl
theorem jdrop (f : Fields) : Statement (.jdrop f) := of_shape rfl rfl rfl rfl
theorem reform (f : Fields) : Statement (.reform f) := of_shape rfl rfl rfl rfl
theorem bqry (f : Fields) : Statement (.bqry f) := of_shape rfl rfl rfl rfl
theorem trap (f : Fields) : Statement (.trap f) := of_shape rfl rfl rfl rfl
theorem tret (f : Fields) : Statement (.tret f) := of_shape rfl rfl rfl rfl
theorem region (f : Fields) : Statement (.region f) := of_shape rfl rfl rfl rfl
theorem pyield (f : Fields) : Statement (.pyield f) := of_shape rfl rfl rfl rfl
theorem timer (f : Fields) : Statement (.timer f) := of_shape rfl rfl rfl rfl
theorem srd (f : Fields) : Statement (.srd f) := of_shape rfl rfl rfl rfl
theorem swr (f : Fields) : Statement (.swr f) := of_shape rfl rfl rfl rfl
theorem csave (f : Fields) : Statement (.csave f) := of_shape rfl rfl rfl rfl
theorem crestChk (f : Fields) : Statement (.crestChk f) :=
  of_mod rfl rfl rfl fun h => by simp_all [opMap]
theorem crestGo (f : Fields) : Statement (.crestGo f) :=
  of_mod rfl rfl rfl fun h => by simp_all [opMap]
theorem halt (f : Fields) : Statement (.halt f) := of_shape rfl rfl rfl rfl
theorem dependenceResolved (gid : Nat) : Statement (.dependenceResolved gid) := of_none rfl
theorem groupPromote (gid : Nat) : Statement (.groupPromote gid) := of_none rfl
theorem timerFire (gid : Nat) : Statement (.timerFire gid) := of_none rfl
theorem waitaWake (host : Bool) (line : Nat) : Statement (.waitaWake host line) := of_none rfl
theorem waitaPoll (gid : Nat) : Statement (.waitaPoll gid) := of_none rfl
theorem loadDataReturn (load : Nat) : Statement (.loadDataReturn load) := of_none rfl
theorem clockAdvance (core : Nat) : Statement (.clockAdvance core) := of_none rfl
theorem clockRebase (part : Nat) (base : Nat) : Statement (.clockRebase part base) := of_none rfl
theorem portPeriodBoundary (part : Nat) : Statement (.portPeriodBoundary part) := of_none rfl
theorem asyncOpComplete (op : Nat) : Statement (.asyncOpComplete op) := of_none rfl
theorem gsigWrite (gsig : Nat) : Statement (.gsigWrite gsig) := of_none rfl
theorem tileFetchFault (mma : Nat) (cause : BitVec 8) (va : W64) : Statement (.tileFetchFault mma cause va) := of_none rfl
theorem relaunchWalk (team : Nat) : Statement (.relaunchWalk team) := of_none rfl
theorem teamTerminate (team : Nat) (cause : BitVec 8) : Statement (.teamTerminate team cause) := of_none rfl
theorem reformDraw (core bin : Nat) : Statement (.reformDraw core bin) := of_none rfl
theorem pageWalk (ctx die : Nat) (va : W64) (acc : PageAcc) : Statement (.pageWalk ctx die va acc) := of_none rfl
theorem trPrqWrite (part : Nat) (value : W64) : Statement (.trPrqWrite part value) := of_none rfl
theorem trInvGo (part : Nat) (value : W64) : Statement (.trInvGo part value) := of_none rfl
theorem invalidationComplete (part : Nat) : Statement (.invalidationComplete part) := of_none rfl
theorem registerWrite (offset : Nat) (value : W64) : Statement (.registerWrite offset value) := of_none rfl
theorem vcpNotify (page : Nat) (value : W64) : Statement (.vcpNotify page value) := of_none rfl
theorem vcpErrClear (page : Nat) (value : W64) : Statement (.vcpErrClear page value) := of_none rfl
theorem queueSwap (page q : Nat) : Statement (.queueSwap page q) := of_none rfl
theorem queueWaitTimeout (page q : Nat) : Statement (.queueWaitTimeout page q) := of_none rfl
theorem queueWatchdog (page q : Nat) : Statement (.queueWatchdog page q) := of_none rfl
theorem waitSignalWake (page q : Nat) : Statement (.waitSignalWake page q) := of_none rfl
theorem loadGraph (page q : Nat) : Statement (.loadGraph page q) := of_none rfl
theorem trigger (page q : Nat) : Statement (.trigger page q) := of_none rfl
theorem signal (page q : Nat) : Statement (.signal page q) := of_none rfl
theorem waitSignal (page q : Nat) : Statement (.waitSignal page q) := of_none rfl
theorem copy (page q : Nat) : Statement (.copy page q) := of_none rfl
theorem copyPacketComplete (copy : Nat) : Statement (.copyPacketComplete copy) := of_none rfl
theorem setCut (page q : Nat) : Statement (.setCut page q) := of_none rfl
theorem query (page q : Nat) : Statement (.query page q) := of_none rfl
theorem fencePacket (page q : Nat) : Statement (.fencePacket page q) := of_none rfl
theorem partCreate (page q : Nat) : Statement (.partCreate page q) := of_none rfl
theorem partDestroy (page q : Nat) : Statement (.partDestroy page q) := of_none rfl
theorem vcpAssign (page q : Nat) : Statement (.vcpAssign page q) := of_none rfl
theorem ctxCreate (page q : Nat) : Statement (.ctxCreate page q) := of_none rfl
theorem ctxBind (page q : Nat) : Statement (.ctxBind page q) := of_none rfl
theorem ctxDestroy (page q : Nat) : Statement (.ctxDestroy page q) := of_none rfl
theorem ctxPreempt (page q : Nat) : Statement (.ctxPreempt page q) := of_none rfl
theorem ctxRestore (page q : Nat) : Statement (.ctxRestore page q) := of_none rfl
theorem ctxReset (page q : Nat) : Statement (.ctxReset page q) := of_none rfl
theorem setPortShare (page q : Nat) : Statement (.setPortShare page q) := of_none rfl
theorem setPlacer (page q : Nat) : Statement (.setPlacer page q) := of_none rfl
theorem setGroupScheduler (page q : Nat) : Statement (.setGroupScheduler page q) := of_none rfl
theorem setTenantQuantum (page q : Nat) : Statement (.setTenantQuantum page q) := of_none rfl
theorem setHomingEntry (page q : Nat) : Statement (.setHomingEntry page q) := of_none rfl
theorem preemptDeadlineExpiry (team : Nat) : Statement (.preemptDeadlineExpiry team) := of_none rfl
theorem saveOverrun (team : Nat) : Statement (.saveOverrun team) := of_none rfl
theorem contextSaved (ctx : Nat) : Statement (.contextSaved ctx) := of_none rfl
theorem restoreAdmit (ctx : Nat) : Statement (.restoreAdmit ctx) := of_none rfl
theorem contextScrubDone (ctx : Nat) : Statement (.contextScrubDone ctx) := of_none rfl
theorem tenantRound (part : Nat) : Statement (.tenantRound part) := of_none rfl
theorem taskComplete (task : Nat) (cost : Nat) : Statement (.taskComplete task cost) := of_none rfl
theorem triggerRunRequest (graph : Nat) (value : W64) : Statement (.triggerRunRequest graph value) := of_none rfl
theorem triggerClearOvr (graph : Nat) : Statement (.triggerClearOvr graph) := of_none rfl
theorem launchArgsFetch (launch : Nat) : Statement (.launchArgsFetch launch) := of_none rfl
theorem teamPlace (part : Nat) : Statement (.teamPlace part) := of_none rfl
theorem coreStart (team : Nat) : Statement (.coreStart team) := of_none rfl
theorem recordTeamAdmit (launch : Nat) : Statement (.recordTeamAdmit launch) := of_none rfl
theorem nodeDone (graph node : Nat) : Statement (.nodeDone graph node) := of_none rfl
theorem runEnd (graph : Nat) : Statement (.runEnd graph) := of_none rfl
theorem coverageUpdate (launch : Nat) : Statement (.coverageUpdate launch) := of_none rfl
theorem rasteriseTriangle (graph node : Nat) : Statement (.rasteriseTriangle graph node) := of_none rfl
theorem blendRecord (graph node : Nat) : Statement (.blendRecord graph node) := of_none rfl
theorem traverseRay (graph node : Nat) : Statement (.traverseRay graph node) := of_none rfl
theorem solderRecord (graph node : Nat) : Statement (.solderRecord graph node) := of_none rfl
theorem hostCxlMemRead (pa len : Nat) : Statement (.hostCxlMemRead pa len) := of_none rfl
theorem hostCxlMemWrite (pa : Nat) (data : List Byte) : Statement (.hostCxlMemWrite pa data) := of_none rfl
theorem hostSnoop (pa : Nat) (data : List Byte) : Statement (.hostSnoop pa data) := of_none rfl
theorem linkEnable (port : Nat) (value : W64) : Statement (.linkEnable port value) := of_none rfl
theorem linkDisable (port : Nat) (value : W64) : Statement (.linkDisable port value) := of_none rfl
theorem pcsLinkUp (port : Nat) : Statement (.pcsLinkUp port) := of_none rfl
theorem pcsLinkLoss (port : Nat) : Statement (.pcsLinkLoss port) := of_none rfl
theorem trainingTimeout (port : Nat) : Statement (.trainingTimeout port) := of_none rfl
theorem controlResend (port : Nat) : Statement (.controlResend port) := of_none rfl
theorem neighborSolicitation (port : Nat) (nd : NdFrame) : Statement (.neighborSolicitation port nd) := of_none rfl
theorem data (port : Nat) (pkt : EdgePacket) : Statement (.data port pkt) := of_none rfl
theorem parity (port : Nat) (pkt : EdgePacket) : Statement (.parity port pkt) := of_none rfl
theorem frame (port : Nat) (pkt : EdgePacket) : Statement (.frame port pkt) := of_none rfl
theorem cutPropose (port : Nat) (pkt : EdgePacket) : Statement (.cutPropose port pkt) := of_none rfl
theorem cutAccept (port : Nat) (pkt : EdgePacket) : Statement (.cutAccept port pkt) := of_none rfl
theorem cutReject (port : Nat) (pkt : EdgePacket) : Statement (.cutReject port pkt) := of_none rfl
theorem stateXfer (port : Nat) (pkt : EdgePacket) : Statement (.stateXfer port pkt) := of_none rfl
theorem stateAck (port : Nat) (pkt : EdgePacket) : Statement (.stateAck port pkt) := of_none rfl
theorem refMiss (port : Nat) (pkt : EdgePacket) : Statement (.refMiss port pkt) := of_none rfl
theorem cack (port : Nat) (pkt : EdgePacket) : Statement (.cack port pkt) := of_none rfl
theorem ldata (port : Nat) (pkt : EdgePacket) : Statement (.ldata port pkt) := of_none rfl
theorem lack (port : Nat) (pkt : EdgePacket) : Statement (.lack port pkt) := of_none rfl
theorem frameClose (graph edge frame : Nat) : Statement (.frameClose graph edge frame) := of_none rfl
theorem lateRecord (graph edge : Nat) (slot : List Byte) : Statement (.lateRecord graph edge slot) := of_none rfl
theorem brassEncode (graph edge frame : Nat) : Statement (.brassEncode graph edge frame) := of_none rfl
theorem cutMoveEnd (part : Nat) : Statement (.cutMoveEnd part) := of_none rfl
theorem sensorResample (readings : List (Nat × BitVec 8 × BitVec 8)) : Statement (.sensorResample readings) := of_none rfl
theorem powerPeriod (power : PowerReading) : Statement (.powerPeriod power) := of_none rfl
theorem thermalTrip (core : Nat) : Statement (.thermalTrip core) := of_none rfl
theorem supplyFault  : Statement (.supplyFault) := of_none rfl
theorem moduleReset  : Statement (.moduleReset) := of_none rfl
theorem fuseLoad  : Statement (.fuseLoad) := of_none rfl
theorem channelTraining (die : Nat) (ok : Bool) : Statement (.channelTraining die ok) := of_none rfl
theorem memoryZero  : Statement (.memoryZero) := of_none rfl
theorem firmwareLoad (ok : Bool) : Statement (.firmwareLoad ok) := of_none rfl
theorem macEnable  : Statement (.macEnable) := of_none rfl
theorem patrolScrub (line : Nat) (error : Bool) : Statement (.patrolScrub line error) := of_none rfl
theorem uncorrectableError (site : ErrorSite) : Statement (.uncorrectableError site) := of_none rfl
theorem illegalInstruction (word : W128) : Statement (.illegalInstruction word) := of_none rfl
theorem instructionFetchFault (cause : BitVec 8) : Statement (.instructionFetchFault cause) := of_none rfl
theorem waitsLimitExpiry (gid : Nat) : Statement (.waitsLimitExpiry gid) := of_none rfl
theorem mmaComplete (mma : Nat) : Statement (.mmaComplete mma) := of_none rfl
theorem correctedSoftError  : Statement (.correctedSoftError) := of_none rfl
theorem partitionScrubDone (part : Nat) : Statement (.partitionScrubDone part) := of_none rfl
theorem neighborCacheExpiry (port : Nat) (ip : W128) : Statement (.neighborCacheExpiry port ip) := of_none rfl
theorem neighborResolutionTimeout (port : Nat) (ip : W128) : Statement (.neighborResolutionTimeout port ip) := of_none rfl

end Sys2Proof.Laws.RoundTrip
end

