-- ==== Sys2Proof/Laws/Values.lean ====
section
/-! SUPPORT. Words whose effect is a value or a predicate in registers: that they complete, and with what. -/

namespace Sys2Proof.Machine

theorem rest_of_withV {g g' : Group} (h : g' = g.withV g') : g' = { g with vregs := g'.vregs, sregs := g'.sregs } := by
  rw [h]; rfl
theorem rest_of_sregs {g g' : Group} (h : g' = { g with sregs := g'.sregs }) :
    g' = { g with vregs := g'.vregs, sregs := g'.sregs } := by rw [h]
theorem sregs_of_withV {g g' : Group} (h : g' = g.withV g') : g'.sregs = g.sregs := by rw [h]; rfl
theorem vregs_of_sregs {g g' : Group} (h : g' = { g with sregs := g'.sregs }) : g'.vregs = g.vregs := by rw [h]

/-- What D holds after a result is written (R44, R45, R49). -/
theorem writeD_result (F : Frag) (f : Fields) (w : Bool) (v : Nat → Nat) :
    ValueResult F f w v (writeD F.g f.ds f.d.toNat w (activeOf F f) v) := by
  cases h : f.ds
  · have e := writeLanes_withV F.g f.d.toNat w (activeOf F f) v
    refine ⟨rest_of_withV e, fun r L hL => ?_, fun r => ?_⟩
    · show getV (writeLanes _ _ _ _ _) r L = _
      rw [getV_writeLanes _ _ _ _ _ _ _ hL]
      simp [h]
    · show sget (writeLanes _ _ _ _ _).sregs r = _
      rw [sregs_of_withV e]
      simp [h]; rfl
  · have e := writeScalar_rest F.g f.d.toNat w (activeOf F f) (v (lowestLane (activeOf F f)))
    refine ⟨rest_of_sregs e, fun r L hL => ?_, fun r => ?_⟩
    · show sget (writeScalar _ _ _ _ _).vregs _ = _
      rw [vregs_of_sregs e]
      simp [h]; rfl
    · show getS (writeScalar _ _ _ _ _) r = _
      rw [getS_writeScalar]
      simp [h]

theorem ValueResult.same {F : Frag} {f : Fields} {w : Bool} {v : Nat → Nat} {g' : Group} (h : ValueResult F f w v g') :
    g'.id = F.g.id ∧ g'.sides = F.g.sides ∧ g'.tm = F.g.tm ∧ g'.trapLanes = F.g.trapLanes := by
  rw [h.rest]; exact ⟨rfl, rfl, rfl, rfl⟩

/-- A word that only writes a value in D completes so. -/
theorem valueWord_completes {s : State} {F : Frag} {i : Instr} {f : Fields} {w : Bool} {body : State → Frag → Act}
    {v : Nat → Nat} (hi : Issues s F i) (hq : F.quiet) (he : exec i s = issue i body s)
    (hb : body s F = valueWord s F f w v) :
    ∃ g', ValueResult F f w v g' ∧ exec i s = .next (setGroup s { g' with sides := nextSides F }) := by
  have r := writeD_result F f w v
  obtain ⟨h1, h2, h3, h4⟩ := r.same
  refine ⟨_, r, ?_⟩
  rw [he]
  exact issue_registers hi hq (by rw [hb]; rfl) h1 h2 h3 h4

theorem preds_same {g g' : Group} (e : g' = { g with preds := g'.preds }) :
    g'.id = g.id ∧ g'.sides = g.sides ∧ g'.tm = g.tm ∧ g'.trapLanes = g.trapLanes := by rw [e]; exact ⟨rfl, rfl, rfl, rfl⟩
theorem vregs_preds_trans {g g' g'' : Group} (e1 : g' = g.withV g') (e : g'' = { g' with preds := g''.preds }) :
    g'' = { g with vregs := g''.vregs, preds := g''.preds } := by rw [e, e1]; rfl
theorem vregs_preds_same {g g' : Group} (e : g' = { g with vregs := g'.vregs, preds := g'.preds }) :
    g'.id = g.id ∧ g'.sides = g.sides ∧ g'.tm = g.tm ∧ g'.trapLanes = g.trapLanes := by rw [e]; exact ⟨rfl, rfl, rfl, rfl⟩
theorem getP_of_withV {g g' : Group} (e : g' = g.withV g') (n L : Nat) : getP g' n L = getP g n L := by rw [e]; rfl
theorem getV_of_preds {g g' : Group} (e : g' = { g with preds := g'.preds }) (r L : Nat) : getV g' r L = getV g r L := by
  rw [e]; rfl

theorem valueWord_of {i : Instr} {f : Fields} {w : Bool} {v : State → Frag → Nat → Nat}
    (h : ∀ s, exec i s = issue i (fun s F => valueWord s F f w (v s F)) s) : ValueWord i f w v :=
  fun s _ hi hq => valueWord_completes hi hq (h s) rfl

/-- What a predicate holds after a result is written (R46). -/
theorem writePred_result (F : Frag) (f : Fields) (d : Nat) (v : Nat → Bool) :
    PredResult F f d v (writePred F.g d (activeOf F f) v) :=
  ⟨writePred_rest _ _ _ _, fun _ _ hL => getP_writePred _ _ _ _ _ _ hL⟩

/-- A word that only writes a predicate completes so. -/
theorem predWord_completes {s : State} {F : Frag} {i : Instr} {f : Fields} {d : Nat} {body : State → Frag → Act}
    {v : Nat → Bool} (hi : Issues s F i) (hq : F.quiet) (he : exec i s = issue i body s)
    (hb : body s F = .done (setGroup s (writePred F.g d (activeOf F f) v))) :
    ∃ g', PredResult F f d v g' ∧ exec i s = .next (setGroup s { g' with sides := nextSides F }) := by
  obtain ⟨h1, h2, h3, h4⟩ := preds_same (writePred_rest F.g d (activeOf F f) v)
  exact ⟨_, writePred_result F f d v, by rw [he]; exact issue_registers hi hq hb h1 h2 h3 h4⟩

theorem withV_same {g g' : Group} (e : g' = g.withV g') :
    g'.id = g.id ∧ g'.sides = g.sides ∧ g'.tm = g.tm ∧ g'.trapLanes = g.trapLanes := by rw [e]; exact ⟨rfl, rfl, rfl, rfl⟩

/-- A word that only writes a predicate in D completes so. -/
theorem predWord_of {i : Instr} {f : Fields} {v : State → Frag → Nat → Bool}
    (h : ∀ s, exec i s = issue i (fun s F => predWord s F f (v s F)) s) : PredWord i f v := by
  intro s F hi hq
  exact predWord_completes hi hq (h s) rfl

/-- A word that only writes vector registers completes so. -/
theorem laneWord_of {i : Instr} {f : Fields} {w : Bool} {v : State → Frag → Nat → Nat}
    (h : ∀ s, exec i s = issue i (fun s F => .done (setGroup s (writeLanes F.g f.d.toNat w (activeOf F f) (v s F)))) s) :
    LaneWord i f w v := by
  intro s F hi hq
  have e := writeLanes_withV F.g f.d.toNat w (activeOf F f) (v s F)
  refine ⟨_, e, fun r L hL => getV_writeLanes _ _ _ _ _ _ _ hL, ?_⟩
  rw [h]
  obtain ⟨h1, h2, h3, h4⟩ := withV_same e
  exact issue_registers hi hq rfl h1 h2 h3 h4

/-- Vector registers and then a predicate, written of F's group. -/
theorem valueAndPred_of {i : Instr} {f : Fields} {w : Bool} {pd : Nat} {v : State → Frag → Nat → Nat}
    {p : State → Frag → Nat → Bool}
    (h : ∀ s, exec i s = issue i (fun s F => .done (setGroup s
      (writePred (writeLanes F.g f.d.toNat w (activeOf F f) (v s F)) pd (activeOf F f) (p s F)))) s) :
    ValueAndPredWord i f w pd v p := by
  intro s F hi hq
  have e1 := writeLanes_withV F.g f.d.toNat w (activeOf F f) (v s F)
  have e := writePred_rest (writeLanes F.g f.d.toNat w (activeOf F f) (v s F)) pd (activeOf F f) (p s F)
  have e2 := vregs_preds_trans e1 e
  refine ⟨_, e2, ?_, ?_, ?_⟩
  · intro r L hL
    rw [getV_of_preds e, getV_writeLanes _ _ _ _ _ _ _ hL]
  · intro n L hL
    rw [getP_writePred _ _ _ _ _ _ hL, getP_of_withV e1]
  · rw [h]
    obtain ⟨h1, h2, h3, h4⟩ := vregs_preds_same e2
    exact issue_registers hi hq rfl h1 h2 h3 h4

/-! ## Integers (R64, R69, R112) -/

theorem toQ_ofInt (n : Int) : (Num.ofInt n).toQ.n = n := by
  unfold Num.ofInt Num.ofQ Q.ofInt
  by_cases h : n = 0 <;> simp [h, Num.toQ]

/-- An integer kind's value is its bits', in two's complement where it is signed. -/
theorem decodeInt_int (sg : Bool) (w b : Nat) (hw : 0 < w) :
    decodeInt (.int sg w) b = if sg then (BitVec.ofNat w b).toInt else ((BitVec.ofNat w b).toNat : Int) := by
  unfold decodeInt decodeNum
  simp only [toQ_ofInt]
  cases sg
  · simp
  · have h2 : 2 ^ w = 2 * 2 ^ (w - 1) := by
      rw [← Nat.pow_succ']; congr 1; omega
    simp only [Bool.true_and, if_true, BitVec.toInt_eq_toNat_cond, BitVec.toNat_ofNat, decide_eq_true_eq]
    by_cases c : 2 ^ (w - 1) ≤ b % 2 ^ w
    · rw [if_pos c, if_neg (by omega)]; push_cast; rfl
    · rw [if_neg c, if_pos (by omega)]

theorem intBits_cast (w : Nat) (x : Int) : ((intBits w x : Nat) : Int) = x % 2 ^ w := by
  unfold intBits
  rw [Int.toNat_of_nonneg]
  exact Int.emod_nonneg _ (by have : (2 : Int) ^ w > 0 := Int.pow_pos (by decide); omega)

theorem intBits_lt (w : Nat) (x : Int) : intBits w x < 2 ^ w := by
  have h := intBits_cast w x
  have hp : (0 : Int) < 2 ^ w := Int.pow_pos (by decide)
  have := Int.emod_lt_of_pos x hp
  rw [← h] at this
  exact_mod_cast this

/-- Elements laid side by side. -/
theorem elements_sum (w : Nat) (e : Nat → Nat) (he : ∀ j, e j < 2 ^ w) (n : Nat) :
    (List.range n).foldl (fun acc j => acc + e j * 2 ^ (w * j)) 0 < 2 ^ (n * w) ∧
      ∀ j, j < n → (List.range n).foldl (fun acc j => acc + e j * 2 ^ (w * j)) 0 / 2 ^ (w * j) % 2 ^ w = e j := by
  induction n with
  | zero => simp
  | succ n ih =>
    obtain ⟨h1, h2⟩ := ih
    rw [List.range_succ, List.foldl_append]
    simp only [List.foldl_cons, List.foldl_nil]
    generalize (List.range n).foldl (fun acc j => acc + e j * 2 ^ (w * j)) 0 = a at *
    have hw : 2 ^ (w * n) = 2 ^ (n * w) := by rw [Nat.mul_comm]
    have hs : 2 ^ ((n + 1) * w) = 2 ^ (n * w) * 2 ^ w := by rw [← Nat.pow_add]; congr 1; rw [Nat.succ_mul]
    constructor
    · rw [hs, hw]
      have := he n
      have h3 : (e n + 1) * 2 ^ (n * w) ≤ 2 ^ w * 2 ^ (n * w) := Nat.mul_le_mul_right _ this
      rw [Nat.add_mul, Nat.one_mul] at h3
      rw [Nat.mul_comm (2 ^ (n * w)) (2 ^ w)]
      omega
    · intro j hj
      by_cases c : j = n
      · subst c
        rw [hw, Nat.add_mul_div_right _ _ (Nat.two_pow_pos _), Nat.div_eq_of_lt h1, Nat.zero_add, Nat.mod_eq_of_lt (he j)]
      · rw [← h2 j (by omega)]
        have hj' : w * n = w * j + (w + w * (n - j - 1)) := by
          have e1 : n = j + (1 + (n - j - 1)) := by omega
          calc w * n = w * (j + (1 + (n - j - 1))) := by rw [← e1]
            _ = _ := by rw [Nat.mul_add, Nat.mul_add, Nat.mul_one]
        rw [hj', Nat.pow_add, Nat.pow_add]
        have e2 : e n * (2 ^ (w * j) * (2 ^ w * 2 ^ (w * (n - j - 1)))) = (e n * 2 ^ (w * (n - j - 1)) * 2 ^ w) * 2 ^ (w * j) := by
          ac_rfl
        rw [e2, Nat.add_mul_div_right _ _ (Nat.two_pow_pos _), Nat.add_mul_mod_self_right]

end Sys2Proof.Machine
end

