-- ==== Sys2Proof/Laws/Traps.lean ====
section
/-! SUPPORT. Taking a trap: what a fault of the issuing fragment does to its group. -/

namespace Sys2Proof.Machine

/-- With no side at TRET and a lane of T live, no trap is about to end. -/
theorem trapHeldOpen_none {g : Group} (h : ∀ x ∈ g.sides, x.atTret = false) {x : Side} (hx : x ∈ g.sides) (hl : x.lanes ≠ 0)
    (hT : x.lanes &&& g.trapLanes = x.lanes) : trapHeldOpen g := by
  right
  constructor
  · rw [tretGathered_none]
    have : g.sides.filter Side.atTret = [] := by
      rw [List.filter_eq_nil_iff]
      intro y hy
      simp [h y hy]
    have e : tretLanes g = 0 := by unfold tretLanes; rw [this]; rfl
    simp [e]
  · intro e
    apply hl
    apply BitVec.eq_of_getLsbD_eq
    intro i hi
    have e' := congrArg (fun m : Mask => m.getLsbD i) e
    have t' := congrArg (fun m : Mask => m.getLsbD i) hT
    simp only [BitVec.getLsbD_and] at e' t'
    have hz : (0#32).getLsbD i = false := by simp
    simp only [BitVec.ofNat_eq_ofNat, hz] at e' ⊢
    by_cases c : x.lanes.getLsbD i
    · have hlive : (liveLanes g).getLsbD i = true := by
        unfold liveLanes
        rw [getLsbD_foldl_lanes]
        simp only [Bool.or_eq_true, List.any_eq_true]
        exact .inr ⟨x, hx, c⟩
      rw [hlive] at e'
      rw [c] at t'
      simp_all
    · simpa using c

theorem fold_and (l : List Side) (x : Side) (hx : x ∈ l) :
    x.lanes &&& l.foldl (fun m y => m ||| y.lanes) (0 : Mask) = x.lanes := by
  apply BitVec.eq_of_getLsbD_eq
  intro i hi
  rw [BitVec.getLsbD_and, getLsbD_foldl_lanes]
  by_cases c : x.lanes.getLsbD i
  · have : (l.any fun y => y.lanes.getLsbD i) = true := List.any_eq_true.mpr ⟨x, hx, c⟩
    rw [this]; simp
  · simp [c]

/-- A trap of the issuing fragment, where no handler runs, there is one to enter, and its group is `g` by then, of the sides
and trap state that it had (R328). -/
theorem finish_trap {s s' : State} {F : Frag} (hF : issuing s = some F) (hc : F.calm) {g : Group}
    (hg : getGroup s' F.g.id = some g) (hs : g.sides = F.g.sides) (htm : g.tm = F.g.tm) (htb : g.trapbase = F.g.trapbase)
    (hst : g.st = F.g.st) (hr : g.regions = F.g.regions) {cause : BitVec 8} (hf : fatalCause cause = false) (eaddr : W64)
    (replay : Mask) :
    finish F.g.id F.key (.trap s' cause eaddr replay) = setGroup s' (trapGroup F g cause eaddr replay) := by
  obtain ⟨hl, htm0, htr, htb0⟩ := hc
  obtain ⟨x, hx, hsame, hxl, hxr⟩ := issuing_side hF hl
  obtain ⟨-, -, -, hlanes⟩ := issuing_spec hF
  have hid : g.id = F.g.id := getGroup_id hg
  unfold finish raise
  simp only [hg, hf, Bool.false_eq_true, if_false, htm, htm0, Bool.false_and, htb, htb0]
  unfold trapEntry
  simp only [hs, ← hlanes, hst, hr, htb, mapFrag]
  -- the group that the handler starts in
  generalize hG : Group.mk _ _ _ _ _ _ _ _ _ _ _ _ _ _ _ _ _ _ _ _ _ _ _ _ _ _ _ _ _ _ _ _ _ _ _ _ _ _ _ _ _ _ _ _ _ _ _ = G
  have hGid : G.id = F.g.id := by rw [← hG]; exact hid
  have hGs : G.sides = F.g.sides.map fun x =>
      if F.key.sameFragment x then { x.goto F.g.trapbase with ctr := 0, handler := true } else x := by rw [← hG]
  have hGT : G.trapLanes = F.lanes := by rw [← hG]
  have hG' : getGroup (setGroup s' G) F.g.id = some G := getGroup_put hGid
  let y : Side := { x.goto F.g.trapbase with ctr := 0, handler := true }
  have hy : y ∈ G.sides := by
    rw [hGs, List.mem_map]; exact ⟨x, hx, by rw [if_pos hsame]⟩
  have hmem : x ∈ F.g.sides.filter fun x => F.key.sameFragment x := List.mem_filter.mpr ⟨hx, hsame⟩
  have hopen : trapHeldOpen G := by
    refine trapHeldOpen_none (x := y) ?_ hy hxl ?_
    · intro z hz
      rw [hGs, List.mem_map] at hz
      obtain ⟨u, hu, e⟩ := hz
      rw [← e]
      split
      · exact htr u hu
      · exact htr u hu
    · rw [hGT, hlanes]; exact fold_and _ x hmem
  rw [settle_open hG' hopen hy hxl hxr]
  refine (setGroup_setGroup _ _ _ (by rfl)).trans ?_
  rw [hGs, ← hG]
  simp only [trapGroup, htb, hr]

/-- A word that traps and has changed nothing else. -/
theorem issue_trap {s : State} {F : Frag} {i : Instr} (h : Issues s F i) (hc : F.calm) {body : State → Frag → Act}
    {cause : BitVec 8} {eaddr : W64} {replay : Mask} (hb : body s F = .trap s cause eaddr replay)
    (hf : fatalCause cause = false) : issue i body s = .next (afterTrap s F cause eaddr replay) := by
  rw [issue_of h, hb]
  obtain ⟨hg, -⟩ := issuing_spec h.issuing
  exact congrArg _ (finish_trap h.issuing hc hg rfl rfl rfl rfl rfl hf eaddr replay)

/-- A word that traps with a free address and has changed nothing else. -/
theorem issue_plainTrap {s : State} {F : Frag} {i : Instr} (h : Issues s F i) (hc : F.calm) {body : State → Frag → Act}
    {cause : BitVec 8} {replay : Mask} (hb : body s F = plainTrap s cause replay) (hf : fatalCause cause = false) :
    issue i body s = .next (afterPlainTrap s F cause replay) := by
  rw [issue_of h, hb]
  obtain ⟨hg, -⟩ := issuing_spec h.issuing
  exact congrArg _ (finish_trap (s' := { s with free := s.free + 1 }) h.issuing hc hg rfl rfl rfl rfl rfl hf _ replay)

/-- A word of which a lane may overflow. -/
theorem overflowWord_of {i : Instr} {f : Fields} {w : Bool} {v : State → Frag → Nat → Option Nat}
    (h : ∀ s, exec i s = issue i (fun s F => valueOrOverflow s F f w (v s F)) s) : OverflowWord i f w v := by
  intro s F hi
  constructor
  · intro hq hv
    refine valueWord_completes hi hq (h s) ?_
    unfold valueOrOverflow
    rw [if_pos]
    rw [List.all_eq_true]
    exact hv
  · intro hc ⟨L, hL, hn⟩
    rw [h]
    refine issue_plainTrap hi hc ?_ (by decide)
    unfold valueOrOverflow
    rw [if_neg]
    rw [List.all_eq_true]
    intro ha
    have := ha L hL
    rw [hn] at this
    cases this

end Sys2Proof.Machine
end

