-- ==== Sys2Proof/Tests/Slice0.lean ====
section
/-! SUPPORT. Tests. Words of the spec decode and encode; each check of well-formedness refuses a term; single steps of small
states give what the spec's examples and hand calculation say; and states and operands meet the hypotheses of the statements. -/

namespace Sys2Proof.Tests

open Sys2Proof.Machine

-- One theorem at a time: each waits for the kernel, and a hundred waiting at once hold a stack of memory each.
set_option Elab.async false

/-! ## Words that the spec writes out -/

/-- The fields of a word with both guards p15 and everything else 0. -/
def z : Fields := ⟨false, 0, 0, 0, 0, 0, 0, 0, 15, 15, 0, 0, 0, 0, 0, 0, 0, 0, 0⟩

/-- Chapter 03 writes this word out. -/
theorem test_decode_fadd : decode 0x0000000001EF20000000C00403005200 = .ok (.fadd { z with mod := 5, d := 3, a := 1, b := 12, selB := 2 }) := by decide
/-- Chapter 04 writes this word out. -/
theorem test_decode_cvtn : decode 0x0000000301EF00000000000402005306 = .ok (.cvtn { z with immForm := true, imm32 := 3, mod := 5, d := 2, a := 1 }) := by decide
/-- Chapter 05 writes this word out. -/
theorem test_decode_bra : decode 0xFFFFFE8001EF00000000000000000004 = .ok (.bra { z with off25 := 0x1FFFFFD }) := by decide
/-- Chapter 05 writes this word out. -/
theorem test_decode_icmp : decode 0x0000000001EF00020000300801001158 = .ok (.icmp { z with mod := 1, d := 1, a := 2, b := 3, e := 2 }) := by decide
/-- Chapter 06 writes this word out. -/
theorem test_decode_shfl : decode 0x0000000101EF40030240000402A00402 = .ok (.shfl { z with immForm := true, imm32 := 1, mod := 0xA00, d := 2, a := 1, c := 9, e := 3, selC := 1 }) := by decide
/-- Chapter 06 writes this word out. -/
theorem test_decode_ld : decode 0x0000200001EF0400000070100801A600 = .ok (.ld { z with mod := 0x01A, d := 8, a := 4, b := 7, selA := 1, off25 := 64 }) := by decide
/-- Chapter 07 writes this word out. -/
theorem test_decode_mma : decode 0x0000000001EF00000000200400000810 = .ok (.mma { z with a := 1, b := 2 }) := by decide
/-- Chapter 10 writes this word out. -/
theorem test_decode_crest_go : decode 0x0000000001EF04000000000800001D20 = .ok (.crestGo { z with mod := 1, a := 2, selA := 1 }) := by decide
/-- Chapter 12 writes this word out. -/
theorem test_decode_launch : decode 0x0000000001EF14000000300804000A00 = .ok (.launch { z with d := 4, a := 2, b := 3, selA := 1, selB := 1 }) := by decide
/-- Chapter 13 writes this word out. -/
theorem test_decode_reform : decode 0x0000028001EF0000000000000000CC20 = .ok (.reform { z with mod := 0xC, off25 := 5 }) := by decide
/-- Chapter 14 writes this word out. -/
theorem test_decode_join : decode 0x0000000001EF00000000000001000C18 = .ok (.join { z with d := 1 }) := by decide
/-- Chapter 14 writes this word out. -/
theorem test_decode_bar : decode 0x0000000001EF00020000000000000C00 = .ok (.bar { z with e := 2 }) := by decide
/-- Chapter 17 writes this word out. -/
theorem test_decode_cpy : decode 0x0000000001EF14080000601000408900 = .ok (.cpy { z with mod := 0x408, a := 4, b := 6, e := 8, selA := 1, selB := 1 }) := by decide
/-- Chapter 18 writes this word out. -/
theorem test_decode_rcon : decode 0x0000000001EF00080000300800208910 = .ok (.rcon { z with mod := 0x208, a := 2, b := 3, e := 8 }) := by decide
/-- Chapter 18 writes this word out. -/
theorem test_decode_covq_pt : decode 0x0000000001EF00000000300806001A14 = .ok (.covqPt { z with mod := 1, d := 6, a := 2, b := 3 }) := by decide
/-- Chapter 19 writes this word out. -/
theorem test_decode_tex1 : decode 0x0000000001EF041400C0201008000B00 = .ok (.tex1 { z with d := 8, a := 4, b := 2, c := 3, e := 20, selA := 1 }) := by decide
/-- Chapter 21 writes this word out. -/
theorem test_decode_bra_guarded : decode 0x0000030001F100000000000000000004 = .ok (.bra { z with off25 := 6, g1 := 0x11 }) := by decide
/-- Chapter 21 writes this word out. -/
theorem test_decode_srd : decode 0x0000000001EF00000000003405000D14 = .ok (.srd { z with d := 5, a := 13 }) := by decide
/-- Chapter 23 writes this word out. -/
theorem test_decode_compact : decode 0x0000000001E1000F0080000809000418 = .ok (.compact { z with d := 9, a := 2, c := 2, e := 15, g1 := 1 }) := by decide
/-- Chapter 24 writes this word out. -/
theorem test_decode_pyield : decode 0x0000000001EF00000000000000000D0C = .ok (.pyield z) := by decide
/-- Chapter 24 writes this word out. -/
theorem test_decode_csave : decode 0x0000000001EF14000000902000000D1C = .ok (.csave { z with a := 8, b := 9, selA := 1, selB := 1 }) := by decide

/-- R27: the all-zero word is NOP, here with both guards p0. -/
theorem test_decode_zero : decode 0 = .ok (.nop { z with g1 := 0, g2 := 0 }) := by decide
/-- The encoder gives the words of chapters 03, 14 and 17. -/
theorem test_encode_fadd :
    encode (.fadd { z with mod := 5, d := 3, a := 1, b := 12, selB := 2 }) = some 0x0000000001EF20000000C00403005200 := by decide
theorem test_encode_join : encode (.join { z with d := 1 }) = some 0x0000000001EF00000000000001000C18 := by decide
theorem test_encode_cpy : encode (.cpy { z with mod := 0x408, a := 4, b := 6, e := 8, selA := 1, selB := 1 })
    = some 0x0000000001EF14080000601000408900 := by decide
/-- The bytes of chapter 14's `bar b2`, lowest address first. -/
theorem test_bytes_bar : decodeBytes [0x00, 0x0C, 0, 0, 0, 0, 0, 0, 0x02, 0, 0xEF, 0x01, 0, 0, 0, 0] = .ok (.bar { z with e := 2 }) := by
  decide
/-- R62: KIND 3, an OP of class 14, an OP unassigned in class 0, a bit outside the fields in use, HINT 4. -/
theorem test_reject_kind : decode 3 = .reject .noForm := by decide
theorem test_reject_class : decode 0xE00 = .reject (.unassigned 0x380) := by decide
theorem test_reject_unassigned : decode 0x28 = .reject (.unassigned 0x00A) := by decide
theorem test_reject_field : decode 0x0000000001EF00000000000001000000 = .reject (.field 0) := by decide
theorem test_reject_hint : decode 0x0000000021EF00000000000000000000 = .reject (.field 0) := by decide
/-- R63: fewer than 16 bytes are no word. -/
theorem test_reject_short : decodeBytes [0, 0, 0] = .reject .short := by decide

/-! ## Well-formedness: a term that each check refuses -/

def pkt : EdgePacket := { src := 0, dst := allNodesMac, plain := true, ver := 1, spare := 0, graph := 0, edge := 0, frame := 0, group := 0, idx := 0, k := 0, nrec := 0, seq0 := 0, fl := 0, cseq := 0, body := [] }
theorem test_wf_good : (Instr.loadGraph 63 59).wf && (Instr.data 3 pkt).wf && (Instr.bar { z with e := 2 }).wf := by decide
theorem test_wf_page : (Instr.loadGraph 64 0).wf = false := by decide
theorem test_wf_queue : (Instr.signal 0 60).wf = false := by decide
theorem test_wf_notify : (Instr.vcpNotify 64 0).wf = false := by decide
theorem test_wf_part : (Instr.tenantRound 8).wf = false := by decide
theorem test_wf_core : (Instr.thermalTrip 2048).wf = false := by decide
theorem test_wf_bin : (Instr.reformDraw 0 16).wf = false := by decide
theorem test_wf_walk_ctx : (Instr.pageWalk 4096 0 0 ⟨true, false, false, false⟩).wf = false := by decide
theorem test_wf_walk_die : (Instr.pageWalk 0 4 0 ⟨true, false, false, false⟩).wf = false := by decide
theorem test_wf_register : (Instr.registerWrite 0x100000 0).wf = false := by decide
theorem test_wf_register_aligned : (Instr.registerWrite 4 0).wf = false := by decide
theorem test_wf_ctx : (Instr.contextSaved 4096).wf = false := by decide
theorem test_wf_host : (Instr.hostCxlMemRead 0 0).wf = false := by decide
theorem test_wf_host_end : (Instr.hostCxlMemWrite (2 ^ 64 - 1) [0, 0]).wf = false := by decide
theorem test_wf_port : (Instr.pcsLinkUp 4).wf = false := by decide
theorem test_wf_packet : (Instr.data 0 { pkt with graph := 65536 }).wf = false := by decide
theorem test_wf_die : (Instr.channelTraining 4 true).wf = false := by decide
theorem test_wf_word : (Instr.nop { z with d := 1 }).wf = false := by decide
theorem test_wf_odd_pair : (Instr.mov { z with mod := 4, d := 5, a := 2 }).wf = false := by decide
theorem test_wf_fused : (Instr.fusedSoftmax z z z z).wf = false := by decide
theorem test_wf_pair : (Instr.pairWord ⟨0, 0, 0, 0, 0, 0, 127⟩ ⟨0, 0, 0, 0, 0, 0, 0⟩).wf = false := by decide

/-! ## Single steps -/

/-- The group of the placed instruction. -/
def gid : Nat := 3
/-- Registers of lanes 0 and 1, and scalar registers, before the step. -/
def withRegs (s : State) (v : List (Nat × W32)) (x : List (Nat × W64)) : State :=
  updGroup s gid fun g =>
    x.foldl (fun g p => setS g p.1 p.2) (v.foldl (fun g p => setV (setV g p.1 0 p.2) p.1 1 p.2) g)
/-- The state before the step of a word. -/
def before (w : Nat) (v : List (Nat × W32)) (x : List (Nat × W64)) : State := withRegs (State.reset.withFetchWord 128 w) v x
def nextOf (r : Res) : State := match r with
  | .next t => t
  | _ => State.reset
/-- The group after the step of a word. -/
def run (w : Nat) (v : List (Nat × W32)) (x : List (Nat × W64)) : Option Group := getGroup (nextOf (step (before w v x))) gid
/-- A register of lane 0, and the PC of its side. -/
def v5 (g : Option Group) : W32 := (g.map fun g => getV g 5 0).getD 0
def pcOf (g : Option Group) : W64 := ((g.bind fun g => g.sides.head?).map Side.pc).getD 0

/-- R113: iadd.w8x4.sat of 0x10FF8001 and 0x01FF8001 gives 0x11FFFF02. -/
theorem test_iadd_sat : v5 (run 0x0000000001EF0000000020040520B100 [(1, 0x10FF8001), (2, 0x01FF8001)] []) = 0x11FFFF02 := by decide +kernel
/-- R113: iabs.i32 of 0x80000000 gives 0x80000000. -/
theorem test_iabs : v5 (run 0x0000000001EF0000000000040500111C [(1, 0x80000000)] []) = 0x80000000 := by decide +kernel
/-- R113: iabs.i32.sat of it gives 0x7FFFFFFF. -/
theorem test_iabs_sat : v5 (run 0x0000000001EF0000000000040520111C [(1, 0x80000000)] []) = 0x7FFFFFFF := by decide +kernel
/-- R115: bfx.w32 with pos = 28 and len = 8 returns A[31:28]. -/
theorem test_bfx : v5 (run 0x0000081C01EF00000000000405002146 [(1, 0xA1234567)] []) = 0xA := by decide +kernel
/-- R121: hash of 0 and 0 gives 0; the step goes to the next word. -/
theorem test_hash : (v5 (run 0x0000000001EF00000000200405000174 [] []), pcOf (run 0x0000000001EF00000000200405000174 [] [])) = (0, 0x4010) := by decide +kernel
/-- R120: bit 15 reads 1. -/
theorem test_movp_get : v5 (run 0x0000000001EF00000000000005000170 [] []) = 0x8000 := by decide +kernel
/-- R113: the high half of −1 times 2, signed, is −1. -/
theorem test_imulh : v5 (run 0x0000000001EF0000000020040500110C [(1, 0xFFFFFFFF), (2, 2)] []) = 0xFFFFFFFF := by decide +kernel
/-- R110: a counter of 0 becomes 2^64 − 1, and the loop branches, here two words on. -/
theorem test_loop_zero : (pcOf (run 0x0000010001EF00000000000004000024 [] []), (run 0x0000010001EF00000000000004000024 [] []).map fun g => getS g 4) = (0x4020, some 0xFFFFFFFFFFFFFFFF) := by decide +kernel
/-- R104: the offset is signed. -/
theorem test_bra_back : pcOf (run 0xFFFFFF8001EF00000000000000000004 [] []) = 0x3FF0 := by decide +kernel
/-- R139: lane 0 reads lane 1 one down; registers of every lane are read first. -/
theorem test_shfl_down : v5 (run 0x0000000101EF00030000000405400402 [(1, 9)] []) = 9 := by decide +kernel
/-- R328, R331: cause 0x0F, sr.epc the word, the lanes at the trap base. -/
theorem test_trap : (((run 0x0000000001EF00000000000000000D00 [] []).map fun g => (g.cause, g.epc, g.tm)), pcOf (run 0x0000000001EF00000000000000000D00 [] [])) = (some (0x0F, 0x4000, true), 0x6000) := by decide +kernel
/-- R322: a read of special register 0, sr.laneid of lane 0, writes 0 over what D held. -/
theorem test_srd_frag : v5 (run 0x0000000001EF00000000000005000D14 [(5, 7)] []) = 0 := by decide +kernel
/-- R464: at reset CLKMIN reads 0x15 and every other field of the status word 0, in two reads of 4 bytes or one. -/
theorem test_status_reset : statusWord State.reset = 0x0000001500000000 ∧ readCapability State.reset 0xC = 0x15 := by decide +kernel
/-- R376: LINK_CTL reads its reset values once BAR0 answers, and R465: 0 before. -/
theorem test_link_read : readRegister { State.reset with stage := 6 } 0x80000 = 0x01480800C3501772
    ∧ readRegister State.reset 0x80000 = 0 := by decide +kernel
/-- R124: 1.5 + 2.25 = 3.75 in f32. -/
theorem test_fadd : v5 (run 0x0000000001EF00000000200405005200 [(1, 0x3FC00000), (2, 0x40100000)] []) = 0x40700000 := by decide +kernel
/-- R86: f32 2.5 to i32 rounds to the even 2. -/
theorem test_cvt_rne : v5 (run 0x0000000001EF00050000000405001300 [(1, 0x40200000)] []) = 2 := by decide +kernel


/-! ## States and operands that meet the hypotheses of the statements -/

/-- The placed fragment issuing: predicate p0 is true in lane 0 alone, register 2 of lane L holds 0x10000 + 16 L, register 4 of
lane 0 the f32 2^127, and the core's TLB holds the page of the placed code; all else is 0. -/
def placed : State :=
  let s := State.reset.withFetchWord 128 0
  let s := updGroup { s with turns := [], tlb := [⟨.l0 0, 0, 0, true, 0, 30, 0x379, false⟩] } gid fun g =>
    (List.range 32).foldl (fun g L => setV g 2 L (BitVec.ofNat 32 (0x10000 + 16 * L))) (setV (setP g 0 0 true) 4 0 0x7F000000)
  beginIssue s gid 0
/-- The word of every lane, of lane 0 alone and of no lane. -/
def only0 (f : Fields) : Fields := { f with g1 := 0 }
def none_ (f : Fields) : Fields := { f with g1 := 1 }

/-- i issues in s from a fragment with lanes, of which P holds. -/
def meets (s : State) (i : Instr) (P : Frag → Bool) : Bool :=
  match issuing s with
  | some F => i.legal && !overBudget s F.g i && (interlock s F.g i).isNone && P F
  | none => false
/-- F is quiet, and calm. -/
def still (F : Frag) : Bool := F.lanes != 0 && !F.g.tm && F.g.sides.all (fun x => !x.atTret) && F.g.trapbase != 0

theorem issues_of {s : State} {i : Instr} {P : Frag → Prop} [DecidablePred P] (h : meets s i (fun F => decide (P F)) = true) :
    ∃ F, Issues s F i ∧ P F := by
  unfold meets at h
  split at h
  · next F hF =>
    simp only [Bool.and_eq_true, Bool.not_eq_true', Option.isNone_iff_eq_none, decide_eq_true_eq] at h
    obtain ⟨⟨⟨h1, h2⟩, h3⟩, h4⟩ := h
    exact ⟨F, ⟨hF, h1, h2, h3⟩, h4⟩
  · exact absurd h (by decide)

theorem still_spec {F : Frag} (h : still F = true) : F.quiet ∧ F.calm := by
  simp only [still, Bool.and_eq_true, Bool.not_eq_true', bne_iff_ne, ne_eq, List.all_eq_true] at h
  obtain ⟨⟨⟨h1, h2⟩, h3⟩, h4⟩ := h
  exact ⟨⟨h1, .inl h2⟩, h1, h2, h3, h4⟩

/-- i issues in s from a fragment that is quiet and calm, of which P holds. -/
theorem witness {s : State} {i : Instr} {P : Frag → Prop} [DecidablePred P]
    (h : meets s i (fun F => decide (still F = true ∧ P F)) = true) : ∃ F, Issues s F i ∧ F.quiet ∧ F.calm ∧ P F := by
  obtain ⟨F, h1, h2, h3⟩ := issues_of h
  exact ⟨F, h1, (still_spec h2).1, (still_spec h2).2, h3⟩

theorem exists_of {α : Type} {o : Option α} {P : α → Prop} [DecidablePred P] (h : (o.any fun x => decide (P x)) = true) :
    ∃ x, o = some x ∧ P x := by
  cases o with
  | none => exact absurd h (by simp)
  | some x => exact ⟨x, rfl, by simpa using h⟩

/-- i issues in the placed state, its fragment quiet and calm. -/
def Ready (i : Instr) : Prop := ∃ F, Issues placed F i ∧ F.quiet ∧ F.calm

theorem ready_all {l : List Instr} (h : (l.all fun i => meets placed i still) = true) : ∀ i ∈ l, Ready i := by
  intro i hi
  have h := List.all_eq_true.mp h i hi
  have h : meets placed i (fun F => decide (still F = true ∧ True)) = true := by simpa [meets] using h
  obtain ⟨F, h1, h2, h3, -⟩ := witness h
  exact ⟨F, h1, h2, h3⟩

theorem ready_one {i : Instr} (h : meets placed i still = true) : Ready i :=
  ready_all (l := [i]) (by simpa using h) i (by simp)

/-- A word whose sources are the registers of the TYPE, D = 8. -/
def t (ty : Nat) : Fields := { z with mod := BitVec.ofNat 12 ty, d := 8 }

theorem witness_IntegerArithmetic : ∀ i ∈ [Instr.iadd (t 1), .iadd { t 1 with mod := 0x201 }, .iadd { t 4 with mod := 0xB },
    .isub (t 1), .imul (t 1), .imulh (t 1), .imad (t 1), .imin (t 1), .imax (t 2), .iabs (t 1), .iabs { t 1 with mod := 0x201 },
    .ineg (t 1)], Ready i := ready_all (by decide +kernel)

theorem witness_IntegerBits : ∀ i ∈ [Instr.and_ (t 0), .and_ (t 4), .or_ (t 0), .xor_ (t 0), .not_ (t 0), .shl (t 0), .shl (t 4),
    .shr (t 0), .shra (t 0), .rotl (t 0), .bfx (t 1), .bfi (t 0), .popc (t 0), .clz (t 0), .brev (t 0), .icmp (t 1), .sel (t 0),
    .mov (t 0), .lea (t 1), .iaddc (t 2), .plop z, .hash z], Ready i := ready_all (by decide +kernel)

theorem witness_PredicateMoves : ∀ i ∈ [Instr.movpGet z, .movpSet { z with mod := 0x200 }], Ready i :=
  ready_all (by decide +kernel)

theorem witness_FloatingPoint : ∀ i ∈ [Instr.fadd (t 5), .fsub (t 5), .fmul (t 6), .ffma (t 7), .fmin (t 5), .fmax (t 5),
    .fmed3 (t 5), .fcmp (t 5), .fclass (t 5), .frnd (t 5), .fscale (t 5), .fdot2 (t 8)], Ready i := ready_all (by decide +kernel)

theorem witness_SpecialFunctions : ∀ i ∈ [Instr.rcp (t 5), .rsq (t 5), .sqrt (t 5), .exp2 (t 5), .log2 (t 5), .sin (t 5),
    .cos (t 5), .tanh (t 5), .sigm (t 5), .fdiv (t 5)], Ready i := ready_all (by decide +kernel)

theorem witness_CrossLane : ∀ i ∈ [Instr.shfl (t 0), .vote { t 0 with mod := 0x600 }, .vote { t 0 with mod := 0 }, .reduce (t 1),
    .scan (t 1), .match_ (t 0)], Ready i := ready_all (by decide +kernel)

theorem witness_BroadcastAndCompact : ∀ i ∈ [Instr.bcast { t 0 with selB := 1 }, .compact (t 0)], Ready i :=
  ready_all (by decide +kernel)

/-- CVT and CVTN from f32, under the policy that traps: 0 and small values fit, 2^127 does not. -/
theorem witness_Conversions :
    (∀ i ∈ [Instr.cvtw (t 5), .unpack (t 8)], Ready i)
    ∧ (∀ p ∈ [(Instr.cvt { t 6 with mod := 0x186, e := 5 }), .cvtn (t 5), .pack (t 8)], Ready p)
    ∧ (∃ F, Issues placed F (.cvt { t 6 with mod := 0x186, e := 5, a := 2 }) ∧ F.quiet ∧ F.calm ∧
      ∀ L ∈ seenLanes F { t 6 with mod := 0x186, e := 5, a := 2 },
        (cvtBits (flushOf placed F.g) 5 6 0 3 (srcOf 0 2 5 placed F L)).isSome)
    ∧ (∃ F, Issues placed F (.cvt { t 6 with mod := 0x186, e := 5, a := 4 }) ∧ F.quiet ∧ F.calm ∧
      ∃ L ∈ seenLanes F { t 6 with mod := 0x186, e := 5, a := 4 },
        cvtBits (flushOf placed F.g) 5 6 0 3 (srcOf 0 4 5 placed F L) = none)
    ∧ (∃ F, Issues placed F (.cvtn { t 5 with mod := 0x185, a := 4 }) ∧ F.quiet ∧ F.calm ∧
      ∃ L ∈ seenLanes F { t 5 with mod := 0x185, a := 4 },
        roundTo? (narrowKind 0) (fpSource placed F.g 5 (srcA { t 5 with a := 4 } false placed F L)) 0 (ovfPolicy 3) = none) :=
  ⟨ready_all (by decide +kernel), ready_all (by decide +kernel), witness (by decide +kernel), witness (by decide +kernel),
    witness (by decide +kernel)⟩

/-- The halves d8 = d8 + a0 and d9 = f32 to i32 of a, under the policy that traps. -/
def addHalf : Half := ⟨0, 15, 0, 0, 8, 1, 0⟩
def cvtHalf (a : BitVec 10) : Half := ⟨0, 15, 0, a, 9, 0x18, 19⟩
theorem witness_FusedAndPaired :
    Ready (.fusedSoftmax { t 5 with e := 2, d := 8 } { t 5 with b := 8, d := 9 } { t 5 with a := 9, d := 10 } { t 5 with a := 10, d := 11 })
    ∧ (∃ F, Issues placed F (.pairWord addHalf (cvtHalf 1)) ∧ F.quiet ∧ F.calm ∧
      (∀ L ∈ lanesOf (halfLanes F addHalf), (halfAt placed F addHalf L).isSome) ∧
      ∀ L ∈ lanesOf (halfLanes F (cvtHalf 1)), (halfAt placed F (cvtHalf 1) L).isSome)
    ∧ (∃ F, Issues placed F (.pairWord { addHalf with a := 1 } (cvtHalf 4)) ∧ F.quiet ∧ F.calm ∧
      ¬ ∀ L ∈ lanesOf (halfLanes F (cvtHalf 4)), (halfAt placed F (cvtHalf 4) L).isSome) :=
  ⟨ready_one (by decide +kernel), witness (by decide +kernel), witness (by decide +kernel)⟩

theorem witness_ControlFlow :
    (∀ i ∈ [Instr.nop z, .pref z, .yield z, .bra z, .call z, .loop z, .loop (none_ z)], Ready i)
    ∧ (∀ i ∈ [Instr.brx z, .ret z, .callx z], ∃ F, Issues placed F i ∧ F.quiet ∧ F.calm ∧
      misaligned (activeOf F z) (addr64 F.g z.selA z.a) = none)
    ∧ (∃ F, Issues placed F (.loop z) ∧ F.quiet ∧ F.calm ∧ activeOf F z ≠ 0)
    ∧ (∃ F, Issues placed F (.loop (none_ z)) ∧ F.quiet ∧ F.calm ∧ activeOf F (none_ z) = 0)
    ∧ (∃ F, issuing placed = some F ∧ F.key.lanes ≠ 0) := by
  refine ⟨ready_all (by decide +kernel), ?_, witness (by decide +kernel), witness (by decide +kernel), exists_of (by decide +kernel)⟩
  intro i hi
  simp only [List.mem_cons, List.not_mem_nil, or_false] at hi
  obtain rfl | rfl | rfl := hi <;> exact witness (by decide +kernel)

/-- Lane 0 of the fragment ends; and all of its lanes end. -/
theorem witness_EndOfLanes : ∀ i ∈ [Instr.exit_ (only0 z), .halt (only0 z)], ∃ F, Issues placed F i ∧ F.quiet ∧ F.calm ∧
      F.g.saving = false ∧ (∀ j, j < 8 → (getRejoin F.g j false).state ≠ 1) ∧
      ((getTeam placed F.g.team).all fun t => t.barriers.isEmpty) = true ∧ activeOf F (only0 z) ≠ 0 ∧
      activeOf F (only0 z) ≠ F.lanes ∧ (∀ x ∈ F.g.sides, F.key.sameFragment x = false → x.lanes &&& activeOf F (only0 z) = 0) ∧
      activeOf F z = liveLanes F.g ∧ F.g.st = .active := by
  intro i hi
  simp only [List.mem_cons, List.not_mem_nil, or_false] at hi
  obtain rfl | rfl := hi <;> exact witness (by decide +kernel)

/-- A trap code, a breakpoint, a word over its role's budget, a word that is not legal, branches to a misaligned register, and
SWR of a misaligned trap base and of a save area outside handlers. Register 6 of lane 0 is 8. -/
def odd : State := updGroup placed gid fun g => setV g 6 0 8
theorem witness_TrapsTaken :
    (∀ i ∈ [Instr.trap z, .brk z, .trap (none_ z), .swr { z with d := 25, selB := 1 }, .swr { z with d := 26, selB := 1 }], Ready i)
    ∧ (∃ F, issuing placed = some F ∧ still F = true ∧ (Instr.nop { z with d := 1 }).legal = false)
    ∧ (∃ F, issuing (setLaunch placed { placedLaunch 1 with blk := { placedBlock with roles := [⟨0x4000, 8, 8, 0, 1, 32⟩] } }) = some F
      ∧ still F = true ∧ (Instr.mov (t 0)).legal = true
      ∧ overBudget (setLaunch placed { placedLaunch 1 with blk := { placedBlock with roles := [⟨0x4000, 8, 8, 0, 1, 32⟩] } }) F.g
          (.mov (t 0)) = true)
    ∧ decode 3 = .reject .noForm
    ∧ (∀ i ∈ [Instr.brx { z with a := 6 }, .ret { z with a := 6 }, .callx { z with a := 6 }], ∃ F, Issues odd F i ∧ F.quiet ∧ F.calm ∧
      misaligned (activeOf F z) (addr64 F.g 0 6) = some 0)
    ∧ (∃ F, Issues placed F (.swr { z with d := 25, immForm := true, imm32 := 8 }) ∧ F.quiet ∧ F.calm ∧ activeOf F z ≠ 0 ∧
      (BitVec.ofNat 64 (bitsB placed F.g { z with immForm := true, imm32 := 8 } 4 (lowestLane (activeOf F z)))).extractLsb' 0 4 ≠ 0)
    ∧ (∃ F, Issues placed F (.swr { z with d := 26, immForm := true, imm32 := 8 }) ∧ F.quiet ∧ F.calm ∧
      (BitVec.ofNat 64 (bitsB placed F.g { z with immForm := true, imm32 := 8 } 4 (lowestLane (activeOf F z)))).extractLsb' 0 12 ≠ 0)
    ∧ (∃ F, Issues placed F (.swr { z with d := 26, selB := 1 }) ∧ F.quiet ∧ F.calm ∧ F.g.saving = false ∧ F.g.restoring = false ∧
      (BitVec.ofNat 64 (bitsB placed F.g { z with selB := 1 } 4 (lowestLane (activeOf F z)))).extractLsb' 0 12 = 0) := by
  refine ⟨ready_all (by decide +kernel), ?_, ?_, by decide, ?_, witness (by decide +kernel), witness (by decide +kernel),
    witness (by decide +kernel)⟩
  · exact exists_of (by decide +kernel)
  · exact exists_of (by decide +kernel)
  · intro i hi
    simp only [List.mem_cons, List.not_mem_nil, or_false] at hi
    obtain rfl | rfl | rfl := hi <;> exact witness (by decide +kernel)

/-- The placed fragment in its handler, and a trap of slice 0 alone, whose lanes wait at TRET. -/
def inHandler : State := beginIssue (nextOf (exec (.trap z) placed)) gid 0
/-- The lanes of slice 0 wait at TRET, and go on after the word at epc. -/
def returning (epc : W64) : State := updGroup placed gid fun g => { g with
  tm := true, trapLanes := 0xF, kept := [⟨0, 0xF, 0x4000, 3, 0x4000, none⟩], cause := 0x0F, epc := epc
  sides := [⟨0, 0xF, 0x6000, 0, true, allLanes, false, none, 0, none, .gateTret 0⟩] }
theorem witness_TrapReturn :
    Ready (.tret z)
    ∧ (∃ F, Issues inHandler F (.tret z) ∧ F.g.tm = true ∧ F.key.handler = true ∧ activeOf F z ≠ 0 ∧ activeOf F z = F.lanes ∧
      liveLanes F.g &&& F.g.trapLanes &&& ~~~F.lanes = 0 ∧ ∀ x ∈ F.g.sides, x.atTret = false)
    ∧ (∃ g, getGroup (returning 0x4000) gid = some g ∧
      g.kept = [⟨0, 0xF, 0x4000, 3, 0x4000, none⟩] ∧ (∀ y ∈ g.sides, y.atTret = true → y.slice = 0 ∧ y.handler = true ∧ y.lanes &&& ~~~0xF = 0) ∧ tretGathered g ≠ none ∧
      (∀ y ∈ g.sides, y.slice = 0 → y.atTret = true) ∧ 0 < g.regions.length)
    ∧ (∃ g, getGroup (returning 0x3FF4) gid = some g ∧ g.id = gid ∧ tretGathered g = some 0 ∧
      (∀ y ∈ g.sides, y.atTret = true → y.slice = 0 ∧ y.handler = true) ∧
      (resumption g 0 ⟨0, 0xF, 0x4000, 3, 0x4000, none⟩).1.extractLsb' 0 4 ≠ 0) :=
  ⟨ready_one (by decide +kernel), issues_of (by decide +kernel), exists_of (by decide +kernel), exists_of (by decide +kernel)⟩

theorem witness_SpecialRegisters :
    (∀ i ∈ [Instr.region z, .timer { z with selB := 1 }, .srd z, .srd { z with mod := 1 }, .srd { z with mod := 0x800 },
      .swr { z with d := 16, selB := 1 }, .swr { z with d := 25, selB := 1 }], Ready i)
    ∧ (∃ F, Issues inHandler F (.swr { z with d := 26, selB := 1 }) ∧ F.lanes ≠ 0 ∧
      (tretGathered F.g = none ∧ liveLanes F.g &&& F.g.trapLanes ≠ 0) ∧ F.g.tm = true ∧ F.key.handler = true ∧
      (BitVec.ofNat 64 (bitsB inHandler F.g { z with selB := 1 } 4 (lowestLane (activeOf F z)))).extractLsb' 0 12 = 0) :=
  ⟨ready_all (by decide +kernel), issues_of (by decide +kernel)⟩

/-! ### Accesses -/

/-- The entry that serves an access, checked or performed. -/
def tlbFor (s : State) (v : Env) (va : W64) (a : Access) (mark : Bool) : Option TlbEntry :=
  tlbFind s (some v.core) (dieOf v.core) (getPart s (getCtx s v.ctx).part) (getCtx s v.ctx).asid va
    { a.acc with write := a.acc.write && mark }
/-- A TLB entry serves the access (`OnPage`), aligned, unlocked and within a line (`Mapped`). -/
def onPageAt (s : State) (v : Env) (va : W64) (a : Access) (host : Bool) (pa : Nat) (direct : Bool) : Bool :=
  (triggerAt s v.ctx va a.n).isNone
    && (tlbFor s v va a true).any (fun t => decide (tlbFor s v va a false = some t)
      && decide (leafAnswer (getPart s (getCtx s v.ctx).part) t.leaf t.log2 va a.acc (fun _ => false)
        = .ok (if host then 2 else if direct then 1 else 0) pa))
    && !(host && direct) && !(a.read && poisonedLine s host pa)
def mappedAt (s : State) (v : Env) (va : W64) (a : Access) (host : Bool) (pa : Nat) (direct : Bool) : Bool :=
  onPageAt s v va a host pa direct && va.toNat % a.n == 0 && !lockConflict s v.core v.ctx v.team a.write none va.toNat a.n
    && decide (pa % 128 + a.n ≤ 128)

theorem onPage_of {s : State} {v : Env} {va : W64} {a : Access} {host : Bool} {pa : Nat} {direct : Bool}
    (h : onPageAt s v va a host pa direct = true) : OnPage s v va a host pa direct := by
  simp only [onPageAt, Bool.and_eq_true, Bool.not_eq_true', Option.isNone_iff_eq_none, decide_eq_true_eq, Option.any_eq_true,
    Bool.and_eq_false_iff] at h
  obtain ⟨⟨⟨h1, t, h2, h5, h6⟩, h3⟩, h4⟩ := h
  refine { plain := h1, hit := ⟨t, fun mark => ?_, h6⟩, direct := ?_, clean := ?_ }
  · cases mark
    · exact h5
    · exact h2
  · rintro rfl; simpa using h3
  · intro hr; simpa [hr] using h4

theorem mapped_of {s : State} {v : Env} {va : W64} {a : Access} {host : Bool} {pa : Nat} {direct : Bool}
    (h : mappedAt s v va a host pa direct = true) : Mapped s v va a host pa direct := by
  simp only [mappedAt, Bool.and_eq_true, Bool.not_eq_true', beq_iff_eq, decide_eq_true_eq] at h
  obtain ⟨⟨⟨h1, h2⟩, h3⟩, h4⟩ := h
  exact { onPage_of h1 with aligned := h2, unlocked := h3, inLine := h4 }

/-- Where lane L's register pair 2 points. -/
def slotOf (L : Nat) : Nat := 0x10000 + 16 * L
/-- i issues in s, quiet and calm, and its active lanes are mapped at their slots for an access. -/
theorem witness_lanes {s : State} {i : Instr} {f : Fields} {va : Frag → Nat → W64} {a : Access}
    {P : Frag → Prop} [DecidablePred P]
    (h : meets s i (fun F => decide (still F = true ∧
      ((∀ L ∈ lanesOf (activeOf F f), mappedAt s (envOf s F.g) (va F L) a false (slotOf L) false = true) ∧ P F))) = true) :
    ∃ F, Issues s F i ∧ F.quiet ∧ F.calm ∧
      (∀ L ∈ lanesOf (activeOf F f), Mapped s (envOf s F.g) (va F L) a false (slotOf L) false) ∧ P F := by
  obtain ⟨F, h1, h2, h3, h4, h5⟩ := witness h
  exact ⟨F, h1, h2, h3, fun L hL => mapped_of (h4 L hL), h5⟩

theorem findBy_mem {α : Type} {key : α → Nat} {k : Nat} {l : List α} {x : α} (h : findBy key k l = some x) : x ∈ l := by
  induction l with
  | nil => simp [findBy] at h
  | cons y r ih =>
    unfold findBy at h
    split at h
    · simp_all
    · exact List.mem_cons_of_mem _ (ih h)

/-- No copy is held, so every line that a core can read is current. -/
theorem current (core line : Nat) : CurrentLine placed core line := by
  have hl : (getCore placed core).l1 = [] := by
    have h : placed.cores.all (fun c => c.l1.isEmpty) = true := by decide +kernel
    unfold getCore
    cases hc : findBy Core.id core placed.cores with
    | none => rfl
    | some c => simpa using List.all_eq_true.mp h c (findBy_mem hc)
  have hr : placed.rdc = [] := by decide +kernel
  exact ⟨by simp [hl], by simp [hr]⟩

/-- A waiting store of the group that a release sends home, and one of another group that stays. -/
def stored : State := setCore placed { getCore placed 0 with grpStores := [⟨3, 0, 0x10000, [1], 0⟩, ⟨9, 0, 0x10004, [2], 0⟩] }
/-- Loads of 8 bytes in every lane, and of 1 byte at address 0, once. -/
theorem witness_Loads :
    (∀ i ∈ [Instr.ld { t 0 with mod := 3, a := 2 }, .ldg { t 0 with mod := 3, a := 2 }], ∃ F, Issues placed F i ∧ F.quiet ∧ F.calm ∧
      (∀ L ∈ lanesOf (activeOf F { t 0 with mod := 3, a := 2 }), Mapped placed (envOf placed F.g)
        (memAddr F.g { t 0 with mod := 3, a := 2 } L) (loadOf 8) false (slotOf L) false) ∧ activeOf F z ≠ 0)
    ∧ (∃ F, Issues placed F (.ld { z with mod := 0x600, selA := 1 }) ∧ F.quiet ∧ F.calm ∧
      mappedAt placed (envOf placed F.g) (memAddr F.g { z with mod := 0x600, selA := 1 } (lowestLane (activeOf F z))) (loadOf 1) false 0 false = true)
    ∧ (∀ line, CurrentLine placed 0 line)
    ∧ (∃ F, Issues stored F (.ld { t 0 with mod := 0, a := 2 }) ∧ F.quiet ∧ F.calm ∧
      (∀ L ∈ lanesOf (activeOf F { t 0 with mod := 0, a := 2 }), Mapped stored (envOf stored F.g)
        (memAddr F.g { t 0 with mod := 0, a := 2 } L) (loadOf 1) false (slotOf L) false) ∧
      ((getCore stored F.g.core).grpStores.any fun x => x.gid = F.g.id && x.overlaps (slotOf 0) 1) = true ∧
      ∀ L ∈ lanesOf (activeOf F z), ∀ x ∈ (getCore stored F.g.core).grpStores,
        x.gid = F.g.id → x.overlaps (slotOf L) 1 = true → x.pa ≤ slotOf L ∧ slotOf L + 1 ≤ x.pa + x.bytes.length)
    ∧ (∃ F, Issues stored F (.ld { t 0 with mod := 8, a := 2 }) ∧ F.quiet ∧ F.calm ∧
      (∀ L ∈ lanesOf (activeOf F { t 0 with mod := 8, a := 2 }), Mapped stored (envOf stored F.g)
        (memAddr F.g { t 0 with mod := 8, a := 2 } L) (loadOf 1) false (slotOf L) false) ∧
      (getCore (drainOwn stored (envOf stored F.g)) 0).l1 = [] ∧ (drainOwn stored (envOf stored F.g)).rdc = [] ∧
      (getCore (drainOwn stored (envOf stored F.g)) 0).grpStores = [⟨9, 0, 0x10004, [2], 0⟩] ∧
      groupView (drainOwn stored (envOf stored F.g)) 0 F.g.id 0x10000 1 = [1]) := by
  refine ⟨?_, witness (by decide +kernel), current 0, witness_lanes (by decide +kernel), witness_lanes (by decide +kernel)⟩
  intro i hi
  simp only [List.mem_cons, List.not_mem_nil, or_false] at hi
  obtain rfl | rfl := hi <;> exact witness_lanes (f := { t 0 with mod := 3, a := 2 }) (by decide +kernel)

/-- The last byte of the share, and of an argument block of 8 bytes. -/
def withArgs : State := setLaunch placed { placedLaunch 1 with blk := { placedBlock with arglen := 8 } }
def shareOk (s : State) (F : Frag) (f : Fields) (own store : Bool) (n : Nat) : Bool :=
  (getTeam s F.g.team).isSome && (getCore s F.g.core).grpStores.isEmpty && (lanesOf (activeOf F f)).all fun L =>
    let off := (memAddr F.g f L).toNat % 2 ^ 32
    off % n == 0 && decide (peerOf F f own L < spanOf s F.g.team) && decide (off + n ≤ shareSize s F.g.team)
      && !lockConflict s F.g.core (ctxOf s F.g) F.g.team store (some (peerOf F f own L)) off n
def lastByte : Fields := { z with off25 := 1023 }
theorem witness_ShareAccesses :
    (∃ F, Issues placed F (.lds lastByte) ∧ F.quiet ∧ F.calm ∧ shareOk placed F lastByte true false 1 = true)
    ∧ (∃ F, Issues placed F (.ldp lastByte) ∧ F.quiet ∧ F.calm ∧ shareOk placed F lastByte false false 1 = true)
    ∧ (∃ F, Issues placed F (.sts lastByte) ∧ F.quiet ∧ F.calm ∧ shareOk placed F lastByte true true 1 = true)
    ∧ (∃ F, Issues placed F (.stp lastByte) ∧ F.quiet ∧ F.calm ∧ shareOk placed F lastByte false true 1 = true)
    ∧ (∃ F, Issues withArgs F (.ldc { t 0 with immForm := true, imm32 := 7 }) ∧ F.quiet ∧ F.calm ∧ (launchOf withArgs F.g).isSome ∧
      ∀ L ∈ lanesOf (activeOf F z), countB { t 0 with immForm := true, imm32 := 7 } withArgs F L + 1 ≤ 8)
    ∧ (∃ F, Issues withArgs F (.ldc { t 0 with mod := 0x203, immForm := true }) ∧ F.quiet ∧ F.calm ∧ activeOf F z ≠ 0 ∧
      countB { t 0 with mod := 0x203, immForm := true } withArgs F (lowestLane (activeOf F z)) + 8 ≤ 8) :=
  ⟨witness (by decide +kernel), witness (by decide +kernel), witness (by decide +kernel), witness (by decide +kernel),
    witness (by decide +kernel), witness (by decide +kernel)⟩

/-- A partition in Mode S keeps stores of scope grp in the core. -/
def modeS : State := setPart placed { getPart placed 0 with orderMode := true }
theorem witness_Stores :
    (∃ F, Issues placed F (.st { z with mod := 4, a := 2, c := 4 }) ∧ F.quiet ∧ F.calm ∧
      (∀ L ∈ lanesOf (activeOf F z), Mapped placed (envOf placed F.g) (memAddr F.g { z with mod := 4, a := 2, c := 4 } L)
        (storeOf 16) false (slotOf L) false) ∧
      (getCore placed F.g.core).grpStores = [] ∧ (envOf placed F.g).part.orderMode = false ∧ placed.mem.wf = true)
    ∧ (∃ F, Issues modeS F (.st { z with mod := 2, a := 2 }) ∧ F.quiet ∧ F.calm ∧
      (∀ L ∈ lanesOf (activeOf F z), Mapped modeS (envOf modeS F.g) (memAddr F.g { z with mod := 2, a := 2 } L)
        (storeOf 4) false (slotOf L) false) ∧
      (envOf modeS F.g).part.orderMode = true ∧ lanesOf (activeOf F z) ≠ [] ∧ (getCore modeS F.g.core).grpStores = [] ∧
      ({ z with mod := 2, a := 2 } : Fields).hint.toNat ≠ 3 ∧ modeS.poison = []) :=
  ⟨witness_lanes (by decide +kernel), witness_lanes (by decide +kernel)⟩

/-- Addresses of 1 are no multiples of 4 or 16. -/
theorem witness_MisalignedAccesses : ∀ i ∈ [Instr.ld { t 0 with mod := 2, off25 := 1 }, .ldg { t 0 with mod := 2, off25 := 1 },
      .st { z with mod := 2, off25 := 1 }, .acas { t 0 with mod := 2, off25 := 1 }, .ldf { t 0 with mod := 2, off25 := 1 },
      .stf { z with mod := 2, off25 := 1 }],
    ∃ F, Issues placed F i ∧ F.quiet ∧ F.calm ∧ activeOf F z ≠ 0 ∧
      ∀ L ∈ lanesOf (activeOf F z), (memAddr F.g { t 0 with mod := 2, off25 := 1 } L).toNat % 4 ≠ 0 ∧
        (memAddr F.g { t 0 with mod := 2, off25 := 1 } L).toNat % 16 ≠ 0 := by
  intro i hi
  simp only [List.mem_cons, List.not_mem_nil, or_false] at hi
  obtain rfl | rfl | rfl | rfl | rfl | rfl := hi <;> exact witness (by decide +kernel)
theorem witness_MisalignedAtomics : ∀ i ∈ [Instr.atom { t 0 with mod := 2, e := 0x20, off25 := 1 },
      .waita { t 0 with mod := 2, e := 0x20, off25 := 1 }], Ready i := ready_all (by decide +kernel)
theorem witness_MisalignedReset : Ready (.freset { z with off25 := 1 }) := ready_one (by decide +kernel)

theorem witness_FencesAndCaches :
    (∃ F, Issues stored F (.fence { z with mod := 0x88 }) ∧ F.quiet ∧ F.calm ∧ activeOf F z ≠ 0 ∧ ({ z with mod := 0x88 } : Fields).scope ≠ 0 ∧
      (∃ x ∈ (getCore stored F.g.core).grpStores, x.gid = F.g.id) ∧ ∃ x ∈ (getCore stored F.g.core).grpStores, x.gid ≠ F.g.id)
    ∧ (∃ F, Issues placed F (.fence { z with mod := 0x40 }) ∧ F.quiet ∧ F.calm ∧ ∀ x ∈ (getCore placed F.g.core).grpStores, x.gid ≠ F.g.id)
    ∧ (∃ F, Issues placed F (.cctl (only0 z)) ∧ F.quiet ∧ F.calm ∧ lanesOf (activeOf F (only0 z)) = [0] ∧
      (translate placed (some F.g.core) (dieOf F.g.core) (envOf placed F.g).ctx (memAddr F.g (only0 z) 0)
        ⟨false, false, false, true⟩ false false (fun _ => true)).2 = .ok 0 0)
    ∧ Ready (.cctl { only0 z with mod := 0x100 })
    ∧ (getCore stored 0).grpStores ≠ [] ∧ ∀ x ∈ (getCore stored 0).grpStores, x.pa % 128 + x.bytes.length ≤ 128 :=
  ⟨witness (by decide +kernel), witness (by decide +kernel), witness (by decide +kernel), ready_one (by decide +kernel),
    by decide +kernel, by decide +kernel⟩

theorem witness_Atomics :
    (∃ F, Issues placed F (.atom { t 0 with mod := 2, e := 0x20, a := 2 }) ∧ F.quiet ∧ F.calm ∧
      (∀ L ∈ lanesOf (activeOf F z), Mapped placed (envOf placed F.g) (memAddr F.g { t 0 with mod := 2, e := 0x20, a := 2 } L)
        (atomicOf 4) false (slotOf L) false) ∧ (getCore placed F.g.core).grpStores = [])
    ∧ (∃ F, Issues placed F (.acas { t 0 with mod := 3, e := 12, a := 2 }) ∧ F.quiet ∧ F.calm ∧
      (∀ L ∈ lanesOf (activeOf F z), Mapped placed (envOf placed F.g) (memAddr F.g { t 0 with mod := 3, e := 12, a := 2 } L)
        (atomicOf 8) false (slotOf L) false) ∧ (getCore placed F.g.core).grpStores = [])
    ∧ (∃ F, Issues placed F (.atoms { t 0 with mod := 2, e := 0x20, off25 := 1020 }) ∧ F.quiet ∧ F.calm ∧
      shareOk placed F { t 0 with mod := 2, e := 0x20, off25 := 1020 } true true 4 = true) :=
  ⟨witness_lanes (by decide +kernel), witness_lanes (by decide +kernel), witness (by decide +kernel)⟩

/-- Cells that are full, the same cells empty, and one request held on a cell. -/
def fullCells : State := { placed with mem := (List.range 32).foldl (fun m L => sset m (slotOf L + 8) 1) placed.mem }
def asked : State := { placed with deferred := [⟨false, 0x10000, 3, 31, 8, true, 2, 0⟩] }
def cellF : Fields := { t 0 with mod := 3, a := 2 }
theorem witness_Futures :
    (∃ F, Issues fullCells F (.ldf cellF) ∧ F.quiet ∧ F.calm ∧
      (∀ L ∈ lanesOf (activeOf F z), Mapped fullCells (envOf fullCells F.g) (memAddr F.g cellF L) (plainRead 16) false (slotOf L) false) ∧
      (getCore fullCells F.g.core).grpStores = [] ∧ F.key.held = none ∧
      ∀ L ∈ lanesOf (activeOf F z), (readNat fullCells.mem (slotOf L) 16).testBit 64 = true)
    ∧ (∃ F, Issues placed F (.ldf { cellF with mod := 0x203 }) ∧ F.quiet ∧ F.calm ∧
      (∀ L ∈ lanesOf (activeOf F z), Mapped placed (envOf placed F.g) (memAddr F.g cellF L) (plainRead 16) false (slotOf L) false) ∧
      (getCore placed F.g.core).grpStores = [])
    ∧ (∃ F, Issues placed F (.ldf cellF) ∧ F.quiet ∧ F.calm ∧
      (∀ L ∈ lanesOf (activeOf F z), Mapped placed (envOf placed F.g) (memAddr F.g cellF L) (plainRead 16) false (slotOf L) false) ∧
      (∀ L ∈ lanesOf (activeOf F z), (readNat placed.mem (slotOf L) 16).testBit 64 = false) ∧ activeOf F z ≠ 0 ∧
      placed.deferred.length + 32 ≤ 1024 ∧ F.key.held = none)
    ∧ (∃ F, Issues placed F (.stf { cellF with d := 0 }) ∧ F.quiet ∧ F.calm ∧
      (∀ L ∈ lanesOf (activeOf F z), Mapped placed (envOf placed F.g) (memAddr F.g cellF L) (plainWrite 16) false (slotOf L) false) ∧
      placed.deferred = [])
    ∧ (∃ F, Issues placed F (.freset { z with a := 2 }) ∧ F.quiet ∧ F.calm ∧
      (∀ L ∈ lanesOf (activeOf F z), Mapped placed (envOf placed F.g) (memAddr F.g { z with a := 2 } L) (plainWrite 16) false (slotOf L) false) ∧
      (getCore placed F.g.core).grpStores = [])
    ∧ (asked.deferred.filter fun x => x.host = false && x.pa = 0x10000) = [⟨false, 0x10000, 3, 31, 8, true, 2, 0⟩]
    ∧ (getGroup asked 3).isSome = true :=
  ⟨witness_lanes (by decide +kernel), witness_lanes (by decide +kernel), witness_lanes (by decide +kernel),
    witness_lanes (by decide +kernel), witness_lanes (by decide +kernel), by decide +kernel, by decide +kernel⟩

/-- The memory words are 0: a wait for what equals 0 goes on, a wait for what does not, waits. -/
def waitF (e : BitVec 10) : Fields := { t 0 with mod := 2, a := 2, e := e }
def waitS (e : BitVec 10) : Fields := { t 0 with mod := 0x402, selA := 1, c := 4, selC := 1, e := e }
def timed : State := updGroup placed gid fun g => setS g 8 5
theorem witness_Waits :
    (∀ e ∈ [(0x20 : BitVec 10), 0x21], ∃ F, Issues placed F (.waita (waitF e)) ∧ F.quiet ∧ F.calm ∧
      (∀ L ∈ lanesOf (activeOf F (waitF e)), Mapped placed (envOf placed F.g) (memAddr F.g (waitF e) L) (plainRead 4) false (slotOf L) false) ∧
      (∀ L ∈ lanesOf (activeOf F (waitF e)), waitCond (waitF e) (readNat placed.mem (slotOf L) 4)
        (srcOf 0 0 2 placed F L) = (e = 0x20 : Bool)) ∧
      (getCore placed F.g.core).grpStores = [] ∧ activeOf F (waitF e) ≠ 0 ∧ placed.waits.length + 32 ≤ 4096)
    ∧ (∀ e ∈ [(0x20 : BitVec 10), 0x21], ∃ F, Issues timed F (.waits (waitS e)) ∧ F.quiet ∧ F.calm ∧ activeOf F (waitS e) ≠ 0 ∧
      mappedAt timed (envOf timed F.g) (memAddr F.g (waitS e) (lowestLane (activeOf F (waitS e)))) (plainRead 4) false 0 false = true ∧
      waitCond (waitS e) (readNat timed.mem 0 4) (srcOf 1 4 2 timed F 0) = (e = 0x20 : Bool) ∧ F.key.limit = 0 ∧
      getS F.g 8 = 5 ∧ timed.waits.length < 4096) := by
  constructor
  · intro e he
    simp only [List.mem_cons, List.not_mem_nil, or_false] at he
    obtain rfl | rfl := he <;> exact witness_lanes (by decide +kernel)
  · intro e he
    simp only [List.mem_cons, List.not_mem_nil, or_false] at he
    obtain rfl | rfl := he <;> exact witness (by decide +kernel)

/-! ### Barriers, saves and tiles -/

/-- Barrier 2 of the placed team. -/
def withBarrier (arrived need : Nat) : State :=
  match getTeam placed 2 with
  | some t => setBarrier placed t 2 ⟨need, arrived, need, 1, true, false, []⟩
  | none => placed
/-- The last arrival but one, and the last. -/
theorem witness_BarrierArrival : ∀ n ∈ [(62, 64), (63, 64)], ∃ t, getTeam (withBarrier n.1 n.2) 2 = some t ∧ t.id = 2 ∧
    ((withBarrier n.1 n.2).groups.map Group.id).Nodup ∧ (getBarrier (withBarrier n.1 n.2) t 2).arrived = n.1 ∧
    (getBarrier (withBarrier n.1 n.2) t 2).need = n.2 := by
  intro n hn
  simp only [List.mem_cons, List.not_mem_nil, or_false] at hn
  obtain rfl | rfl := hn <;> exact exists_of (by decide +kernel)

def barF : Fields := { z with e := 2 }
theorem witness_TeamBarriers :
    (∀ i ∈ [Instr.bar barF, .barv barF, .bqry { barF with mod := 1 }, .bqry { barF with mod := 2 }], Ready i)
    ∧ (∃ F, Issues placed F (.barv barF) ∧ F.quiet ∧ F.calm ∧ barMode placed F.g.team 2 = false)
    ∧ (∃ F, Issues (withBarrier 0 64) F (.barv barF) ∧ F.quiet ∧ F.calm ∧ barMode (withBarrier 0 64) F.g.team 2 = true)
    ∧ (∃ F, Issues placed F (.bwait { barF with c := 15 }) ∧ F.quiet ∧ F.calm ∧
      ∀ L ∈ lanesOf (activeOf F barF), getP F.g 15 L ≠ phaseOf placed F.g.team 2)
    ∧ (∃ F, Issues placed F (.bwait { barF with c := 3 }) ∧ F.quiet ∧ F.calm ∧ activeOf F barF ≠ 0 ∧
      ∀ L ∈ lanesOf (activeOf F barF), getP F.g 3 L = phaseOf placed F.g.team 2)
    ∧ (∀ m ∈ [(0 : BitVec 12), 1], ∃ F, Issues placed F (.binit { barF with mod := m, selB := if m = 0 then 1 else 0 }) ∧ F.quiet ∧
      F.calm ∧ activeOf F barF ≠ 0 ∧ ((getTeam placed F.g.team).any fun t => (getBarrier placed t 2).arrived = 0) = true)
    ∧ (∃ F, Issues placed F (.bqry barF) ∧ F.quiet ∧ F.calm ∧ (getTeam placed F.g.team).isSome) := by
  refine ⟨ready_all (by decide +kernel), witness (by decide +kernel), witness (by decide +kernel), witness (by decide +kernel),
    witness (by decide +kernel), ?_, witness (by decide +kernel)⟩
  intro m hm
  simp only [List.mem_cons, List.not_mem_nil, or_false] at hm
  obtain rfl | rfl := hm <;> exact witness (by decide +kernel)

/-- Objects at the slots of lanes 0 and 1, or of every lane. -/
def objF : Fields := { z with mod := 0x100, a := 2 }
theorem witness_BarrierObjects :
    (∃ F, Issues placed F (.binit objF) ∧ F.quiet ∧ F.calm ∧
      (∀ L ∈ lanesOf (activeOf F objF), Mapped placed (envOf placed F.g) (objAddr F.g objF true L) (plainWrite 16) false (slotOf L) false) ∧
      (envOf placed F.g).part.orderMode = false ∧ barM objF = true ∧ objF.opm9 = false ∧ (getCore placed F.g.core).grpStores = [])
    ∧ (∃ F, Issues placed F (.bexp objF) ∧ F.quiet ∧ F.calm ∧
      (∀ L ∈ lanesOf (activeOf F objF), Mapped placed (envOf placed F.g) (objAddr F.g objF true L) (atomicOf 16) false (slotOf L) false) ∧ True)
    ∧ (∃ F, Issues placed F (.barv objF) ∧ F.quiet ∧ F.calm ∧
      (∀ L ∈ lanesOf (activeOf F objF), Mapped placed (envOf placed F.g) (objAddr F.g objF false L) (atomicOf 16) false (slotOf L) false) ∧
      ∀ L ∈ lanesOf (activeOf F objF), ∀ K ∈ lanesOf (activeOf F objF), L ≠ K → slotOf L + 16 ≤ slotOf K ∨ slotOf K + 16 ≤ slotOf L) :=
  ⟨witness_lanes (by decide +kernel), witness_lanes (by decide +kernel), witness_lanes (by decide +kernel)⟩

/-- Objects of which two arrivals are to come, and objects of which one is. -/
def objects (n : Nat) : State :=
  { placed with mem := (List.range 32).foldl (fun m L => writeBytes m (slotOf L) (leBytes 16 (objWord n n 0 false))) placed.mem }
theorem witness_BarrierObjectWaits :
    (∀ c ∈ [(15 : BitVec 10), 3], ∃ F, Issues placed F (.bwait { objF with c := c }) ∧ F.quiet ∧ F.calm ∧
      (∀ L ∈ lanesOf (activeOf F objF), Mapped placed (envOf placed F.g) (memAddr F.g objF L) (plainRead 16) false (slotOf L) false) ∧
      F.key.ph = none ∧ activeOf F objF ≠ 0 ∧ placed.waits.length + 32 ≤ 4096 ∧
      ∀ L ∈ lanesOf (activeOf F objF), (objPhase (readNat placed.mem (slotOf L) 16) != getP F.g c.toNat L) = (c = 15 : Bool))
    ∧ (∀ n ∈ [1, 2], ∃ F, Issues (objects n) F (.bar objF) ∧ F.quiet ∧ F.calm ∧
      (∀ L ∈ lanesOf (activeOf F objF), Mapped (objects n) (envOf (objects n) F.g) (memAddr F.g objF L) (atomicOf 16) false (slotOf L) false) ∧
      F.key.ph = none ∧
      ∀ L ∈ lanesOf (activeOf F objF), (objPhase (objArrival (readNat (objects n).mem (slotOf L) 16))
        != objPhase (readNat (objects n).mem (slotOf L) 16)) = (n = 1 : Bool)) := by
  constructor
  · intro c hc
    simp only [List.mem_cons, List.not_mem_nil, or_false] at hc
    obtain rfl | rfl := hc <;> exact witness_lanes (by decide +kernel)
  · intro n hn
    simp only [List.mem_cons, List.not_mem_nil, or_false] at hn
    obtain rfl | rfl := hn <;> exact witness_lanes (by decide +kernel)

/-- Rejoin barrier 1 armed for lanes 0 and 1. -/
def armed : State := updGroup placed gid fun g => setRejoin g 1 false ⟨1, 3, 0⟩
theorem witness_RejoinBarriers :
    (∀ i ∈ [Instr.jarm { z with d := 1 }, .jarm { z with d := 1, mod := 1, selB := 1 }, .join { z with d := 1 }, .jdrop { z with d := 1 },
      .jdrop { z with d := 1, mod := 1 }], Ready i)
    ∧ (∃ F, Issues armed F (.join { z with d := 1 }) ∧ F.quiet ∧ F.calm ∧ (getRejoin F.g 1 (trapBank F 1)).state = 1 ∧
      activeOf F z &&& (getRejoin F.g 1 (trapBank F 1)).named ≠ 0)
    ∧ (∃ g, (getGroup armed gid).map (fun g => { setRejoin g 1 false ⟨1, 3, 3⟩ with
        sides := [⟨0, 3, 0x4000, 2, false, allLanes, false, none, 0, none, .join 1 false⟩] }) = some g ∧
      (getRejoin g 1 false).state = 1 ∧ (getRejoin g 1 false).named &&& ~~~(getRejoin g 1 false).arrived = 0 ∧
      (∀ x ∈ g.sides, x.slice < 8) ∧ (g.sides.filter fun x => x.st = .join 1 false).length = 1) :=
  ⟨ready_all (by decide +kernel), witness (by decide +kernel), exists_of (by decide +kernel)⟩

/-- Two lanes held in a bin of which a draw is due: the team's one group has ended, so no group of it goes on. -/
def oneBin : Bin := ⟨0, 0, 2, 0, 0, 0x4050, [⟨[7], 0, 0, [], [], []⟩, ⟨[8], 0, 0, [], [], []⟩]⟩
def binned : State := { updGroup placed gid (fun g => { g with st := .exited, placed := false, sides := [] }) with bins := [oneBin] }
theorem witness_Reform :
    (∃ F, Issues { placed with bins := [oneBin] } F (.reform { z with mod := 1, off25 := 5 }) ∧ F.quiet ∧ F.calm ∧ activeOf F z ≠ 0 ∧
      (F.g.tm && F.key.handler) = false ∧
      ((findBin { placed with bins := [oneBin] } F.g (F.key.pc + 16 * offsetOf { z with off25 := 5 })).any fun b =>
        b.lanes.length + countLanes (activeOf F z) ≤ 64) = true)
    ∧ (binned.bins.find? (fun x => x.core = oneBin.core && x.num = oneBin.num)) = some oneBin
    ∧ (∃ old, freeSlot binned oneBin = some old ∧ drawDue binned oneBin = true)
    ∧ (∃ tm, getTeam binned 2 = some tm ∧ (getLaunch binned tm.launch).isSome) ∧ (∀ x ∈ binned.groups, x.id ≠ binned.nextId)
    ∧ (∃ old, freeSlot binned { oneBin with lanes := [] } = some old ∧ drawDue binned { oneBin with lanes := [] } = false) :=
  ⟨witness (by decide +kernel), by decide +kernel, exists_of (by decide +kernel), exists_of (by decide +kernel), by decide +kernel,
    exists_of (by decide +kernel)⟩

theorem witness_RecordRoundTrip :
    let h : RecordHeader := ⟨⟨64, 131136, 0, 2 ^ 32 - 1, 0, 16, 0, 0, 0⟩, 0x9000, 0xFFFFFFFF, 0xF, 0x0E, true, 65535, 3, 3, 7, 256, 128, 1024, 1, true⟩
    (h.kind < 2 ^ 8 ∧ h.vregs < 2 ^ 11 ∧ h.ztiles < 2 ^ 8 ∧ h.sregs < 2 ^ 9 ∧ h.span < 8 ∧ h.role < 4 ∧ h.peer < 4 ∧ h.nreplay < 2 ^ 16)
    ∧ headerFrom h.bits = { h with layout := { h.layout with x := 0 }, ok := true } ∧ (Rejoin.clear.state < 4)
    ∧ (⟨5, 3, 0, 2 ^ 128 - 1⟩ : Replay).type < 256 := by decide +kernel

/-- The save area of the placed group's record, whose header is in memory. Scalar register 4 is its address, register 5 is
not aligned, and the group is past PYIELD where `saving`. -/
def saveAt (saving : Bool) : State :=
  updGroup placed gid fun g => { setS (setS g 4 0x20000) 5 0x20010 with preq := true, saving := saving, gateKept := [] }
def recordAt : State := match getGroup placed gid with
  | some g => { saveAt false with mem := writeBytes placed.mem 0x20000 (leBytes 64 (headerOf placed g 0x9000 0 0 0).bits) }
  | none => placed
def fitsAt (s : State) (F : Frag) : Bool := match testHeader s F allLanes 0x20000 with
  | .fits u h => (checkExtents u (envOf s F.g) byteRead (((recordSpans 0x20000 h.layout h.nreplay).drop 1).filter fun p => p.1 != 0x20000)).2.isNone
  | _ => false
theorem witness_SaveAndRestore :
    (∀ i ∈ [Instr.pyield z, .pyield (none_ z)], Ready i)
    ∧ (∃ F, Issues placed F (.pyield z) ∧ F.quiet ∧ F.calm ∧ F.g.preq = false)
    ∧ (∃ F, Issues (saveAt false) F (.pyield z) ∧ F.quiet ∧ F.calm ∧ activeOf F z ≠ 0 ∧ F.g.preq = true ∧ F.g.saving = false)
    ∧ (∃ F, Issues (saveAt true) F (.halt z) ∧ F.quiet ∧ F.calm ∧ activeOf F z = liveLanes F.g ∧ F.g.saving = true ∧
      ∀ x ∈ F.g.sides, F.key.sameFragment x = true)
    ∧ (∃ F, Issues (saveAt true) F (.csave { z with a := 4, b := 4, selA := 1, selB := 1 }) ∧ F.quiet ∧ F.calm ∧
      activeOf F z = liveLanes F.g ∧ activeOf F z ≠ 0 ∧ F.g.saving = true ∧ (getS F.g 4).extractLsb' 0 12 = 0 ∧
      (checkExtents (saveAt true) (envOf (saveAt true) F.g) byteWrite
        (recordSpans 0x20000 (headerOf (saveAt true) F.g 0x20000 0 0 (splitReplays F.g.gateKept).length).layout
          (splitReplays F.g.gateKept).length)).2.isNone = true)
    ∧ (∃ F, Issues (saveAt true) F (.csave { z with a := 5, b := 4, selA := 1, selB := 1 }) ∧ F.quiet ∧ F.calm ∧
      (getS F.g 5).extractLsb' 0 12 ≠ 0)
    ∧ (∀ i ∈ [Instr.crestChk { z with a := 4, selA := 1 }, .crestGo { z with a := 4, selA := 1, mod := 1 }],
      ∃ F, Issues recordAt F i ∧ F.quiet ∧ F.calm ∧ activeOf F z = allLanes ∧ fitsAt recordAt F = true)
    ∧ (∀ i ∈ [Instr.crestChk { z with a := 5, selA := 1 }, .crestGo { z with a := 5, selA := 1, mod := 1 }],
      ∃ F, Issues recordAt F i ∧ F.quiet ∧ F.calm ∧ activeOf F z ≠ 0 ∧ (getS F.g 5).extractLsb' 0 12 ≠ 0) := by
  refine ⟨ready_all (by decide +kernel), witness (by decide +kernel), witness (by decide +kernel), witness (by decide +kernel),
    witness (by decide +kernel), witness (by decide +kernel), ?_, ?_⟩ <;>
  · intro i hi
    simp only [List.mem_cons, List.not_mem_nil, or_false] at hi
    obtain rfl | rfl := hi <;> exact witness (by decide +kernel)

/-- Handles 0 and 1 on f32 tiles of 4 by 4, handle 2 without a tile; scalar registers 8 to 11 are a command's target, value,
length of 16 with stride 16, and no done record; registers 12 to 14 hold 0x11000, and registers 16 to 21 a header and an
address for HSET. -/
def tiles : State := updGroup placed gid fun g =>
  let g := setHandle (setHandle g 0 ⟨0, false, true, 0x12000, zHeader 1 4 4⟩) 1 ⟨0, false, true, 0x13000, zHeader 1 4 4⟩
  let g := setS (setS (setS (setS g 8 0x14000) 9 7) 10 0x0000001000000010) 12 0x11000
  setS (setS (setS g 16 ((zHeader 1 4 4).extractLsb' 0 64)) 17 ((zHeader 1 4 4).extractLsb' 64 64)) 18 0x12008
/-- HSET of the header in registers 16 and 17 at the address in register a. -/
def hsetF (a : BitVec 10) : Fields := { z with a := a, b := 16, c := 17, selA := 1, selB := 1, selC := 1 }
def hsetHdr (F : Frag) (f : Fields) : W128 := withCheck (read64 tiles F.g f.selC f.c 0 ++ read64 tiles F.g f.selB f.b 0)
theorem witness_TileRegisters :
    (∀ i ∈ [Instr.hget z, .hget { z with mod := 1 }, .zzero z, .zzero { z with mod := 1 }, .zmov z, .zmov { z with mod := 1, d := 8, selB := 1 },
      .zmov { z with mod := 2, selB := 1 }, .qscale { t 0 with mod := 1 }], Ready i)
    ∧ (∃ F, Issues tiles F (.hset (hsetF 8)) ∧ F.quiet ∧ F.calm ∧ activeOf F z ≠ 0 ∧ headerOk (hsetHdr F (hsetF 8)) = true ∧
      (read64 tiles F.g 1 8 0).extractLsb' 0 4 = 0)
    ∧ (∃ F, Issues placed F (.zred { z with a := 1 }) ∧ F.quiet ∧ F.calm ∧
      (hKind (getZHeader F.g 0) = hKind (getZHeader F.g 1) ∧ hRows (getZHeader F.g 0) = hRows (getZHeader F.g 1)
        ∧ hCols (getZHeader F.g 0) = hCols (getZHeader F.g 1)))
    ∧ (∃ F, Issues placed F (.zscale { z with mod := 1 }) ∧ F.quiet ∧ F.calm ∧ hKind (getZHeader F.g 0) = 0x01) :=
  ⟨ready_all (by decide +kernel), witness (by decide +kernel), witness (by decide +kernel), witness (by decide +kernel)⟩

/-- A header in memory at 0x12000. -/
def headerAt : State := { tiles with mem := writeBytes tiles.mem 0x12000 (leBytes 16 (zHeader 1 4 4).toNat) }
def hldF : Fields := { z with immForm := true, imm32 := 0x12000, mod := 0xC00 }
theorem witness_TileMemory :
    (∃ F, Issues headerAt F (.hld hldF) ∧ F.quiet ∧ F.calm ∧ activeOf F z ≠ 0 ∧ hldF.opm9 = false ∧
      mappedAt headerAt (envOf headerAt F.g) (memAddr F.g hldF (lowestLane (activeOf F z))) headerRead false 0x12000 false = true ∧
      headerOk (BitVec.ofNat 128 (readNat headerAt.mem 0x12000 16)) = true)
    ∧ (∃ F, Issues headerAt F (.hst hldF) ∧ F.quiet ∧ F.calm ∧
      mappedAt headerAt (envOf headerAt F.g) (memAddr F.g hldF (lowestLane (activeOf F z))) headerWrite false 0x12000 false = true ∧
      (getHandle F.g 0).v = true ∧ (envOf headerAt F.g).part.orderMode = false)
    ∧ (∃ F, Issues tiles F (.zld z) ∧ F.quiet ∧ F.calm ∧ zldCheck (getHandle F.g 0) = none ∧
      (checkRuns tiles (envOf tiles F.g) (getHandle F.g 0) tileRead true (dataRuns (getHandle F.g 0).hdr fun _ => true)).fault = none)
    ∧ (∃ F, Issues tiles F (.zst z) ∧ F.quiet ∧ F.calm ∧
      zstCheck (getHandle F.g 0) (getZHeader F.g 0) (hReshape (getHandle F.g 0).hdr 1 32 32) = none ∧
      (checkRuns tiles (envOf tiles F.g) (getHandle F.g 0) tileWrite true
        (dataRuns (hReshape (getHandle F.g 0).hdr 1 32 32) (fun _ => true) ++ scaleRuns (hReshape (getHandle F.g 0).hdr 1 32 32) false
          ++ [⟨0, 128, false⟩])).fault = none ∧
      (zstElement 1 (hReshape (getHandle F.g 0).hdr 1 32 32) [] false 0 0 31 31 (getZ F.g 0 31 31)).isSome) :=
  ⟨witness (by decide +kernel), witness (by decide +kernel), witness (by decide +kernel), witness (by decide +kernel)⟩

/-- An MMA in progress, in a team that may be relaunched. -/
def mmaOp : MmaOp := ⟨77, 3, 0, false, ⟨0, false, true, 0x12000, zHeader 1 4 4⟩, ⟨0, false, true, 0x13000, zHeader 1 4 4⟩, 0xF, [], [], some ⟨0x04, 0x12000, 0, true⟩⟩
def multiplying : State := setLaunch { tiles with mmas := [mmaOp] } { placedLaunch 1 with blk := { placedBlock with relaunch := true } }
/-- Handle 4 on a sparse tile of whose rows the values do not fit; handle 5 on a tile of a kind that does not go with A's; handle 0
on an integer tile; and a z header that is not right. -/
def sparseHdr : W128 :=
  withCheck (BitVec.ofNat 128 (0xA + 1 * 2 ^ 4 + 2 * 2 ^ 6 + 3 * 2 ^ 14 + 3 * 2 ^ 19 + 3 * 2 ^ 29 + 2 ^ 39 + 2 ^ 75))
def sparseTiles : State := updGroup { tiles with mem := writeBytes tiles.mem 0x22000 (List.replicate 128 0xFF) } gid fun g =>
  setHandle g 4 ⟨0, false, true, 0x22000, sparseHdr⟩
def unequal : State := updGroup tiles gid fun g => setHandle g 5 ⟨0, false, true, 0x13000, zHeader 0xA 4 4⟩
def intTiles : State := updGroup tiles gid fun g => setHandle g 0 ⟨0, false, true, 0x12000, zHeader 0xA 4 4⟩
def badTiles : State := updGroup tiles gid fun g => setZHeader g 0 1
theorem noStores {s : State} (h : s.cores.all (fun c => c.grpStores.isEmpty) = true) (c : Nat) : (getCore s c).grpStores = [] := by
  unfold getCore
  cases hc : findBy Core.id c s.cores with
  | none => rfl
  | some k => simpa using List.all_eq_true.mp h k (findBy_mem hc)
theorem witness_TileFaults :
    (∃ F, Issues tiles F (.hset { hsetF 8 with b := 12 }) ∧ F.quiet ∧ F.calm ∧ activeOf F z ≠ 0 ∧
      headerOk (hsetHdr F { hsetF 8 with b := 12 }) = false)
    ∧ (∃ F, Issues tiles F (.hset (hsetF 18)) ∧ F.quiet ∧ F.calm ∧ headerOk (hsetHdr F (hsetF 18)) = true ∧
      (read64 tiles F.g 1 18 0).extractLsb' 0 4 ≠ 0)
    ∧ (∃ F, Issues tiles F (.hst { hldF with c := 2 }) ∧ F.quiet ∧ F.calm ∧ (getHandle F.g 2).v = false)
    ∧ (∃ F, Issues tiles F (.mma { z with a := 2 }) ∧ F.quiet ∧ F.calm ∧ activeOf F z ≠ 0 ∧
      (mmaShape (getHandle F.g 2) (getHandle F.g 0) (getZHeader F.g 0) true).isSome)
    ∧ (∃ F, Issues sparseTiles F (.mma { z with a := 4, mod := 1 }) ∧ F.quiet ∧ F.calm ∧ activeOf F z ≠ 0 ∧
      mmaShape (getHandle F.g 4) (getHandle F.g 0) (getZHeader F.g 0) false = none ∧
      bitmapBad sparseTiles (envOf sparseTiles F.g) (getHandle F.g 4) (quarterRow (activeOf F z)) = true)
    ∧ (∃ F, Issues unequal F (.mma { z with b := 5, mod := 1 }) ∧ F.quiet ∧ F.calm ∧
      mmaShape (getHandle F.g 0) (getHandle F.g 5) (getZHeader F.g 0) false = none ∧
      bitmapBad unequal (envOf unequal F.g) (getHandle F.g 0) (quarterRow (activeOf F z)) = false ∧
      (mmaPair (getHandle F.g 0) (getHandle F.g 5)).isSome)
    ∧ (∃ F, Issues intTiles F (.zst { z with e := 0x100 }) ∧ F.quiet ∧ F.calm ∧ activeOf F z ≠ 0 ∧
      intKind (hKind (getHandle F.g 0).hdr) = true)
    ∧ (∃ F, Issues badTiles F (.zred z) ∧ F.quiet ∧ F.calm ∧ activeOf F z ≠ 0 ∧ headerOk (getZHeader F.g 0) = false)
    ∧ (∃ F, Issues badTiles F (.zscale { z with mod := 1 }) ∧ F.quiet ∧ F.calm ∧ activeOf F z ≠ 0 ∧ headerOk (getZHeader F.g 0) = false)
    ∧ (∃ F, Issues tiles F (.zld { z with a := 2 }) ∧ F.quiet ∧ F.calm ∧ (zldCheck (getHandle F.g 2)).isSome)
    ∧ (∃ F, Issues (updGroup placed gid fun g => setZHeader g 1 (zHeader 1 8 32)) F (.zred { z with a := 1 }) ∧ F.quiet ∧ F.calm ∧
      headerOk (getZHeader F.g 1) = true ∧ headerOk (getZHeader F.g 0) = true ∧
      ¬ (hKind (getZHeader F.g 0) = hKind (getZHeader F.g 1) ∧ hRows (getZHeader F.g 0) = hRows (getZHeader F.g 1)
        ∧ hCols (getZHeader F.g 0) = hCols (getZHeader F.g 1)))
    ∧ (∃ F, Issues (updGroup placed gid fun g => setZHeader g 0 (zHeader 0xA 32 32)) F (.zscale { z with mod := 1 }) ∧ F.quiet ∧ F.calm ∧
      headerOk (getZHeader F.g 0) = true ∧ hKind (getZHeader F.g 0) ≠ 0x01)
    ∧ multiplying.mmas.find? (fun m => m.id = 77) = some mmaOp ∧ mmaOp.fault = some ⟨0x04, 0x12000, 0, true⟩
    ∧ (∀ c, (getCore multiplying c).grpStores = [])
    ∧ (∃ g, getGroup multiplying mmaOp.gid = some g ∧ ((launchOf multiplying g).map fun l => l.blk.relaunch) = some true ∧
      ((getTeam multiplying g.team).any fun t => t.relaunches < 3) = true ∧ (getCtx multiplying (ctxOf multiplying g)).elog = 0) :=
  ⟨witness (by decide +kernel), witness (by decide +kernel), witness (by decide +kernel), witness (by decide +kernel),
    witness (by decide +kernel), witness (by decide +kernel), witness (by decide +kernel), witness (by decide +kernel),
    witness (by decide +kernel), witness (by decide +kernel), witness (by decide +kernel), witness (by decide +kernel),
    by decide +kernel, rfl, noStores (by decide +kernel), exists_of (by decide +kernel)⟩

theorem witness_MatrixMultiply :
    (∃ F, Issues tiles F (.mma { z with b := 1, mod := 1 }) ∧ F.quiet ∧ F.calm ∧ activeOf F z ≠ 0 ∧
      mmaShape (getHandle F.g 0) (getHandle F.g 1) (getZHeader F.g 0) false = none ∧
      mmaPair (getHandle F.g 0) (getHandle F.g 1) = none ∧
      bitmapBad tiles (envOf tiles F.g) (getHandle F.g 0) (quarterRow (activeOf F z)) = false ∧
      operandCheck tiles (envOf tiles F.g) (getHandle F.g 0) (tileRuns (getHandle F.g 0).hdr false fun _ => true) = none ∧
      operandCheck tiles (envOf tiles F.g) (getHandle F.g 1) (tileRuns (getHandle F.g 1).hdr true fun _ => true) = none)
    ∧ (∃ F, issuing tiles = some F ∧ (fetchOperands tiles (envOf tiles F.g) mmaOp.a mmaOp.b 0xF).fault = none)
    ∧ (∃ F, issuing tiles = some F ∧
      ((fetchOperands tiles (envOf tiles F.g) { mmaOp.a with addr := 0x40000000, hdr := zHeader 1 1 1 } mmaOp.b 0xF).fault).isSome)
    ∧ (let op : MmaOp := { mmaOp with fault := none }
       { tiles with mmas := [op] }.mmas.find? (fun m => m.id = 77) = some op ∧ op.fault = none) :=
  ⟨witness (by decide +kernel), exists_of (by decide +kernel), exists_of (by decide +kernel), by decide +kernel⟩

/-! ### Engines and graphs -/

/-- A command of the scalar registers 8 to 11: a copy from 0x11000 to each lane's slot, or rows of indexed gathers. -/
def cpyF : Fields := { z with a := 2, b := 12, e := 8, selB := 1 }
def rowsF : Fields := { z with a := 12, b := 8, c := 5, e := 8, selA := 1, selB := 1 }
def emptyCopy : State := updGroup tiles gid fun g => setS g 10 0
def fullTable : State := match issuing tiles with
  | some F => { tiles with ops := List.replicate 225 (blankOp F (envOf tiles F.g) (commandOf F.g cpyF) .cpy 0) }
  | none => tiles
def cpyIssue (s : State) (F : Frag) (f : Fields) : Issue := (lanesOf (activeOf F f)).foldl (cpyLane F f (envOf s F.g) (commandOf F.g f)) ⟨s, [], 0, []⟩
def rowIssue (s : State) (F : Frag) (w : Bool) (f : Fields) : Issue :=
  (lanesOf (activeOf F f)).foldl (rowLane w F f (envOf s F.g) (commandOf F.g f)) ⟨s, [], 0, []⟩
def traceIssue (s : State) (F : Frag) (f : Fields) : Issue := (lanesOf (activeOf F f)).foldl (traceLane F f (envOf s F.g) (commandOf F.g f)) ⟨s, [], 0, []⟩
theorem witness_EngineIssue :
    (∃ F, Issues tiles F (.cpy cpyF) ∧ F.quiet ∧ F.calm ∧ (commandOf F.g cpyF).targetBad = none ∧ (commandOf F.g cpyF).len ≤ 4194304 ∧
      (cpyIssue tiles F cpyF).faults = [] ∧ (cpyIssue tiles F cpyF).ops ≠ [] ∧
      lockEntries tiles F.g.core + (cpyIssue tiles F cpyF).ops.length ≤ 256)
    ∧ (∃ F, Issues emptyCopy F (.cpy cpyF) ∧ F.quiet ∧ F.calm ∧ activeOf F cpyF ≠ 0 ∧ (cpyIssue emptyCopy F cpyF).faults = [] ∧
      (cpyIssue emptyCopy F cpyF).ops = [])
    ∧ (∃ F, Issues fullTable F (.cpy cpyF) ∧ F.quiet ∧ F.calm ∧ (cpyIssue fullTable F cpyF).ops ≠ [] ∧
      256 < lockEntries fullTable F.g.core + (cpyIssue fullTable F cpyF).ops.length)
    ∧ (∃ F, Issues tiles F (.gthr (only0 rowsF)) ∧ F.quiet ∧ F.calm ∧ (commandOf F.g rowsF).rowsBad true = none ∧
      (rowIssue tiles F false (only0 rowsF)).faults = [] ∧ (rowIssue tiles F false (only0 rowsF)).ops ≠ [])
    ∧ (∃ F, Issues tiles F (.sctr (only0 rowsF)) ∧ F.quiet ∧ F.calm ∧ (commandOf F.g rowsF).rowsBad false = none ∧
      (rowIssue tiles F true (only0 rowsF)).faults = [])
    ∧ (∃ F, Issues tiles F (.trace cpyF) ∧ F.quiet ∧ F.calm ∧ (commandOf F.g cpyF).targetBad = none ∧
      (getS F.g 12).extractLsb' 0 3 = 0 ∧ (traceIssue tiles F cpyF).faults = [] ∧ (traceIssue tiles F cpyF).ops ≠ [])
    ∧ (∀ i ∈ [Instr.cpy { cpyF with e := 16 }, .gthr { rowsF with e := 16 }, .sctr { rowsF with e := 16 }, .cpyt { z with b := 1, e := 16 },
      .rcon { z with e := 16 }, .trace { cpyF with e := 16 }], ∃ F, Issues tiles F i ∧ F.quiet ∧ F.calm ∧
      (commandOf F.g { z with e := 16 }).target.toNat % (commandOf F.g { z with e := 16 }).targetLen ≠ 0) := by
  refine ⟨witness (by decide +kernel), witness (by decide +kernel), witness (by decide +kernel), witness (by decide +kernel),
    witness (by decide +kernel), witness (by decide +kernel), ?_⟩
  intro i hi
  simp only [List.mem_cons, List.not_mem_nil, or_false] at hi
  obtain rfl | rfl | rfl | rfl | rfl | rfl := hi <;> exact witness (by decide +kernel)

/-- Handle 3 on an f32 tile of 32 by 32. -/
def blockTile : State := updGroup tiles gid fun g => setHandle g 3 ⟨0, false, true, 0x20000, zHeader 1 32 32⟩
/-- The operation that CPY of lane 0 has entered, and the state with it. -/
def copying : State := nextOf (exec (.cpy (only0 cpyF)) tiles)
theorem witness_EngineFragments :
    (∃ F, Issues tiles F (.cpyt { z with b := 1, e := 8 }) ∧ F.quiet ∧ F.calm ∧ activeOf F z ≠ 0 ∧ lockEntries tiles F.g.core < 256 ∧
      (commandOf F.g cpyF).targetBad = none ∧ cpytCheck (getHandle F.g 0) (getHandle F.g 1) 0 = none ∧
      (checkRuns tiles (envOf tiles F.g) (getHandle F.g 1) tileRead true (cpytSourceRuns (getHandle F.g 1).hdr false)).fault = none ∧
      rangesOverlap (tileRanges (getHandle F.g 0) (cpytTargetRuns (cpytHeader (getHandle F.g 0).hdr (getHandle F.g 1).hdr 0) false))
        (tileRanges (getHandle F.g 1) (cpytSourceRuns (getHandle F.g 1).hdr false)) = none ∧
      (checkRuns tiles (envOf tiles F.g) (getHandle F.g 0) tileWrite true
        (cpytTargetRuns (cpytHeader (getHandle F.g 0).hdr (getHandle F.g 1).hdr 0) false)).fault = none ∧
      (firstFault tiles (targetChecks (envOf tiles F.g) (commandOf F.g cpyF) false)).2 = none)
    ∧ (∃ F, Issues blockTile F (.rcon { z with a := 3, e := 8 }) ∧ F.quiet ∧ F.calm ∧ rconCheck (getHandle F.g 3) none = none ∧
      (commandOf F.g cpyF).targetBad = none ∧
      ((launchOf blockTile F.g).any fun l => (getTeam blockTile F.g.team).any fun t =>
        (firstFault blockTile ([fun s => checkTileRange s (envOf blockTile F.g) (getHandle F.g 3) tileWrite
            (blockRuns (getHandle F.g 3).hdr (rconPoints l t))]
          ++ targetChecks (envOf blockTile F.g) { commandOf F.g cpyF with tol := false, kb := false } false)).2.isNone) = true)
    ∧ (∃ F, Issues placed F (.adrain z) ∧ F.quiet ∧ F.calm ∧ drainOwed placed F (activeOf F z) false = 0)
    ∧ (∃ F, Issues { tiles with ops := copying.ops } F (.adrain z) ∧ F.quiet ∧ F.calm ∧
      drainOwed { tiles with ops := copying.ops } F (activeOf F z) false ≠ 0)
    ∧ (∀ i ∈ [Instr.aqry { z with d := 8 }, .aqry { z with d := 8, mod := 1 }], Ready i) :=
  ⟨witness (by decide +kernel), witness (by decide +kernel), witness (by decide +kernel), witness (by decide +kernel),
    ready_all (by decide +kernel)⟩

theorem witness_BytesMoved :
    ∃ o, copying.ops.head? = some o ∧ o.srcShare = false ∧ o.dstShare = false ∧ o.src.toNat + o.len ≤ 2 ^ 64 ∧ o.dst.toNat + o.len ≤ 2 ^ 64 ∧
      (∀ k, k < o.len → onPageAt copying (opEnv copying o) (o.src + BitVec.ofNat 64 k) byteRead false (0x11000 + k) false = true) ∧
      (∀ k, k < o.len → onPageAt copying (opEnv copying o) (o.dst + BitVec.ofNat 64 k) byteWrite false (0x10000 + k) false = true) ∧
      0x10000 + o.len ≤ 0x11000 ∧ (getCore copying (opEnv copying o).core).grpStores = [] ∧ 0x11000 % 128 = o.src.toNat % 128 ∧ o.len = 16 :=
  exists_of (by decide +kernel)

/-- The operations of `copying`, changed, in a state. -/
def withOps (s : State) (h : AsyncOp → AsyncOp) : State := { s with ops := copying.ops.map h }
/-- What holds of the operation there is, which is of a kind and has not moved. -/
def opMeets (s : State) (k : OpKind) (p : AsyncOp → Bool) : Bool :=
  s.ops.head?.any fun o => (getOp s o.id = some o : Bool) && (o.kind = k : Bool) && !o.moved && p o
def cpytOps : State :=
  withOps tiles fun o => { o with kind := .cpyt, dstH := ⟨0, false, true, 0x12000, zHeader 1 4 4⟩, srcH := ⟨0, false, true, 0x13000, zHeader 1 4 4⟩ }
def cpytMeets (o : AsyncOp) : Bool :=
  let v := opEnv cpytOps o
  let new := cpytHeader o.dstH.hdr o.srcH.hdr o.conv
  let rd := cpytTargetRuns new o.kb
  let cs := checkRuns cpytOps v o.srcH tileRead false (cpytSourceRuns o.srcH.hdr (cpytSourceB o.kb o.conv))
  let cd := checkRuns cs.s v o.dstH tileWrite false rd
  let m := readPlaces cd.s v cs.places
  cs.fault.isNone && cd.fault.isNone && (markPlaces m.1 v o.dstH cd.places).fault.isNone
    && !rd.any (fun r => r.keep && (r.bit + r.len) % 8 != 0)
    && (cpytImage new o.srcH.hdr o.conv o.kb (dataRuns new everyRow) m.2 []).isSome
/-- An RCON of the block of the placed team, in the tile at 0x20000; a ray at 0x11000 of a hierarchy without boxes at 0x12000. -/
def rconOps : State := withOps blockTile fun o => { o with kind := .rcon, dstH := ⟨0, false, true, 0x20000, zHeader 1 32 32⟩, kb := false }
def traceOps : State :=
  { withOps tiles fun o => { o with kind := .trace, src := 0x11000, dst := 0x14000, len := 32 } with
    mem := writeBytes tiles.mem 0x11020 (leBytes 8 0x12000) }
def traceMeets (o : AsyncOp) : Bool :=
  let v := opEnv traceOps o
  match sideRead traceOps v false o.src 0 48 with
  | (t, .inr bs) => (match traverse t v (some o.core) (rayFrom (leNat bs)) with
    | (u, .inr x) => (opWrites u v o [(0, x.hit.bytes.take 8), (8, x.hit.bytes.drop 8), (16, leBytes 4 x.status)]).2.isNone
    | _ => false)
  | _ => false
theorem witness_BytesMovedKinds :
    (∀ k ∈ [OpKind.cpy, .gthr, .sctr], opMeets (withOps copying fun o => { o with kind := k }) k (fun o =>
      o.window.isNone && !o.tol && (o.pos = 0 : Bool) && !rowHeld (withOps copying fun o => { o with kind := k }) o
        && (moveUnits (opEnv copying o) o (o.len + 1) (withOps copying fun o => { o with kind := k }) 0).2.2.isNone) = true)
    ∧ ({ copying with ops := copying.ops.flatMap fun o => [{ o with kind := .sctr, lane := 1 }, { o with kind := .sctr, id := o.id + 1 }] } : State).ops.any
        (fun o => rowHeld { copying with ops := copying.ops.flatMap fun o => [{ o with kind := .sctr, lane := 1 }, { o with kind := .sctr, id := o.id + 1 }] } o) = true
    ∧ opMeets cpytOps .cpyt cpytMeets = true
    ∧ opMeets rconOps .rcon (fun o => ((getTeam rconOps o.team).bind fun t => (getLaunch rconOps t.launch).map fun l =>
        match fillBlock rconOps (opEnv rconOps o) o.scope ⟨o.dstH, none, rconPoints l t, ((recordOf l t).map BlockRecord.code).getD 0⟩
          o.audits.isSome with
        | (_, .inr _) => true
        | _ => false).getD false) = true
    ∧ opMeets traceOps .trace (fun o => (o.pos != 1) && traceMeets o) = true :=
  ⟨by decide +kernel, by decide +kernel, by decide +kernel, by decide +kernel, by decide +kernel⟩

theorem witness_EngineCompletion :
    ∃ o, copying.ops.head? = some o ∧ o.drec = 0 ∧ o.tsp = false ∧ o.target = 0x14000 ∧
      mappedAt copying (opEnv copying o) o.target byteWrite false 0x14000 false = true ∧
      getOp copying o.id = some o ∧ o.kind = .cpy ∧ o.window = none ∧ o.tol = false ∧ o.pos = 0 ∧
      (copying.ops.filter fun x => x.batch = o.batch) = [o] ∧ (copying.ops.map AsyncOp.id).Nodup ∧
      (moveUnits (opEnv copying o) o (o.len + 1) copying 0).2 = (o.len, none) ∧
      (moveUnits (opEnv copying o) o (o.len + 1) copying 0).1.ops = copying.ops ∧
      (let o' := { o with pos := o.len, moved := true, whole := o.whole || 0 < o.len, waiting := none }
       let t := setOp (moveUnits (opEnv copying o) o (o.len + 1) copying 0).1 o'
       (completionAction t (opEnv t o') o' (if o'.whole then laneBit o.lane else 0) o.failed).2 = none
        ∧ (completionAction t (opEnv t o') o' (if o'.whole then laneBit o.lane else 0) o.failed).1.ops = t.ops) :=
  exists_of (by decide +kernel)

/-- A graph of two nodes: an edge of 4 slots leads from node 0 to node 1, whose launch the placed group belongs to, and one
from node 1 back. -/
def nodeOf (kind unit : Nat) (st : NodeSt) : Node :=
  ⟨kind, unit, 0, 0, 0, 0, 0, 0, 0, 0, 0, st, 0, false, false, 0, none, none, none, none, [], true, false⟩
def edgeOf (src dst head : Nat) (closed : Bool) : Edge := ⟨src, dst, true, false, false, 0, 0, 9, 0x30000, 2, 0, head, 0, 0, [], closed⟩
def graphOf (nodes : List Node) (edges : List Edge) : Graph :=
  ⟨5, 0, 0, 0, 0, 0, 0x70000, 0x71000, 0, nodes, edges, true, 1, 0, none, false, 0⟩
def inGraph (gr : Graph) (blk : LaunchBlock) : State :=
  setLaunch { placed with graphs := [gr] } { placedLaunch 1 with graph := some (5, 1), blk := blk, settled := true }
def recordGraph (head : Nat) (closed : Bool) : Graph :=
  graphOf [nodeOf 2 0 .running, nodeOf 1 0 .running] [edgeOf 0 1 head closed, edgeOf 1 0 0 false]
def rgetF : Fields := { z with d := 8, c := 2, selB := 1 }
/-- The edge back is full, and the record of lane 0 has an RSVD bit set. -/
def fullBack : State :=
  let s := inGraph (graphOf [nodeOf 2 0 .running, nodeOf 1 0 .running] [edgeOf 0 1 0 false, edgeOf 1 0 4 false]) placedBlock
  { s with mem := writeBytes s.mem (slotOf 0) (leBytes 16 (2 ^ 100)) }
def emitted (s : State) (F : Frag) (f : Fields) : EmitSweep := (lanesOf (activeOf F f)).foldl (emitLane F f (envOf s F.g) 5 1 1) ⟨s, [], 0⟩
def dealt (drawn : Bool) : State :=
  let l := placedLaunch 1
  setLaunch (updGroup placed gid fun g => { g with drawn := drawn })
    { l with blk := { placedBlock with coven := true }, cov := { l.cov with blocks := [⟨0, 0, 0, false, false, false⟩] } }
theorem witness_GraphWords :
    (∀ i ∈ [Instr.launch { t 0 with a := 2, b := 2 }, .launch { t 0 with mod := 1, a := 2, b := 2 }, .covqMe { z with d := 8 },
      .covqPt { z with d := 8, mod := 1 }, .rget rgetF, .remit { z with selB := 1 }], Ready i)
    ∧ (∃ F, Issues placed F (.covqMe { z with d := 8 }) ∧ F.quiet ∧ F.calm ∧ recordNode placed F.g = none ∧ activeOf F z ≠ 0 ∧
      ((launchOf placed F.g).any fun l => l.blk.coven = false) = true ∧ (getTeam placed F.g.team).isSome)
    ∧ (∀ drawn ∈ [true, false], ∃ F, Issues (dealt drawn) F (.covqMe { z with d := 8 }) ∧ F.quiet ∧ F.calm ∧ F.g.drawn = drawn ∧ F.g.role = 0 ∧
      ((launchOf (dealt drawn) F.g).any fun l => l.blk.coven && (getTeam (dealt drawn) F.g.team).any fun t => (recordOf l t).isSome) = true)
    ∧ (∃ F, Issues (inGraph (recordGraph 2 false) placedBlock) F (.rget (only0 rgetF)) ∧ F.quiet ∧ F.calm ∧
      activeOf F (only0 rgetF) = laneBit 0 ∧
      ((recordNode (inGraph (recordGraph 2 false) placedBlock) F.g).any fun p => p.2 = 1 && decide (inEdge p.1 1 0 = some 0)) = true ∧
      (edgeOf 0 1 2 false).untaken ≠ 0)
    ∧ ((edgeOf 0 1 0 true).untaken = 0 ∧ (edgeOf 0 1 0 true).closed = true)
    ∧ (∀ x ∈ [(2, false), (0, true)], ∃ F, Issues (inGraph (recordGraph x.1 x.2) placedBlock) F (.rget (only0 rgetF)) ∧ F.quiet ∧ F.calm ∧
      ((lanesOf (activeOf F (only0 rgetF))).foldl (takeLane F (only0 rgetF) 5 1) ⟨inGraph (recordGraph x.1 x.2) placedBlock, 0, false⟩).owed = 0)
    ∧ (∃ F, Issues (inGraph (recordGraph 0 false) placedBlock) F (.rget (only0 rgetF)) ∧ F.quiet ∧ F.calm ∧
      ((lanesOf (activeOf F (only0 rgetF))).foldl (takeLane F (only0 rgetF) 5 1) ⟨inGraph (recordGraph 0 false) placedBlock, 0, false⟩).owed ≠ 0)
    ∧ (∃ F, Issues (inGraph (recordGraph 0 false) placedBlock) F (.remit { only0 z with a := 2, selB := 1 }) ∧ F.quiet ∧ F.calm ∧
      (let x := (lanesOf (activeOf F (only0 z))).foldl (emitLane F { only0 z with a := 2, selB := 1 }
          (envOf (inGraph (recordGraph 0 false) placedBlock) F.g) 5 1 1) ⟨inGraph (recordGraph 0 false) placedBlock, [], 0⟩
       x.faults = [] ∧ x.owed = 0 ∧ F.key.held = none))
    ∧ (∃ F, Issues fullBack F (.remit { z with a := 2, selB := 1 }) ∧ F.quiet ∧ F.calm ∧ F.key.held = none ∧
      ((emitted fullBack F { z with a := 2, selB := 1 }).faults.map LaneFault.cause) = [0x17] ∧
      (emitted fullBack F { z with a := 2, selB := 1 }).owed ≠ 0)
    ∧ (∃ F, Issues fullBack F (.remit { only0 z with a := 2, selB := 1 }) ∧ F.quiet ∧ F.calm ∧ F.key.held = none ∧
      ((emitted fullBack F { only0 z with a := 2, selB := 1 }).faults.map LaneFault.cause) = [0x17] ∧
      (emitted fullBack F { only0 z with a := 2, selB := 1 }).owed = 0)
    ∧ (∃ F, Issues { inGraph (recordGraph 2 false) placedBlock with held := [(2, ⟨5, 0, 0, 3, 0⟩)] } F (.rdone { only0 z with a := 8, selA := 1 })
        ∧ F.lanes ≠ 0)
    ∧ (∃ F, Issues placed F (.gsig { z with a := 2, mod := 6 }) ∧ F.quiet ∧ F.calm ∧
      (∀ L ∈ lanesOf (activeOf F { z with a := 2, mod := 6 }), mappedAt placed (envOf placed F.g)
        (addr64 F.g 0 2 L) (plainWrite 8) false (slotOf L) false = true))
    ∧ (let x : OwedGsig := ⟨1, 2, 3, 0, 0, 0x10000, true, 5, [4], none⟩
       ({ placed with gsigs := [x] }.gsigs.find? fun g => g.id = x.id) = some x ∧ placed.ops = []
        ∧ (getCore placed x.core).grpStores = []
        ∧ onPageAt placed (gsigEnv placed x) x.va (atomicOf 8) false 0x10000 false = true) := by
  refine ⟨ready_all (by decide +kernel), witness (by decide +kernel), ?_, witness (by decide +kernel), by decide +kernel, ?_,
    witness (by decide +kernel), witness (by decide +kernel), witness (by decide +kernel), witness (by decide +kernel),
    issues_of (by decide +kernel), witness (by decide +kernel), by decide +kernel⟩
  · intro x hx
    simp only [List.mem_cons, List.not_mem_nil, or_false] at hx
    obtain rfl | rfl := hx <;> exact witness (by decide +kernel)
  · intro x hx
    simp only [List.mem_cons, List.not_mem_nil, or_false] at hx
    obtain rfl | rfl := hx <;> exact witness (by decide +kernel)

/-- A malformed descriptor at 0, and one at 0x15000 whose level's header is not right. -/
def textured : State :=
  updGroup { placed with mem := writeBytes placed.mem 0x15000 (leBytes 16 (1 + 0x16000 * 2 ^ 64)) } gid fun g => setS g 13 0x15000
def texF (a : BitVec 10) : Fields := { z with d := 8, a := a, e := 20, selA := 1 }
def badLevel (s : State) (F : Frag) (a : Nat) : Bool := match (readDescriptor s (envOf s F.g) (getS F.g a)).2 with
  | .levels [l] => (texLevel s (envOf s F.g) l).2 = .inl (.header 0x07 0x16000)
  | _ => false
def malformedAt (s : State) (F : Frag) (a : Nat) : Bool := match (readDescriptor s (envOf s F.g) (getS F.g a)).2 with
  | .malformed => true
  | _ => false
theorem witness_RenderWords :
    (∀ i ∈ [Instr.tex1 (texF 4), .texf (texF 4), .texq { texF 4 with e := 0, selB := 1 }, .attr { z with d := 8, mod := 1, a := 2 },
      .attr { z with d := 8, a := 2, selB := 1 }, .discard { z with a := 2 }, .depthw { z with a := 2 }], Ready i)
    ∧ (∃ F, Issues textured F (.tex1 (texF 13)) ∧ F.quiet ∧ F.calm ∧
      badLevel textured F 13 = true)
    ∧ (∃ F, Issues textured F (.tex1 (texF 4)) ∧ F.quiet ∧ F.calm ∧
      malformedAt textured F 4 = true)
    ∧ (∀ i ∈ [Instr.discard { z with a := 2 }, .depthw { z with a := 2 }],
      ∃ F, Issues (inGraph (recordGraph 2 false) { placedBlock with depthf := true }) F i ∧ F.quiet ∧ F.calm ∧
        depthFinal (inGraph (recordGraph 2 false) { placedBlock with depthf := true }) F.g = true ∧ activeOf F z ≠ 0)
    ∧ (∃ F, Issues placed F (.depthw { z with a := 2 }) ∧ F.quiet ∧ F.calm ∧ depthFinal placed F.g = false ∧
      (sweep placed (activeOf F z) (colourLane F { z with a := 2 } (envOf placed F.g) (fun _ => some 0) 1)).faults = []) := by
  refine ⟨ready_all (by decide +kernel), witness (by decide +kernel), witness (by decide +kernel), ?_, witness (by decide +kernel)⟩
  intro i hi
  simp only [List.mem_cons, List.not_mem_nil, or_false] at hi
  obtain rfl | rfl := hi <;> exact witness (by decide +kernel)

/-! ### The device -/

/-- One side of the placed group, waiting. -/
def parked (st : SideSt) (limit : Nat) : State :=
  updGroup placed gid fun g => { g with st := .blocked, sides := [⟨0, 0xF, 0x4000, 0, false, allLanes, false, none, limit, none, st⟩] }
theorem witness_WaitsResolve :
    ([(⟨9, 3, [8], []⟩ : InFlight)].find? fun x => x.id = 9) = some ⟨9, 3, [8], []⟩
    ∧ ((parked (.park (.waita false)) 0).groups.map Group.id).Nodup
    ∧ (∀ st ∈ [SideSt.park (.load 9), .park (.waita true), .park (.ldf true none), .park (.record true), .park (.bwait 2 true), .park (.waita false)],
      ∃ g, getGroup (parked st 0) gid = some g ∧ g.tm = false ∧ g.st = .blocked ∧
        (∀ y ∈ g.sides, y.answeredFault = none) ∧ (g.sides.any fun x => x.st = st && x.lanes != 0 && x.only != 0))
    ∧ (∀ l ∈ (parked (.park (.load 9)) 0).loads, l.id ≠ 9)
    ∧ (∃ g, getGroup { parked (.park (.waits false)) 5 with now := 5 } gid = some g ∧
      (g.sides.any fun x => x.st = .park (.waits false) && x.limit = 5)) := by
  refine ⟨by decide +kernel, by decide +kernel, ?_, by decide +kernel, exists_of (by decide +kernel)⟩
  intro st hst
  simp only [List.mem_cons, List.not_mem_nil, or_false] at hst
  obtain rfl | rfl | rfl | rfl | rfl | rfl := hst <;> exact exists_of (by decide +kernel)

/-- A PENDING group beside a full active set, or an empty one; a timer that is due, and a wait that takes it. -/
def pendingWith (n : Nat) : State :=
  match getGroup placed gid with
  | some g => { placed with groups := { g with st := .pending, placed := false } :: (List.range n).map fun k => { g with id := 10 + k } }
  | none => placed
def timerAt (s : State) (base : W64) : State := updGroup { s with now := 9 } gid fun g => { g with cmp := 9, trapbase := base }
theorem witness_GroupEvents :
    (∀ n ∈ [7, 8], ∃ g, getGroup (pendingWith n) gid = some g ∧ g.st = .pending ∧ g.tm = false ∧ (g.sides.any fun x => x.st = .running && x.lanes != 0) ∧
      (activeSet (pendingWith n) g.core g.slot).length = n)
    ∧ (∀ base ∈ [(0 : W64), 0x6000], ∃ g, getGroup (timerAt placed base) gid = some g ∧ g.cmp ≠ 0 ∧ g.cmp.toNat ≤ (timerAt placed base).now.toNat ∧
      g.trapbase = base ∧ ∀ x ∈ g.sides, x.waitsOnLine = false)
    ∧ (∃ g, getGroup (timerAt (parked (.park (.waita false)) 0) 0x6000) gid = some g ∧ g.trapbase ≠ 0 ∧ g.tm = false ∧ g.cmp ≠ 0 ∧
      (g.sides.any fun x => x.waitsOnLine && x.lanes != 0 && decide (g.sides = [x])))
    ∧ (∃ F, issuing placed = some F ∧ still F = true ∧ fatalCause 0x04 = false)
    ∧ (getTeam placed 2).isSome = true := by
  refine ⟨?_, ?_, exists_of (by decide +kernel), exists_of (by decide +kernel), by decide +kernel⟩
  · intro n hn
    simp only [List.mem_cons, List.not_mem_nil, or_false] at hn
    obtain rfl | rfl := hn <;> exact exists_of (by decide +kernel)
  · intro n hn
    simp only [List.mem_cons, List.not_mem_nil, or_false] at hn
    obtain rfl | rfl := hn <;> exact exists_of (by decide +kernel)

/-- A core whose clock stands at the threshold of a rebase. -/
def lateClock : State := setCore placed { getCore placed 0 with clk := 0xFFFFFFFFFFFF }
theorem witness_ClocksAndPeriods : resident placed 0 = true ∧ clockHigh lateClock (getPart lateClock 0) = true ∧ swf lateClock.ws = true
    ∧ swf lateClock.le = true ∧ (placed.ctxs.map Context.num).Nodup
    ∧ (busyPorts placed (placed.ctxs.filter (bucketed 0))).length ≤ 512 ∧ (5 : Nat) ≤ (⟨3, 2, 0, false, 0⟩ : Bucket).tokens + 2 := by
  decide +kernel

/-- A read of 0x40000000, whose level-1 entry is INVALID, and of the placed page; a ring that is on, and one that is full. -/
def readAcc4 : PageAcc := ⟨true, false, false, false⟩
def ringOn (tail : W32) : State := setPart placed { getPart placed 0 with prqEn := true, prqTail := tail, prqBase := 0x10000 }
theorem witness_Pages :
    (tlbFind placed none 0 (getPart placed 0) (getCtx placed 0).asid 0 readAcc4 = none ∧ (getPart placed 0).pendingInv = []
      ∧ placed.misses = [] ∧ placed.walkCache = []
      ∧ (match walk placed (getPart placed 0) (getCtx placed 0).root 0 with | .leaf _ _ _ => true | _ => false) = true)
    ∧ (tlbFind placed (some 0) 0 (getPart placed 0) (getCtx placed 0).asid 0 readAcc4).isSome = true
    ∧ (match walk (ringOn 0) (getPart (ringOn 0) 0) (getCtx (ringOn 0) 0).root 0x40000000 with
        | .absent pa e => decide (pa = 0x3008 ∧ pteNps e = 0)
        | _ => false) = true
    ∧ (getPart (ringOn 0) 0).prqEn = true ∧ ((getPart (ringOn 0) 0).prqTail - (getPart (ringOn 0) 0).prqHead).toNat ≠ 2 ^ 8
    ∧ ((getPart (ringOn 256) 0).prqTail - (getPart (ringOn 256) 0).prqHead).toNat = 2 ^ ((getPart (ringOn 256) 0).prqLog2n + 8)
    ∧ (match walk placed (getPart placed 0) (getCtx placed 0).root (2 ^ 63) with | .fault _ _ => true | _ => false) = true
    ∧ ((setPart placed { getPart placed 0 with pendingInv := List.replicate 16 ⟨0, false, false, 0, 1⟩ }).parts.any fun p =>
        16 ≤ p.pendingInv.length) = true := by decide +kernel

/-! ### Queues and packets -/

/-- Page 1 and its queue 2, in the context 0 or in the management space, with the packet n at the head of a ring of 16. -/
def descOf (ctx : Nat) : BitVec 512 := BitVec.ofNat 512 (1 + 4 * 2 ^ 8 + ctx * 2 ^ 256 + 0x20000 * 2 ^ 448)
def queueOf (ctx : Nat) (st : QueueSt) : Queue := { Queue.blank 1 2 with desc := descOf ctx, copy := descOf ctx, st := st, shadow := 1 }
def ringed (ctx priv : Nat) (st : QueueSt) (n : Nat) (s : State) : State :=
  setQueue (setPage (if ctx = 0xFFF then { s with hostMem := writeBytes s.hostMem 0x20000 (leBytes 64 n) }
      else { s with mem := writeBytes s.mem 0x20000 (leBytes 64 n) })
    ⟨1, true, 0, priv, 0, 3, 0⟩) (queueOf ctx st)
/-- The packet n at the head is one of the form P, and passes its checks, or fails one. -/
def packetIs (s : State) (P : PacketForm) (good : Bool) : Bool :=
  let x := getQueue s 1 2
  x.hasNext && (match packetAt s x x.head with
  | (s1, some n) => packetEvent (pagePriv s1 1) (x.space s1).isNone 1 2 n = some P.event && decide (x.started = [])
      && ((firstBad (reservedBad n P.listed ++ P.check s1 x n)).isNone == good) && !(good && P.held s1 x n)
  | _ => false)
/-- A field of a packet at a byte. -/
def at_ (byte x : Nat) : Nat := x * 2 ^ (8 * byte)
/-- An image of a graph of one node that waits for a word, at 0x30000. -/
def imaged (s : State) : State :=
  { s with mem := writeBytes s.mem 0x30000 (leBytes 64 (0x6A7F + 2 ^ 16 + 2 ^ 32 + 0x71000 * 2 ^ 128) ++ leBytes 64 (3 + 0x11000 * 2 ^ 128)) }
/-- The graph of `recordGraph` loaded, its first edge remote, with a cut on the near side. -/
def cutting (s : State) : State :=
  { s with graphs := [graphOf [nodeOf 1 0 .idle, nodeOf 1 0 .idle] [{ edgeOf 0 1 0 false with remote := true }]], cuts := [⟨5, true, [(0, [])], none, [], false⟩],
            mem := writeBytes s.mem 0x40008 [0xFF, 0xFF] }
theorem witness_WorkPackets :
    packetIs (ringed 0 0 .active (3 + at_ 8 0x11000 + at_ 16 5 + at_ 25 3) placed) (signalForm 1 2) true = true
    ∧ packetIs (ringed 0 0 .active (4 + at_ 8 0x11000 + at_ 16 5 + at_ 24 1 + at_ 25 4) placed) (waitForm 1 2) true = true
    ∧ packetIs (ringed 0 0 .active (5 + at_ 8 0x11000 + at_ 16 0x12000 + at_ 24 64 + at_ 32 3) placed) (copyForm 1 2) true = true
    ∧ packetIs (ringed 0 0 .active (7 + at_ 16 0x12000) placed) (queryForm 1 2) true = true
    ∧ packetIs (ringed 0 0 .active (8 + at_ 8 3) placed) (fenceForm 1 2) true = true
    ∧ packetIs (ringed 0 0 .active (1 + at_ 8 0x30000 + at_ 16 128 + at_ 20 1023) (imaged placed)) (loadForm 1 2) true = true
    ∧ packetIs (ringed 0 0 .active (2 + at_ 8 5 + at_ 16 0x40) (cutting placed)) (triggerForm 1 2) true = true
    ∧ packetIs (ringed 0 0 .active (6 + at_ 8 5 + at_ 12 2 + at_ 16 0x40000 + at_ 24 1) (cutting placed)) (setCutForm 1 2) true = true
    ∧ (∀ P ∈ [(3, signalForm 1 2), (4, waitForm 1 2), (5, copyForm 1 2), (7, queryForm 1 2), (8, fenceForm 1 2), (1, loadForm 1 2),
        (2, triggerForm 1 2), (6, setCutForm 1 2)], packetIs (ringed 0 0 .active (P.1 + at_ 63 1) placed) P.2 false = true)
    ∧ (spaceRead placed (some 0) 0x11000 64).2.isSome = true := by
  refine ⟨by decide +kernel, by decide +kernel, by decide +kernel, by decide +kernel, by decide +kernel, by decide +kernel,
    by decide +kernel, by decide +kernel, ?_, by decide +kernel⟩
  intro P hP
  simp only [List.mem_cons, List.not_mem_nil, or_false] at hP
  obtain rfl | rfl | rfl | rfl | rfl | rfl | rfl | rfl := hP <;> decide +kernel

/-- A module that is READY, with partition 0. -/
def managed : State := setPart { State.reset with stage := 6 } (placedPart (getPart State.reset 0))
/-- Context 7 in a state. -/
def ctxIn (st : CtxSt) (s : State) : State := setCtx s { Context.blank 7 with st := st, part := 0, asid := 7 }
theorem witness_ManagementPackets :
    packetIs (ringed 0xFFF 2 .active (9 + at_ 8 1 + at_ 10 2 + at_ 11 2 + at_ 12 2 + at_ 16 0x100000 + at_ 24 0x200000) managed) (partCreateForm 1 2) true = true
    ∧ packetIs (ringed 0xFFF 2 .active (0xA + at_ 8 1) (setPart managed { getPart managed 1 with v := true })) (partDestroyForm 1 2) true = true
    ∧ packetIs (ringed 0xFFF 2 .active (0xB + at_ 8 63 + at_ 9 0 + at_ 10 15 + at_ 11 2 + at_ 16 9) managed) (vcpAssignForm 1 2) true = true
    ∧ packetIs (ringed 0xFFF 2 .active (0xC + at_ 8 0 + at_ 9 0 + at_ 16 0x30000 + at_ 24 0x31000) managed) (ctxCreateForm 1 2) true = true
    ∧ packetIs (ringed 0xFFF 2 .active (0xC + at_ 8 1 + at_ 10 7 + at_ 24 0x31000) (ctxIn .created managed)) (ctxOpForm (.ctxBind 1 2) 1 bindEvent) true = true
    ∧ packetIs (ringed 0xFFF 2 .active (0xC + at_ 8 2 + at_ 10 7 + at_ 24 0x31000) (ctxIn .bound managed)) (ctxOpForm (.ctxDestroy 1 2) 2 destroyEvent) true = true
    ∧ packetIs (ringed 0xFFF 2 .active (0xC + at_ 8 3 + at_ 10 7 + at_ 24 0x31000) (ctxIn .running managed)) (ctxOpForm (.ctxPreempt 1 2) 3 preemptEvent) true = true
    ∧ packetIs (ringed 0xFFF 2 .active (0xC + at_ 8 4 + at_ 10 7 + at_ 24 0x31000) (ctxIn .saved managed)) (ctxOpForm (.ctxRestore 1 2) 4 restoreEvent) true = true
    ∧ packetIs (ringed 0xFFF 2 .active (0xC + at_ 8 5 + at_ 10 7 + at_ 24 0x31000) (ctxIn .faulted managed)) (ctxOpForm (.ctxReset 1 2) 5 resetEvent) true = true
    ∧ packetIs (ringed 0xFFF 2 .active (0xD + at_ 8 0 + at_ 10 7 + at_ 16 0x08000001) (ctxIn .bound managed)) (setPortShareForm 1 2) true = true
    ∧ packetIs (ringed 0xFFF 2 .active (0xD + at_ 8 1 + at_ 16 0xFFFFFFFF) managed) (setPlacerForm 1 2) true = true
    ∧ packetIs (ringed 0xFFF 2 .active (0xD + at_ 8 2 + at_ 16 0xFFFF) managed) (setGroupSchedulerForm 1 2) true = true
    ∧ packetIs (ringed 0xFFF 2 .active (0xD + at_ 8 3 + at_ 10 15 + at_ 16 (2 ^ 64 - 1)) managed) (setTenantQuantumForm 1 2) true = true
    ∧ packetIs (ringed 0xFFF 2 .active (0xD + at_ 8 4 + at_ 10 1023 + at_ 16 0x80) managed) (setHomingEntryForm 1 2) true = true := by
  refine ⟨?_, ?_, ?_, ?_, ?_, ?_, ?_, ?_, ?_, ?_, ?_, ?_, ?_, ?_⟩ <;> decide +kernel

/-- Queue 2 of page 1 in each state that a clause names; the time is 65536. -/
def queued (st : QueueSt) (h : Queue → Queue) : State :=
  let s := ringed 0 0 st (3 + at_ 8 0x11000 + at_ 16 5 + at_ 25 3) { placed with now := 65536 }
  setQueue s (h (queueOf 0 st))
def awaits : Await := ⟨0, 0x11000, 0, 0, 3⟩
/-- A table of slots all taken by other queues. -/
def slotsTaken (s : State) : State :=
  { s with queues := s.queues ++ (List.range 256).map fun k => { Queue.blank 2 k with st := .active } }
theorem witness_Queues :
    ((getPage placed 2).any fun p => p.en = false) = true
    ∧ (getQueue (queued .unmapped id) 1 2).st = .unmapped ∧ dValid (descOf 0) = true ∧ dValid 0 = false
    ∧ firstBad (descriptorBad (queued .unmapped id) 1 (descOf 0)) = none
    ∧ (firstBad (descriptorBad (queued .unmapped id) 1 (descOf 0xFFF))).isSome = true
    ∧ tailOk (queueOf 0 .mapped) 16 = true ∧ tailOk (queueOf 0 .mapped) 17 = false ∧ tailOk (queueOf 0 .mapped) 0 = false
    ∧ slotFree (slotsTaken (queued .mapped id)) = false
    ∧ dDrain (descOf 0 ||| 2 ^ 15) = true
    ∧ ((getPage (setPage (queued .error id) ⟨1, true, 0, 0, 0, 3, 1 + 2 * 2 ^ 26⟩) 1).any fun p =>
        p.err.getLsbD 0 && (p.err.extractLsb' 26 6).toNat = 2) = true
    ∧ 65536 ≤ ((queued .waiting id).now - (getQueue (queued .waiting id) 1 2).parkedSince).toNat
    ∧ (longestWaiting (queued .waiting id)).map Queue.key = some (queueOf 0 .waiting).key
    ∧ (firstReady (queued .swapped fun x => { x with ready := true })).map Queue.key = some (queueOf 0 .swapped).key
    ∧ (firstReady (slotsTaken { (queued .waiting id) with queues := (queued .waiting id).queues ++ [{ Queue.blank 3 0 with st := .swapped, ready := true }] })).isSome = true
    ∧ (awaitRead (queued .waiting id) (queueOf 0 .waiting) awaits).2 = some true
    ∧ (awaitRead (queued .waiting id) (queueOf 0 .waiting) { awaits with value := 1 }).2 = some false
    ∧ dWdog (descOf 0 ||| 64 * 2 ^ 288) ≠ 0 := by
  refine ⟨?_, ?_, ?_, ?_, ?_, ?_, ?_, ?_, ?_, ?_, ?_, ?_, ?_, ?_, ?_, ?_, ?_, ?_, ?_⟩ <;> decide +kernel

/-- Context 0 in pre-emption, with its team told of it at 0; and each end of a save and a restore. -/
def preempting : State := match getTeam placed 2 with
  | some t => setCtx (setTeam { placed with now := 20000 } { t with preqAt := some 0 }) { getCtx placed 0 with st := .preempting }
  | none => placed
def savedAway : State := setCtx (updGroup placed gid fun g => { g with st := .saved, placed := false, sides := [] })
  { getCtx placed 0 with st := .saved, heldRestore := true, savedTeams := [2] }
theorem witness_ContextEvents :
    ((getTeam placed 2).any fun t => (overrun (updGroup { placed with now := 7 } gid fun g => { g with saving := true, saveDue := 7 }) t).isSome) = true
    ∧ ((getTeam preempting 2).any fun t => preemptDue preempting t) = true
    ∧ (getCtx preempting 0).st = .preempting ∧ saveOver preempting 0 = false
    ∧ saveOver (updGroup preempting gid fun g => { g with st := .saved, placed := false, sides := [] }) 0 = true
    ∧ (getCtx savedAway 0).st = .saved ∧ (getCtx savedAway 0).heldRestore = true
    ∧ (readmitAll 0 [] savedAway).isSome = true ∧ (readmitAll 0 (getCtx savedAway 0).savedTeams savedAway).isSome = true
    ∧ (getCtx (ctxIn .destroyed placed) 7).st = .destroyed
    ∧ (getPart (setPart placed { getPart placed 1 with scrubbing := true }) 1).scrubbing = true := by
  refine ⟨?_, ?_, ?_, ?_, ?_, ?_, ?_, ?_, ?_, ?_, ?_⟩ <;> decide +kernel

/-- A launch that has not read its bank and arguments; a team that has not started; and a launch of a record node. -/
def unfetched : State := setLaunch placed { placedLaunch 1 with fetched := false }
def unstarted : State := match getTeam placed 2 with
  | some t => setTeam { placed with now := 5 } { t with unstarted := [(0, 5)] }
  | none => placed
def recordLaunch (head : Nat) : State := inGraph (recordGraph head false) { placedBlock with gx := 2 }
theorem witness_Launches :
    readyTasks placed 0 3 = []
    ∧ ((getLaunch unfetched 1).any fun l => !l.fetched && l.dispatched) = true
    ∧ (match devRead unfetched 0 false 0x8000 4096 with
        | (a, .ok _) => (match devRead a 0 false 0 0 with | (_, .ok _) => true | _ => false)
        | _ => false) = true
    ∧ ((getLaunch unfetched 1).any fun l => !l.blk.coven && (checkGuide unfetched l).2.isSome) = true
    ∧ ((getTeam unstarted 2).any fun t => t.unstarted.any fun p => decide (p.2.toNat ≤ unstarted.now.toNat)) = true
    ∧ ((getTeam { unstarted with now := 4 } 2).any fun t => t.unstarted.any fun p => decide (4 < p.2.toNat)) = true
    ∧ (∀ h ∈ [0, 2], ((getLaunch (recordLaunch h) 1).any fun l => (takesRecords (recordLaunch h) l).isSome) = true)
    ∧ ((getLaunch (recordLaunch 3) 1).any fun l => l.fetched && ctxRuns (recordLaunch 3) l.ctx
        && decide (((recordLaunch 3).teams.filter fun t => t.launch = 1).length < l.blk.teams)) = true
    ∧ ((getLaunch (setLaunch placed { placedLaunch 1 with resident := 0 }) 1).any fun l =>
        taskOver (setLaunch placed { placedLaunch 1 with resident := 0 }) l) = true := by
  refine ⟨?_, ?_, ?_, ?_, ?_, ?_, ?_, ?_, ?_⟩ <;> decide +kernel

/-- A graph with one node of a unit, its config read, with a record of 64 bytes in its ring; and idle and looping graphs. -/
def unitGraph (unit : Nat) (config : Option (Option Nat)) (outbox : List (Nat × List Byte)) (head : Nat) : Graph :=
  graphOf [nodeOf 1 0 .running, { nodeOf 2 unit .running with config := config, outbox := outbox, lboff := 0x400 }] [edgeOf 0 1 head false]
def unitState (g : Graph) (len : Nat) : State :=
  { placed with graphs := [g], mem := writeBytes placed.mem 0x30000 (leBytes 16 (len * 2 ^ 112)) }
def idleGraph : Graph := { graphOf [nodeOf 3 0 .idle] [] with run := false }
def loopGraph (n : W64) : Graph := graphOf [{ nodeOf 4 0 .running with count := 2, iterations := n, bodyF := 1, bodyL := 1 }, nodeOf 3 0 .done] []
theorem witness_RunsAndUnits :
    ((getGraph { placed with graphs := [idleGraph] } 5).any fun g => !g.run) = true
    ∧ runHeld { placed with graphs := [idleGraph] } 5 2 = false ∧ ((8 : W64).extractLsb' 0 4 ≠ 0)
    ∧ ((getGraph (unitState (unitGraph 0 none [] 0) 64) 5).any Graph.run) = true
    ∧ ((nodeOf 2 4 .draining).st = .draining ∧ (nodeOf 2 4 .draining).outbox = [] ∧ unitReady (nodeOf 2 4 .draining) = true
        ∧ (nodeOf 2 4 .draining).atWork = true)
    ∧ (nodesWhere (loopGraph 1) fun x j => bodyOf { nodeOf 4 0 .running with bodyF := 1, bodyL := 1 } j && x.st != .done).isEmpty = true
    ∧ (nodesWhere (loopGraph 2) fun x j => bodyOf { nodeOf 4 0 .running with bodyF := 1, bodyL := 1 } j && x.st != .done).isEmpty = true
    ∧ (((inGraph (recordGraph 0 false) placedBlock).launches.find? fun l => l.graph = some (5, 1)).any fun l => l.settled) = true
    ∧ nodeChildren (inGraph (recordGraph 0 false) placedBlock) 5 1 = false
    ∧ ((graphOf [{ nodeOf 3 0 .done with counter := 0 }] []).nodes.all fun n => n.ended) = true
    ∧ (∀ u ∈ [0, 1, 2, 3], (getGraph (unitState (unitGraph u (some (some 0)) [] 1) 64) 5).any (fun g =>
        ((inEdge g 1 0).bind fun k => g.edges[k]?).any fun e => e.untaken != 0 && e.slotVa e.taken = 0x30000) = true)
    ∧ (match devRead (unitState (unitGraph 0 (some (some 0)) [] 1) 64) 0 false 0x30000 256 with
        | (_, .ok bs) => decide (recLen (leNat (bs.take 16)) = 64) && !rasteriser.bad (leNat ((bs.drop 16).take 64))
        | _ => false) = true
    ∧ (match rasteriser.start (unitState (unitGraph 0 none [] 1) 64) (unitGraph 0 none [] 1) { nodeOf 2 0 .running with lboff := 0x400 } with
        | (_, .inr _) => true
        | _ => false) = true
    ∧ ((63 : Nat) < rasteriser.size) := by
  refine ⟨?_, ?_, ?_, ?_, ?_, ?_, ?_, ?_, ?_, ?_, ?_, ?_, ?_⟩ <;> decide +kernel

/-- The stages; a core at 110 degrees; and a team. -/
theorem witness_StartUpAndPower :
    (∀ k ∈ [1, 2, 3, 4, 5], ({ State.reset with stage := k } : State).stage = k) ∧ State.reset.trained.length = 0
    ∧ ((∀ d < 4, goodBinding d = true) ∨ ∃ d < 4, goodBinding d = false)
    ∧ tripHeat (setCore placed { getCore placed 9 with temp := 110 }) 9 = true
    ∧ ([(0, (110 : BitVec 8), (0 : BitVec 8)), (1, 5, 6)].map Prod.fst).Nodup ∧ 128 * 0 < moduleSize
    ∧ (getTeam placed 2).isSome = true ∧ Instr.moduleReset ∉ State.reset.inputs := by
  refine ⟨by decide, by decide, ?_, by decide +kernel, by decide, by decide, by decide +kernel, by decide⟩
  by_cases h : ∀ d < 4, goodBinding d = true
  · exact .inl h
  · right
    simp only [Classical.not_forall] at h
    obtain ⟨d, hd, h⟩ := h
    exact ⟨d, hd, by simpa using h⟩

theorem witness_HostSide :
    placed.stage = 6 ∧ State.reset.stage ≠ 6 ∧ (getPage placed 63).isSome = true
    ∧ isTrigger 0x11000 = false ∧ 0x11000 < moduleSize ∧ (placed.parts.any fun p => p.v && (homeDie p 0x11000).isSome) = true
    ∧ isTrigger (triggerBase + 8) = true ∧ (triggerBase + 8) % 8 = 0 := by decide +kernel

/-- Port 1 in a state, with one message that has been sent four times and is not acknowledged. -/
def msg (ptype : Nat) : Unacked := ⟨ptype, { pkt with src := 9 }, 4, 0, false, 0⟩
def linked (st : LinkSt) (retry : BitVec 8) : State :=
  let l := getLink State.reset 1
  setLink { placed with now := 0x1000000000000 } { l with
    st := st, en := true, retry := retry, rto := 1, modeUp := true, pairs := [⟨9, 5, 0, [], 0, 0, [], [msg tFrame], []⟩] }
theorem taken_all (l : Link) : frameTaken l allNodesMac = true := by simp [frameTaken]
theorem witness_LinkStates :
    (getLink (linked .training 1) 1).st = .training ∧ (getLink (linked .training 1) 1).modeUp = true
    ∧ 4200000000 ≤ ((linked .training 1).now - (getLink (linked .training 1) 1).since).toNat
    ∧ (∀ c ∈ placed.cuts, c.busy = false) ∧ (∀ o ∈ placed.ops, o.window = none)
    ∧ (getLink (linked .upLossy 1) 1).st.up = true
    ∧ ((getLink (linked .upLossy 1) 1).pairs.any fun p => p.unacked.any fun u => resendDue (linked .upLossy 1) (getLink (linked .upLossy 1) 1) u) = true
    ∧ decide (4 * (1 : BitVec 8).toNat ≤ (msg tFrame).sends) = true ∧ decide (4 * (2 : BitVec 8).toNat ≤ (msg tFrame).sends) = false
    ∧ (getLink (linked .upLossy 1) 1).nhV = false ∧ frameTaken (getLink (linked .upLossy 1) 1) allNodesMac = true := by
  refine ⟨?_, ?_, ?_, ?_, ?_, ?_, ?_, ?_, ?_, ?_, taken_all _⟩ <;> decide +kernel

/-- A remote edge of the graph, with frame 1 to be closed, or being delivered; and a window that takes bytes. -/
def remoteEdge (deliver : Bool) : RemoteEdge :=
  { newRemote 5 0 (2 ^ 64) with frames := [{ RxFrame.blank 1 with start := some 0 }], delivering := if deliver then some (1, []) else none }
def netState (away : Bool) (head : Nat) : State :=
  let g := graphOf [nodeOf 1 0 .done, nodeOf 2 4 .running] [{ edgeOf 0 1 head false with remote := true, away := away }]
  { linked .upLossy 2 with
    graphs := [g], remotes := [remoteEdge true], cuts := [⟨5, true, [(0, [0])], some (Move.proposed 2 [] []), [], true⟩]
    windows := [⟨65, 0x40000, 9, 1, 0, 1, true⟩] }
def dataPkt : EdgePacket := { pkt with src := 9, edge := 65, body := List.replicate 16 0 }
/-- The graph on one side of its cut, with a move; and control messages of it. -/
def cutState (near busy : Bool) (m : Option Move) : State :=
  let s := setPart (netState false 0) { getPart placed 0 with cutBusy := true, cutGraph := 5 }
  { s with cuts := [⟨5, near, [(0, [0])], m, [], busy⟩] }
def cutPkt (frame : Nat) (body : List Byte) : EdgePacket := { dataPkt with graph := 5, frame := frame, body := body }
def proposal : List Byte := cutBody [0] 1 []
def taking (decided : Bool) : Option Move := some { Move.proposed 2 [0] [] with accepted := true, incoming := [⟨0, decided, none, false⟩] }
theorem witness_ControlMessages :
    (let x := getPair (getLink (cutState false false none) 1) 9
     let u := setLink (cutState false false none) (setPair (getLink (cutState false false none) 1) { x with ctlSeen := x.ctlSeen + 1, early := [] })
     x.ctlSeen = BitVec.ofNat 32 (cutPkt 2 []).cseq ∧ x.early = [] ∧ (cutPkt 2 []).ver = 1 ∧ (cutPkt 2 []).spare = 0 ∧ (cutPkt 2 []).plain = true
      ∧ (getPair (getLink (actControl u tFrame (cutPkt 2 [])) 1) 9).early = [])
    ∧ ((getGraph (cutState false false none) 5).any fun g =>
        (cutMap g proposal).any (fun m => cutValid g m.1 && (m.2 = [] : Bool)) && decide (g.frame + 1 < 9) && decide (1 ≤ g.frame + 1)) = true
    ∧ ((getCut (cutState true true (some (Move.proposed 2 [] []))) 5).any fun c => c.near && c.busy && c.move.any fun m => !m.accepted && m.eframe = 2) = true
    ∧ (∀ d ∈ [true, false], ((getCut (cutState false true (taking d)) 5).any fun c => c.awaited.any fun m =>
        (m.eframe = 2 : Bool) && m.incoming.any fun i => (i.node = xferNode (cutPkt 2 (leBytes 8 0)) : Bool) && !i.written && i.decided = d) = true)
    ∧ ((getGraph (cutState false true (taking false)) 5).any fun g => (taking false).any fun m =>
        (writeXfer (cutState false true (taking false)) g m (cutPkt 2 (leBytes 8 0))).cuts = (cutState false true (taking false)).cuts) = true
    ∧ (getPart (cutState true true none) 0).cutBusy = true ∧ (getPart (cutState true true none) 0).cutGraph.toNat = 5
    ∧ ((getGraph (cutState true true none) 5).any fun g => (g.pend = none : Bool) && (g.part = 0 : Bool) && (g.num = 5 : Bool)) = true := by
  decide +kernel

/-- A DATA and a PARITY packet of the edge, whose frame is open. -/
theorem witness_FramePackets :
    let e := cutPkt 1 []
    let s := { netState true 0 with remotes := [{ remoteEdge false with frames := [] }] }
    ((Machine.edgeOf s { e with edge := 9 }).any fun x => !(getFrame x.2.2 1).closed && !closeDue s x.2.2 (getFrame x.2.2 1)
      && !(getFrame x.2.2 1).data.any (fun q => q.idx = e.idx) && (getFrame x.2.2 1).parity.isEmpty) = true
    ∧ (Machine.edgeOf s { e with graph := 9 }).isNone = true := by decide +kernel

/-- Whatever its own address is, a port does not take every frame. -/
theorem not_taken (l : Link) (h : l.ip6 = 0) : ∃ mac, frameTaken l mac = false := by
  by_cases h0 : (0 : BitVec 48) = Config.mac l.port
  · exact ⟨1, by simp [frameTaken, ← h0, h, allNodesMac, solicitedMac]⟩
  · exact ⟨0, by simpa [frameTaken, h, allNodesMac, solicitedMac] using h0⟩
theorem witness_Network :
    (getLink placed 1).st.up = false ∧ (getLink (linked .upLossy 2) 1).st.up = true ∧ pkt.plain = true
    ∧ frameTaken (getLink (linked .upLossy 2) 1) pkt.dst = true ∧ (∃ mac, frameTaken (getLink (linked .upLossy 2) 1) mac = false)
    ∧ (pkt.ver = 1 ∧ pkt.spare = 0) ∧ ({ pkt with ver := 2 } : EdgePacket).ver ≠ 1 ∧ pkt.fits = true ∧ tData < 256
    ∧ (getPair (getLink (linked .upLossy 2) 1) 9).dataSeen = BitVec.ofNat 32 dataPkt.cseq
    ∧ 2 ^ 31 ≤ (BitVec.ofNat 32 (2 ^ 32 - 1) - (getPair (getLink (linked .upLossy 2) 1) 9).dataSeen).toNat
    ∧ (inboundFor (netState false 0) dataPkt).isSome = true
    ∧ ((getGraph (netState false 1) 5).any fun g => g.edges.any fun e => brassNode g e && e.untaken != 0) = true
    ∧ ((getGraph (netState true 0) 5).any fun g => g.run && (g.nodes.all Node.owned) && g.edges.any fun e => e.away && !e.closed && e.untaken = 0) = true
    ∧ (getRemote (netState true 0) 5 0).isSome = true ∧ (remoteEdge true).delivering = some (1, [])
    ∧ (remoteEdge false).delivering.map Prod.fst ≠ some 1
    ∧ closeDue { netState true 0 with now := 0xFFFFFFFFFFFFFFFF } (remoteEdge false) (getFrame (remoteEdge false) 1) = true
    ∧ ((netState true 0).cuts.any fun c => c.move.isSome && (getGraph (netState true 0) c.graph).any fun g => g.part = 0) = true := by
  refine ⟨?_, ?_, ?_, taken_all _, not_taken _ (by decide +kernel), ?_, ?_, ?_, ?_, ?_, ?_, ?_, ?_, ?_, ?_, ?_, ?_, ?_, ?_⟩ <;> decide +kernel

/-- A run whose nodes have ended, and whose remote edge has packets to send. -/
theorem witness_RunEndWaits :
    let s := { netState true 0 with graphs := [graphOf [nodeOf 1 0 .done, nodeOf 2 4 .done] [{ edgeOf 0 1 0 false with remote := true, away := true }]] }
    ((getGraph s 5).any fun g => g.run && g.nodes.all Node.ended && unsentEdges s g != []) = true := by decide +kernel
/-- A PART_CREATE that passes its checks while its partition is in its scrub, and a table of which a line is poisoned. -/
theorem witness_PartCreate :
    let n := 9 + at_ 8 1 + at_ 10 2 + at_ 11 2 + at_ 12 2 + at_ 16 0x100000 + at_ 24 0x200000
    let s := ringed 0xFFF 2 .active n managed
    let scrub := setPart s { getPart s 1 with scrubbing := true }
    firstBad (reservedBad n (partCreateForm 1 2).listed ++ (partCreateForm 1 2).check scrub (getQueue scrub 1 2) n) = none
      ∧ (getPart scrub 1).scrubbing = true
      ∧ ((firstBad ((partCreateForm 1 2).check { s with poison := [0x4001] } (getQueue s 1 2) n)).any fun b => b.item = some ⟨0x14, 0, 0x200080⟩) = true := by
  decide +kernel

theorem witness_DecodeOfEncode : (Instr.fadd { z with mod := 5, d := 3, a := 1, b := 12, selB := 2 }).legal = true := by decide
theorem witness_EncodeOfDecode : decode 0x0000000001EF00000000000001000C18 = .ok (.join { z with d := 1 }) := by decide
theorem witness_StoppedStays : (stopModule placed 5 0).stage = 15 ∧ (stopModule placed 5 0).err = 5
    ∧ Instr.moduleReset ∉ (stopModule placed 5 0).inputs := by decide +kernel

/-- A turn of the placed fragment, whose word is read and decodes; a word that is none; a job, and an input. -/
def wordTurn (w : Nat) : State := State.reset.withFetchWord 128 w
def issued (w : Nat) : State := beginIssue (passTime (takeTurn (wordTurn w)).2 1) gid 0
def fetchedAs (w : Nat) : Bool := match fragAt (passTime (takeTurn (wordTurn w)).2 1) gid 0 with
  | some F => canIssue (passTime (takeTurn (wordTurn w)).2 1) F.g && !takesTimer F && (match fetchWord (issued w) F.g F.key.pc with
      | (_, .word x) => x.toNat = w
      | _ => false)
  | none => false
theorem witness_StepRunsDecodedInstruction :
    (takeTurn (wordTurn 0)).1 = ⟨1, .fragment gid 0⟩ ∧ fetchedAs 0 = true ∧ fetchedAs 3 = true
    ∧ fetchedAs 0x0000000001EF00000000000001000C18 = true
    ∧ (∃ f, decode 0x0000000001EF00000000000001000C18 = .ok (.join f))
    ∧ (takeTurn { placed with turns := [⟨1, .input⟩], inputs := [.supplyFault] }).1 = ⟨1, .input⟩
    ∧ (takeTurn { placed with turns := [⟨1, .work 0⟩], work := [.clockAdvance 0] }).1 = ⟨1, .work 0⟩
    ∧ ((jobs (passTime { placed with turns := [], work := [.clockAdvance 0] } 1))[0]?).isSome = true := by
  refine ⟨?_, ?_, ?_, ?_, ⟨_, rfl⟩, ?_, ?_, ?_⟩ <;> decide +kernel

/-! ### Forms of their own -/

/-- A side that branches: lanes 0 and 1 take the branch, the others of its slice do not. -/
theorem witness_ControlFlowSplit :
    let x : Side := ⟨0, 0xF, 0x4000, 3, false, allLanes, false, none, 0, none, .running⟩
    x.lanes ≠ 0 ∧ x.lanes &&& (3 : Mask) ≠ 0 ∧ x.lanes &&& ~~~(3 : Mask) ≠ 0
    ∧ (splitSide x (sideTargets x 3 false fun L => if L < 2 then 0x5000 else 0x4010)).length = 2 := by decide +kernel

/-- Lanes that an armed rejoin barrier and team barriers of both modes name; a handler of which lane 0 stays, and one that ends. -/
def namedLanes (mode : Bool) (arrived : Nat) : State :=
  let s := updGroup placed gid fun g => setRejoin (setRejoin g 1 false ⟨1, 3, 0⟩) 7 true ⟨1, 3, 0⟩
  match getTeam s 2 with
  | some t => setBarrier s t 2 ⟨64, arrived, 64, 1, false, mode, []⟩
  | none => s
theorem witness_EndOfLanesNamed :
    (∃ F, Issues inHandler F (.halt z) ∧ activeOf F z ≠ 0 ∧ F.g.tm = true ∧ F.key.handler = true)
    ∧ (∃ F, Issues placed F (.exit_ (only0 z)) ∧ activeOf F (only0 z) ≠ 0)
    ∧ (∀ p ∈ [(true, 0), (false, 0), (false, 31), (false, 33)], ∃ g, getGroup (namedLanes p.1 p.2) gid = some g ∧ g.id = gid ∧
      (∀ x ∈ g.sides, x.slice < 8) ∧ (getRejoin g 1 false).state = 1 ∧ (getRejoin g 1 false).named &&& liveLanes g ≠ 0 ∧
      ((getTeam (namedLanes p.1 p.2) g.team).any fun t =>
        (t.barriers.find? fun q => q.1 = 2) = some (2, ⟨64, p.2, 64, 1, false, p.1, []⟩)) = true ∧
      64 - countLanes (liveLanes g &&& ~~~(⟨64, p.2, 64, 1, false, p.1, []⟩ : TeamBarrier).uncounted gid) = 32)
    ∧ (∃ g, (getGroup inHandler gid).map (fun g => { g with sides := [] }) = some g ∧ g.tm = true ∧ tretGathered g = none ∧
      liveLanes g &&& g.trapLanes = 0 ∧ ∀ x ∈ g.sides, x.holdsTrap = false) := by
  refine ⟨issues_of (by decide +kernel), issues_of (by decide +kernel), ?_, exists_of (by decide +kernel)⟩
  intro p hp
  simp only [List.mem_cons, List.not_mem_nil, or_false] at hp
  obtain rfl | rfl | rfl | rfl := hp <;> exact exists_of (by decide +kernel)

/-- A trap in a handler, one by another fragment beside a handler, and one without a handler to enter. -/
def beside : State :=
  let s := updGroup placed gid fun g => { g with
    tm := true, trapLanes := 0xF, kept := [⟨0, 0xF, 0x4000, 0, 0x4000, none⟩], cause := 0x0F, epc := 0x4000
    sides := g.sides.map fun x => if x.slice = 0 then { x with pc := 0x6000, handler := true } else x }
  beginIssue s gid 1
def noHandler : State := beginIssue (updGroup placed gid fun g => { g with trapbase := 0 }) gid 0
theorem witness_TrapsOfEachKind :
    (∃ F, Issues inHandler F (.trap z) ∧ activeOf F z ≠ 0 ∧ F.g.tm = true ∧ F.key.handler = true)
    ∧ (∃ F, Issues beside F (.trap z) ∧ F.g.tm = true ∧ F.key.handler = false ∧ F.lanes ≠ 0)
    ∧ (∃ F, Issues noHandler F (.trap z) ∧ F.g.tm = false ∧ F.g.trapbase = 0)
    ∧ (∀ (s u : State) (F : Frag) (c : BitVec 8) (e : W64) (m : Mask), (fun (_ : State) (_ : Frag) => Act.trap u c e m) s F = .trap u c e m)
    ∧ ((0x0F : BitVec 8) ≠ 0x0B ∧ (0x0F : BitVec 8) ≠ 0x0D ∧ (0x0F : BitVec 8) ≠ 0x13)
    ∧ ((getGroup placed gid).any fun g => (placed.teams.any fun t => t.ctx = ctxOf placed g && t.id = g.team)) = true
    ∧ (0x200 ≤ (0x204 : Nat) ∧ (0x204 : Nat) ≤ 0x20B) ∧ decode 0x8000000001EF00000000200400000810 = .reject (.field 516) :=
  ⟨issues_of (by decide +kernel), issues_of (by decide +kernel), issues_of (by decide +kernel), fun _ _ _ _ _ _ => rfl,
    by decide, by decide +kernel, by decide, by decide⟩

theorem exists_num {n : Sys2Proof.Machine.Num} {P : Q → Prop} [DecidablePred P] (h : (match n with | .fin q => decide (P q) | _ => false) = true) :
    ∃ q, n = .fin q ∧ P q := by
  cases n <;> simp_all
theorem witness_SpecialRegisterTable : ∃ F, issuing placed = some F ∧ (getTeam placed F.g.team).isSome ∧ (launchOf placed F.g).isSome ∧
    F.g.regions.length = 8 ∧ F.lanes &&& sliceMask 0 ≠ 0 := exists_of (by decide +kernel)

/-- Lane 0 alone at an address whose page is not present: register 6 of lane 0 is 0x40000000. -/
def away : State := updGroup placed gid fun g => setV g 6 0 0x40000000
def absentAt (s : State) (F : Frag) (f : Fields) (a : Access) : Bool :=
  match checkLane s (envOf s F.g) (memAddr F.g f 0) a with
  | (t, .absent) => getGroup t F.g.id = some F.g
  | _ => false
theorem witness_AbsentPages :
    (∃ F, Issues away F (.ldg (only0 { t 0 with mod := 2, a := 6 })) ∧ F.quiet ∧ F.calm ∧ activeOf F (only0 z) = laneBit 0 ∧
      absentAt away F (only0 { t 0 with mod := 2, a := 6 }) (loadOf 4) = true)
    ∧ (∀ i ∈ [(Instr.ld (only0 { t 0 with mod := 2, a := 6 }), loadOf 4), (.st (only0 { t 0 with mod := 2, a := 6, d := 0 }), storeOf 4),
      (.atom (only0 { t 0 with mod := 2, e := 0x20, a := 6 }), atomicOf 4), (.acas (only0 { t 0 with mod := 2, e := 12, a := 6 }), atomicOf 4)],
      ∃ F, Issues away F i.1 ∧ F.quiet ∧ F.calm ∧ activeOf F (only0 z) = laneBit 0 ∧ absentAt away F (only0 { t 0 with mod := 2, a := 6 }) i.2 = true) := by
  refine ⟨witness (by decide +kernel), ?_⟩
  intro i hi
  simp only [List.mem_cons, List.not_mem_nil, or_false] at hi
  obtain rfl | rfl | rfl | rfl := hi <;> exact witness (by decide +kernel)

/-- Lane 1 at a misaligned address, the others at their slots. -/
def skewed : State := updGroup placed gid fun g => setV g 2 1 0x10011
def skewedCause (L : Nat) : Option (BitVec 8) := if L = 1 then some 0x03 else none
def skewedMeets (F : Frag) (a : Access) : Bool :=
  let f : Fields := { t 0 with mod := 2, a := 2 }
  F.g.tm = false && (getCore skewed F.g.core).grpStores.isEmpty && (lanesOf (activeOf F f)).all fun L =>
    if L = 1 then (memAddr F.g f L).toNat % a.n != 0 else mappedAt skewed (envOf skewed F.g) (memAddr F.g f L) a false (slotOf L) false
theorem witness_PartialFaults :
    (∀ i ∈ [(Instr.ld { t 0 with mod := 2, a := 2 }, loadOf 4), (.ldg { t 0 with mod := 2, a := 2 }, loadOf 4),
      (.st { t 0 with mod := 2, a := 2, d := 0 }, storeOf 4), (.atom { t 0 with mod := 2, e := 0x20, a := 2 }, atomicOf 4),
      (.acas { t 0 with mod := 2, e := 12, a := 2 }, atomicOf 4)],
      ∃ F, Issues skewed F i.1 ∧ F.quiet ∧ F.calm ∧ skewedMeets F i.2 = true ∧
        ((lanesOf (activeOf F z)).filter fun L => (skewedCause L).isSome).head? = some 1 ∧ skewedCause 1 = some 0x03)
    ∧ (∀ a : Access, a.n = 4 → ∀ v va, va.toNat % 4 ≠ 0 → FaultsWith skewed v va a 0x03) := by
  refine ⟨?_, fun a h v va hv => by simp [FaultsWith, h, hv]⟩
  intro i hi
  simp only [List.mem_cons, List.not_mem_nil, or_false] at hi
  obtain rfl | rfl | rfl | rfl | rfl := hi <;> exact witness (by decide +kernel)

/-- A range that an engine operation of lane 0 has entered, an access to it from the core, and one elsewhere. -/
theorem witness_LaneChecks :
    ((getGroup copying gid).any fun g =>
      let v := envOf copying g
      lockConflict copying v.core v.ctx v.team true none 0x10000 4 && !lockConflict copying v.core v.ctx v.team true none 0x10800 4
        && (triggerAt copying v.ctx 0x10800 4).isNone) = true
    ∧ (match translate placed (some 0) 0 0 0x10800 (loadOf 4).acc true true fun _ => false with
        | (_, .ok mt _) => mt != 3
        | _ => false) = true
    ∧ (match translate placed (some 0) 0 0 0x40000000 (loadOf 4).acc true true fun _ => false with
        | (_, .absent) => true
        | _ => false) = true := by decide +kernel

/-- Leaves that forbid a write, of a device, without a home, and poisoned; and a good one. -/
theorem witness_Leaves :
    (BitVec.ofNat 64 0x359).getLsbD 5 = false ∧ pteMtype 0x379 ≠ 3
    ∧ (∃ e : W64, pteMtype e = 3) ∧ (homeDie (getPart placed 0) 0x10000).isSome = true
    ∧ homeDie (getPart placed 1) 0x10000 = none ∧ ((1 : W64) <<< 63).getLsbD 63 = true :=
  ⟨by decide, by decide +kernel, ⟨3 <<< 59, by decide +kernel⟩, by decide +kernel, by decide +kernel, by decide⟩

/-- Ordinary sources of the special functions, and the bits of 1.5 in f32. -/
theorem witness_SpecialFunctionValues :
    ((5, 8, 23) ∈ [((5 : Nat), (8 : Nat), (23 : Nat)), (6, 5, 10)])
    ∧ (∃ q : Q, decodeNum (Kind.ieee 8 23) 0x3FC00000 = .fin q ∧ sfuSpecial .rcp (.fin q) = none ∧ 0 < q.n ∧ 0 < q.d)
    ∧ (∃ q : Q, decodeNum (Kind.ieee 8 23) 0x40000000 = .fin q ∧ q.n = 1 * q.d * 2)
    ∧ (2 - 2 ^ (8 - 1) ≤ (1 : Int) ∧ (1 : Int) < 2 ^ (8 - 1))
    ∧ ((1 : Nat) * 1024 < (2000 : Int).natAbs ∧ ¬ (1 : Nat) * 1024 < (3 : Int).natAbs) := by
  refine ⟨by decide, exists_num (by decide +kernel), exists_num (by decide +kernel), by decide, by decide⟩

theorem witness_MemoryStaysCanonical : State.reset.mem.wf = true ∧ State.reset.hostMem.wf = true
    ∧ (match step (wordTurn 0) with
      | .next t => t.mem.wf && t.hostMem.wf
      | _ => false) = true := by decide +kernel

/-- More operations than the core's table holds beside another. -/
def tooMany : State := { fullTable with ops := fullTable.ops ++ fullTable.ops }
/-- A CREST that has to re-create a TRACE's operation in a table with room, and in one without; a group with a step of its record. -/
theorem witness_TraceRoom :
    (∃ F, issuing tiles = some F ∧ traceRoom tiles F.g.core [⟨1, 1, 0x4000, 0⟩] = true)
    ∧ (∃ F, issuing tooMany = some F ∧ traceRoom tooMany F.g.core [⟨1, 1, 0x4000, 0⟩] = false) :=
  ⟨exists_of (by decide +kernel), exists_of (by decide +kernel)⟩

/-- Accumulation kinds of an MMA's operands, of two kinds that go together. -/
theorem witness_MatrixHeader : accKind (hKind mmaOp.a.hdr) (hKind mmaOp.b.hdr) = some 1 ∧ mmaOp.z = 0 ∧ mmaOp.accumulate = false := by
  decide +kernel

/-- An RCON of a block that is its team's record, with a guide tile beside the block, as the block's first. -/
def guided : State := updGroup (dealt false) gid fun g =>
  setHandle (setHandle (setS (setS g 8 0x14000) 9 7) 3 ⟨0, false, true, 0x20000, zHeader 1 32 32⟩) 4 ⟨0, false, true, 0x28000, zHeader 1 32 32⟩
def guidedOps : State := withOps guided fun o => { o with
  kind := .rcon, dstH := ⟨0, false, true, 0x20000, zHeader 1 32 32⟩, srcH := ⟨0, false, true, 0x28000, zHeader 1 32 32⟩, kb := true
  audits := some ⟨0, 1, 0, 0⟩ }
theorem witness_GuidedRcon :
    (∃ F, Issues guided F (.rcon { z with a := 3, b := 4, e := 8, mod := 0x200 }) ∧ F.quiet ∧ F.calm ∧ activeOf F z ≠ 0 ∧
      lockEntries guided F.g.core < 256 ∧ rconCheck (getHandle F.g 3) (some (getHandle F.g 4)) = none ∧
      (commandOf F.g cpyF).targetBad = none ∧
      ((launchOf guided F.g).any fun l => (getTeam guided F.g.team).any fun t => ((recordOf l t).any fun x => !x.claimed) &&
        (firstFault guided ([fun s => checkTileRange s (envOf guided F.g) (getHandle F.g 4) tileRead (blockRuns (getHandle F.g 4).hdr (rconPoints l t)),
            fun s => checkTileRange s (envOf guided F.g) (getHandle F.g 3) tileWrite (blockRuns (getHandle F.g 3).hdr (rconPoints l t))]
          ++ targetChecks (envOf guided F.g) { commandOf F.g cpyF with tol := false, kb := true } false)).2.isNone) = true)
    ∧ opMeets guidedOps .rcon (fun o => ((getTeam guidedOps o.team).bind fun t => (getLaunch guidedOps t.launch).map fun l =>
        match fillBlock guidedOps (opEnv guidedOps o) o.scope ⟨o.dstH, some o.srcH, rconPoints l t, ((recordOf l t).map BlockRecord.code).getD 0⟩ true with
        | (_, .inr _) => true
        | _ => false).getD false) = true :=
  ⟨witness (by decide +kernel), by decide +kernel⟩

/-- An object completion whose object's line is poisoned, and one whose line is not. -/
theorem witness_PoisonedObject : ∃ o, copying.ops.head? = some o ∧ o.drec = 0 ∧ o.tsp = false ∧
    onPageAt { copying with poison := [lineOf 0x14000] } (opEnv copying o) { o with cw := false }.target byteWrite false 0x14000 false = true ∧
    { o with cw := false }.cw = false ∧ lineOf 0x14000 ∈ ({ copying with poison := [lineOf 0x14000] } : State).poison :=
  exists_of (by decide +kernel)

/-- A held restore whose records can be read, one whose record's page is not present, and one on a poisoned line. -/
def savedTo (area : W64) : State := setCtx savedAway { getCtx savedAway 0 with save := area }
def answerOf (s : State) : Nat := match (admitReads s 0).2 with
  | .ok _ => 0
  | .absent _ => 1
  | .fault _ _ _ => 2
theorem witness_RestoreReads : answerOf savedAway = 0 ∧ (readmitAll 0 (getCtx savedAway 0).savedTeams (admitReads savedAway 0).1).isSome = true
    ∧ answerOf (savedTo 0x40000000) = 1 ∧ answerOf { savedTo 0x20000 with poison := [lineOf 0x20000] } = 2 := by
  decide +kernel

/-- A record node whose port 3 has no edge into it. -/
theorem witness_NoEdge : ∃ F, Issues (inGraph (recordGraph 2 false) placedBlock) F (.rget (only0 { z with d := 8, c := 2, immForm := true, imm32 := 3 })) ∧ F.quiet ∧ F.calm ∧
    activeOf F (only0 z) = laneBit 0 ∧
    ((recordNode (inGraph (recordGraph 2 false) placedBlock) F.g).any fun p => p.2 = 1 && (inEdge p.1 1 (portOf placed F.g { z with immForm := true, imm32 := 3 } 0)).isNone) = true := witness (by decide +kernel)

/-- Timers of groups that are resident; a saved context, whose nodes keep their states. -/
theorem witness_SavedContext :
    ((getGroup placed gid).any fun g => decide (g.st ≠ .exited ∧ g.st ≠ .saved)) = true
    ∧ ctxSaved savedAway 0 = true ∧ ctxSaved placed 0 = false
    ∧ ((getGraph { savedAway with graphs := [idleGraph] } 5).any fun g => ctxSaved { savedAway with graphs := [idleGraph] } g.ctx) = true := by
  decide +kernel

/-- A late record of a frame that is closed, and one of a frame that is due to be closed. -/
theorem witness_LateRecords :
    closeDue (netState true 0) (remoteEdge false) { getFrame (remoteEdge false) 1 with closed := true } = false
    ∧ closeDue { netState true 0 with now := 0xFFFFFFFFFFFFFFFF } (remoteEdge false) (getFrame (remoteEdge false) 1) = true
    ∧ (getRemote (netState true 0) 5 0).isSome = true := by decide +kernel
end Sys2Proof.Tests
end

section
/-! SUPPORT. What the accesses, logs and queues of Bronze leave alone: teams, contexts that are FAULTED, and the poison of lines
that no write rewrites whole (R209, R257, R259, R277, R469, R470). -/

namespace Sys2Proof.Machine

/-! ## Teams and contexts that stay as they are -/

/-- The teams and the contexts are the same. -/
structure SameTenants (s t : State) : Prop where
  teams : t.teams = s.teams
  ctxs : t.ctxs = s.ctxs

theorem SameTenants.refl (s : State) : SameTenants s s := ⟨rfl, rfl⟩

theorem SameTenants.trans {s t u : State} (h : SameTenants s t) (k : SameTenants t u) : SameTenants s u :=
  ⟨k.teams.trans h.teams, k.ctxs.trans h.ctxs⟩

theorem SameTenants.of_accessFrame {s t : State} (h : AccessFrame s t) : SameTenants s t := by
  have rest := h.rest
  exact ⟨by rw [rest], by rw [rest]⟩

/-- What starts from a state of the same teams and contexts. -/
theorem SameTenants.of_eq {s t u : State} (h : SameTenants t u) (teams : t.teams = s.teams) (ctxs : t.ctxs = s.ctxs) :
    SameTenants s u :=
  .trans ⟨teams, ctxs⟩ h

/-- A fold whose every step keeps teams and contexts keeps them. -/
theorem sameTenants_foldl {α : Type} (f : State → α → State) (hf : ∀ s x, SameTenants s (f s x)) (l : List α) (s : State) :
    SameTenants s (l.foldl f s) :=
  foldl_state SameTenants SameTenants.refl SameTenants.trans f hf l s

theorem sameTenants_owe (s : State) (i : Instr) : SameTenants s (owe s i) := ⟨owe_teams s i, owe_ctxs s i⟩

theorem sameTenants_setPart (s : State) (p : Partition) : SameTenants s (setPart s p) := ⟨rfl, rfl⟩

theorem sameTenants_tlb (s : State) (l : List TlbEntry) : SameTenants s { s with tlb := l } := ⟨rfl, rfl⟩

theorem sameTenants_setQueue (s : State) (x : Queue) : SameTenants s (setQueue s x) := ⟨rfl, rfl⟩

theorem sameTenants_freeNat (s : State) : SameTenants s (freeNat s).2 := ⟨rfl, rfl⟩

theorem sameTenants_setClk (s : State) (core : Option Nat) (part : Nat) (clk : BitVec 48) :
    SameTenants s (setClk s core part clk) := by
  cases core <;> exact ⟨rfl, rfl⟩

/-! ## Writes at the home, by any agent -/

/-- What holds of every lease step and every clock that is set holds of the stamping of a write's lines. -/
theorem stampLines_state (P : State → State → Prop) (hr : ∀ s, P s s) (ht : ∀ {a b c}, P a b → P b c → P a c)
    (core : Option Nat) (h1 : ∀ s host p line clk, P s (leaseStore s host p line clk).1)
    (h2 : ∀ s p clk, P s (setClk s core p clk)) (s : State) (host : Bool) (line n : Nat) :
    P s (stampLines s core host line n) := by
  induction n generalizing s line with
  | zero => exact hr s
  | succ n ih => exact ht (stampLine_state P hr ht core h1 h2 s host line) (ih _ _)

theorem sameTenants_devWrite (s : State) (host : Bool) (pa : Nat) (bs : List Byte) : SameTenants s (devWrite s host pa bs) :=
  (SameTenants.of_accessFrame (frame_putBytes s host pa bs)).trans
    (stampLines_state SameTenants SameTenants.refl SameTenants.trans none
      (fun s host p line clk => .of_accessFrame (frame_leaseStore s host p line clk))
      (fun s p clk => sameTenants_setClk s none p clk) _ _ _ _)

theorem sameTenants_homeRead (s : State) (core : Option Nat) (lease : Nat) (host : Bool) (pa n : Nat) :
    SameTenants s (homeRead s core lease host pa n).1 := by
  unfold homeRead
  refine sameTenants_foldl _ (fun s p => ?_) _ s
  exact (SameTenants.of_accessFrame (frame_leaseLoad s host p (lineOf pa) lease (clkOf s core p))).trans
    (sameTenants_setClk _ core p _)

theorem sameTenants_drainWhere (s : State) (core : Nat) (p : GrpStore → Bool) : SameTenants s (drainWhere s core p) := by
  unfold drainWhere
  refine (sameTenants_foldl _ (fun s g => ?_) _ _).of_eq rfl rfl
  exact .of_accessFrame ((frame_portTransfer s g.ctx g.pa g.bytes.length).trans (frame_homeWrite _ core false g.pa g.bytes))

theorem leaseStore_poison (s : State) (host : Bool) (part line : Nat) (clk : BitVec 48) :
    (leaseStore s host part line clk).1.poison = s.poison := by
  have h : (holdHostLine s host line).poison = s.poison := by unfold holdHostLine; split <;> rfl
  cases host <;> exact h

/-- A write shorter than a line rewrites no line whole. -/
theorem unpoison_short (s : State) (pa n : Nat) (h : n < 128) : (unpoison s false pa n).poison = s.poison := by
  show s.poison.filter _ = s.poison
  refine List.filter_eq_self.mpr fun l _ => ?_
  simp only [Bool.not_eq_true', Bool.and_eq_false_iff, decide_eq_false_iff_not]
  omega

theorem owe_if_poison (b : Bool) (s : State) (i : Instr) : (if b then owe s i else s).poison = s.poison := by
  cases b
  · rfl
  · exact owe_poison s i

theorem putBytes_poison (s : State) (pa : Nat) (bs : List Byte) :
    (putBytes s false pa bs).poison = (unpoison s false pa bs.length).poison := by
  unfold putBytes
  exact foldl_state (fun s t => t.poison = s.poison) (fun _ => rfl) (fun a b => b.trans a) _
    (fun _ _ => owe_if_poison _ _ _) _ _

theorem devWrite_poison_of_short (s : State) (pa : Nat) (bs : List Byte) (h : bs.length < 128) :
    (devWrite s false pa bs).poison = s.poison := by
  have stamps (u : State) (n : Nat) : (stampLines u none false (lineOf pa) n).poison = u.poison :=
    stampLines_state (fun s t => t.poison = s.poison) (fun _ => rfl) (fun a b => b.trans a) none
      leaseStore_poison (fun _ _ _ => rfl) u false _ n
  calc (devWrite s false pa bs).poison
      = (putBytes s false pa bs).poison := stamps _ _
    _ = (unpoison s false pa bs.length).poison := putBytes_poison s pa bs
    _ = s.poison := unpoison_short s pa _ h

/-! ## The error logs (R259) -/

theorem logEntryBytes_length (seq : Nat) (cause : BitVec 8) (core ctx : Nat) (time vaddr : W64) (paddr : Nat) :
    (logEntryBytes seq cause core ctx time vaddr paddr).length = 32 := by
  simp [logEntryBytes, leBytes_length]

theorem logPartition_poison (s : State) (part ctx : Nat) (cause : BitVec 8) (core : Option Nat) (vaddr : W64) (paddr : Nat) :
    (logPartition s part ctx cause core vaddr paddr).poison = s.poison :=
  devWrite_poison_of_short _ _ _ (by rw [logEntryBytes_length]; decide)

theorem sameTenants_logPartition (s : State) (part ctx : Nat) (cause : BitVec 8) (core : Option Nat) (vaddr : W64) (paddr : Nat) :
    SameTenants s (logPartition s part ctx cause core vaddr paddr) :=
  (sameTenants_devWrite _ _ _ _).of_eq rfl rfl

/-! ## Translation (R363 to R369) -/

theorem sameTenants_withdrawLdfs (s : State) (part : Nat) (i : Invalidation) : SameTenants s (withdrawLdfs s part i) := by
  unfold withdrawLdfs
  refine (sameTenants_foldl _ (fun s gid => ?_) _ _).of_eq rfl rfl
  split
  · exact (sameTenants_owe _ _).of_eq rfl rfl
  · exact SameTenants.refl s

theorem sameTenants_completeInvalidation (s : State) (part : Nat) : SameTenants s (completeInvalidation s part) := by
  unfold completeInvalidation
  split
  next => exact SameTenants.refl s
  next i r h =>
    have drained := sameTenants_foldl (fun s (k : Core) => drainWhere s k.id fun _ => true)
      (fun s k => sameTenants_drainWhere s k.id _) (s.cores.filter fun k => coreIn (getPart s part) k.id) s
    have withdrawn := drained.trans (sameTenants_withdrawLdfs _ part i)
    exact ⟨withdrawn.teams, withdrawn.ctxs⟩

theorem sameTenants_awaitInvalidations (s : State) (core : Option Nat) (die part : Nat) (asid : BitVec 16) (va : W64) :
    SameTenants s (awaitInvalidations s core die part asid va) :=
  sameTenants_foldl _ (fun s _ => by
    dsimp only
    split
    · exact sameTenants_completeInvalidation s part
    · exact SameTenants.refl s) _ s

theorem sameTenants_walkerWalk (s : State) (die : Nat) (part : Partition) (asid : BitVec 16) (root va : W64) :
    SameTenants s (walkerWalk s die part asid root va).1 := by
  unfold walkerWalk
  split <;> exact ⟨rfl, rfl⟩

theorem sameTenants_findLeaf (s : State) (die : Nat) (part : Partition) (asid : BitVec 16) (root va : W64)
    (bits : Nat → W64 → W64) : SameTenants s (findLeaf s die part asid root va bits).1 := by
  unfold findLeaf
  dsimp only
  split
  · split
    · exact ⟨rfl, rfl⟩
    · exact (sameTenants_walkerWalk _ _ _ _ _ _).of_eq rfl rfl
  · exact sameTenants_walkerWalk _ _ _ _ _ _

/-- The entry that a leaf's page goes by: its own, or its CONTIG group's (R363). -/
theorem sameTenants_ownLeaf (s : State) (contig : Prop) [Decidable contig] (pa : Nat) (e : W64) :
    SameTenants s (if contig then contigLeaf s pa e else (s, e)).1 := by
  unfold contigLeaf
  dsimp only
  split
  · split <;> exact ⟨rfl, rfl⟩
  · exact SameTenants.refl s

theorem sameTenants_postRequest (s : State) (core : Option Nat) (ctx : Context) (va : W64) (acc : PageAcc) (pa : Nat) (e : W64) :
    SameTenants s (postRequest s core ctx va acc pa e) := by
  unfold postRequest
  dsimp only
  split
  · exact SameTenants.refl s
  · split
    · exact ⟨rfl, rfl⟩
    · exact ((sameTenants_devWrite _ _ _ _).trans (sameTenants_devWrite _ _ _ _)).trans (sameTenants_setPart _ _)

/-- The entry of a leaf, with the marks that the access sets, where they are new (R364). -/
theorem sameTenants_mark (s : State) (old new : W64) (pa : Nat) (bs : List Byte) :
    SameTenants s (if new = old then s else devWrite s false pa bs) := by
  split
  · exact SameTenants.refl s
  · exact sameTenants_devWrite s false pa bs

theorem sameTenants_translate (s : State) (core : Option Nat) (die ctx : Nat) (va : W64) (acc : PageAcc) (post mark : Bool)
    (devOk : Nat → Bool) : SameTenants s (translate s core die ctx va acc post mark devOk).1 := by
  unfold translate
  dsimp only
  split
  · exact SameTenants.refl s
  · have found := fun bits => (sameTenants_awaitInvalidations s core die (getPart s (getCtx s ctx).part).pid
      (getCtx s ctx).asid va).trans (sameTenants_findLeaf _ die (getPart s (getCtx s ctx).part) (getCtx s ctx).asid
        (getCtx s ctx).root va bits)
    split
    next h => exact congrArg Prod.fst h ▸ found _
    next h =>
      have found := congrArg Prod.fst h ▸ found _
      split
      · exact found.trans (sameTenants_postRequest _ _ _ _ _ _ _)
      · exact found
    next level pa e h =>
      have found := congrArg Prod.fst h ▸ found _
      exact ((found.trans (sameTenants_ownLeaf _ _ pa e)).trans (sameTenants_mark _ _ _ pa _)).trans (sameTenants_tlb _ _)

end Sys2Proof.Machine
end

section
/-! SUPPORT. What Bronze does for queues: it starts and ends no team, and no context leaves FAULTED (R257, R277). -/

namespace Sys2Proof.Machine

/-- The teams are the same, and a context that was FAULTED still is. -/
structure FaultsStay (s t : State) : Prop where
  teams : t.teams = s.teams
  faulted : ∀ c, (getCtx s c).st = .faulted → (getCtx t c).st = .faulted

theorem FaultsStay.refl (s : State) : FaultsStay s s := ⟨rfl, fun _ h => h⟩

theorem FaultsStay.trans {s t u : State} (h : FaultsStay s t) (k : FaultsStay t u) : FaultsStay s u :=
  ⟨k.teams.trans h.teams, fun c x => k.faulted c (h.faulted c x)⟩

theorem getCtx_congr {s t : State} (h : t.ctxs = s.ctxs) (c : Nat) : getCtx t c = getCtx s c := by
  unfold getCtx; rw [h]

theorem getCtx_num (s : State) (c : Nat) : (getCtx s c).num = c := by
  unfold getCtx
  cases h : findBy Context.num c s.ctxs with
  | none => rfl
  | some x => exact findBy_key Context.num h

theorem SameTenants.faultsStay {s t : State} (h : SameTenants s t) : FaultsStay s t :=
  ⟨h.teams, fun c x => by rw [getCtx_congr h.ctxs]; exact x⟩

/-- A context put back FAULTED where it was FAULTED. -/
theorem faultsStay_setCtx (s : State) (c : Context) (h : (getCtx s c.num).st = .faulted → c.st = .faulted) :
    FaultsStay s (setCtx s c) := by
  refine ⟨rfl, fun k hk => ?_⟩
  by_cases e : k = c.num
  · subst e; rw [getCtx_setCtx]; exact h hk
  · have same : getCtx (setCtx s c) k = getCtx s k := by
      simp [getCtx, setCtx, findBy_putBy_ne Context.num c s.ctxs k e]
    rw [same]; exact hk

theorem faultsStay_foldl {α : Type} (f : State → α → State) (hf : ∀ s x, FaultsStay s (f s x)) (l : List α) (s : State) :
    FaultsStay s (l.foldl f s) :=
  foldl_state FaultsStay FaultsStay.refl FaultsStay.trans f hf l s

/-! ## Logs (R259) -/

theorem faultsStay_countEntry (s : State) (ctx n : Nat) : FaultsStay s (setCtx s { getCtx s ctx with logSeq := n }) :=
  faultsStay_setCtx s _ fun h => by rw [← getCtx_num s ctx]; exact h

theorem faultsStay_logContext (s : State) (ctx : Nat) (cause : BitVec 8) (core : Option Nat) (vaddr : W64) (paddr : Nat) :
    FaultsStay s (logContext s ctx cause core vaddr paddr) := by
  unfold logContext
  extract_lets c seq u va
  have counted : FaultsStay s u := faultsStay_countEntry s ctx seq
  split
  · exact FaultsStay.refl s
  · split
    · exact counted.trans ((sameTenants_mark _ _ _ _ _).trans (sameTenants_devWrite _ _ _ _)).faultsStay
    · exact counted

theorem faultsStay_logBoth (s : State) (ctx : Nat) (cause : BitVec 8) (core : Option Nat) (vaddr : W64) (paddr : Nat) :
    FaultsStay s (logBoth s ctx cause core vaddr paddr) :=
  (faultsStay_logContext s ctx cause core vaddr paddr).trans (sameTenants_logPartition _ _ _ _ _ _ _).faultsStay

/-! ## Bronze's accesses (R283) -/

theorem faultsStay_spaceAddr (s : State) (sp : Option Nat) (acc : PageAcc) (va : W64) : FaultsStay s (spaceAddr s sp acc va).1 := by
  unfold spaceAddr
  split
  · exact FaultsStay.refl s
  · next c =>
    have walked := (sameTenants_translate s none 0 c va acc false true fun _ => false).faultsStay
    split
    next h => rw [h] at walked; exact walked
    next h =>
      rw [h] at walked
      split
      · exact walked.trans (faultsStay_logBoth _ _ _ _ _ _)
      · exact walked
    next h => rw [h] at walked; exact walked

theorem faultsStay_logSpace (s : State) (sp : Option Nat) (cause : BitVec 8) (va : W64) (pa : Nat) :
    FaultsStay s (match sp with
      | some c => logBoth s c cause none va pa
      | none => s) := by
  cases sp
  · exact FaultsStay.refl s
  · exact faultsStay_logBoth s _ cause none va pa

theorem faultsStay_spaceReadFrom (sp : Option Nat) (fuel : Nat) (s : State) (va : W64) (n : Nat) :
    FaultsStay s (spaceReadFrom sp fuel s va n).1 := by
  induction fuel generalizing s va n with
  | zero => exact FaultsStay.refl s
  | succ fuel ih =>
    unfold spaceReadFrom
    dsimp only
    have addressed := faultsStay_spaceAddr s sp readAcc va
    split
    · exact FaultsStay.refl s
    · split
      next h => rw [h] at addressed; exact addressed
      next t host pa h =>
        rw [h] at addressed
        by_cases poisoned : (if host = true then t.hostPoison else t.poison).contains (lineOf pa) = true
        · rw [if_pos poisoned]
          exact addressed.trans (faultsStay_logSpace t sp 0x14 va pa)
        · rw [if_neg poisoned]
          have read := addressed.trans
            (sameTenants_homeRead t none ((sp.map fun c => (getCtx t c).lease).getD 64) host pa (min n (128 - va.toNat % 128))).faultsStay
          have rest := read.trans (ih _ (va + BitVec.ofNat 64 (min n (128 - va.toNat % 128))) (n - min n (128 - va.toNat % 128)))
          split
          next h => rw [h] at rest; exact rest
          next h => exact rest

theorem faultsStay_spaceWriteFrom (sp : Option Nat) (fuel : Nat) (s : State) (va : W64) (bs : List Byte) :
    FaultsStay s (spaceWriteFrom sp fuel s va bs) := by
  induction fuel generalizing s va bs with
  | zero => exact FaultsStay.refl s
  | succ fuel ih =>
    unfold spaceWriteFrom
    dsimp only
    have addressed := faultsStay_spaceAddr s sp writeAcc va
    split
    · exact FaultsStay.refl s
    · refine FaultsStay.trans ?_ (ih _ _ _)
      split
      next h => rw [h] at addressed; exact addressed
      next h =>
        rw [h] at addressed
        exact addressed.trans (sameTenants_devWrite _ _ _ _).faultsStay

theorem faultsStay_spaceWrite (s : State) (sp : Option Nat) (va : W64) (bs : List Byte) : FaultsStay s (spaceWrite s sp va bs) :=
  faultsStay_spaceWriteFrom sp _ s va bs

/-! ## Queues (R275, R277, R278, R280, R281) -/

theorem faultsStay_setQueue (s : State) (x : Queue) : FaultsStay s (setQueue s x) :=
  (sameTenants_setQueue s x).faultsStay

theorem faultsStay_postEvent (s : State) (x : Queue) (ev : Nat) (pkt : W32) (field : Nat) (addr1 addr2 : W64) :
    FaultsStay s (postEvent s x ev pkt field addr1 addr2) := by
  have held : FaultsStay s (match getPage s x.page with
      | some p => if p.err.getLsbD 0 then s else setPage s { p with err := errWord pkt x.q field ev }
      | none => s) := by
    split
    · split
      · exact FaultsStay.refl s
      · exact SameTenants.faultsStay ⟨rfl, rfl⟩
    · exact FaultsStay.refl s
  unfold postEvent
  dsimp only
  split
  · exact held
  · exact held.trans (faultsStay_spaceWrite _ _ _ _)

theorem sameTenants_oweSwap (s : State) : SameTenants s (oweSwap s) := by
  unfold oweSwap
  split
  · exact SameTenants.refl s
  · split
    · exact sameTenants_owe s _
    · split
      · exact sameTenants_owe s _
      · exact SameTenants.refl s

/-- Only a RUNNING context falls idle. -/
theorem faultsStay_ctxIdle (s : State) (ctx : Nat) : FaultsStay s (ctxIdle s ctx) := by
  unfold ctxIdle
  dsimp only
  split
  next h =>
    refine faultsStay_setCtx s _ fun faulted => ?_
    simp only [Bool.and_eq_true, decide_eq_true_eq] at h
    obtain ⟨⟨⟨⟨running, -⟩, -⟩, -⟩, -⟩ := h
    rw [getCtx_num, running] at faulted
    cases faulted
  next => exact FaultsStay.refl s

theorem faultsStay_spaceIdle (s : State) (sp : Option Nat) : FaultsStay s (spaceIdle s sp) := by
  cases sp
  · exact FaultsStay.refl s
  · exact faultsStay_ctxIdle s _

/-- A queue is put back, its space may fall idle, and a swap may be owed. -/
theorem faultsStay_settleQueue (s : State) (x : Queue) (sp : Option Nat) :
    FaultsStay s (oweSwap (spaceIdle (setQueue s x) sp)) :=
  ((faultsStay_setQueue s x).trans (faultsStay_spaceIdle _ sp)).trans (sameTenants_oweSwap _).faultsStay

theorem faultsStay_packetAt (s : State) (x : Queue) (i : W32) : FaultsStay s (packetAt s x i).1 := by
  have read : FaultsStay s (spaceRead s (x.space s) (packetAddr x i) 64).1 := faultsStay_spaceReadFrom _ _ s _ _
  unfold packetAt
  split
  next h => rw [h] at read; exact read
  next h => rw [h] at read; exact read

theorem faultsStay_advanceHead (s : State) (x : Queue) : FaultsStay s (advanceHead s x).1 := by
  have put := faultsStay_setQueue s { x with head := x.head + 1 }
  unfold advanceHead
  dsimp only
  split
  · exact put
  · exact put.trans (faultsStay_spaceWrite _ _ _ _)

theorem faultsStay_failPacket (s : State) (x : Queue) (field : Nat) (addr : W64) : FaultsStay s (failPacket s x field addr) :=
  ((faultsStay_advanceHead s x).trans (faultsStay_postEvent _ _ 1 x.head field addr 0)).trans (faultsStay_settleQueue _ _ _)

theorem faultsStay_oweNext (s : State) (page q : Nat) : FaultsStay s (oweNext s page q) := by
  have read := faultsStay_packetAt s (getQueue s page q) (getQueue s page q).head
  unfold oweNext
  dsimp only
  split
  · exact FaultsStay.refl s
  · split
    next t h =>
      rw [h] at read
      exact (FaultsStay.trans read (sameTenants_freeNat t).faultsStay).trans (faultsStay_failPacket _ _ _ _)
    next h =>
      rw [h] at read
      split
      · exact read.trans (sameTenants_owe _ _).faultsStay
      · split
        · exact read
        · exact read.trans (faultsStay_failPacket _ _ _ _)

theorem faultsStay_advanceQueue (s : State) (page q : Nat) : FaultsStay s (advanceQueue s page q) := by
  unfold advanceQueue
  dsimp only
  split
  · exact faultsStay_oweNext s page q
  · split
    · exact faultsStay_settleQueue s _ _
    · split
      · exact faultsStay_settleQueue s _ _
      · exact faultsStay_oweNext s page q

theorem faultsStay_completePackets (s : State) (x : Queue) (done : Started → Bool) : FaultsStay s (completePackets s x done) := by
  unfold completePackets
  split
  · exact (faultsStay_setQueue s _).trans (faultsStay_advanceQueue _ _ _)
  · exact FaultsStay.refl s

/-! ## Transitions of a context (R257, R277, R284) -/

theorem faultsStay_settleCtxOps (s : State) (ctx : Nat) (failed : Bool) : FaultsStay s (settleCtxOps s ctx failed) := by
  refine faultsStay_foldl _ (fun s x => ?_) _ s
  refine (faultsStay_foldl _ (fun s p => ?_) _ s).trans (faultsStay_completePackets _ _ _)
  split
  · exact faultsStay_spaceWrite _ _ _ _
  · exact FaultsStay.refl s

theorem faultsStay_postContextEvent (s : State) (x : Queue) (ev : Nat) : FaultsStay s (postContextEvent s x ev) :=
  ((sameTenants_freeNat s).trans (sameTenants_freeNat _)).faultsStay.trans (faultsStay_postEvent _ _ _ _ _ _ _)

theorem sameTenants_dropCopies (s : State) (x : Queue) : SameTenants s (dropCopies s x) := ⟨rfl, rfl⟩

theorem sameTenants_unwait (s : State) (x : Queue) : SameTenants s (unwait s x) := ⟨rfl, rfl⟩

theorem faultsStay_queuesFaulted (s : State) (ctx : Nat) : FaultsStay s (queuesFaulted s ctx) := by
  unfold queuesFaulted
  refine faultsStay_foldl _ (fun s x => ?_) _ s
  dsimp only
  split
  · have abandoned := (sameTenants_dropCopies (postContextEvent s x 3) x).trans (sameTenants_unwait _ x)
    exact (faultsStay_postContextEvent s x 3).trans
      ((abandoned.trans (sameTenants_setQueue _ _)).trans (sameTenants_oweSwap _)).faultsStay
  · exact FaultsStay.refl s

/-! ## The end of a context's teams (R257, R336) -/

theorem sameTenants_wakeLocked (s : State) : SameTenants s (wakeLocked s) :=
  sameTenants_foldl _ (fun s _ => sameTenants_owe s _) _ s

theorem sameTenants_drainGroup (s : State) (g : Group) : SameTenants s (drainGroup s g) := sameTenants_drainWhere s g.core _

theorem dropTeam_teams (s : State) (tid : Nat) : (dropTeam s tid).teams = s.teams.filter fun t => t.id != tid := by
  have drained := sameTenants_foldl drainGroup sameTenants_drainGroup
    (s.groups.filter fun g => g.team = tid) s
  refine (sameTenants_wakeLocked _).teams.trans ?_
  exact congrArg (List.filter fun t => t.id != tid) drained.teams

/-- Of teams dropped, one after another, none is left. -/
theorem mem_foldl_dropTeam {l : List Team} {s : State} {x : Team}
    (h : x ∈ (l.foldl (fun s t => dropTeam s t.id) s).teams) : x ∈ s.teams ∧ ∀ t ∈ l, x.id ≠ t.id := by
  induction l generalizing s with
  | nil => exact ⟨h, fun _ ht => nomatch ht⟩
  | cons t r ih =>
    obtain ⟨kept, others⟩ := ih h
    rw [dropTeam_teams, List.mem_filter] at kept
    refine ⟨kept.1, fun u hu => ?_⟩
    rcases List.mem_cons.mp hu with rfl | hu
    · simpa using kept.2
    · exact others u hu

theorem sameTeams_oweRuns (l : List Graph) (s : State) :
    (l.foldl (fun s gr => owe (setGraph s (abortNodes gr)) (.runEnd gr.num)) s).teams = s.teams := by
  refine (sameTenants_foldl _ (fun s gr => ?_) l s).teams
  exact (sameTenants_owe (setGraph s (abortNodes gr)) _).of_eq rfl rfl

/-- After a fatal fault the context is FAULTED, and no team of it is left. -/
theorem fatalContext_ends (s : State) (ctx : Nat) (cause : BitVec 8) (core : Option Nat) (eaddr : W64) :
    (∀ x ∈ (fatalContext s ctx cause core eaddr).teams, x.ctx ≠ ctx) ∧
      (getCtx (fatalContext s ctx cause core eaddr) ctx).st = .faulted := by
  obtain ⟨u, gone, result⟩ : ∃ u : State, (∀ x ∈ u.teams, x.ctx ≠ ctx) ∧ fatalContext s ctx cause core eaddr
      = settleCtxOps (queuesFaulted (setCtx u { getCtx u ctx with st := .faulted }) ctx) ctx false := by
    refine ⟨_, fun x hx own => ?_, rfl⟩
    rw [sameTeams_oweRuns] at hx
    obtain ⟨there, apart⟩ := mem_foldl_dropTeam hx
    exact apart x (List.mem_filter.mpr ⟨there, by simpa using own⟩) rfl
  have settled := (faultsStay_queuesFaulted (setCtx u { getCtx u ctx with st := .faulted }) ctx).trans
    (faultsStay_settleCtxOps _ ctx false)
  have put := getCtx_setCtx u { getCtx u ctx with st := .faulted }
  rw [show ({ getCtx u ctx with st := .faulted } : Context).num = ctx from getCtx_num u ctx] at put
  rw [result]
  exact ⟨fun x hx => gone x (settled.teams ▸ hx), settled.faulted ctx (by rw [put])⟩
end Sys2Proof.Machine
end

section
/-! O51. Start-up and its stops, readings and trips, power periods, and soft errors: what each event leaves (R13, R309, R465 to
R470, R476). -/

namespace Sys2Proof.Machine

/-! ## Start-up (R13, R465, R476) -/

theorem exec_fuseLoad_good {s : State} (hs : s.stage = 1) (h : ∀ d < 4, goodBinding d = true) :
    exec .fuseLoad s = .next { s with stage := 2, binding := bindingTables } := by
  have none_bad : ((List.range 4).find? fun d => !goodBinding d) = none := by
    simpa [List.find?_eq_none] using h
  simp [exec, execFuseLoad, hs, none_bad]

/-- A die whose fuses name no 512 good cores stops start-up. -/
theorem exec_fuseLoad_bad {s : State} (hs : s.stage = 1) (h : ∃ d < 4, goodBinding d = false) :
    ∃ d < 4, goodBinding d = false ∧ exec .fuseLoad s = .next (stopModule s 0x01 (BitVec.ofNat 2 d)) := by
  obtain ⟨bad, hbad, hfuses⟩ := h
  cases found : (List.range 4).find? fun d => !goodBinding d with
  | none =>
    have := List.find?_eq_none.mp found bad (List.mem_range.mpr hbad)
    simp [hfuses] at this
  | some d =>
    refine ⟨d, List.mem_range.mp (List.mem_of_find?_eq_some found), by simpa using List.find?_some found, ?_⟩
    simp [exec, execFuseLoad, hs, found]

theorem exec_channelTraining_fails {s : State} {die : Nat} (hs : s.stage = 2) (hd : die = s.trained.length) :
    exec (.channelTraining die false) s = .next (stopModule s 0x02 (BitVec.ofNat 2 die)) := by
  simp [exec, execChannelTraining, hs, hd]

/-- The fourth die's training ends the stage. -/
theorem exec_channelTraining_passes {s : State} {die : Nat} (hs : s.stage = 2) (hd : die = s.trained.length) :
    exec (.channelTraining die true) s
      = .next { s with trained := s.trained ++ [die], stage := if die = 3 then 3 else s.stage } := by
  have run : exec (.channelTraining die true) s = .next (if (s.trained ++ [die]).length = 4
      then { s with trained := s.trained ++ [die], stage := 3 } else { s with trained := s.trained ++ [die] }) := by
    simp [exec, execChannelTraining, hs, ← hd]
  have last : (s.trained ++ [die]).length = 4 ↔ die = 3 := by simp [hd]
  rw [run]
  by_cases fourth : die = 3
  · rw [if_pos (last.mpr fourth), if_pos fourth]
  · rw [if_neg (mt last.mp fourth), if_neg fourth]

theorem exec_memoryZero {s : State} (hs : s.stage = 3) :
    exec .memoryZero s = .next { s with stage := 4, mem := [], poison := [] } := by
  simp [exec, execMemoryZero, hs]

/-- An array that lists one value at some keys reads it there. -/
theorem sget_map_const {w : Nat} (l : List Nat) (v : BitVec w) (k : Nat) :
    sget (l.map fun j => (j, v)) k = if k ∈ l then v else 0 := by
  induction l with
  | nil => rfl
  | cons j r ih =>
    by_cases e : j = k
    · subst e; simp [sget]
    · simp [sget, e, ih, Ne.symm e]

theorem partitionZero_homes (k : Nat) : sget partitionZero.homes k = if k < 768 then 0xC0 else 0 := by
  unfold partitionZero
  rw [sget_map_const]
  simp only [List.mem_range]

theorem exec_firmwareLoad_fails {s : State} (hs : s.stage = 4) : exec (.firmwareLoad false) s = .next (stopModule s 0x03 0) := by
  simp [exec, execFirmwareLoad, hs]

theorem exec_firmwareLoad_passes {s : State} (hs : s.stage = 4) :
    exec (.firmwareLoad true) s = .next (setPart { s with
      stage := 5, mem := writeBytes (writeBytes s.mem 0xBFFFFFC000 homingBytes) 0xBFFFFFB000 (List.replicate 4096 0) }
      partitionZero) := by
  show execFirmwareLoad true s = _
  unfold execFirmwareLoad
  rw [if_neg (by simp [hs]), if_neg (by simp)]

theorem exec_macEnable {s : State} (hs : s.stage = 5) :
    exec .macEnable s = .next { s with stage := 6, links := s.links.map fun (l : Link) => { l with en := false } } := by
  simp [exec, execMacEnable, hs]

/-! ## Sensors and the power controller (R309, R467, R468) -/

theorem takeReadings_mem (rs : List (Nat × BitVec 8 × BitVec 8)) (s : State) : (takeReadings rs s).mem = s.mem := by
  unfold takeReadings
  exact foldl_state (fun s t => t.mem = s.mem) (fun _ => rfl) (fun a b => b.trans a) _ (fun _ _ => setCore_mem _ _) rs s

theorem takeReadings_cons (r : Nat × BitVec 8 × BitVec 8) (rs : List (Nat × BitVec 8 × BitVec 8)) (s : State) :
    takeReadings (r :: rs) s = takeReadings rs (setCore s { getCore s r.1 with temp := r.2.1, droop := r.2.2 }) := rfl

/-- A core with no new reading stays as it is. -/
theorem getCore_takeReadings_of_notMem {rs : List (Nat × BitVec 8 × BitVec 8)} {s : State} {c : Nat}
    (h : c ∉ rs.map Prod.fst) : getCore (takeReadings rs s) c = getCore s c := by
  induction rs generalizing s with
  | nil => rfl
  | cons r rs ih =>
    simp only [List.map_cons, List.mem_cons, not_or] at h
    rw [takeReadings_cons, ih h.2, getCore_setCore_eq, if_neg (by simpa [getCore_id] using h.1)]

theorem takeReadings_reading {rs : List (Nat × BitVec 8 × BitVec 8)} {s : State} (h : (rs.map Prod.fst).Nodup)
    {r : Nat × BitVec 8 × BitVec 8} (hr : r ∈ rs) :
    (getCore (takeReadings rs s) r.1).temp = r.2.1 ∧ (getCore (takeReadings rs s) r.1).droop = r.2.2 := by
  induction rs generalizing s with
  | nil => cases hr
  | cons q rs ih =>
    obtain ⟨fresh, rest⟩ := List.nodup_cons.mp h
    rcases List.mem_cons.mp hr with rfl | hr
    · rw [takeReadings_cons, getCore_takeReadings_of_notMem fresh, getCore_setCore_eq, if_pos (getCore_id s r.1).symm]
      exact ⟨rfl, rfl⟩
    · exact ih rest hr

theorem exec_thermalTrip {s : State} {core : Nat} (h : tripHeat s core = true) :
    exec (.thermalTrip core) s = .next (stopModule s 0x04 0) := by
  simp [exec, execThermalTrip, h]

theorem exec_sensorResample (rs : List (Nat × BitVec 8 × BitVec 8)) (s : State) :
    exec (.sensorResample rs) s = .next (if ∃ c ∈ (takeReadings rs s).cores, tripHeat (takeReadings rs s) c.id = true
      then stopModule (takeReadings rs s) 0x04 0 else takeReadings rs s) :=
  congrArg Host.Outcome.next (ite_congr (propext List.any_eq_true) (fun _ => rfl) fun _ => rfl)

/-- The state at the end of a power period, where no domain has been over its budget too long (R467). -/
def afterPeriod (s : State) (p : PowerReading) (pick : Nat) : State :=
  { s with
    free := s.free + 1
    tempmax := BitVec.ofNat 8 (((List.range 4).flatMap (dieHeats s)).foldl max 0)
    dies := s.dies.zipIdx.map (settleDie s (steppedClocks s p pick))
    overRuns := overCounts { s with free := s.free + 1 } p }

theorem exec_powerPeriod (p : PowerReading) (s : State) :
    exec (.powerPeriod p) s = .next (if ∃ n ∈ overCounts { s with free := s.free + 1 } p, 16 ≤ n
      then stopModule (afterPeriod s p (freeNat s).1) 0x06 0 else afterPeriod s p (freeNat s).1) :=
  congrArg Host.Outcome.next (ite_congr (by simp only [List.any_eq_true, decide_eq_true_eq]) (fun _ => rfl) fun _ => rfl)

/-! ## Soft errors (R469, R470) -/

theorem exec_patrolScrub_clean {s : State} {line : Nat} (h : 128 * line < moduleSize) : exec (.patrolScrub line false) s = .next s := by
  simp [exec, execPatrolScrub, Nat.not_le.mpr h]

theorem mem_poisonLine (s : State) (line l : Nat) : l ∈ (poisonLine s line).poison ↔ l ∈ s.poison ∨ l = line := by
  show l ∈ (if s.poison.contains line then s.poison else s.poison ++ [line]) ↔ _
  split
  next h =>
    have : line ∈ s.poison := by simpa using h
    constructor
    · exact .inl
    · rintro (h | rfl)
      · exact h
      · exact this
  next => simp

/-- The log entry that the scrub writes takes no poison away. -/
theorem exec_patrolScrub_error {s : State} {line : Nat} (h : 128 * line < moduleSize) :
    ∃ t, exec (.patrolScrub line true) s = .next t ∧ ∀ l, l ∈ t.poison ↔ l ∈ s.poison ∨ l = line := by
  have run : exec (.patrolScrub line true) s = .next (logPartition (poisonLine (freeNat s).2 line)
      ((holder (freeNat s).2 (128 * line)).getD 0) ((freeNat s).1 % 4096) 0x14 none 0 (128 * line)) := by
    simp [exec, execPatrolScrub, Nat.not_le.mpr h]
  refine ⟨_, run, fun l => ?_⟩
  rw [logPartition_poison]
  exact mem_poisonLine _ line l

theorem exec_uncorrectableError_line {s : State} {line : Nat} (h : 128 * line < moduleSize) :
    exec (.uncorrectableError (.line line)) s = .next { s with
      poison := if line ∈ s.poison then s.poison else s.poison ++ [line]
      cores := s.cores.map fun k => { k with l1 := k.l1.filter fun c => c.line != line }
      rdc := s.rdc.filter fun e => e.2.line != line } := by
  simp [exec, execUncorrectableError, Nat.not_le.mpr h, poisonLine]

theorem exec_uncorrectableError_team {s : State} {t : Team} (h : getTeam s t.id = some t) :
    ∃ u, exec (.uncorrectableError (.team t.id)) s = .next u ∧ (∀ x ∈ u.teams, x.ctx ≠ t.ctx) ∧ (getCtx u t.ctx).st = .faulted := by
  refine ⟨_, by simp only [exec, execUncorrectableError, h]; rfl, fatalContext_ends _ _ _ _ _⟩

/-! ## The statement -/

/-- Settles O51, event by event: each one's equation, and for a team's error that a fatal fault ends the context's teams. -/
theorem startUpAndPower : Obligations.StartUpAndPower := by
  unfold Obligations.StartUpAndPower
  refine ⟨fun s => ⟨rfl, fun hs => ⟨exec_fuseLoad_good hs, exec_fuseLoad_bad hs⟩,
      fun die hs hd => ⟨exec_channelTraining_fails hs hd, exec_channelTraining_passes hs hd⟩, exec_memoryZero,
      fun hs => ⟨exec_firmwareLoad_fails hs, _, exec_firmwareLoad_passes hs, ?_⟩, exec_macEnable, fun e d => ?_⟩,
    fun s => ⟨rfl, fun _ => exec_thermalTrip, fun rs hrs => ?_, fun p => ⟨_, exec_powerPeriod p s⟩, rfl, fun line hl => ?_,
      fun t ht => exec_uncorrectableError_team ht⟩,
    fun s e d h => ⟨rfl, rfl, h⟩⟩
  · have zero (u : State) : getPart (setPart u partitionZero) 0 = partitionZero := getPart_setPart u partitionZero
    simp only [zero]
    exact ⟨rfl, rfl, rfl, rfl, rfl, rfl, fun k _ => partitionZero_homes k, by rw [setPart_mem]⟩
  · exact ⟨rfl, rfl, rfl, rfl, rfl, rfl⟩
  · exact ⟨takeReadings rs s, takeReadings_mem rs s, fun r hr => takeReadings_reading hrs hr, exec_sensorResample rs s⟩
  · obtain ⟨t, run, poison⟩ := exec_patrolScrub_error hl
    exact ⟨exec_patrolScrub_clean hl, ⟨t, run, (poison line).mpr (.inr rfl), fun l hm => (poison l).mpr (.inl hm)⟩,
      exec_uncorrectableError_line hl⟩
end Sys2Proof.Machine
end
